-- ==== Sys2Proof/Word.lean ====
section
/-! DEFINITION. The word types of the KS-480: bytes, 32-bit registers and 64-bit fields. -/

namespace Sys2Proof

/-- A byte of a frame, a value or a descriptor. -/
abbrev Byte := BitVec 8

/-- A register (every register is 32 bits wide, *Register Map*). -/
abbrev Word := BitVec 32

/-- A 64-bit field: key digests, tether counters, ARG and INFO words. -/
abbrev DWord := BitVec 64

end Sys2Proof
end

