-- ==== Sys2Proof/Syntax.lean ====
section
/-! DEFINITION. The commands of the KS-480: one constructor of `Instr` per row of spec/opcode_table.json, with the
operands the step takes from outside the device (a frame, a register access, a sample, the outcome of a NAND
operation) or, for a step of an outstanding command, the command's identifier. -/

namespace Sys2Proof

/-- An access path to the register map (R861). -/
inductive Path where
  | pcie
  | pliop
  | link (n : Nat)
deriving DecidableEq, Repr

/-- The four virtual channels of a link (R144). -/
inductive Vc where
  | req
  | data
  | rsp
  | urg
deriving DecidableEq, Repr

/-- The symbol errors one loft granule shows when it is read: symbol position (0-67, R650) and the error added to that
symbol. `hard`: the verifying read after a rewrite still shows an error (R678). `spareBad`: the spare row of a remap
shows an error in the same symbol position (R680). -/
structure LoftFault where
  stall : Nat
  granule : Nat
  errs : List (Nat × Byte)
  hard : Bool
  spareBad : Bool
deriving DecidableEq, Repr

/-- What the medium shows a step that reads a loft or searches a CAM. -/
inductive Finding where
  /-- symbol errors of one granule -/
  | loft (f : LoftFault)
  /-- a CAM entry whose parity fails (R509) -/
  | camParity (stall index : Nat)
deriving DecidableEq, Repr

/-- Why the link layer discards a frame (R134, R138, R199). -/
inductive Discard where
  | badCrc
  | badBlock
  | tooLong
  | badSeq (seq : Nat)
deriving DecidableEq, Repr

/-- Credits or cumulative credit counts of the four virtual channels. -/
structure Cred where
  req : Nat
  data : Nat
  rsp : Nat
  urg : Nat
deriving DecidableEq, Repr

/-- The levels of the straps at the rising edge of RESET_N (R768). -/
structure Straps where
  boot : Nat
  nowarm : Bool
  pexEn : Bool
deriving DecidableEq, Repr

/-- The types of die (R81). -/
inductive DieType where
  | barn
  | yard
  | gatehouse
deriving DecidableEq, Repr

/-- What discovery finds at one die site (R778): whether any bundle answers within 10 ms, the type and the site code that the die
reports (R912), its identifier, the capability word of a gatehouse (R179), and whether the SCLK and DCLK PLLs of a barn lock within
1 ms. -/
structure DieReport where
  answers : Bool
  dieType : DieType
  site : Nat
  dieId : Nat
  ghcap : Word
  locks : Bool
deriving DecidableEq, Repr

/-- The failing lanes lane training finds on one bundle (R781): numbers 0-67 per direction. -/
structure LaneReport where
  bundle : Nat
  failIn : List Nat
  failOut : List Nat
deriving DecidableEq, Repr

/-- The pins, or groups of pins that act together, of the tables of R903 and R909. -/
inductive Pin where
  | resetN
  | perstN
  | nandCe (channel target : Nat)
  | nandWp
  | nandOther (channel : Nat)
  | xspiResetN
  | xspiOther
  | pliopOut
  | alertN
  | critN
  | devReady
  | linkTx (link : Nat)
  | pcieTx
deriving DecidableEq, Repr

/-- What a pin shows: a driven level, released or high impedance, electrical idle, the traffic of its unit, or nothing that the spec
defines. -/
inductive PinLevel where
  | high
  | low
  | released
  | idle
  | active
  | undefined
deriving DecidableEq, Repr

/-- What a TAP instruction selects (R908, R909). -/
inductive ScanOp where
  | bypass
  | idcode
  | sample
  | extest
  | extestPulse
  | extestTrain
deriving DecidableEq, Repr

/-- A NAND population that meets R546, as its parameter pages give it: targets per channel, rate code (R548), LUNs and
planes codes, program unit u, pages per block, array read time in ns. -/
structure Population where
  targets : Nat
  rate : Nat
  luns : Nat
  planes : Nat
  unit : Nat
  pages : Nat
  tReadNs : Nat
deriving DecidableEq, Repr

/-- A TAP instruction as the port sees it: what its code selects, and what has been shifted into the boundary-scan register for it. -/
structure ScanLoad where
  op : ScanOp
  cells : List (Pin × PinLevel)
deriving DecidableEq, Repr

/-- What one bring-up step reports when it completes (R765): its duration in ms and its findings. -/
inductive StepReport where
  | straps (ms : Nat)
  /-- a fuse word was uncorrectable (R769) -/
  | fuses (ms : Nat) (uncorrectable : Bool)
  /-- whether the SFDP table lists 8D-8D-8D at 200 MHz (R774), which images carry a good header and CRC (R776), and the version of
  the one that boots -/
  | boot (ms : Nat) (octal goodA goodB : Bool) (major minor : Byte)
  | discover (ms : Nat) (dies : List DieReport)
  | repair (ms : Nat) (lanes : List LaneReport)
  /-- stalls that cannot calibrate with the first failing layer (R785), stalls retrained in full after a failed
  verification (R793), and the NAND population, `none` when R546 is broken (R791) -/
  | train (ms : Nat) (failed : List (Nat × Nat)) (retrained : List Nat) (nand : Option Population) (fitted : Bool)
  | fill (ms : Nat)
  /-- `tornLogs`: logical blocks whose log scan met a torn stripe; `units`: journal units that were being programmed when the
  shed stopped and are found whole (R592) -/
  | shed (ms : Nat) (tornLogs : List Nat) (units : Nat)
  | check (ms : Nat)
deriving DecidableEq, Repr

/-- The kinds of muck-out merge (R582). -/
inductive MergeCause where
  | logFull (lblk : Nat)
  | tooManyLogs
  | lowFree (group : Nat)
  | journal (sblk : Nat)
  | wear (group : Nat)
  | closedLog (lblk : Nat)
deriving DecidableEq, Repr

/-- The commands of the KS-480, one constructor per row of spec/opcode_table.json, in the table's order. `c` is the
identifier of an outstanding command, `frame` the bytes of an accepted frame, `f` what the media show. -/
inductive Instr where
  | nop (c : Nat)
  | get (c : Nat) (f : List Finding)
  | getRange (c : Nat) (f : List Finding)
  | shapeGet (c : Nat) (f : List Finding)
  | existsKey (c : Nat) (f : List Finding)
  | scanPfx (c : Nat) (f : List Finding)
  | scanDigest (c : Nat) (f : List Finding)
  | gather (c : Nat) (f : List Finding)
  | scoreTopk (c : Nat) (f : List Finding)
  | scoreTokens (c : Nat) (f : List Finding)
  | put (c : Nat) (f : List Finding)
  | putRange (c : Nat) (f : List Finding)
  | append (c : Nat) (f : List Finding)
  | delete (c : Nat) (f : List Finding)
  | flushSession (c : Nat)
  | flushQueue (c : Nat)
  | flushDevice (c : Nat)
  | tetherSet (c : Nat)
  | tetherAdd (c : Nat)
  | tetherWaitGe (c : Nat)
  | tetherRead (c : Nat)
  | paddockCreate (c : Nat)
  | paddockDelete (c : Nat)
  | paddockAlter (c : Nat)
  | paddockStat (c : Nat)
  | admitNext
  | complete (c : Nat)
  | waiterRelease
  | waitGeTimeout (c : Nat)
  | dataTimeout (c : Nat)
  | wbufAllocate
  | getOutputResume (c : Nat)
  | storageRelease (v : Nat)
  | urgentWindow
  | command (link : Nat) (vc : Vc) (frame : List Byte)
  | data (link : Nat) (vc : Vc) (frame : List Byte)
  | nudge (link : Nat) (vc : Vc) (frame : List Byte)
  | readData (link : Nat) (vc : Vc) (frame : List Byte)
  | config (link : Nat) (vc : Vc) (frame : List Byte)
  | reject (link : Nat) (vc : Vc) (frame : List Byte)
  | frameDiscard (link : Nat) (why : Discard)
  | nak (link : Nat) (seq : Nat)
  | ack (link : Nat) (seq : Nat) (freed : Cred)
  | down (link : Nat)
  | cap (link : Nat) (block : List Byte)
  | replayTimeout (link : Nat)
  | linkControlSend (link : Nat)
  | capSend (link : Nat)
  | pmdTrainingComplete (link : Nat)
  | alignLock (link : Nat)
  | trainTo (link : Nat)
  | alignTo (link : Nat)
  | capxTo (link : Nat)
  | linkRestart (link : Nat)
  | lockLost (link : Nat)
  | holdDeadline (ses : Nat)
  | flitNak (bundle : Nat) (dieBound : Bool) (seq : Nat)
  | notify (d : Nat)
  | ntimeExpiry (d : Nat)
  | sweep (d : Nat)
  | sessionOpen (p : Path) (ses : Nat) (pcie abort : Bool)
  | sessionClose (p : Path) (ses : Nat) (pcie abort : Bool)
  | qpEnable (p : Path) (d : Nat)
  | qpDisable (p : Path) (d : Nat)
  | sesNudge (p : Path) (ses qp : Nat)
  | retrain (p : Path) (link : Nat) (enable emode : Bool) (pattern : Nat)
  | linkEnable (p : Path) (link : Nat) (enable emode : Bool)
  | testpat (p : Path) (link : Nat) (enable emode : Bool) (pattern : Nat)
  | coordWrite (p : Path) (xyz : Word)
  | tetherRegSet (p : Path) (hi : Word)
  | shapeValidate (p : Path) (k : Nat)
  | shapeWithdraw (p : Path) (k : Nat)
  | commit (p : Path)
  | zeroise (p : Path) (andCommit : Bool)
  | shedFormat (p : Path) (key : Word)
  | formatComplete (formed : List Nat) (spares : List Nat)
  | ckptNow (p : Path) (wlEn : Bool)
  | wbufNextWrite (p : Path) (gib : Nat)
  | bruAccept (p : Path) (items : Nat)
  | storeNow (p : Path)
  | clrRemap (p : Path) (storeToo : Bool)
  | storedCopyWrite
  | mailboxRead (p : Path)
  | mailboxProgram (p : Path)
  | mailboxErase (p : Path)
  | mailboxDone (ok : Bool)
  | wmkEqPop (p : Path)
  | wmkClear (p : Path) (n : Nat) (up down : Bool)
  | clear (p : Path) (barns : Nat)
  | clkMeasSel (p : Path) (sel : Nat)
  | clkMeasDone (khz : Nat)
  | rcRead (p : Path) (off : Nat)
  | loRead (p : Path) (off : Nat)
  | latchGroupRead (p : Path) (off : Nat)
  | registerWrite (p : Path) (off : Nat) (v : Word)
  | pliopEnum (frame : List Byte)
  | pliopRead (frame : List Byte)
  | pliopWrite (frame : List Byte)
  | pliopBroadcastWrite (frame : List Byte)
  | pliopForward (frame : List Byte)
  | pliopNotice
  | pliopRelease
  | pcieReadCompletion (tag : Nat) (ok : Bool) (bytes : List Byte)
  | pcieLinkDown
  | busMasterEnable
  | pePerst (low : Bool)
  | resetAssert
  | resetRelease (straps : Straps)
  | bringupStepDone (r : StepReport)
  | supplyLoss
  | sensorSample (readings : List (Nat × Option Int))
  | hotHoldExit (barn : Nat)
  | barnResume (barn : Nat)
  | bandLower (barn layer : Nat)
  | powerEstimate
  | governorLower
  | sclkDclkUnlock (barn : Nat) (dclk : Bool)
  | nclkUnlock
  | peclkUnlock
  | groomerRun (stall layer : Nat) (f : List Finding)
  | pendingListService (stall : Nat) (f : List Finding)
  | bucketLeak (barn : Nat)
  | nandProgramDone (id : Nat) (failPos : Option Nat)
  | nandEraseDone (sblk : Nat) (failPos : Option Nat)
  | nandReadDone (id : Nat) (ok : Bool)
  | mergeStart (why : MergeCause)
  | programUnitFill (lblk : Nat)
  | ptrRecord (lblk : Nat)
  | checkpoint
  | stageWrite (pad : Nat) (key : List Byte)
  | prateUpdate
  | backgroundReload (pad : Nat) (key : List Byte) (seg : Nat)
  | residencyMove (pad : Nat) (key : List Byte) (seg : Nat)
  | entropyHealthFail (proportion : Bool)
  | entropyStartupPass
  | maskReseed
  | eventEnqueue
  | watermarkUp (n : Nat)
  | watermarkDown (n : Nat)
  | cmapPeriod
  | journalUnitPad
  | pcieLinkUp
  | busMasterDisable
  | storedCopyWritten (ok : Bool)
  | rejectedPacket (link : Nat) (vc : Vc) (frame : List Byte)
  | tapInstruction (ir : Byte) (scan : ScanLoad)
deriving DecidableEq, Repr

end Sys2Proof
end

