-- ==== Sys2Proof/Decode.lean ====
section
/-! DEFINITION. The commands of a block that spec/opcode_table.json gives bits. The table gives bits to none of its rows
(every row's "fields" is empty and none has a match or mask), so no word spells a command. -/

namespace Sys2Proof

/-- The command a word of `nbits` bits spells by the table's bits: none, because no row of the table has bits. -/
def decodeTableWord (_nbits _w : Nat) : Option Instr := none

end Sys2Proof
end

