-- ==== Sys2Proof/Config.lean ====
section
/-! DEFINITION. What the spec leaves open: free values (opaque constants with no body, assumption log 3) and the values the
model fixes where the spec gives none. -/

namespace Sys2Proof

/-- Values of the entropy source (R176, R602, R634): any 64 bits. A fresh index is drawn for every use. -/
opaque Config.entropy : Nat → DWord

/-- The 10 µs package power in W that the estimator computes (R733): the fused energies are not given. -/
opaque Config.powerEstimate : Nat → Nat

/-- Samples and counts of a congestion map (R852, R853): crossbar occupancy is not quantified by the spec. -/
opaque Config.cmapSample : Nat → Nat

/-- The bytes of output positions that overlap (R431): their final contents are undefined. -/
opaque Config.overlapByte : Nat → Byte

/-- The host program rate in MB/s that the shed sustains under the four muck-out shares (R587): no formula is given. -/
opaque Config.programRate : List Nat → Nat

/-- What the sequencer of a stall asks of a manger bank at a time (R530): a word of the bank, and the bytes it writes there, if it
writes. The spec gives no microcode (log 73). -/
opaque Config.seqAsk : Nat → Nat → Nat → Option (Nat × Option Nat)

/-- Where in the manger the microcode of a command puts a segment's bytes (log 73). -/
opaque Config.mangerPlace : Nat → Nat → Nat

/-- Bytes that reach the manger from the mesh port (R536): no rule gives a descriptor that brings any (log 73). -/
opaque Config.portByte : Nat → Byte

/-- Parity bytes of an LDPC codeword with the given data (R549): the code is not given. -/
opaque Config.ldpcParity : Nat → Nat → Byte

/-- The block that takes the place of a failed one at a position of a superblock (R563, R590): block addresses are the part's. -/
opaque Config.spareBlock : Nat → Nat → Nat

/-- Bytes of a stored training copy in the boot flash (R775): the training data is opaque to the spec. -/
opaque Config.trainingByte : Nat → Byte

end Sys2Proof
end

