-- ==== Sys2Proof/Machine/State.lean ====
section
/-! DEFINITION. Everything the spec gives the KS-480, as plain data: registers, queues, stores, NAND contents, pins, the queue
of commands that wait, and the model's own fields (`out`, `free`, identifier counters; assumption log 2, 3, 4). Numbers the
spec counts are `Nat`; words the spec treats as bits are bit vectors. A map from a number to a record is an `SMap`: a list of
pairs in rising order of their keys; a number it does not list has the record of reset.

`Dev` holds everything but the boot flash, the stored training copies and the queue, which stand beside it in `State`: only a
few commands touch those three. -/

namespace Sys2Proof.Machine

open Sys2Proof

/-- A sparse map: (key, record) pairs, keys strictly rising. -/
abbrev SMap (α : Type) := List (Nat × α)

/-! ### Packets and links -/

/-- An extension header: its type and its bytes 2 onward (R164). -/
structure ExtHdr where
  typ : Nat
  body : List Byte
deriving DecidableEq, Repr

/-- What a frame the KS-480 sends belongs to; the acknowledgement rules R225 and R226 ask for it. -/
inductive Owner where
  | none
  /-- output data of an outstanding command -/
  | output (cmd : Nat)
  /-- the completion entry `index` of queue pair `d` -/
  | entry (d index : Nat)
  | response (cmd : Nat)
  | grant (cmd : Nat)
  | notice (d : Nat)
  /-- a READ, by its TAG -/
  | read (tag : Nat)
  | reject
  | configRsp
deriving DecidableEq, Repr

/-- A packet in the fields of the base header (R157); lengths and HCRC are computed when it is laid out as a frame. -/
structure Pkt where
  typ : Nat
  vc : Vc
  olink : Nat
  noses : Bool
  ses : Nat
  qp : Nat
  dst : Nat
  src : Nat
  tag : Nat
  arg : Nat
  hdrs : List ExtHdr
  payload : List Byte
  owner : Owner
deriving DecidableEq, Repr

/-- The identity of a frame (R169). -/
structure Ident where
  typ : Nat
  ses : Nat
  qp : Nat
  tag : Nat
  arg : Nat
deriving DecidableEq, Repr

/-- A frame sent and not yet acknowledged (R139), with the number of times it was sent again (R143). -/
structure TxFrame where
  seq : Nat
  pkt : Pkt
  len : Nat
  tries : Nat
deriving DecidableEq, Repr

/-- A 257-bit block of a link: its header bit (set on a data block) and its 32 bytes (R135). -/
structure Block where
  data : Bool
  bytes : List Byte
deriving DecidableEq, Repr

/-- A frame that stays in its link's receive buffer (R367, R834). -/
structure RxHeld where
  vc : Vc
  frame : List Byte
  /-- its credits belong to the present entry to ACTIVE (R182) -/
  counts : Bool
  /-- it has been parsed and accepted, and waits only to be taken (R367, R834) -/
  parsed : Bool
deriving DecidableEq, Repr

/-- A frame on its way between its link and the front end: the way it goes, its flit channel, its bytes. -/
structure Transit where
  toLink : Bool
  ch : Nat
  bytes : List Byte
deriving DecidableEq, Repr

/-- Link states (R180). -/
inductive LinkSt where
  | disabled
  | train
  | align
  | capx
  | active
  | down
deriving DecidableEq, Repr

/-- The nine RC counters of a LNK page, in offset order. -/
structure LinkCnt where
  fecCor : Nat
  fecUnc : Nat
  replay : Nat
  drop : Nat
  reject : Nat
  rejSup : Nat
  dup : Nat
  down : Nat
  inRej : Nat
deriving DecidableEq, Repr

/-- One Freac link. -/
structure Link where
  /-- LNK_CTRL -/
  enable : Bool
  emode : Bool
  pattern : Nat
  st : LinkSt
  reason : Nat
  urg : Bool
  minor : Nat
  pcoord : Nat
  pepoch : Nat
  pcred : Cred
  /-- the extension header types the partner's CAP lists (R168, R173) -/
  pexts : Nat
  /-- yard time at which the present state was entered (R180) -/
  since : Nat
  /-- whether a valid CAP has arrived, and one with ACK = 1, and whether one with ACK = 1 was sent (R174) -/
  capGot : Bool
  capSentAck : Bool
  /-- the last acceptable CAP block with ACK = 1; empty before one has arrived -/
  capBlk : List Byte
  capAt : Nat
  /-- link sequence numbers (R137) -/
  txSeq : Nat
  rxSeq : Nat
  /-- a NAK is outstanding (R138) -/
  nakOut : Bool
  unacked : List TxFrame
  queue : List Pkt
  /-- credits consumed and the partner's cumulative FREED counts (R147) -/
  used : Cred
  partnerFreed : Cred
  /-- the KS-480's own cumulative FREED counts (R136) -/
  freed : Cred
  /-- link-control fields have changed since they were last sent, and when that was (R142) -/
  ctlDirty : Bool
  ctlAt : Nat
  /-- last ACK progress (R140) -/
  ackAt : Nat
  /-- identities of the last 1,024 frames delivered, newest first (R169) -/
  history : List Ident
  rxHold : List RxHeld
  /-- frames that are crossing the package between this link and the front end, oldest first (R100, log 74) -/
  transit : List Transit
  cnt : LinkCnt
  lastRejType : Nat
  lastRejCode : Nat
deriving DecidableEq, Repr

/-- The common link page and the capability words (LNKC). -/
structure Lnkc where
  coord : Nat
  valid : Bool
  adopted : Bool
  offerLink : Nat
  /-- yard time at which the offer was adopted (R152) -/
  offerAt : Nat
  mismatch : Bool
  holdMs : Nat
  epoch : Nat
  ghcapW : Word
  ghcapE : Word
  lostCmd : Nat
deriving DecidableEq, Repr

/-! ### Sessions and queue pairs -/

/-- Session states (SES_STATUS.STATE); HELD is `opened` with a hold. -/
inductive SesSt where
  | closed
  | opened
  | closing
deriving DecidableEq, Repr

/-- A running hold (R186, R188): its start and deadline, the epoch recorded on the lost link, the frames held. -/
structure Hold where
  since : Nat
  deadline : Nat
  epoch : Nat
  /-- the link whose loss started the hold -/
  link : Nat
  frames : List Pkt
deriving DecidableEq, Repr

/-- One session: its SES page and its ARB page. -/
structure Session where
  st : SesSt
  pcie : Bool
  abort : Bool
  coord : Nat
  lset : Nat
  maxOut : Nat
  epoch : Nat
  fault : Bool
  pepoch : Nat
  qpt : Nat
  clink : Nat
  clinkNone : Bool
  lost : Nat
  stray : Nat
  nudge : Nat
  hold : Option Hold
  rate : Nat
  burstKib : Nat
  /-- the shaper balance in thousandths of a byte, as of `balAt` (R380) -/
  bal : Int
  balAt : Nat
  wHigh : Nat
  wNormal : Nat
  wBulk : Nat
deriving DecidableEq, Repr

/-- Queue-pair states (QP_CTRL.STATE). -/
inductive QpSt where
  | idle
  | active
  | stopping
  | error
deriving DecidableEq, Repr

/-- The copy of a context block (R230, R232). -/
structure QpCtx where
  sqBase : Nat
  cqBase : Nat
  dbAddr : Nat
  push : Bool
  strict : Bool
  sweepEn : Bool
  sqLog : Nat
  cqLog : Nat
  notify : Nat
  ncount : Nat
  vector : Nat
  ntime : Nat
deriving DecidableEq, Repr

/-- One device queue pair. -/
structure Qp where
  st : QpSt
  enable : Bool
  err : Nat
  ctx : QpCtx
  /-- submission consumer index and the indices of the last doorbell read (R237), 32-bit -/
  sqCi : Nat
  sqPi : Nat
  cqCi : Nat
  /-- entries asked for by READs, ahead of `sqCi` until their data arrives (R245) -/
  sqAsked : Nat
  /-- completion producer index (R254) -/
  cqPi : Nat
  /-- a doorbell read is in flight, and one more is due after it (R242) -/
  dbBusy : Bool
  dbAgain : Bool
  /-- the further read answers a NUDGE received on URG (R244) -/
  dbUrg : Bool
  /-- completion entries written and not announced, oldest first: index, time written, of an URGENT command (R257) -/
  unann : List (Nat × Nat × Bool)
  /-- the sweep's last visit (R247) -/
  sweptAt : Nat
  /-- fetching stopped for want of a completion slot, a pending place or outstanding room (R241) -/
  heldBack : Bool
  /-- entries whose data has arrived ahead of an earlier READ's: index and 64 bytes each -/
  early : List (Nat × List Byte)
deriving DecidableEq, Repr

/-- What a READ (or PCIe read) was sent for. -/
inductive ReadFor where
  | context (d : Nat)
  | doorbell (d : Nat)
  | entries (d first count : Nat)
  | aux (d cmd : Nat)
  | value (cmd off : Nat)
  | input (cmd off : Nat)
deriving DecidableEq, Repr

/-- An outstanding READ or PCIe read (R228, R922). `due` is its deadline (R294), `none` before it is sent;
`acked`: the link layer has acknowledged it (R229). -/
structure OutRead where
  tag : Nat
  ses : Nat
  qp : Nat
  addr : Nat
  len : Nat
  what : ReadFor
  due : Option Nat
  acked : Bool
  /-- the link it was last sent on -/
  link : Nat
deriving DecidableEq, Repr

/-- A WRITE whose rejection ends a command (R163) or puts its queue pair in ERROR (R266). -/
structure OutWrite where
  tag : Nat
  d : Nat
  cmd : Option Nat
  /-- output bytes it carries (R281) -/
  len : Nat
deriving DecidableEq, Repr

/-! ### Commands -/

/-- The command body (R271), each field as the number its bytes hold. -/
structure Body where
  opcode : Nat
  subop : Nat
  flags : Nat
  param : Nat
  paddock : Nat
  tether : Nat
  offset : Nat
  length : Nat
  addr : Nat
  tadd : Nat
  ilen : Nat
  arg : Nat
deriving DecidableEq, Repr

/-- An effective shape descriptor (R407, R408, R410), SHAPE and SCORE kinds together. -/
structure Shape where
  kind : Nat
  src : Nat
  scaleT : Nat
  dst : Nat
  transpose : Bool
  slalom : Bool
  sat : Bool
  trailing : Bool
  g : Nat
  trc : Nat
  tcc : Nat
  k : Nat
  rowStride : Nat
  tileStride : Nat
  pool : Nat
  bag : Nat
  scale : Word
  dcode : Nat
  aggMean : Bool
  tokens : Nat
deriving DecidableEq, Repr

/-- A READY grant outstanding (R283, R284): its bytes that have arrived, and its deadline once it is sent (R294). -/
structure Grant where
  idx : Nat
  off : Nat
  len : Nat
  got : Nat
  due : Option Nat
deriving DecidableEq, Repr

/-- An output piece: its output offset and bytes, the segment and tag of its CHECK header (R617), and how many stored bytes
of a GET have been charged before it may be sent (R370). -/
structure OutPiece where
  off : Nat
  bytes : List Byte
  check : Option (Nat × List Byte)
  stored : Nat
deriving DecidableEq, Repr

/-- Bytes received at an inbound offset. -/
structure Piece where
  off : Nat
  bytes : List Byte
deriving DecidableEq, Repr

/-- A segment a command asked the shed for: by key, segment and write sequence; `status` is 0 when the bytes are good. -/
structure Fetch where
  /-- the place of its key in the list of a GATHER or SCORE; duplicate keys are each read (R320) -/
  pos : Nat
  key : List Byte
  seg : Nat
  wseq : Nat
  arrived : Bool
  status : Nat
  bytes : List Byte
deriving DecidableEq, Repr

/-- How a command reached the device. -/
inductive Via where
  | push
  | ring
  | pcie
deriving DecidableEq, Repr

/-- Stages of a command (*Ordering, Arbitration and Completion*). `ended`: its outcome is fixed, its completion not sent. -/
inductive Stage where
  | fetching
  | waiting
  | admitted
  | ended
deriving DecidableEq, Repr

/-- A completed STAGED write or DELETE whose data or record has not reached the shed: the deadline (R54, R567), and the writes
it answers for as (session, queue pair, admission number) (R389). -/
structure Staging where
  due : Nat
  by_ : List (Nat × Nat × Nat)
deriving DecidableEq, Repr

/-- Where the storage of a value lies: loft slots of its segments, its bin run, its extents. -/
structure SegEnt where
  stall : Nat
  slot : Nat
  /-- R68: 0 in loft, 1 shed only, 2 in transit, 3 poisoned -/
  st : Nat
deriving DecidableEq, Repr

/-- A run inside a shared or whole slot: the map or tag extent of a value (R612, R613), or a bin run (R36). -/
structure Run where
  stall : Nat
  slot : Nat
  first : Nat
  count : Nat
deriving DecidableEq, Repr

/-- An index record (R67) with its segment map, tags and storage. -/
structure Rec where
  digest : DWord
  pad : Nat
  key : List Byte
  /-- R67: 1 live, 2 being replaced, 3 deleted -/
  st : Nat
  quarantined : Bool
  epoch : Nat
  len : Nat
  shedId : Nat
  wseq : Nat
  small : Bool
  bin : Option Run
  segs : List SegEnt
  /-- the 8 tag bytes of each segment, in CMAC output order; empty when check values are off -/
  tags : List (List Byte)
  /-- slots that hold the segment-map (and tag) extent as one piece, or the run of a tag-only extent -/
  extSlots : List Run
  /-- the LSN of each segment's shed copy, `none` where the shed has none -/
  lsns : List (Option Nat)
  /-- a staged write not yet in the shed (R54, R567) -/
  staging : Option Staging
  /-- storage that never leaves the loft after a final program failure (R597, R598) -/
  pinnedByFailure : Bool
deriving DecidableEq, Repr

/-- A value replaced or deleted whose storage awaits release (R42), with the commands that read it. A deleted overflow key also
leaves its record and, where it was the last of one, its bucket (R516, R519). -/
structure OldVal where
  id : Nat
  recd : Rec
  readers : List Nat
  /-- the home stall of a deleted key, the number of its overflow record, and the bucket unlinked with it -/
  home : Nat
  ovfRec : Option Nat
  bucket : Option Nat
deriving DecidableEq, Repr

/-- What a write past its commit point holds: the length and segments its plan writes, the slots and runs reserved for them, and
the charges its quotas carry until its effect (R363). -/
structure Reserve where
  len : Nat
  segs : List Nat
  slots : List (Nat × SegEnt)
  bin : Option Run
  ext : List Run
  dram : Nat
  shed : Nat
deriving DecidableEq, Repr

/-- What a read ordered behind a committed write takes from its write-buffer data: the place of the key in a list, where the bytes
lie in the value (`none`: they are the whole value), the bytes, and the stall of the write-buffer slot of each segment (R364,
R365). -/
structure Layer where
  pos : Nat
  off : Option Nat
  bytes : List Byte
  /-- the value offset by which the write numbered its write-buffer segments -/
  base : Nat
  stalls : List (Nat × Nat)
deriving DecidableEq, Repr

/-- An outstanding, waiting or being-fetched command. -/
structure Cmd where
  id : Nat
  ses : Nat
  qp : Nat
  via : Via
  tag : Nat
  body : Body
  key : Option (List Byte)
  shapeHdr : Option (List Byte)
  route : Option (List Byte)
  tunnel : Option (List Byte)
  /-- status fixed before admission: envelope and auxiliary-block checks (R923, R250) -/
  pre : Option Nat
  /-- the envelope's NEXT and AUXLEN while the auxiliary block is being read (R249) -/
  auxNext : Nat
  auxLen : Nat
  cls : Nat
  padStrict : Bool
  subSeq : Nat
  admSeq : Nat
  stage : Stage
  /-- whether a command slot and budget are held (false for a command that failed its check, R375) -/
  slotHeld : Bool
  cost : Nat
  charged : Nat
  shape : Option Shape
  need : Nat
  got : List Piece
  gotBytes : Nat
  grants : List Grant
  nextGrant : Nat
  /-- inbound bytes for which write-buffer space has been given (R361) and READs or grants issued -/
  wbGiven : Nat
  asked : Nat
  /-- write-buffer slots held: (segment of the value, stall, slot) (R121, R361) -/
  wb : List (Nat × Nat × Nat)
  /-- the value offset of its first inbound byte, by which `wb` numbers segments -/
  wbBase : Nat
  /-- segments of its write-buffer data that the groomer has found unreadable (R669, R674) -/
  wbLost : List Nat
  plan : Option Rec
  effected : Bool
  status : Nat
  bytes : Nat
  info : Nat
  storedRead : Nat
  /-- output computed and not yet sent: pieces at output offsets, released at stored offsets (R370) -/
  outLeft : List OutPiece
  outTotal : Nat
  /-- output bytes sent and not refused (R281) -/
  sent : Nat
  releasedTo : Nat
  /-- segments asked of the shed for this command -/
  fetches : List Fetch
  /-- for each key of a GATHER or SCORE, in list order: `none` until it has been looked up, then the record found, if any -/
  keyRecs : List (Option (Option Rec))
  /-- what a write past its commit point holds (R363) -/
  commit : Option Reserve
  /-- its first CAM search has been made and its effect point not been reached (R501) -/
  searching : Bool
  /-- tags made of its inbound data, by segment of the value (R610), and the root key under which the engine has started a segment whose
  bytes arrive in order (R628) -/
  made : List (Nat × List Byte)
  started : List (Nat × List Byte)
  /-- write-buffer data of committed writes that a read takes over the stored bytes, oldest write first (R364) -/
  layers : List Layer
  /-- the 64 KiB part of the output being sent and its link; link 64 stands for the session's current link (R224, R265) -/
  segLink : Option (Nat × Nat)
  /-- shed work the durability point waits for: the job's id -/
  job : Option Nat
  /-- waiting in the tether unit (R479), satisfied and awaiting release (R481, R482) -/
  isWaiter : Bool
  /-- commands a FLUSH waits for (R389) and staged records it waits for -/
  flushOn : List Nat
  /-- ended with ST_LINK_LOST or completed after a hold deadline (R194): a lost completion counts in LNKC_LOST_CMD -/
  linkLost : Bool
  /-- its completion counts in SES_LOST without delivery (R216) -/
  faulted : Bool
deriving DecidableEq, Repr

/-! ### Stalls and paddocks -/

/-- What a 64 KiB slot of a segment pool holds. -/
inductive SlotUse where
  /-- a segment: its bytes, and the use stamp that LRU eviction reads (R62, R64) -/
  | seg (bytes : List Byte) (used : Nat)
  /-- a bin: granule runs as (first granule, granules, bytes) (R37) -/
  | bin (runs : List (Nat × Nat × List Byte))
  /-- extents in 1 KiB units (R69): (first unit, units) -/
  | extent (runs : List (Nat × Nat))
  /-- a shared tag slot in 64-byte units (R613) -/
  | tagSlot (runs : List (Nat × Nat))
  /-- overflow slot k: 0 primary, then extensions (R510) -/
  | overflow (k : Nat)
  /-- a record slot of 128 records (R516) -/
  | records
deriving DecidableEq, Repr

/-- An overflow entry (R512). -/
structure OvfEnt where
  digest : DWord
  pad : Nat
  recSlot : Nat
  recNo : Nat
deriving DecidableEq, Repr

/-- An overflow bucket (R511). -/
structure Bucket where
  e0 : Option OvfEnt
  e1 : Option OvfEnt
  e2 : Option OvfEnt
  next : Nat
deriving DecidableEq, Repr

/-- One row-remap entry (STL_REMAPk). -/
structure Remap where
  layer : Nat
  row : Nat
  spare : Nat
deriving DecidableEq, Repr

/-- A CAM update that waits in the update queue (R503, R505). -/
inductive CamUpd where
  | write (i : Nat)
  | clear (i : Nat)
deriving DecidableEq, Repr

/-- A tow descriptor (R536): its operation and bits, the port destination, the length, the two addresses, the sequencer context
and the segment index. -/
structure TowDesc where
  op : Nat
  hb : Bool
  chk : Bool
  last : Bool
  kind : Nat
  dest : Nat
  len : Nat
  src : Nat
  dst : Nat
  ctx : Nat
  seg : Nat
deriving DecidableEq, Repr

/-- A descriptor in the tow engine: written and not completed, with the bytes it has moved (R536, R537). -/
structure Tow where
  desc : TowDesc
  moved : Nat
deriving DecidableEq, Repr

/-- The RC counters of an STL page. -/
structure StallCnt where
  search : Nat
  update : Nat
  delay : Nat
  multi : Nat
  ovfRead : Nat
  parity : Nat
  seqWon : Nat
  towLost : Nat
  tow : Nat
  corr : Nat
  ue : Nat
deriving DecidableEq, Repr

/-- One stall with its CAM, overflow table, segment pool and loft controller. -/
structure Stall where
  /-- CAM entries and their index records (R502); an entry whose record is in state 3 is valid until its CLEAR is performed (R525) -/
  cam : SMap Rec
  /-- the CAM update queue, oldest first (R505) -/
  updq : List CamUpd
  /-- overflow buckets in use, with the records of their entries keyed by 128 × slot + record (R510, R516) -/
  buckets : SMap Bucket
  ovfRecs : SMap Rec
  freeBuckets : List Nat
  /-- unlinked buckets that have not joined the free-bucket list (R519) -/
  loose : List Nat
  /-- the lowest bucket never used of the newest extension slot, and the overflow slots allocated -/
  nextBucket : Nat
  slots : SMap SlotUse
  degraded : Bool
  pendList : List (Nat × Nat)
  remaps : List Remap
  lastErr : Word
  /-- groomer runs done per layer since the fill (R672, R675) -/
  grmDone : List Nat
  catchup : Bool
  cnt : StallCnt
  /-- the manger: 32-byte words by 1,024 × bank + offset in the bank (R437, R530) -/
  manger : SMap (List Byte)
  /-- descriptors active in the tow engine, oldest first (R536), and the words of the last one written (R539) -/
  tows : List Tow
  towLast : List Word
  /-- descriptors the sequencer has yet to write (R536) -/
  towNext : List TowDesc
  /-- for each bank, whether the sequencer had it in the last 15 cycles, newest first (R532) -/
  seqBusy : List (List Bool)
deriving DecidableEq, Repr

/-- A paddock id: its attributes (R43) and its state. -/
structure Paddock where
  live : Bool
  /-- PDK_STATUS.STATE: 0 active, 1 reloading, 2 deleting, 3 restoring, 4 held -/
  st : Nat
  persist : Nat
  residency : Nat
  check : Bool
  cls : Nat
  strict : Bool
  setMode : Nat
  barn : Nat
  bitmap : List Byte
  stage : Nat
  shape : Nat
  qDram : Nat
  qShed : Nat
  /-- the epoch of the live or held paddock -/
  epoch : Nat
  /-- the epoch high-water mark of the id (R46, R47) -/
  mark : Nat
  /-- keys a held paddock has in the shed (R918) -/
  heldKeys : Nat
deriving DecidableEq, Repr

/-! ### Tethers, shapes, check values -/

/-- A WAIT_GE on a tether's wait list (R479). -/
structure Waiter where
  cmd : Nat
  ses : Nat
  tether : Nat
  target : DWord
  deadline : Nat
deriving DecidableEq, Repr

/-- The tether unit (R466) and its shared registers. -/
structure Tth where
  counters : SMap DWord
  /-- waiters in the order they joined (R482) -/
  waiters : List Waiter
  /-- satisfied waiters awaiting release: command and the counter value it reports (R481, R482) -/
  ready : List (Nat × DWord)
  perSes : Nat
  cntFull : Nat
  cntTimeout : Nat
deriving DecidableEq, Repr

/-- One entry of the shape table (R402): words 0-14, VALID and ERR. -/
structure ShapeEnt where
  words : List Word
  valid : Bool
  err : Nat
deriving DecidableEq, Repr

/-- The check-value engine and the entropy source (CHK). -/
structure Chk where
  staged : List Word
  root : Option (List Byte)
  crej : Bool
  efail : Bool
  estate : Nat
  /-- outputs of the mask generator since its last seed, and the seed (R633) -/
  maskCount : Nat
  maskSeed : DWord
  make : Nat
  check : Nat
  fail : Nat
  recov : Nat
  noKey : Nat
  eht : Nat
  /-- entropy requests that wait (R637): the epoch, the format identifier -/
  wantEpoch : Bool
  wantFormat : Bool
deriving DecidableEq, Repr

/-! ### The shed -/

/-- What a superblock is used for. -/
inductive SblkUse where
  | free
  | dataBlk (lblk : Nat)
  | log (lblk : Nat)
  | journal
  | retired
deriving DecidableEq, Repr

/-- A stripe written to a superblock: kind (R550: 1 DATA, 2 FILL, 6 SPILL), offset in its logical block, its bytes, whether
its program has completed. -/
structure Stripe where
  kind : Nat
  off : Nat
  bytes : List Byte
  good : Bool
  /-- yard time at which it joined its program unit (R558) -/
  since : Nat
  /-- program sequence number of its pages (R550) -/
  pseq : Nat
deriving DecidableEq, Repr

/-- One superblock beyond the checkpoint region. -/
structure Sblk where
  use : SblkUse
  erases : Nat
  erased : Bool
  stripes : List Stripe
  closed : Bool
  openSeq : Nat
  /-- stripes counted by the last PTR record (R571) -/
  ptr : Nat
  /-- the LOGOPEN record of this log block is durable (R571) -/
  openDurable : Bool
  /-- the position of a failed block whose channel has no spare: the superblock is retired when it is released (R590) -/
  bad : Option Nat
deriving DecidableEq, Repr

/-- Bodies of journal records (R563). -/
inductive JBody where
  | value (pad epoch wseq : Nat) (key : List Byte) (len : Nat) (lsns : List (Option Nat)) (tags : List (List Byte)) (spill : Bool)
  | delete (pad epoch wseq : Nat) (key : List Byte)
  | paddock (subop pad epoch : Nat) (p : Paddock)
  | logOpen (lblk sblk : Nat)
  | ptr (lblk count : Nat)
  | merge (lblk typ newSblk : Nat) (released : List Nat)
  | unmap (lblk : Nat) (released : List Nat)
  | jretire (sblk : Nat)
  | badBlk (sblk pos : Nat) (retired : Bool)
deriving DecidableEq, Repr

/-- A journal record: its sequence number, the journal superblock, page and 16-byte unit of its first piece (R565), and its
body. -/
structure JRec where
  seq : Nat
  sblk : Nat
  page : Nat
  off : Nat
  body : JBody
deriving DecidableEq, Repr

/-- A journal program unit in flight: its records and whether its pages have reported program-complete (R569). -/
structure JUnit where
  id : Nat
  recs : List JRec
  complete : Bool
deriving DecidableEq, Repr

/-- The identity state (R576). -/
structure Identity where
  formatId : DWord
  variant : Word
  pop : Population
  wbufGib : Nat
  nextGib : Nat
  epochs : SMap Nat
  formed : List Nat
deriving DecidableEq, Repr

/-- A checkpoint (R579): its number, the journal position it covers, and the tables. -/
structure Ckpt where
  seq : Nat
  covers : Nat
  bmap : SMap Nat
  /-- log superblock and write pointer of each logical block that has a log block -/
  logs : SMap (Nat × Nat)
  /-- the superblock table: use and erase count -/
  sblks : SMap (SblkUse × Nat)
  /-- live record counts of the journal superblocks -/
  journals : SMap Nat
  /-- LSNs that are not free, the complement of the free runs -/
  refs : List Nat
  /-- surviving paddocks: epoch and attributes -/
  pads : SMap (Nat × Paddock)
deriving DecidableEq, Repr

/-- What a NAND program in flight is for. -/
inductive ProgFor where
  /-- stripe `page` of superblock `sblk`, for shed job `job`, segment `seg` -/
  | stripe (sblk page job seg : Nat)
  | unit (u : Nat)
  | identity (i : Identity)
  | checkpoint (c : Ckpt)
  /-- the copy of a merge: logical block, type, target superblock -/
  | merge (lblk typ target : Nat)
deriving DecidableEq, Repr

/-- A program in flight; `tries` counts its failures (R591). -/
structure Prog where
  id : Nat
  what : ProgFor
  tries : Nat
deriving DecidableEq, Repr

/-- What a shed read in flight is for. -/
inductive NReadFor where
  /-- a segment of a command's value -/
  | cmd (c : Nat) (pad : Nat) (key : List Byte) (seg : Nat)
  /-- a recovery read (R639) for a command's segment; `ue` after an uncorrectable granule (R663) -/
  | recovery (c : Nat) (pad : Nat) (key : List Byte) (seg : Nat) (wseq : Nat) (ue : Bool)
  /-- a recovery read the groomer issues itself (R674) -/
  | groomer (pad : Nat) (key : List Byte) (seg : Nat) (wseq : Nat)
  | reload (pad : Nat) (key : List Byte) (seg : Nat)
deriving DecidableEq, Repr

/-- A shed read in flight. -/
structure NRead where
  id : Nat
  lsn : Nat
  /-- the superblock it reads (R573) -/
  sblk : Nat
  len : Nat
  what : NReadFor
deriving DecidableEq, Repr

/-- Shed work of one write: the segments to program, then its record. -/
structure Job where
  id : Nat
  pad : Nat
  epoch : Nat
  key : List Byte
  wseq : Nat
  spill : Bool
  staged : Bool
  /-- the LSN of each segment: kept, or handed out for this write -/
  lsns : List (Option Nat)
  len : Nat
  tags : List (List Byte)
  /-- programs still to complete -/
  left : Nat
  /-- journal sequence number of its record once appended -/
  recSeq : Option Nat
  failed : Bool
  isDelete : Bool
  /-- STAGED writes and DELETEs that its record takes to the shed: (session, queue pair, admission number) (R390) -/
  by_ : List (Nat × Nat × Nat)
deriving DecidableEq, Repr

/-- A STAGED DELETE whose record is not durable, and its deadline (R54, R567). -/
structure StagedDel where
  pad : Nat
  epoch : Nat
  key : List Byte
  wseq : Nat
  staging : Staging
deriving DecidableEq, Repr

/-- The shed controller and the NAND contents. -/
structure Shed where
  /-- SHD_STATUS.STATE: 0 ABSENT, 1 RECOVERING, 2 READY, 3 READ_ONLY, 4 BLANK, 5 FOREIGN, 6 FORMATTING -/
  st : Nat
  pop : Option Population
  ident : Option Identity
  /-- the newest valid checkpoint, and the number of its slot, CK2 to CK7 (R580) -/
  ckpt : Option Ckpt
  ckptSlot : Nat
  /-- the slot after the newest valid checkpoint has been erased for the checkpoint that is written next (R580) -/
  ckptClean : Bool
  /-- the active identity superblock, CK0 or CK1, its pages used, and the pages used in the other once that has been erased (R578) -/
  idAct : Nat
  idUsed : Nat
  idOther : Option Nat
  /-- erase counts of CK0 to CK7 -/
  ckErases : List Nat
  sblks : SMap Sblk
  /-- data superblock of each mapped logical block -/
  bmap : SMap Nat
  /-- log superblock of each logical block that has one -/
  logs : SMap Nat
  /-- LSNs handed out and not free (R560, R561) -/
  refs : SMap Nat
  /-- the durable journal, oldest first, the units in flight and the records being gathered with the time of the first -/
  journal : List JRec
  units : List JUnit
  gather : List JRec
  gatherAt : Nat
  jseq : Nat
  /-- journal superblock being filled, its pages used, and pages written since the last checkpoint (R580) -/
  jhead : Nat
  jpages : Nat
  jsince : Nat
  progs : List Prog
  reads : List NRead
  erasing : List Nat
  jobs : List Job
  /-- STAGED deletes whose record has not reached the shed (R568) -/
  delq : List StagedDel
  /-- logical blocks under merge, or being unmapped -/
  merging : List Nat
  /-- journal superblocks whose live records are being copied forward (R582, R584) -/
  jmerge : List Nat
  spares : List Nat
  retired : Nat
  wseq : Nat
  pseq : Nat
  openSeq : Nat
  wlEn : Bool
  ckptSec : Nat
  ckptAt : Nat
  ckptNum : Nat
  gap : Nat
  prate : Nat
  replayLogs : Nat
  replayMs : Nat
  cntSwitch : Nat
  cntPartial : Nat
  cntFull : Nat
  cntPfail : Nat
  cntEfail : Nat
  cntRdunc : Nat
  nclkLost : Bool
  /-- READ_ONLY was entered and no format has followed (R600) -/
  readOnly : Bool
deriving DecidableEq, Repr

/-! ### Barns, power, clocks -/

/-- A register write queued for a tripped barn (R708). -/
structure QueuedWrite where
  path : Path
  off : Nat
  val : Word
deriving DecidableEq, Repr

/-- One barn: its BRN page, thermal state and slalom units. -/
structure Barn where
  bucketMode : Bool
  evlim : Nat
  /-- EV_ECC_CORR events recorded in the running second, and its start (R655) -/
  evCount : Nat
  evAt : Nat
  leak : Nat
  size : Nat
  level : Nat
  leakAt : Nat
  ovf : Bool
  ovfCnt : Nat
  passH : Nat
  /-- groomer runs of each layer fallen due since the fill, the part of the next interval that has passed, and when that was
  last reckoned (R672, R673) -/
  grmDue : List Nat
  grmAcc : List Nat
  grmAt : Nat
  debtLimit : Nat
  boost : Bool
  corr : Nat
  ue : Nat
  recov : Nat
  remap : Nat
  fillMs : Nat
  fillSt : Nat
  /-- thermal state -/
  hot : Bool
  hotCool : Nat
  tripped : Bool
  tripAt : Nat
  clearBit : Bool
  bands : List Nat
  bandCool : List Nat
  warm : Bool
  /-- at the last sample every floor sensor read below 100 °C and CLEAR was 1 (R755) -/
  resumeDue : Bool
  sclkLost : Bool
  dclkLost : Bool
  writes : List QueuedWrite
  /-- write-buffer slots of writes that a trip ended, released at resumption (R750) -/
  wbKept : List (Nat × Nat)
  slmEnable : List Bool
  slmBlocks : List Nat
  slmFallback : List Nat
deriving DecidableEq, Repr

/-- Power and thermal registers (PWR). -/
structure Pwr where
  cap : Nat
  inst : Nat
  /-- the last 100 estimates, newest first (R734) -/
  est : List Nat
  level : Nat
  /-- consecutive estimates below 0.98 of the cap (R735) -/
  below : Nat
  estAt : Nat
  tripC : Nat
  hotC : Nat
  warmC : Nat
  /-- sensor samples in 0.25 °C units; `none` when the self-check fails (R763) -/
  sensors : SMap (Option Int)
  sampledAt : Nat
  warmLevel : Bool
  critYard : Bool
  cntHot : Nat
  cntTrip : Nat
  cntGov : Nat
deriving DecidableEq, Repr

/-- Clock registers (CLK). -/
structure Clk where
  yclk : Bool
  fclk : Bool
  sclk : List Bool
  dclk : List Bool
  nclk : Bool
  peclk : Bool
  lossPe : Bool
  lossN : Bool
  lossD : List Bool
  lossS : List Bool
  sel : Nat
  measuring : Bool
  measAt : Nat
  khz : Nat
  done : Bool
  wqLost : Bool
  wqDrop : Nat
deriving DecidableEq, Repr

/-! ### Management: bring-up, Pliop, PCIe, events, watermarks, maps -/

/-- A stored copy of training results (R792). -/
structure StoredCopy where
  seq : Nat
  uid : DWord
  dieIds : List Nat
  /-- per barn: the mean of its floor sensors in sixteenths of a degree; `none` when no sensor read -/
  temps : List (Option Int)
  clrRemap : Bool
  nextGib : Nat
  /-- per stall: remap table and degraded mark -/
  remaps : SMap (List Remap × Bool)
deriving DecidableEq, Repr

/-- Operations of the xSPI port, in request order (R777). -/
inductive FlashOp where
  | read (addr : Nat)
  | program (addr : Nat) (bytes : List Byte)
  | erase (addr : Nat)
  | store (copy : StoredCopy)
deriving DecidableEq, Repr

/-- The modes of the xSPI port: 1S-1S-1S and 8D-8D-8D (R774). -/
inductive XspiMode where
  | s1
  | d8
deriving DecidableEq, Repr

/-- Bring-up state and BRU registers. -/
structure Bru where
  /-- BRU_STATUS.STATE: 1-9 the steps, 10 DEGRADED, 11 READY, 12 FAILED -/
  st : Nat
  failcode : Nat
  warm : List Bool
  image : Bool
  fw : Byte × Byte
  storeBusy : Bool
  clrRemap : Bool
  straps : Straps
  uid : DWord
  dies : List Nat
  dieIds : List Nat
  steps : List Nat
  /-- in service, failing lanes in and out, new lanes, per bundle (BRU_BND_STAT) -/
  bundles : List (Bool × Nat × Nat × Nat)
  items : List Word
  /-- failing lanes outside the fuse choice: (bundle, lane) (R783) -/
  newLanes : List (Nat × Nat)
  /-- lanes that spares have replaced, yard-bound and die-bound, per bundle (R782) -/
  lanes : SMap (List Nat × List Nat)
  /-- the mode of the xSPI port (R774) -/
  xspiMode : XspiMode
  /-- the floor temperature that goes with each barn's DRAM results (R792, R795) -/
  temps : List (Option Int)
  /-- a NAND population that breaks R546 was found (R791) -/
  badPop : Bool
  unavailable : List (Nat × Nat)
  retrained : List Nat
  /-- expected links found untrained at the end of step 6, with their state codes; no valid stored copy was found (R800) -/
  untrained : List (Nat × Nat)
  noCopy : Bool
  record : Option (List Byte)
  xspi : List FlashOp
  flBusy : Bool
  flErr : Bool
  flAddr : Nat
  flData : List Byte
  /-- writes to firmware-applied fields held until step 3 completes (R875) -/
  heldWrites : List QueuedWrite
  /-- a stored copy is due by this time (R795) -/
  storeDue : Option Nat
  /-- ARB_WBUF.NEXT_GIB as stored copies carry it: last written while the shed had no writable identity, else 0 (R606) -/
  copyGib : Nat
deriving DecidableEq, Repr

/-- The Pliop port (PLP). -/
structure Plp where
  addr : Nat
  released : Bool
  /-- when the last frame of any kind ended on the input (R825) -/
  lastIn : Option Nat
  lastRx : Option Nat
  cntRx : Nat
  cntCrc : Nat
  cntAcc : Nat
  cntNotice : Nat
  /-- watermarks with a notice pending for the chain (R826), and when the output goes idle -/
  upNotices : List Nat
  downNotices : List Nat
  lastOut : Nat
deriving DecidableEq, Repr

/-- What the PCIe endpoint sends. -/
inductive PcieOut where
  | write (addr : Nat) (bytes : List Byte)
  | read (tag addr len : Nat)
  | msix (vector : Nat)
deriving DecidableEq, Repr

/-- The PCIe endpoint. -/
structure Pcie where
  up : Bool
  perst : Bool
  busMaster : Bool
  waiting : List PcieOut
  pendingVec : List Nat
  /-- memory reads issued: their tags follow the 32-bit TAGs of READs (log 71) -/
  issued : Nat
deriving DecidableEq, Repr

/-- An event record (R837). -/
structure Event where
  stamp : Nat
  code : Nat
  source : Nat
  seq : Nat
  d0 : Nat
  d1 : Nat
  d2 : Nat
deriving DecidableEq, Repr

/-- One watermark (R843): registers and live state. -/
structure Wmk where
  alert : Bool
  msix : Bool
  noticeDown : Bool
  noticeUp : Bool
  setT : Nat
  clearT : Nat
  level : Bool
  crossed : Bool
  dcrossed : Bool
  up : Nat
  down : Nat
deriving DecidableEq, Repr

/-- The event queue and its registers. -/
structure Evq where
  records : List Event
  /-- records made and not yet in the queue (R838) -/
  staged : List Event
  lost : Bool
  dropped : Nat
  seq : Nat
deriving DecidableEq, Repr

/-- Congestion maps (FAB). -/
structure Fab where
  enable : Bool
  periodUs : Nat
  nextPeriodUs : Nat
  startAt : Nat
  seq : Nat
  map : List Word
deriving DecidableEq, Repr

/-- The state kept once for each access path (R862): selectors, the latched TTH_VAL_LO, the latches of pairs and groups keyed
by register offset. -/
structure PathSt where
  tthSel : Nat
  tthSsel : Nat
  pwrSsel : Nat
  topoSel : Nat
  bndSel : Nat
  mapSel : Nat
  tthLo : Word
  latches : SMap Word
deriving DecidableEq, Repr

/-- Admission and write-buffer state (ARB and SES device-wide registers). -/
structure Arb where
  ucapPct : Nat
  /-- the cap percentage in force in the present window (R395) -/
  ucapNow : Nat
  windowStart : Nat
  urgentUsed : Nat
  inflShared : Nat
  capMib : Nat
  resvKib : Nat
  wbufCur : Nat
  wbufNext : Nat
  /-- session last served by the URGENT round robin (R376) -/
  urgRr : Nat
  /-- weighted round: flows (session, class), the current flow first (R379), with deficits -/
  round : List (Nat × Nat × Nat)
  /-- commands waiting for write-buffer space, the one whose turn it is first (R361) -/
  wbRound : List Nat
  dataTo : Nat
  dstray : Nat
  sweepUs : Nat
  qpRefused : Bool
  /-- reads issued by the sweep in the running microsecond (R247) -/
  sweptInUs : Nat
  sweepUsAt : Nat
deriving DecidableEq, Repr

/-- A flit (R105): its type, channel, sequence number, acknowledge number, route tag and valid payload bytes. -/
structure Flit where
  typ : Nat
  ch : Nat
  seq : Nat
  ack : Nat
  tag : Nat
  payload : List Byte
deriving DecidableEq, Repr

/-- The sender of one bundle direction (R106). -/
structure BundleTx where
  /-- consecutive failures of the flit now being retried -/
  fails : Nat
  seq : Nat
  /-- the sequence number of the next flit -/
  next : Nat
  /-- flits sent and not acknowledged, oldest first, each with the time it was last sent -/
  kept : List (Nat × Flit)
deriving DecidableEq, Repr

/-- A packet inside the package: the crossbar ports it comes from and goes to, its flit channel, route tag and bytes. -/
structure InPkt where
  src : Nat
  dst : Nat
  ch : Nat
  tag : Nat
  bytes : List Byte
deriving DecidableEq, Repr

/-- The yard crossbar (R112): a queue for each output port and channel by 8 × port + channel, the channel each output served last, and
the input each queue served last. -/
structure Fabric where
  queues : SMap (List InPkt)
  lastCh : SMap Nat
  lastIn : SMap Nat
deriving DecidableEq, Repr

/-- Link-control fields: the highest sequence number accepted in order, and the cumulative FREED counts (R136). -/
structure Ctl where
  ack : Nat
  freed : Cred
deriving DecidableEq, Repr

/-- What leaves the device: frames and control blocks on links, Pliop frames, PCIe requests, the answers to register reads. -/
inductive Output where
  /-- a frame on a link: its START block, its data blocks and its END block (R135) -/
  | frame (link : Nat) (blocks : List Block)
  /-- one control block between frames: IDLE, NAK, DOWN or CAP (R136, R142, R173, R181) -/
  | control (link : Nat) (block : Block)
  | pliop (bytes : List Byte)
  | pcie (o : PcieOut)
  | readValue (p : Path) (off : Nat) (v : Word)
  /-- flits sent again on a bundle, from the failed one on (R106) -/
  | flitReplay (bundle : Nat) (dieBound : Bool) (seq : Nat) (flits : List (List Byte))
deriving DecidableEq, Repr

/-- The fuses (R769, R770). -/
structure Fuses where
  variantWord : Word
  uid : DWord
  stepping : Nat
  /-- lanes chosen for repair at assembly test, yard-bound and die-bound, per bundle (R769) -/
  lanes : SMap (List Nat × List Nat)
deriving DecidableEq, Repr

/-- GLB registers and the reset line. -/
structure Glb where
  /-- the device runs: RESET_N is high, and no supply has been lost since it rose -/
  resetN : Bool
  /-- a rail is absent with RESET_N high: behaviour and pins are undefined until RESET_N is asserted (R730, R914) -/
  railOut : Bool
  ready : Bool
  degraded : Bool
  failed : Bool
  blocks : Bool
  cfgGen : Nat
  scratch0 : Word
  scratch1 : Word
  variantRead : Word
deriving DecidableEq, Repr

/-! ### The state -/

/-- The test access port: its instruction register, what the instruction selects, and the boundary-scan register: the levels its
update stage holds, and those it captured at the pins (R908, R909). -/
structure Tap where
  ir : Byte
  op : ScanOp
  cells : List (Pin × PinLevel)
  captured : List (Pin × PinLevel)
deriving DecidableEq, Repr

/-- The device but for its boot flash, its stored copies and the queue of waiting commands. -/
structure Dev where
  /-- yard time in ns (R712); registers read it modulo 2^64 -/
  now : Nat
  ytRun : Bool
  glb : Glb
  fuses : Fuses
  tap : Tap
  bru : Bru
  clk : Clk
  pwr : Pwr
  plp : Plp
  pcie : Pcie
  lnkc : Lnkc
  links : SMap Link
  sessions : SMap Session
  qps : SMap Qp
  arb : Arb
  cmds : List Cmd
  reads : List OutRead
  writes : List OutWrite
  /-- the device-wide TAG counter (R922), 32-bit -/
  nextTag : Nat
  stalls : SMap Stall
  paddocks : SMap Paddock
  old : List OldVal
  tth : Tth
  shapes : SMap ShapeEnt
  chk : Chk
  shd : Shed
  barns : SMap Barn
  bundles : SMap BundleTx
  fabric : Fabric
  evq : Evq
  wmks : SMap Wmk
  fab : Fab
  paths : SMap PathSt
  /-- model's own: what has left the device, the free-value counter, identifiers -/
  out : List Output
  free : Nat
  nextId : Nat
  subSeq : Nat
  admSeq : Nat
  useStamp : Nat
deriving DecidableEq, Repr

/-- The whole device. -/
structure State where
  dev : Dev
  /-- boot-flash cells that do not read as erased (R775) -/
  flash : List Host.Cell
  /-- the two stored copies of training results (R792) -/
  copies : List (Option StoredCopy)
  /-- the commands that wait, first in, first out -/
  pending : List Instr
deriving DecidableEq, Repr

/-! ### Reset -/

def Cred.zero : Cred := { req := 0, data := 0, rsp := 0, urg := 0 }

def LinkCnt.zero : LinkCnt :=
  { fecCor := 0, fecUnc := 0, replay := 0, drop := 0, reject := 0, rejSup := 0, dup := 0, down := 0, inRej := 0 }

/-- A link after reset: ENABLE 1, DISABLED (LNK_CTRL, LNK_STATUS reset values). -/
def Link.reset : Link :=
  { enable := true, emode := false, pattern := 0, st := .disabled, reason := 0, urg := false, minor := 0, pcoord := 0,
    pepoch := 0, pcred := Cred.zero, pexts := 0, since := 0, capGot := false, capSentAck := false, capBlk := [], capAt := 0,
    txSeq := 0, rxSeq := 0, nakOut := false, unacked := [], queue := [], used := Cred.zero, partnerFreed := Cred.zero,
    freed := Cred.zero, ctlDirty := false, ctlAt := 0, ackAt := 0, history := [], rxHold := [], transit := [], cnt := LinkCnt.zero,
    lastRejType := 0, lastRejCode := 0 }

def Lnkc.reset : Lnkc :=
  { coord := 0, valid := false, adopted := false, offerLink := 0, offerAt := 0, mismatch := false, holdMs := 50, epoch := 0,
    ghcapW := 0, ghcapE := 0, lostCmd := 0 }

/-- A session after reset: CLOSED, MAX_OUT 256, unshaped, default weights (SES and ARB reset values). -/
def Session.reset : Session :=
  { st := .closed, pcie := false, abort := false, coord := 0, lset := 0, maxOut := 256, epoch := 0, fault := false,
    pepoch := 0, qpt := 0, clink := 0, clinkNone := true, lost := 0, stray := 0, nudge := 0, hold := none,
    rate := 0x7FFFFF, burstKib := 16384, bal := 0, balAt := 0, wHigh := 64, wNormal := 16, wBulk := 4 }

def QpCtx.none : QpCtx :=
  { sqBase := 0, cqBase := 0, dbAddr := 0, push := false, strict := false, sweepEn := false, sqLog := 0, cqLog := 0,
    notify := 0, ncount := 0, vector := 0, ntime := 0 }

def Qp.reset : Qp :=
  { st := .idle, enable := false, err := 0, ctx := QpCtx.none, sqCi := 0, sqPi := 0, cqCi := 0, sqAsked := 0, cqPi := 0,
    dbBusy := false, dbAgain := false, dbUrg := false, unann := [], sweptAt := 0, heldBack := false, early := [] }

def Paddock.reset : Paddock :=
  { live := false, st := 0, persist := 0, residency := 0, check := false, cls := 0, strict := false, setMode := 0,
    barn := 0, bitmap := [], stage := 0, shape := 0, qDram := 0, qShed := 0, epoch := 0, mark := 0,
    heldKeys := 0 }

def StallCnt.zero : StallCnt :=
  { search := 0, update := 0, delay := 0, multi := 0, ovfRead := 0, parity := 0, seqWon := 0, towLost := 0, tow := 0,
    corr := 0, ue := 0 }

def Stall.reset : Stall :=
  { cam := [], updq := [], buckets := [], ovfRecs := [], freeBuckets := [], loose := [], nextBucket := 0, slots := [],
    degraded := false, pendList := [], remaps := [], lastErr := 0, grmDone := List.replicate 16 0,
    catchup := false, cnt := StallCnt.zero, manger := [], tows := [], towLast := List.replicate 8 0, towNext := [],
    seqBusy := [] }

def ShapeEnt.reset : ShapeEnt := { words := List.replicate 15 0, valid := false, err := 0 }

def Barn.reset : Barn :=
  { bucketMode := false, evlim := 100, evCount := 0, evAt := 0, leak := 10, size := 1000, level := 0, leakAt := 0,
    ovf := false, ovfCnt := 0, passH := 8, grmDue := List.replicate 16 0, grmAcc := List.replicate 16 0, grmAt := 0, debtLimit := 64, boost := true, corr := 0, ue := 0, recov := 0, remap := 0,
    fillMs := 0, fillSt := 0, hot := false, hotCool := 0, tripped := false, tripAt := 0, clearBit := false,
    bands := List.replicate 16 0, bandCool := List.replicate 16 0, warm := false, resumeDue := false,
    sclkLost := false, dclkLost := false, writes := [], wbKept := [], slmEnable := List.replicate 4 true,
    slmBlocks := List.replicate 4 0, slmFallback := List.replicate 4 0 }

def Sblk.reset : Sblk :=
  { use := .free, erases := 0, erased := false, stripes := [], closed := false, openSeq := 0, ptr := 0,
    openDurable := false, bad := none }

def BundleTx.reset : BundleTx := { fails := 0, seq := 0, next := 0, kept := [] }

def Fabric.reset : Fabric := { queues := [], lastCh := [], lastIn := [] }

def PathSt.reset : PathSt :=
  { tthSel := 0, tthSsel := 0, pwrSsel := 0, topoSel := 0, bndSel := 0, mapSel := 0, tthLo := 0, latches := [] }

/-- Default thresholds (SET, CLEAR) of watermark n, table *Watermarks* (R843). -/
def wmkThresholds (n : Nat) : Nat × Nat :=
  match n with
  | 6 => (16, 32)
  | 8 => (90, 75)
  | 9 => (4, 2)
  | 10 => (60000, 50000)
  | 11 => (60000, 50000)
  | 12 => (1, 0)
  | 13 => (1, 0)
  | 14 => (9, 0)
  | 15 => (3072, 1024)
  | _ => (0, 0)

/-- Watermark n after reset; ALERT defaults to 1 for 2, 5 and 7 (R843). -/
def Wmk.reset (n : Nat) : Wmk :=
  { alert := n == 2 || n == 5 || n == 7, msix := true, noticeDown := false, noticeUp := true,
    setT := (wmkThresholds n).1, clearT := (wmkThresholds n).2, level := false, crossed := false, dcrossed := false,
    up := 0, down := 0 }

def Arb.reset : Arb :=
  { ucapPct := 25, ucapNow := 25, windowStart := 0, urgentUsed := 0, inflShared := 64, capMib := 64, resvKib := 1024,
    wbufCur := 0, wbufNext := 0, urgRr := 0, round := [], wbRound := [], dataTo := 20, dstray := 0,
    sweepUs := 100, qpRefused := false, sweptInUs := 0, sweepUsAt := 0 }

def Tth.reset : Tth :=
  { counters := [], waiters := [], ready := [], perSes := 128, cntFull := 0, cntTimeout := 0 }

def Chk.reset : Chk :=
  { staged := List.replicate 8 0, root := none, crej := false, efail := false, estate := 0, maskCount := 0, maskSeed := 0,
    make := 0, check := 0, fail := 0, recov := 0, noKey := 0, eht := 0, wantEpoch := true, wantFormat := false }

/-- The shed controller after reset, over the NAND contents that outlive it (`ident` … `retired`). -/
def Shed.reset : Shed :=
  { st := 0, pop := none, ident := none, ckpt := none, ckptSlot := 7, ckptClean := false, idAct := 0, idUsed := 0, idOther := none,
    ckErases := List.replicate 8 0, sblks := [], bmap := [], logs := [], refs := [], journal := [], units := [], gather := [], gatherAt := 0, jseq := 1, jhead := 0, jpages := 0, jsince := 0,
    progs := [], reads := [], erasing := [], jobs := [], delq := [], merging := [], jmerge := [], spares := List.replicate 16 0,
    retired := 0, wseq := 1, pseq := 0, openSeq := 0, wlEn := true, ckptSec := 10, ckptAt := 0, ckptNum := 0, gap := 256,
    prate := 0, replayLogs := 0, replayMs := 0, cntSwitch := 0, cntPartial := 0, cntFull := 0, cntPfail := 0,
    cntEfail := 0, cntRdunc := 0, nclkLost := false, readOnly := false }

def Pwr.reset : Pwr :=
  { cap := 0, inst := 0, est := [], level := 0, below := 0, estAt := 0, tripC := 115, hotC := 105, warmC := 90,
    sensors := [], sampledAt := 0, warmLevel := false, critYard := false, cntHot := 0, cntTrip := 0, cntGov := 0 }

def Clk.reset : Clk :=
  { yclk := false, fclk := false, sclk := List.replicate 4 false, dclk := List.replicate 4 false, nclk := false,
    peclk := false, lossPe := false, lossN := false, lossD := List.replicate 4 false, lossS := List.replicate 4 false,
    sel := 0, measuring := false, measAt := 0, khz := 0, done := false, wqLost := false, wqDrop := 0 }

def Bru.reset (straps : Straps) : Bru :=
  { st := 1, failcode := 0, warm := List.replicate 4 false, image := false, fw := (0, 0), storeBusy := false,
    clrRemap := false, straps := straps, uid := 0, dies := [], dieIds := [], steps := [],
    bundles := [], items := [], newLanes := [], lanes := [], xspiMode := .s1, temps := List.replicate 4 none, badPop := false, unavailable := [], retrained := [], untrained := [], noCopy := false, record := none, xspi := [], flBusy := false,
    flErr := false, flAddr := 0, flData := List.replicate 256 0, heldWrites := [], storeDue := none, copyGib := 0 }

def Plp.reset : Plp :=
  { addr := 0, released := false, lastIn := none, lastRx := none, cntRx := 0, cntCrc := 0, cntAcc := 0, cntNotice := 0,
    upNotices := [], downNotices := [], lastOut := 0 }

def Pcie.reset : Pcie := { up := false, perst := false, busMaster := false, waiting := [], pendingVec := [], issued := 0 }

def Evq.reset : Evq := { records := [], staged := [], lost := false, dropped := 0, seq := 0 }

def Fab.reset : Fab :=
  { enable := true, periodUs := 100, nextPeriodUs := 100, startAt := 0, seq := 0, map := [] }

def Glb.reset : Glb :=
  { resetN := true, railOut := false, ready := false, degraded := false, failed := false, blocks := false, cfgGen := 0, scratch0 := 0,
    scratch1 := 0, variantRead := 0 }

/-- Test-Logic-Reset selects IDCODE, 0x01 (R908). -/
def Tap.reset : Tap := { ir := 0x01, op := .idcode, cells := [], captured := [] }

/-- The fuses of a KS-480 of the first stepping: the variant word 0x0258_C400 of the bring-up walkthrough; the unique
identifier is given no value (log 5). -/
def Fuses.ks480 : Fuses := { variantWord := 0x0258C400#32, uid := 0, stepping := 0, lanes := [] }

/-- Straps at the reset of `State.reset`: image A, warm start allowed, PCIe endpoint on, as in the bring-up walkthrough
(log 5). -/
def Straps.dflt : Straps := { boot := 0, nowarm := false, pexEn := true }

/-- The device right after a rising edge of RESET_N (R766, R872) with the given straps and what outlives a reset: the fuses
and the NAND contents in `shd`. -/
def Dev.afterReset (straps : Straps) (fuses : Fuses) (shd : Shed) : Dev :=
  { now := 0, ytRun := false, glb := Glb.reset, fuses := fuses, tap := Tap.reset, bru := Bru.reset straps, clk := Clk.reset,
    pwr := Pwr.reset, plp := Plp.reset, pcie := Pcie.reset, lnkc := Lnkc.reset, links := [], sessions := [], qps := [],
    arb := Arb.reset, cmds := [], reads := [], writes := [], nextTag := 0, stalls := [], paddocks := [], old := [],
    tth := Tth.reset, shapes := [], chk := Chk.reset, shd := shd, barns := [], bundles := [], fabric := Fabric.reset, evq := Evq.reset,
    wmks := [], fab := Fab.reset, paths := [], out := [], free := 0, nextId := 1, subSeq := 0, admSeq := 0,
    useStamp := 0 }

/-- The device right after RESET_N rises: a KS-480 with blank boot flash, no stored copy and no NAND written. -/
def State.reset : State :=
  { dev := Dev.afterReset Straps.dflt Fuses.ks480 Shed.reset, flash := [], copies := [none, none], pending := [] }

/-! ### Faults and refusals -/

/-- Why the machine stops with a fault. -/
inductive Fault where
  /-- raised by TAP_INSTRUCTION when an instruction that gives the boundary-scan register the pins is loaded while RESET_N is
  high: behaviour is undefined until RESET_N is asserted (R910). Safe: the model stops where the hardware may do anything. -/
  | tapPinsWhileRunning
  /-- raised by SENSOR_SAMPLE when a yard or gatehouse sensor reads above 125 °C: behaviour is undefined until RESET_N is
  asserted (R759). Safe, for the same reason. -/
  | junctionAbove125
  /-- raised by every command but RESET_ASSERT and SUPPLY_LOSS while a rail is absent with RESET_N high: behaviour is undefined until
  RESET_N is asserted (R730, R914). Safe, for the same reason. -/
  | railAbsent
deriving DecidableEq, Repr

/-- Why the machine gives a command no meaning. -/
inductive Refusal where
  /-- raised by an arm of `exec` whose command has no meaning yet. Safe: nothing can be proved of it. -/
  | notModelled (mnemonic : String)
deriving DecidableEq, Repr

end Sys2Proof.Machine
end

