-- ==== Sys2Proof/Machine/Bytes.lean ====
section
/-! DEFINITION. Bit fields, byte strings, sparse maps, and the checksums and the key digest of the spec. -/

namespace Sys2Proof.Machine

open Sys2Proof

/-! ### Bit fields and bytes -/

/-- The `w` bits of `n` from bit `lo` up. -/
def bits (n lo w : Nat) : Nat := (n >>> lo) % 2 ^ w

/-- Bit `i` of `n`. -/
def bit (n i : Nat) : Bool := Nat.testBit n i

def b2n (b : Bool) : Nat := cond b 1 0

/-- The number little-endian bytes hold (R15). -/
def leNat : List Byte → Nat
  | [] => 0
  | b :: bs => b.toNat + 256 * leNat bs

/-- The number big-endian bytes hold. -/
def beNat (bs : List Byte) : Nat := leNat bs.reverse

/-- `k` little-endian bytes of `n` (R15). -/
def natLe : Nat → Nat → List Byte
  | 0, _ => []
  | k + 1, n => BitVec.ofNat 8 n :: natLe k (n / 256)

def natBe (k n : Nat) : List Byte := (natLe k n).reverse

/-- `len` bytes from offset `off`. -/
def slice (off len : Nat) (l : List Byte) : List Byte := (l.drop off).take len

/-- The field of `len` little-endian bytes at `off`. -/
def fieldAt (l : List Byte) (off len : Nat) : Nat := leNat (slice off len l)

def zeros (n : Nat) : List Byte := List.replicate n 0

/-- `bs` cut or filled with zero bytes to `n` bytes. -/
def padTo (n : Nat) (bs : List Byte) : List Byte := (bs ++ zeros (n - bs.length)).take n

/-- `old` with `new` written at `off`; the gap, if any, is zero-filled. -/
def splice (old : List Byte) (off : Nat) (new : List Byte) : List Byte :=
  padTo off old ++ new ++ old.drop (off + new.length)

/-- `l` cut into pieces of `k` (the last may be shorter); `fuel` bounds the pieces. -/
def chunksFuel (k : Nat) : Nat → List Byte → List (List Byte)
  | 0, _ => []
  | _ + 1, [] => []
  | f + 1, b :: bs => (b :: bs).take k :: chunksFuel k f ((b :: bs).drop k)

def chunks (k : Nat) (l : List Byte) : List (List Byte) := chunksFuel k l.length l

def ceilDiv (a b : Nat) : Nat := (a + b - 1) / b

/-- Counters that saturate at their all-ones value. -/
def satAdd (w n k : Nat) : Nat := min (n + k) (2 ^ w - 1)

/-- A 32-bit saturating counter, one up. -/
def sat1 (n : Nat) : Nat := satAdd 32 n 1

/-! ### Lists as small arrays -/

def listGet {α : Type} (l : List α) (i : Nat) (d : α) : α := l.getD i d

def listUpd {α : Type} (l : List α) (i : Nat) (f : α → α) : List α := l.modify i f

/-! ### Sparse maps -/

/-- The record at `k`, if listed. -/
def SMap.find {α : Type} (m : SMap α) (k : Nat) : Option α :=
  match m with
  | [] => none
  | (j, v) :: r => if j = k then some v else SMap.find r k

/-- The record at `k`, `d` where none is listed. -/
def SMap.get {α : Type} (m : SMap α) (k : Nat) (d : α) : α := (SMap.find m k).getD d

/-- The map with `v` at `k`. -/
def SMap.put {α : Type} (m : SMap α) (k : Nat) (v : α) : SMap α :=
  match m with
  | [] => [(k, v)]
  | (j, w) :: r => if k < j then (k, v) :: (j, w) :: r else if k = j then (k, v) :: r else (j, w) :: SMap.put r k v

/-- The map without `k`. -/
def SMap.del {α : Type} (m : SMap α) (k : Nat) : SMap α := m.filter fun p => p.1 != k

def SMap.upd {α : Type} (m : SMap α) (k : Nat) (d : α) (f : α → α) : SMap α := SMap.put m k (f (SMap.get m k d))

def SMap.keys {α : Type} (m : SMap α) : List Nat := m.map Prod.fst

/-! ### Checksums -/

/-- One step of an MSB-first CRC of width `w` over one byte. -/
def crcMsbBits (w poly : Nat) : Nat → Nat → Nat
  | 0, c => c
  | k + 1, c => crcMsbBits w poly k (if bit c (w - 1) then ((c <<< 1) % 2 ^ w) ^^^ poly else (c <<< 1) % 2 ^ w)

def crcMsbByte (w poly c : Nat) (b : Byte) : Nat := crcMsbBits w poly 8 (c ^^^ (b.toNat <<< (w - 8)))

/-- CRC-8, polynomial 0x07, initial value 0x00 (R157). -/
def crc8 (bs : List Byte) : Nat := bs.foldl (crcMsbByte 8 0x07) 0

/-- CRC-16-CCITT (R920). -/
def crc16 (bs : List Byte) : Nat := bs.foldl (crcMsbByte 16 0x1021) 0xFFFF

/-- One LSB-first step of CRC-32C. -/
def crcLsbBits (poly : Nat) : Nat → Nat → Nat
  | 0, c => c
  | k + 1, c => crcLsbBits poly k (if bit c 0 then (c >>> 1) ^^^ poly else c >>> 1)

/-- CRC-32C, the Castagnoli code (control blocks, R136). -/
def crc32c (bs : List Byte) : Nat :=
  (bs.foldl (fun c b => crcLsbBits 0x82F63B78 8 (c ^^^ b.toNat)) 0xFFFFFFFF) ^^^ 0xFFFFFFFF

/-- One step of the key digest: exclusive-or with the byte, then the FNV-1a multiplication modulo 2^64 (R25). -/
def fnvStep (h : DWord) (b : Byte) : DWord := (h ^^^ b.setWidth 64) * 0x00000100000001B3#64

/-- The digest of a key (R25). -/
def keyDigest (key : List Byte) : DWord := key.foldl fnvStep 0xCBF29CE484222325#64

end Sys2Proof.Machine
end

