-- ==== Sys2Proof/Machine/Frames.lean ====
section
/-! DEFINITION. Packets as frames: the base header (R157), extension headers (R164), the header walk (R169, R250), control
blocks and the CAP block (R136, R173). -/

namespace Sys2Proof.Machine

open Sys2Proof

def vcCode : Vc → Nat
  | .req => 0
  | .data => 1
  | .rsp => 2
  | .urg => 3

def credGet (c : Cred) : Vc → Nat
  | .req => c.req
  | .data => c.data
  | .rsp => c.rsp
  | .urg => c.urg

def credSet (c : Cred) (v : Vc) (n : Nat) : Cred :=
  match v with
  | .req => { c with req := n }
  | .data => { c with data := n }
  | .rsp => { c with rsp := n }
  | .urg => { c with urg := n }

/-- Credits counted modulo 2^16 (R147). -/
def credBump (c : Cred) (v : Vc) (n : Nat) : Cred := credSet c v ((credGet c v + n) % 65536)

/-- Credits a frame of `len` bytes costs (R145). -/
def creditCost (len : Nat) : Nat := ceilDiv len 256

/-! ### Laying a packet out -/

/-- Header bytes of a list of extension headers, chained by NEXT (R164). -/
def encodeHdrs : List ExtHdr → List Byte
  | [] => []
  | h :: r =>
    let next := match r with
      | [] => 0
      | g :: _ => g.typ
    BitVec.ofNat 8 next :: BitVec.ofNat 8 ((h.body.length + 2) / 8) :: h.body ++ encodeHdrs r

/-- The base header with HCRC still 0 (R157). -/
def baseHeader (p : Pkt) (src : Nat) (next hlen plen : Nat) : List Byte :=
  natLe 1 p.typ ++ natLe 1 (vcCode p.vc + 4 * p.olink) ++ natLe 1 next ++ [0] ++ natLe 2 plen ++ natLe 2 hlen ++
    natLe 2 p.payload.length ++ natLe 2 (p.ses + 512 * p.qp + 32768 * b2n p.noses) ++ natLe 4 p.dst ++ natLe 4 src ++
    natLe 4 p.tag ++ natLe 8 p.arg

/-- A packet as a frame, with the extension headers the partner accepts (R168) and SRC of the sending link (R154). -/
def encodePkt (p : Pkt) (src exts : Nat) : List Byte :=
  let hdrs := p.hdrs.filter fun h => bit exts h.typ
  let hb := encodeHdrs hdrs
  let next := match hdrs with
    | [] => 0
    | h :: _ => h.typ
  let base := baseHeader p src next (32 + hb.length) (32 + hb.length + p.payload.length)
  splice base 3 [BitVec.ofNat 8 (crc8 base)] ++ hb ++ p.payload

/-- The frame length of a packet on a link whose partner accepts `exts`. -/
def pktLen (p : Pkt) (exts : Nat) : Nat :=
  32 + (encodeHdrs (p.hdrs.filter fun h => bit exts h.typ)).length + p.payload.length

/-! ### Blocks (R135, R136) -/

/-- The link-control fields, bytes 16-31 of every control block except CAP (R136). -/
def ctlFields (c : Ctl) : List Byte :=
  natLe 2 c.ack ++ zeros 2 ++ natLe 2 c.freed.req ++ natLe 2 c.freed.data ++ natLe 2 c.freed.rsp ++ natLe 2 c.freed.urg ++ zeros 4

/-- A control block: its type, its bytes 1-15 and the link-control fields (R136). -/
def controlBlock (typ : Nat) (body : List Byte) (c : Ctl) : Block := { data := false, bytes := natLe 1 typ ++ body ++ ctlFields c }

def idleBlock (c : Ctl) : Block := controlBlock 0x00 (zeros 15) c

def startBlock (vc : Vc) (len seq : Nat) (c : Ctl) : Block :=
  controlBlock 0x01 (natLe 1 (vcCode vc) ++ natLe 2 len ++ natLe 2 seq ++ zeros 10) c

def endBlock (crc : Nat) (c : Ctl) : Block := controlBlock 0x02 (zeros 3 ++ natLe 4 crc ++ zeros 8) c

def nakBlock (seq : Nat) (c : Ctl) : Block := controlBlock 0x03 (zeros 3 ++ natLe 2 seq ++ zeros 10) c

def downBlock (c : Ctl) : Block := controlBlock 0x04 (zeros 15) c

def capBlock (bytes : List Byte) : Block := { data := false, bytes := bytes }

/-- The data blocks of a frame: 32 bytes each, the last padded with zeros (R135). -/
def dataBlocks (f : List Byte) : List Block :=
  (List.range (ceilDiv f.length 32)).map fun i => { data := true, bytes := (slice (32 * i) 32 f ++ zeros 32).take 32 }

/-- A frame as blocks: START, data blocks, END with the CRC-32C of the frame bytes (R135, R136). -/
def frameBlocks (vc : Vc) (seq : Nat) (f : List Byte) (c : Ctl) : List Block :=
  startBlock vc f.length seq c :: dataBlocks f ++ [endBlock (crc32c f) c]

/-! ### Reading a frame -/

def frameSes (f : List Byte) : Nat := bits (fieldAt f 10 2) 0 9
def frameQp (f : List Byte) : Nat := bits (fieldAt f 10 2) 9 6
def frameNoses (f : List Byte) : Bool := bit (fieldAt f 10 2) 15
def frameVc (f : List Byte) : Nat := bits (fieldAt f 1 1) 0 2
def frameOlink (f : List Byte) : Nat := bits (fieldAt f 1 1) 2 6
def frameDst (f : List Byte) : Nat := fieldAt f 12 4
def frameSrc (f : List Byte) : Nat := fieldAt f 16 4
def frameTag (f : List Byte) : Nat := fieldAt f 20 4
def frameArg (f : List Byte) : Nat := fieldAt f 24 8
def frameTyp (f : List Byte) : Nat := fieldAt f 0 1
def framePayload (f : List Byte) : List Byte := slice (fieldAt f 6 2) (fieldAt f 8 2) f

/-- X, Y and Z of a coordinate (R155). -/
def xyz (c : Nat) : Nat := c % 2 ^ 24

/-- HCRC is right (R157). -/
def hcrcOk (f : List Byte) : Bool := crc8 (splice (f.take 32) 3 [0]) == fieldAt f 3 1

def frameIdent (f : List Byte) : Ident :=
  { typ := frameTyp f, ses := frameSes f, qp := frameQp f, tag := frameTag f, arg := frameArg f }

/-- How a header walk ends. -/
inductive Walk where
  | ok (pos : Nat) (hdrs : List ExtHdr)
  | depth
  | length
  | typ
deriving DecidableEq, Repr

/-- The size of a header of type `t` at `pos` (R164, R169). -/
def hdrSize (f : List Byte) (t pos : Nat) : Nat :=
  match t with
  | 3 => 8 * ceilDiv (4 + fieldAt f (pos + 2) 1) 8
  | 4 => 32
  | _ => 16

/-- The extension-header loop of R169; the fuel is the depth limit, plus the turn that finds it exceeded. -/
def walkHdrs (f : List Byte) (len : Nat) : Nat → Nat → Nat → List ExtHdr → Walk
  | fuel, pos, next, seen =>
    if next = 0 then .ok pos seen.reverse
    else
      match fuel with
      | 0 => .depth
      | n + 1 =>
        if next > 6 || seen.any (fun h => h.typ == next) then .typ
        else if pos + 8 > len then .length
        else
          let size := 8 * fieldAt f (pos + 1) 1
          if size ≠ hdrSize f next pos || pos + size > len then .length
          else walkHdrs f len n (pos + size) (fieldAt f pos 1) ({ typ := next, body := slice (pos + 2) (size - 2) f } :: seen)

/-- The walk of a packet's extension headers. -/
def frameWalk (f : List Byte) : Walk := walkHdrs f f.length 6 32 (fieldAt f 2 1) []

/-- The headers framed before a walk stopped, for the echo of a REJECT (log 22). -/
def framedHdrs (f : List Byte) (len : Nat) : Nat → Nat → Nat → List ExtHdr
  | 0, _, _ => []
  | n + 1, pos, next =>
    if next = 0 || next > 6 || pos + 8 > len then []
    else
      let size := 8 * fieldAt f (pos + 1) 1
      if size ≠ hdrSize f next pos || pos + size > len then []
      else { typ := next, body := slice (pos + 2) (size - 2) f } :: framedHdrs f len n (pos + size) (fieldAt f pos 1)

def findHdr (t : Nat) (hs : List ExtHdr) : Option ExtHdr := hs.find? fun h => h.typ == t

/-- A ROUTE body with its hop ports in reverse order (R166). -/
def reverseRoute (b : List Byte) : List Byte :=
  let n := min (fieldAt b 0 1) 12
  b.take 2 ++ (slice 2 n b).reverse ++ b.drop (2 + n)

/-- The ROUTE and TUNNEL headers to echo (R166). -/
def echoHdrs (route tunnel : Option (List Byte)) : List ExtHdr :=
  (match route with
   | some b => [{ typ := 1, body := reverseRoute b }]
   | none => []) ++
  (match tunnel with
   | some b => [{ typ := 2, body := b }]
   | none => [])

/-- The key a KEY header body (bytes 2 onward) holds. -/
def keyOfBody (b : List Byte) : List Byte := slice 2 (fieldAt b 0 1) b

/-! ### Parsing rules that need no state -/

/-- The types the KS-480 receives (R158). -/
def receivedType (t : Nat) : Bool := [0x01, 0x04, 0x06, 0x08, 0x0A, 0x0C].contains t

/-- Channels allowed for a type (R158). -/
def vcAllowed (t vc : Nat) : Bool :=
  match t with
  | 0x01 => vc == 0 || vc == 3
  | 0x04 => vc == 1
  | 0x06 => vc == 0 || vc == 3
  | 0x08 => vc == 1
  | 0x0A => vc == 0
  | 0x0C => vc == 2
  | _ => false

/-- Payload lengths allowed for a type other than READ_DATA (R158). -/
def dlenAllowed (t dlen : Nat) (write : Bool) : Bool :=
  match t with
  | 0x01 => dlen == 48
  | 0x04 => decide (1 ≤ dlen) && decide (dlen ≤ 8192)
  | 0x06 => dlen == 0
  | 0x08 => decide (1 ≤ dlen) && decide (dlen ≤ 8192)
  | 0x0A => dlen == (if write then 4 else 0)
  | 0x0C => dlen == 0
  | _ => false

/-- Types that need a session (R169). -/
def needsSession (t : Nat) : Bool := [0x01, 0x04, 0x06, 0x08].contains t

/-- The FX codes. -/
def fxDepth : Nat := 1
def fxLength : Nat := 2
def fxNotMine : Nat := 3
def fxBadVc : Nat := 4
def fxBadType : Nat := 5
def fxNoSession : Nat := 6

/-! ### CAP blocks -/

/-- The fields of a CAP block (R173). -/
structure CapBlock where
  major : Nat
  minor : Nat
  role : Bool
  ack : Bool
  urg : Bool
  coord : Nat
  offer : Nat
  epoch : Nat
  cred : Cred
  maxLen : Nat
  exts : Nat
  crcOk : Bool
deriving DecidableEq, Repr

def parseCap (b : List Byte) : CapBlock :=
  { major := bits (fieldAt b 1 1) 0 4, minor := bits (fieldAt b 1 1) 4 4, role := bit (fieldAt b 2 1) 0,
    ack := bit (fieldAt b 2 1) 1, urg := bit (fieldAt b 3 1) 0, coord := fieldAt b 4 4, offer := fieldAt b 8 4,
    epoch := fieldAt b 12 4,
    cred := { req := fieldAt b 16 2, data := fieldAt b 18 2, rsp := fieldAt b 20 2, urg := fieldAt b 22 2 },
    maxLen := fieldAt b 24 2, exts := fieldAt b 26 2, crcOk := crc16 (b.take 30) == fieldAt b 30 2 }

/-- The credits the KS-480 advertises (R148). -/
def ownCredits : Cred := { req := 64, data := 256, rsp := 64, urg := 32 }

/-- A CAP block of the KS-480 (R173, R175). -/
def ownCap (ack : Bool) (coord epoch : Nat) : List Byte :=
  let body := natLe 1 0x10 ++ natLe 1 0x01 ++ natLe 1 (2 * b2n ack) ++ natLe 1 3 ++ natLe 4 coord ++ natLe 4 0xFFFFFFFF ++
    natLe 4 epoch ++ natLe 2 64 ++ natLe 2 256 ++ natLe 2 64 ++ natLe 2 32 ++ natLe 2 8448 ++ natLe 2 0x7E ++ natLe 2 0
  body ++ natLe 2 (crc16 body)

/-- Partner credits within R149. -/
def capCreditsOk (c : Cred) : Bool :=
  decide (33 ≤ c.data) && decide (2 ≤ c.req) && decide (2 ≤ c.rsp) && decide (2 ≤ c.urg)

end Sys2Proof.Machine
end

