-- ==== Sys2Proof/Machine/Memory.lean ====
section
/-! DEFINITION. The boot flash as memory (R775): a list of (address, byte) cells in one canonical form. An unlisted address
reads as an erased byte, 0xFF (log 15). -/

namespace Sys2Proof.Machine

open Sys2Proof

/-- What an address no cell lists reads as. -/
def Memory.erased : Byte := 0xFF

/-- The size of the boot flash the spec lays out (R774, R775). -/
def Memory.size : Nat := 0x4000000

/-- The byte at an address. -/
def Memory.read (m : List Host.Cell) (a : Nat) : Byte :=
  match m with
  | [] => Memory.erased
  | (b, v) :: r => if b = a then v else Memory.read r a

/-- The memory with the byte `v` at `a`: writing the erased byte removes the cell. -/
def Memory.write (m : List Host.Cell) (a : Nat) (v : Byte) : List Host.Cell :=
  match m with
  | [] => if v = Memory.erased then [] else [(a, v)]
  | (b, w) :: r =>
    if a < b then (if v = Memory.erased then (b, w) :: r else (a, v) :: (b, w) :: r)
    else if a = b then (if v = Memory.erased then r else (a, v) :: r)
    else (b, w) :: Memory.write r a v

/-- The canonical form above a bound: addresses strictly rising, no cell erased. -/
def Memory.wfFrom : Nat → List Host.Cell → Bool
  | _, [] => true
  | lo, (a, v) :: r => decide (lo ≤ a) && decide (v ≠ Memory.erased) && Memory.wfFrom (a + 1) r

/-- The canonical form. -/
def Memory.wf (m : List Host.Cell) : Bool := Memory.wfFrom 0 m

def Memory.readBytes (m : List Host.Cell) (a : Nat) : Nat → List Byte
  | 0 => []
  | n + 1 => Memory.read m a :: Memory.readBytes m (a + 1) n

/-- The bytes stored at `a` and up. -/
def Memory.writeBytes (m : List Host.Cell) (a : Nat) : List Byte → List Host.Cell
  | [] => m
  | b :: bs => Memory.writeBytes (Memory.write m a b) (a + 1) bs

/-- NOR programming: each bit can only be cleared (log 15). -/
def Memory.program (m : List Host.Cell) (a : Nat) : List Byte → List Host.Cell
  | [] => m
  | b :: bs => Memory.program (Memory.write m a (Memory.read m a &&& b)) (a + 1) bs

/-- The memory with every cell of [lo, hi) erased. -/
def Memory.erase (m : List Host.Cell) (lo hi : Nat) : List Host.Cell :=
  m.filter fun c => decide (c.1 < lo) || decide (hi ≤ c.1)

end Sys2Proof.Machine
end

