-- ==== Sys2Proof/Machine/Ops.lean ====
section
/-! DEFINITION. The named operations that every family of commands shares: records by number, what the device has present
(R8–R13), events and interrupts, sending frames over a link with credits, and which links serve a session. -/

namespace Sys2Proof.Machine

open Sys2Proof

/-! ### Records by number -/

def Dev.link (d : Dev) (n : Nat) : Link := SMap.get d.links n Link.reset
def Dev.updLink (d : Dev) (n : Nat) (f : Link → Link) : Dev := { d with links := SMap.upd d.links n Link.reset f }
def Dev.ses (d : Dev) (n : Nat) : Session := SMap.get d.sessions n Session.reset
def Dev.updSes (d : Dev) (n : Nat) (f : Session → Session) : Dev :=
  { d with sessions := SMap.upd d.sessions n Session.reset f }
def Dev.qp (d : Dev) (n : Nat) : Qp := SMap.get d.qps n Qp.reset
def Dev.updQp (d : Dev) (n : Nat) (f : Qp → Qp) : Dev := { d with qps := SMap.upd d.qps n Qp.reset f }
def Dev.stall (d : Dev) (n : Nat) : Stall := SMap.get d.stalls n Stall.reset
def Dev.updStall (d : Dev) (n : Nat) (f : Stall → Stall) : Dev := { d with stalls := SMap.upd d.stalls n Stall.reset f }
def Dev.barn (d : Dev) (n : Nat) : Barn := SMap.get d.barns n Barn.reset
def Dev.updBarn (d : Dev) (n : Nat) (f : Barn → Barn) : Dev := { d with barns := SMap.upd d.barns n Barn.reset f }
def Dev.pad (d : Dev) (n : Nat) : Paddock := SMap.get d.paddocks n Paddock.reset
def Dev.updPad (d : Dev) (n : Nat) (f : Paddock → Paddock) : Dev :=
  { d with paddocks := SMap.upd d.paddocks n Paddock.reset f }
def Dev.wmk (d : Dev) (n : Nat) : Wmk := SMap.get d.wmks n (Wmk.reset n)
def Dev.updWmk (d : Dev) (n : Nat) (f : Wmk → Wmk) : Dev := { d with wmks := SMap.upd d.wmks n (Wmk.reset n) f }
def Dev.shape (d : Dev) (n : Nat) : ShapeEnt := SMap.get d.shapes n ShapeEnt.reset
def Dev.updShape (d : Dev) (n : Nat) (f : ShapeEnt → ShapeEnt) : Dev :=
  { d with shapes := SMap.upd d.shapes n ShapeEnt.reset f }

/-- The number of an access path (R861). -/
def pathKey : Path → Nat
  | .pcie => 0
  | .pliop => 1
  | .link n => n + 2

def Dev.path (d : Dev) (p : Path) : PathSt := SMap.get d.paths (pathKey p) PathSt.reset
def Dev.updPath (d : Dev) (p : Path) (f : PathSt → PathSt) : Dev :=
  { d with paths := SMap.upd d.paths (pathKey p) PathSt.reset f }

def Dev.findCmd (d : Dev) (c : Nat) : Option Cmd := d.cmds.find? fun x => x.id == c

/-- The command with identifier `c` changed by `f`. -/
def Dev.updCmd (d : Dev) (c : Nat) (f : Cmd → Cmd) : Dev :=
  { d with cmds := d.cmds.map fun x => if x.id = c then f x else x }

/-- The paddock id a body names (R271). -/
def Body.pad (b : Body) : Nat := b.paddock % 4096

def Dev.dropCmd (d : Dev) (c : Nat) : Dev := { d with cmds := d.cmds.filter fun x => x.id != c }

/-- Device queue pair of queue pair q of session s (R230). -/
def dqp (s q : Nat) : Nat := 64 * s + q

/-- A command finds the device stopped: nothing happens while RESET_N is low (R729, R766); with RESET_N high, a rail is absent and
behaviour is undefined (R730). -/
def State.held (s : State) : Host.Outcome State Fault Refusal := if s.dev.glb.railOut then .fault .railAbsent else .next s

/-- A command whose whole effect is on the device. -/
def State.run (s : State) (f : Dev → Dev) : Host.Outcome State Fault Refusal :=
  if s.dev.glb.resetN then .next { s with dev := f s.dev } else s.held

/-- A command that acts on the boot flash or the stored copies too. -/
def State.runAll (s : State) (f : State → State) : Host.Outcome State Fault Refusal :=
  if s.dev.glb.resetN then .next (f s) else s.held

/-! ### What is present -/

/-- The variant code of the fuses (R770). -/
def Dev.variant (d : Dev) : Nat := bits d.fuses.variantWord.toNat 0 4

/-- Present stalls (R11). DESIGN CHOICE (log 75): the reserved VARIANT codes 4 to 15 act as code 0, a KS-480, here and in the other
functions of the code. -/
def stallPresent (variant s : Nat) : Bool :=
  let x := s % 8
  let y := s % 64 / 8
  decide (s < 256) &&
  match variant with
  | 1 => (x + y) % 4 != 3
  | 2 => (x + y) % 2 == 0
  | 3 => (x + y) % 4 == 0
  | _ => true

/-- Present links per gatehouse (R13). -/
def linksPerGatehouse (variant : Nat) : Nat :=
  match variant with
  | 1 => 18
  | 2 => 12
  | 3 => 6
  | _ => 24

def linkPresent (variant n : Nat) : Bool := decide (n < 48) && decide (n % 24 < linksPerGatehouse variant)

/-- Default governor cap in W (R8). -/
def capOf (variant : Nat) : Nat :=
  match variant with
  | 1 => 480
  | 2 => 360
  | 3 => 250
  | _ => 600

/-- ARB_UREF in GB/s (R8). -/
def urefOf (variant : Nat) : Nat :=
  match variant with
  | 1 => 3600
  | 2 => 2400
  | 3 => 1200
  | _ => 4800

/-- PCIe device ID (R8). -/
def deviceIdOf (variant : Nat) : Nat :=
  match variant with
  | 1 => 0x0360
  | 2 => 0x0240
  | 3 => 0x0120
  | _ => 0x0480

/-- A die passed discovery, or discovery has not run (R778, R779). -/
def Dev.dieOk (d : Dev) (die : Nat) : Bool := d.bru.dies.getD die 0 == 0

/-- Barn b was found, and can be reached over a bundle (R124, R779). -/
def Dev.barnReached (d : Dev) (b : Nat) : Bool :=
  d.dieOk b && (List.range 16).any fun i => (d.bru.bundles[16 * b + i]?).all fun x => x.1

/-- Available stalls: present, of a barn that was found, and not lost at training (R786). -/
def Dev.stallAvail (d : Dev) (s : Nat) : Bool :=
  stallPresent d.variant s && d.dieOk (s / 64) && !(d.bru.unavailable.any fun u => u.1 == s)

def Dev.availStalls (d : Dev) : List Nat := (List.range 256).filter d.stallAvail

def Dev.presentLinks (d : Dev) : List Nat := (List.range 48).filter (linkPresent d.variant)

/-- Bundles of gatehouse port p of gatehouse g (R99, R798). -/
def gatehouseBundles (g p : Nat) : List Nat := [64 + 12 * g + 2 * p, 64 + 12 * g + 2 * p + 1]

def Dev.bundleIn (d : Dev) (b : Nat) : Bool :=
  match d.bru.bundles[b]? with
  | some x => x.1
  | none => true

/-- A gatehouse that was found and has a bundle in service on some port (R101, R127). DESIGN CHOICE (log 75): a port whose four links
are all fused (R115) counts as one that may take the traffic of another. -/
def Dev.gatehousePath (d : Dev) (g : Nat) : Bool :=
  d.dieOk (4 + g) && (List.range 12).any fun i => d.bundleIn (64 + 12 * g + i)

/-! ### Outputs, interrupts, events -/

def Dev.emit (d : Dev) (o : Output) : Dev := { d with out := d.out ++ [o] }

/-- A memory request of the PCIe endpoint: dropped while the link is down, waiting while bus mastering is off (R830, R831). -/
def Dev.pcieSend (d : Dev) (o : PcieOut) : Dev :=
  if !d.pcie.up then d
  else if !d.pcie.busMaster then { d with pcie := { d.pcie with waiting := d.pcie.waiting ++ [o] } }
  else d.emit (.pcie o)

/-- MSI-X vector v: sent, or pending once while bus mastering is off (R830). -/
def Dev.msix (d : Dev) (v : Nat) : Dev :=
  if !d.pcie.up then d
  else if d.pcie.busMaster then d.emit (.pcie (.msix v))
  else if d.pcie.pendingVec.contains v then d
  else { d with pcie := { d.pcie with pendingVec := d.pcie.pendingVec ++ [v] } }

/-- An event record is made: it enters the queue 1 µs later (R837, R838). -/
def Dev.event (d : Dev) (code source d0 d1 d2 : Nat) : Dev :=
  { d with evq := { d.evq with
      staged := d.evq.staged ++
        [{ stamp := d.now % 2 ^ 64, code := code, source := source, seq := d.evq.seq, d0 := d0, d1 := d1, d2 := d2 }],
      seq := (d.evq.seq + 1) % 2 ^ 32 } }

/-- The events of the event queue (R842). -/
inductive Ev where
  | bruReady
  | wmk
  | bndOut
  | clkUnlock
  | linkDown
  | sesFault
  | camParity
  | eccCorr
  | eccUe
  | eccBucket
  | eccRemap
  | loftDegraded
  | chkFail
  | chkEntropy
  | shedStageLost
  | pwrHot
  | pwrTrip
  | pwrResume
  | pwrSensor
deriving DecidableEq, Repr

/-- The CODE of an event record (R842). -/
def Ev.code : Ev → Nat
  | .bruReady => 0x0001
  | .wmk => 0x0002
  | .bndOut => 0x0010
  | .clkUnlock => 0x0011
  | .linkDown => 0x0012
  | .sesFault => 0x0013
  | .camParity => 0x0020
  | .eccCorr => 0x0021
  | .eccUe => 0x0022
  | .eccBucket => 0x0023
  | .eccRemap => 0x0024
  | .loftDegraded => 0x0025
  | .chkFail => 0x0030
  | .chkEntropy => 0x0031
  | .shedStageLost => 0x0040
  | .pwrHot => 0x0050
  | .pwrTrip => 0x0051
  | .pwrResume => 0x0052
  | .pwrSensor => 0x0053

/-- A fresh index for a free value (log 3). -/
def Dev.draw (d : Dev) : Nat × Dev := (d.free, { d with free := d.free + 1 })

/-- A fresh identifier (log 4). -/
def Dev.fresh (d : Dev) : Nat × Dev := (d.nextId, { d with nextId := d.nextId + 1 })

/-! ### Sessions and their links -/

/-- Link n serves session s (R213). -/
def Dev.serves (d : Dev) (s n : Nat) : Bool :=
  linkPresent d.variant n && bit (d.ses s).lset n && (d.link n).st == .active &&
    xyz (d.link n).pcoord == (d.ses s).coord && !(d.ses s).pcie

def Dev.servingLinks (d : Dev) (s : Nat) : List Nat := (List.range 48).filter (d.serves s)

/-- The session's current link, chosen afresh when it has stopped serving (R222). -/
def Dev.refreshClink (d : Dev) (s : Nat) : Dev :=
  if !(d.ses s).clinkNone && d.serves s (d.ses s).clink then d
  else
    match d.servingLinks s with
    | [] => d.updSes s fun x => { x with clinkNone := true }
    | n :: _ => d.updSes s fun x => { x with clink := n, clinkNone := false }

def Dev.held (d : Dev) (s : Nat) : Bool := (d.ses s).hold.isSome

/-! ### Sending on a link -/

/-- SRC of frames sent on link n (R154). -/
def Dev.srcOf (d : Dev) (n : Nat) : Nat := d.lnkc.coord % 2 ^ 24 + 2 ^ 24 * n

/-- Available credit of a channel (R147). -/
def Link.credit (l : Link) (v : Vc) : Nat :=
  (credGet l.pcred v + credGet l.partnerFreed v + (65536 - credGet l.used v)) % 65536

def Link.unackedBytes (l : Link) : Nat := (l.unacked.map TxFrame.len).sum

/-- A new frame of `len` bytes fits the replay limits (R141). -/
def Link.replayRoom (l : Link) (len : Nat) : Bool :=
  decide (l.unacked.length < 1024) && decide (l.unackedBytes + len ≤ 131072)

/-- The oldest queued packet whose channel has no older one and credit enough, with the queue without it (R144, R147). -/
def pickPkt (l : Link) : List Vc → List Pkt → Option (Pkt × List Pkt)
  | _, [] => none
  | blocked, p :: r =>
    if !blocked.contains p.vc && decide (creditCost (pktLen p l.pexts) ≤ l.credit p.vc) &&
        l.replayRoom (pktLen p l.pexts) then some (p, r)
    else (pickPkt l (p.vc :: blocked) r).map fun x => (x.1, p :: x.2)

/-- The deadline of a grant or READ sent now (R294). -/
def Dev.dataDue (d : Dev) : Nat := d.now + d.arb.dataTo * 1000000

/-- The data timers start when a READ or a grant is sent; one that runs goes on when the frame moves to another link (R294,
R295). -/
def Dev.startTimer (d : Dev) (n : Nat) (p : Pkt) : Dev :=
  match p.owner with
  | .read t =>
    { d with reads := d.reads.map fun r => if r.tag = t then { r with due := some (r.due.getD d.dataDue), link := n } else r }
  | .grant c => d.updCmd c fun x =>
      { x with grants := x.grants.map fun g => if g.off = p.arg % 2 ^ 37 then { g with due := some (g.due.getD d.dataDue) } else g }
  | _ => d

/-- The link-control fields a link sends (R136). -/
def Link.ctl (l : Link) : Ctl := { ack := (l.rxSeq + 65535) % 65536, freed := l.freed }

/-- One packet leaves as a frame with the next link sequence number; it carries the link-control fields (R137, R142). -/
def Dev.sendFrame (d : Dev) (n : Nat) (p : Pkt) : Dev :=
  let l := d.link n
  let bytes := encodePkt p (d.srcOf n) l.pexts
  let d := d.updLink n fun l =>
    { l with txSeq := (l.txSeq + 1) % 65536, used := credBump l.used p.vc (creditCost bytes.length),
             unacked := l.unacked ++ [{ seq := l.txSeq, pkt := p, len := bytes.length, tries := 0 }],
             ackAt := if l.unacked.isEmpty then d.now else l.ackAt, ctlDirty := false, ctlAt := d.now,
             transit := l.transit ++ [{ toLink := true, ch := vcCode p.vc, bytes := bytes }] }
  (d.emit (.frame n (frameBlocks p.vc l.txSeq bytes l.ctl))).startTimer n p

def pumpLoop : Nat → Dev → Nat → Dev
  | 0, d, _ => d
  | k + 1, d, n =>
    match pickPkt (d.link n) [] (d.link n).queue with
    | none => d
    | some (p, rest) => pumpLoop k ((d.updLink n fun l => { l with queue := rest }).sendFrame n p) n

/-- Every queued frame that credit and the replay limits allow is sent. -/
def Dev.pump (d : Dev) (n : Nat) : Dev :=
  if (d.link n).st = .active then pumpLoop (d.link n).queue.length d n else d

/-- A packet joins a link's queue. -/
def Dev.enqueue (d : Dev) (n : Nat) (p : Pkt) : Dev :=
  (d.updLink n fun l => { l with queue := l.queue ++ [p] }).pump n

/-- The channel of RESPONSE, READY and NOTIFY (R160). -/
def Dev.rspVc (d : Dev) (n : Nat) (urgent : Bool) : Vc := if urgent && (d.link n).urg then .urg else .rsp

/-- A packet of a session; DST is the session's requester coordinate (log 23). -/
def Dev.sesPkt (d : Dev) (typ : Nat) (vc : Vc) (s q tag arg : Nat) (hdrs : List ExtHdr) (payload : List Byte)
    (owner : Owner) : Pkt :=
  { typ := typ, vc := vc, olink := 0x3F, noses := false, ses := s, qp := q, dst := (d.ses s).coord, src := 0, tag := tag,
    arg := arg, hdrs := hdrs, payload := payload, owner := owner }

/-- A packet of a session goes to its current link, or joins its held frames; with neither it is discarded (R186, R187,
R223). -/
def Dev.sendSes (d : Dev) (s : Nat) (p : Pkt) : Dev :=
  match (d.ses s).hold with
  | some h => d.updSes s fun x => { x with hold := some { h with frames := h.frames ++ [p] } }
  | none =>
    let d := d.refreshClink s
    if (d.ses s).clinkNone then d else d.enqueue (d.ses s).clink p

/-- The serving link with the fewest DATA bytes queued, the lower number on a tie (R224). -/
def Dev.dataQueued (d : Dev) (n : Nat) : Nat :=
  (((d.link n).queue.filter fun p => p.vc == .data).map fun p => p.payload.length).sum

def bestLink (d : Dev) : List Nat → Option Nat
  | [] => none
  | n :: r =>
    match bestLink d r with
    | none => some n
    | some m => if d.dataQueued m < d.dataQueued n then some m else some n

/-- Link n still carries the session's requester, whatever the link set says now (R265). -/
def Dev.reaches (d : Dev) (s n : Nat) : Bool :=
  linkPresent d.variant n && (d.link n).st == .active && xyz (d.link n).pcoord == (d.ses s).coord && !(d.ses s).pcie

/-- The link for the next pieces of 64 KiB part `i` of a command's output: the one chosen for that part while it is live, the
session's current link once that one has stopped, and a fresh choice for a part not begun (R224, R265). -/
def Dev.partLink (d : Dev) (cid s i : Nat) : Option Nat × Dev :=
  match (d.findCmd cid).bind Cmd.segLink with
  | some (j, n) =>
    if j ≠ i then (bestLink d (d.servingLinks s), d)
    else if n < 48 && d.reaches s n then (some n, d)
    else
      let d := d.refreshClink s
      (if (d.ses s).clinkNone then none else some (d.ses s).clink, d)
  | none => (bestLink d (d.servingLinks s), d)

/-- Packets that carry pieces of one 64 KiB part of a command's output leave on that part's link, or join the held frames
(R187, R224). -/
def Dev.sendPart (d : Dev) (cid s i : Nat) (ps : List Pkt) : Dev :=
  match (d.ses s).hold with
  | some h =>
    (d.updCmd cid fun c => { c with segLink := some (i, 64) }).updSes s fun x => { x with hold := some { h with frames := h.frames ++ ps } }
  | none =>
    match d.partLink cid s i with
    | (none, d) => d
    | (some n, d) => ps.foldl (fun d p => d.enqueue n p) (d.updCmd cid fun c => { c with segLink := some (i, n) })

/-! ### Frames not yet acknowledged -/

/-- Frames of a session's hold. -/
def Session.heldFrames (x : Session) : List Pkt :=
  match x.hold with
  | some h => h.frames
  | none => []

/-- Every frame sent and not acknowledged, queued or held. -/
def Dev.openFrames (d : Dev) : List Pkt :=
  (d.links.flatMap fun l => l.2.unacked.map TxFrame.pkt ++ l.2.queue) ++ d.sessions.flatMap fun s => s.2.heldFrames

/-- Every frame that belongs to `o` has been acknowledged (R225, R226). -/
def Dev.allAcked (d : Dev) (o : Owner → Bool) : Bool := !(d.openFrames.any fun p => o p.owner)

/-- The link-control fields of a link have changed (R142). -/
def Link.touch (now : Nat) (l : Link) : Link := if l.ctlDirty then l else { l with ctlDirty := true, ctlAt := now }

/-- A frame's credits are freed (R146). -/
def Dev.freeCredits (d : Dev) (n : Nat) (vc : Vc) (len : Nat) : Dev :=
  d.updLink n fun l => ({ l with freed := credBump l.freed vc (creditCost len) }).touch d.now

/-! ### TAGs of READs and WRITEs -/

def skipTags (reads : List OutRead) : Nat → Nat → Nat
  | 0, t => t
  | k + 1, t => if reads.any fun r => r.tag == t then skipTags reads k ((t + 1) % 2 ^ 32) else t

/-- The next TAG, skipping those of outstanding READs (R922). -/
def Dev.takeTag (d : Dev) : Nat × Dev :=
  let t := skipTags d.reads (d.reads.length + 1) d.nextTag
  (t, { d with nextTag := (t + 1) % 2 ^ 32 })

/-- The tag of a new READ, or of a PCIe memory read: those are no READs, and are told apart by numbers of their own above the
32-bit TAGs (R922, log 71). -/
def Dev.readTag (d : Dev) (pcie : Bool) : Nat × Dev :=
  if pcie then (2 ^ 32 + d.pcie.issued, { d with pcie := { d.pcie with issued := d.pcie.issued + 1 } }) else d.takeTag

/-- A READ of `len` bytes at `addr`, as a frame or a PCIe read (R223, R293). -/
def Dev.sendRead (d : Dev) (s q addr len : Nat) (hdrs : List ExtHdr) (what : ReadFor) : Dev :=
  let (t, d) := d.readTag (d.ses s).pcie
  let r : OutRead := { tag := t, ses := s, qp := q, addr := addr, len := len, what := what, due := none, acked := false, link := 0 }
  let d := { d with reads := d.reads ++ [r] }
  if (d.ses s).pcie then
    let d : Dev := { d with reads := d.reads.map fun x => if x.tag = t then { x with due := some d.dataDue } else x }
    d.pcieSend (.read t addr len)
  else d.sendSes s (d.sesPkt 0x07 .req s q t addr hdrs (natLe 8 len) (.read t))

/-- Saturating counters of a session. -/
def Dev.countLost (d : Dev) (s : Nat) : Dev := d.updSes s fun x => { x with lost := sat1 x.lost }

end Sys2Proof.Machine
end

