-- ==== Sys2Proof/Machine/Fabric.lean ====
section
/-! DEFINITION. Inside the package (R90–R127): ports and bundles, the flits of a packet, what a bundle keeps until it is acknowledged,
and the queues of the yard crossbar. Packets go on at ticks (log 74). -/

namespace Sys2Proof.Machine

open Sys2Proof

/-! ### Ports and bundles (R93, R98–R101, R110) -/

/-- Crossbar ports of the yard's own units (R110). -/
def portFrontEnd : Nat := 28
def portCheck : Nat := 29
def portShed : Nat := 30

/-- The crossbar port of the home edge port of a stall (R93, R110). -/
def stallPort (s : Nat) : Nat := 4 * (s / 64) + s % 8 / 2

/-- The gatehouse port that serves a link (R100), and its crossbar port (R110). -/
def linkPort (n : Nat) : Nat := 16 + 6 * (n / 24) + n % 24 / 4

/-- The bundles behind a crossbar port (R98, R99). -/
def portBundles (p : Nat) : List Nat :=
  if p < 16 then (List.range 4).map fun i => 16 * (p / 4) + 4 * (p % 4) + i
  else if p < 28 then gatehouseBundles ((p - 16) / 6) ((p - 16) % 6)
  else []

def Dev.portServing (d : Dev) (p : Nat) : List Nat := (portBundles p).filter d.bundleIn

/-- The ports that may carry a port's traffic, in the order they are tried: the nearest edge port, the lower one on a tie (R94); the
next higher gatehouse port, wrapping (R101; a port whose own links are all fused counts too: DESIGN CHOICE, log 75). -/
def portsFor (p : Nat) : List Nat :=
  if p < 16 then
    let b := p / 4 * 4
    let e := p % 4
    ([e] ++ (List.range 3).flatMap fun k => (if k < e then [e - 1 - k] else []) ++ (if e + 1 + k < 4 then [e + 1 + k] else [])).map (b + ·)
  else if p < 28 then
    let g := 16 + 6 * ((p - 16) / 6)
    (List.range 6).map fun k => g + ((p - 16) % 6 + k) % 6
  else [p]

/-- The port that carries the traffic of a port: itself while it has a bundle in service, else its fallback (R94, R101). -/
def Dev.servedPort (d : Dev) (p : Nat) : Option Nat := (portsFor p).find? fun q => decide (28 ≤ q) || !(d.portServing q).isEmpty

/-- The edge port, 0 to 3, that the yard traffic of a stall uses (R94). -/
def Dev.edgePort (d : Dev) (s : Nat) : Nat := ((d.servedPort (stallPort s)).getD (stallPort s)) % 4

/-- The bundle a packet takes at a port: entry (route tag mod m) of the port's bundles in service (R109). -/
def Dev.bundleFor (d : Dev) (p tag : Nat) : Option Nat :=
  (d.servedPort p).bind fun q =>
    let bs := d.portServing q
    bs[tag % bs.length]?

/-! ### Flits (R105) -/

def flitStart : Nat := 1
def flitMiddle : Nat := 2
def flitEnd : Nat := 3
def flitWhole : Nat := 4
def flitAck : Nat := 5
def flitNakType : Nat := 6

/-- The 256 bytes of a flit. -/
def Flit.bytes (f : Flit) : List Byte :=
  let head := natLe 1 (f.typ + 16 * f.ch) ++ natLe 1 f.payload.length ++ natLe 2 f.seq ++ natLe 2 f.ack ++ natLe 1 f.tag ++ [0] ++
    padTo 240 f.payload
  head ++ natLe 4 (crc32c head) ++ zeros 4

/-- The flit that 256 bytes hold, if its CRC matches (R105, R106). -/
def flitOfBytes (b : List Byte) : Option Flit :=
  if b.length = 256 ∧ fieldAt b 248 4 = crc32c (b.take 248) then
    some { typ := bits (fieldAt b 0 1) 0 4, ch := bits (fieldAt b 0 1) 4 4, seq := fieldAt b 2 2, ack := fieldAt b 4 2,
           tag := fieldAt b 6 1, payload := slice 8 (min 240 (fieldAt b 1 1)) b }
  else none

/-- The bytes of a packet in the payloads of its flits, with their types (R105). -/
def flitParts (bytes : List Byte) : List (Nat × List Byte) :=
  let ps := chunks 240 bytes
  match ps with
  | [] => [(flitWhole, [])]
  | [p] => [(flitWhole, p)]
  | _ => (List.zip (List.range ps.length) ps).map fun x =>
      (if x.1 = 0 then flitStart else if x.1 + 1 = ps.length then flitEnd else flitMiddle, x.2)

/-- The highest sequence number received in order from the other direction of a bundle: all but the flits that are still on their way,
5 ns each (R103, R105). -/
def BundleTx.received (x : BundleTx) (now : Nat) : Nat :=
  match x.kept.find? fun f => decide (now < f.1 + 5) with
  | some f => (f.2.seq + 65535) % 65536
  | none => (x.next + 65535) % 65536

def Dev.bundleTx (d : Dev) (k : Nat) : BundleTx := SMap.get d.bundles k BundleTx.reset

/-- A flit is sent in direction `k` (2 × bundle, + 1 towards the barn or gatehouse) and kept (R106). -/
def Dev.sendFlit (d : Dev) (k ch tag typ : Nat) (payload : List Byte) : Dev :=
  let x := d.bundleTx k
  let other := if k % 2 = 0 then k + 1 else k - 1
  let f : Flit := { typ := typ, ch := ch, seq := x.next, ack := (d.bundleTx other).received d.now, tag := tag, payload := payload }
  { d with bundles := SMap.put d.bundles k { x with next := (x.next + 1) % 65536, kept := x.kept ++ [(d.now, f)] } }

/-- Room for the flits of a packet: fewer than half the sequence numbers are in use (R114; log 74). -/
def BundleTx.room (x : BundleTx) : Bool := decide (x.kept.length < 32768)

/-- A packet crosses a bundle as flits, all on that bundle (R109). -/
def Dev.sendPacket (d : Dev) (k : Nat) (p : InPkt) : Dev :=
  (flitParts p.bytes).foldl (fun d x => d.sendFlit k p.ch p.tag x.1 x.2) d

/-- Acknowledgements: a flit sent 10 ns ago has arrived, and its acknowledgement has (R103, R106; log 74). -/
def BundleTx.acked (x : BundleTx) (now : Nat) : BundleTx := { x with kept := x.kept.dropWhile fun f => decide (f.1 + 10 ≤ now) }

/-- The flits of a bundle that has left service are resent in order on another bundle of their port, or of its fallback port (R108,
R126). -/
def Dev.moveFlits (d : Dev) (b : Nat) (towardsDie : Bool) : Dev :=
  let k := 2 * b + b2n towardsDie
  let port := if b < 64 then b / 4 else 16 + (b - 64) / 2
  let fs := (d.bundleTx k).kept
  let d : Dev := { d with bundles := SMap.put d.bundles k { d.bundleTx k with kept := [] } }
  fs.foldl (fun d f => match d.bundleFor port f.2.tag with
    | some c => d.sendFlit (2 * c + b2n towardsDie) f.2.ch f.2.tag f.2.typ f.2.payload
    | none => d) d

/-! ### The crossbar (R110–R114) -/

/-- A packet waits in the queue of its output port and channel (R112). -/
def Dev.toCrossbar (d : Dev) (p : InPkt) : Dev :=
  { d with fabric := { d.fabric with queues := SMap.upd d.fabric.queues (8 * p.dst + p.ch) [] fun q => q ++ [p] } }

/-- The first of `n` numbers after `last`, in turn, for which `p` holds. -/
def nextInTurn (n last : Nat) (p : Nat → Bool) : Option Nat := ((List.range n).map fun i => (last + 1 + i) % n).find? p

/-- The packet an output serves next: its channels in turn, and in a channel the inputs that wait in turn (R112). -/
def Fabric.nextPkt (f : Fabric) (out : Nat) : Option (Nat × InPkt) :=
  let q := fun ch => SMap.get f.queues (8 * out + ch) []
  (nextInTurn 5 (SMap.get f.lastCh out 4) fun ch => !(q ch).isEmpty).bind fun ch =>
    (nextInTurn 32 (SMap.get f.lastIn (8 * out + ch) 31) fun i => (q ch).any fun p => p.src == i).bind fun i =>
      ((q ch).find? fun p => p.src == i).map fun p => (ch, p)

/-- The first packet of input `src` leaves a queue. -/
def dropFirst (src : Nat) : List InPkt → List InPkt
  | [] => []
  | p :: r => if p.src = src then r else p :: dropFirst src r

/-- A packet has left through an output. -/
def Fabric.served (f : Fabric) (out ch : Nat) (p : InPkt) : Fabric :=
  let q := dropFirst p.src (SMap.get f.queues (8 * out + ch) [])
  { queues := if q.isEmpty then SMap.del f.queues (8 * out + ch) else SMap.put f.queues (8 * out + ch) q
    lastCh := SMap.put f.lastCh out ch, lastIn := SMap.put f.lastIn (8 * out + ch) p.src }

/-- An output of the crossbar serves one packet; it waits while what follows has no room (R112, R114). -/
def Dev.serveOutput (d : Dev) (out : Nat) : Dev :=
  match d.fabric.nextPkt out with
  | none => d
  | some (ch, p) =>
    let gone := fun (d : Dev) => ({ d with fabric := d.fabric.served out ch p } : Dev)
    if 28 ≤ out then gone d
    else
      match d.bundleFor out p.tag with
      | none => d
      | some b => if (d.bundleTx (2 * b + 1)).room then (gone d).sendPacket (2 * b + 1) p else d

/-- A packet from a barn or a gatehouse enters the yard: with route tag `tag` it crosses a bundle of the port that carries the traffic of
`port`, then joins its crossbar queue (R94, R101, R105, R109). -/
def Dev.intoYard (d : Dev) (port tag : Nat) (p : InPkt) : Dev :=
  match d.servedPort port, d.bundleFor port tag with
  | some q, some b => (d.sendPacket (2 * b) { p with tag := tag }).toCrossbar { p with src := q }
  | _, _ => d

/-- The way from a port into the yard is open: a bundle is in service and has room (R114, R124). -/
def Dev.wayOpen (d : Dev) (port tag : Nat) : Bool := (d.bundleFor port tag).any fun b => (d.bundleTx (2 * b)).room

/-- Frames that have passed between a link and the front end cross the package (R100, R117–R120). -/
def Dev.linkTransit (d : Dev) (n : Nat) : Dev :=
  match (d.link n).transit with
  | [] => d
  | x :: r =>
    let d := d.updLink n fun l => { l with transit := r }
    let p : InPkt := { src := portFrontEnd, dst := if x.toLink then linkPort n else portFrontEnd, ch := x.ch, tag := n, bytes := x.bytes }
    if x.toLink then d.toCrossbar p else d.intoYard (linkPort n) n p

/-- One tick of the package: acknowledgements arrive, every crossbar output serves a packet, and every link's oldest frame enters. -/
def Dev.fabricCycle (d : Dev) : Dev :=
  let d : Dev := { d with bundles := d.bundles.map fun e => (e.1, e.2.acked d.now) }
  let outs := d.fabric.queues.map fun q => q.1 / 8
  let d := ((List.range 32).filter fun o => outs.contains o).foldl Dev.serveOutput d
  ((d.links.filter fun l => !l.2.transit.isEmpty).map Prod.fst).foldl Dev.linkTransit d

end Sys2Proof.Machine
end

