-- ==== Sys2Proof/Machine/Ecc.lean ====
section
/-! DEFINITION. The loft code (R647–R650): what the loft controller makes of the symbol errors of one granule, worked out on
the error pattern alone, since the code is linear and the granule address is the right one for the granule read. -/

namespace Sys2Proof.Machine

open Sys2Proof

/-- Multiplication in GF(2^8) modulo x^8 + x^4 + x^3 + x^2 + 1 (R647); `k` bounds the bits of `b`. -/
def gfMulLoop : Nat → Nat → Nat → Nat → Nat
  | 0, _, _, r => r
  | k + 1, a, b, r =>
    gfMulLoop k (if a < 128 then a * 2 else (a * 2) ^^^ 0x11D) (b / 2) (if b % 2 = 1 then r ^^^ a else r)

def gfMul (a b : Nat) : Nat := gfMulLoop 8 a b 0

/-- α^n. -/
def gfPow : Nat → Nat
  | 0 => 1
  | n + 1 => gfMul 2 (gfPow n)

/-- The powers α^0 … α^71. -/
def gfPowers : Nat → Nat → List Nat
  | 0, _ => []
  | k + 1, a => a :: gfPowers k (gfMul 2 a)

/-- The place of stored symbol k (R650) in the codeword of 72 symbols: 64 data, 3 address, one zero, 4 check (R648). -/
def symbolPlace (k : Nat) : Nat := if k < 64 then k else k + 4

/-- The degree of the codeword's place `i`: the first symbol has the highest (log 12). -/
def placeDegree (i : Nat) : Nat := 71 - i

/-- Syndrome j of an error pattern: the errors weighted with α^(j × degree). -/
def syndrome (errs : List (Nat × Byte)) (j : Nat) : Nat :=
  errs.foldl (fun a e => a ^^^ gfMul e.2.toNat (gfPow (j * placeDegree (symbolPlace e.1)))) 0

/-- What the loft controller reports of a granule it reads (R649). -/
inductive EccResult where
  /-- all syndromes zero: no error, or one the code does not see -/
  | clean
  /-- the symbol it corrects and the value it adds there -/
  | corrected (symbol : Nat) (value : Byte)
  | uncorrectable
deriving DecidableEq, Repr

/-- The decoder: one symbol in error among the stored symbols is corrected; a located symbol among the unstored ones, or
syndromes no single error explains, are uncorrectable (R649). -/
def eccDecode (errs : List (Nat × Byte)) : EccResult :=
  let s0 := syndrome errs 0
  let s1 := syndrome errs 1
  let s2 := syndrome errs 2
  let s3 := syndrome errs 3
  if s0 = 0 ∧ s1 = 0 ∧ s2 = 0 ∧ s3 = 0 then .clean
  else
    match (List.zip (List.range 72) (gfPowers 72 1)).find? fun p =>
        s0 ≠ 0 ∧ s1 = gfMul s0 p.2 ∧ s2 = gfMul s1 p.2 ∧ s3 = gfMul s2 p.2 with
    | none => .uncorrectable
    | some p =>
      let i := 71 - p.1
      if i < 64 then .corrected i (BitVec.ofNat 8 s0)
      else if i < 68 then .uncorrectable
      else .corrected (i - 4) (BitVec.ofNat 8 s0)

/-- The data bytes of a granule with the errors `errs` that were not corrected. -/
def applyErrs (errs : List (Nat × Byte)) (g : List Byte) : List Byte :=
  errs.foldl (fun g e => listUpd g e.1 fun b => b ^^^ e.2) g

/-- The errors left after a correction. -/
def residual (errs : List (Nat × Byte)) : List (Nat × Byte) :=
  match eccDecode errs with
  | .corrected k v => (k, v) :: errs
  | _ => errs

/-- The row and layer of a loft byte address (R651). -/
def loftLayer (addr : Nat) : Nat := (addr / 4096) % 16

def loftRow (addr : Nat) : Nat := ((addr / 65536) * 4096 + addr % 4096) / 1024

end Sys2Proof.Machine
end

