-- ==== Sys2Proof/Machine/Loft.lean ====
section
/-! DEFINITION. The loft: its regions and slots (R66), runs inside shared slots, and what the loft controller does with the
errors of a granule it reads (R653–R660, R666, R678–R682). -/

namespace Sys2Proof.Machine

open Sys2Proof

/-! ### Regions and slots (R66) -/

/-- Write-buffer slots of each loft (R66, R786). -/
def Dev.wbShare (d : Dev) : Nat :=
  if d.availStalls.isEmpty then 0 else ceilDiv (d.arb.wbufCur * 16384) d.availStalls.length

/-- The first slot of the segment pool: the regions follow each other in the order of the table (log 13). -/
def Dev.poolBase (d : Dev) : Nat := 64 + d.wbShare

def insertNat (x : Nat) : List Nat → List Nat
  | [] => [x]
  | y :: r => if x ≤ y then x :: y :: r else y :: insertNat x r

/-- Runs that writes past their commit point have reserved in stall s (R363). -/
def Dev.reservedRuns (d : Dev) (s : Nat) : List Run :=
  d.cmds.flatMap fun c => (c.commit.map fun r => (r.bin.toList ++ r.ext).filter fun x => x.stall == s).getD []

/-- Slots of stall s that writes past their commit point have reserved (R363). -/
def Dev.reservedSlots (d : Dev) (s : Nat) : List Nat :=
  (d.cmds.flatMap fun c => (c.commit.map fun r => r.slots.filterMap fun e => if e.2.stall = s then some e.2.slot else none).getD []) ++
    (d.reservedRuns s).map Run.slot

/-- Slots of stall s that hold something or are reserved, rising. -/
def Dev.takenSlots (d : Dev) (s : Nat) : List Nat :=
  (d.reservedSlots s).foldr (fun x l => if l.contains x then l else insertNat x l) (SMap.keys (d.stall s).slots)

def Dev.poolFree (d : Dev) (s : Nat) : Nat := 16384 - d.poolBase - (d.takenSlots s).length

/-- The lowest number from `lo` up that does not occur in the rising list. -/
def firstGap (lo : Nat) : List Nat → Nat
  | [] => lo
  | k :: r => if k < lo then firstGap lo r else if k = lo then firstGap (lo + 1) r else lo

/-- The lowest free slot of a stall's segment pool. -/
def Dev.freeSlot (d : Dev) (s : Nat) : Option Nat :=
  let n := firstGap d.poolBase (d.takenSlots s)
  if n < 16384 then some n else none

def Dev.setSlot (d : Dev) (s slot : Nat) (u : SlotUse) : Dev :=
  d.updStall s fun x => { x with slots := SMap.put x.slots slot u }

def Dev.dropSlot (d : Dev) (s slot : Nat) : Dev := d.updStall s fun x => { x with slots := SMap.del x.slots slot }

/-! ### Runs inside a shared slot -/

/-- [s, s + n) meets none of the runs. -/
def runFree (runs : List (Nat × Nat)) (s n : Nat) : Bool :=
  runs.all fun r => decide (s + n ≤ r.1) || decide (r.1 + r.2 ≤ s)

/-- The lowest start of a free run of `n` units in a slot of `cap`. -/
def fitRun (runs : List (Nat × Nat)) (cap n : Nat) : Option Nat :=
  ((runs.map fun r => r.1 + r.2).foldr insertNat [0]).find? fun s => decide (s + n ≤ cap) && runFree runs s n

/-- The runs a slot shares out, and its units: bins in 64-byte granules, extents in 1 KiB, tag slots in 64 bytes. -/
def slotRuns : SlotUse → List (Nat × Nat)
  | .bin rs => rs.map fun r => (r.1, r.2.1)
  | .extent rs => rs
  | .tagSlot rs => rs
  | _ => []

/-- What a shared slot is for. -/
inductive RunKind where
  | bin
  | extent
  | tag
deriving DecidableEq, Repr

def runCap : RunKind → Nat
  | .bin => 1024
  | .extent => 64
  | .tag => 1024

def isRunSlot (k : RunKind) (u : SlotUse) : Bool :=
  match k, u with
  | .bin, .bin _ => true
  | .extent, .extent _ => true
  | .tag, .tagSlot _ => true
  | _, _ => false

/-- A shared slot with a run added; `bytes` are the value bytes of a bin run. -/
def addRun (k : RunKind) (first n : Nat) (bytes : List Byte) (u : SlotUse) : SlotUse :=
  match k, u with
  | .bin, .bin rs => .bin (rs ++ [(first, n, bytes)])
  | .extent, .extent rs => .extent (rs ++ [(first, n)])
  | .tag, .tagSlot rs => .tagSlot (rs ++ [(first, n)])
  | _, u => u

def emptyRunSlot : RunKind → SlotUse
  | .bin => .bin []
  | .extent => .extent []
  | .tag => .tagSlot []

/-- The first shared slot of a stall with room for `n` units beside its runs and those reserved in it. -/
def findRunSlot (k : RunKind) (n : Nat) (rsv : List Run) : List (Nat × SlotUse) → Option (Nat × Nat)
  | [] => none
  | (slot, u) :: r =>
    if isRunSlot k u then
      match fitRun (slotRuns u ++ (rsv.filter fun x => x.slot == slot).map fun x => (x.first, x.count)) (runCap k) n with
      | some s => some (slot, s)
      | none => findRunSlot k n rsv r
    else findRunSlot k n rsv r

/-- A run of `n` units in a stall: in a shared slot with room, else in a new one (R37, R613). -/
def Dev.allocRun (d : Dev) (s : Nat) (k : RunKind) (n : Nat) (bytes : List Byte) : Option (Run × Dev) :=
  match findRunSlot k n (d.reservedRuns s) (d.stall s).slots with
  | some (slot, first) =>
    some ({ stall := s, slot := slot, first := first, count := n },
      d.updStall s fun x => { x with slots := SMap.upd x.slots slot (emptyRunSlot k) (addRun k first n bytes) })
  | none =>
    match d.freeSlot s with
    | none => none
    | some slot =>
      some ({ stall := s, slot := slot, first := 0, count := n }, d.setSlot s slot (addRun k 0 n bytes (emptyRunSlot k)))

/-- A run returns; the slot with its last run returns to the pool (R37, R613). -/
def Dev.freeRun (d : Dev) (r : Run) : Dev :=
  match SMap.find (d.stall r.stall).slots r.slot with
  | none => d
  | some u =>
    let u' : SlotUse := match u with
      | .bin rs => .bin (rs.filter fun x => x.1 != r.first)
      | .extent rs => .extent (rs.filter fun x => x.1 != r.first)
      | .tagSlot rs => .tagSlot (rs.filter fun x => x.1 != r.first)
      | u => u
    if (slotRuns u').isEmpty then d.dropSlot r.stall r.slot else d.setSlot r.stall r.slot u'

/-- `n` adjacent free slots from `lo` up; `k` bounds the search. -/
def adjacentSlots (used : List Nat) (n : Nat) : Nat → Nat → Option Nat
  | 0, _ => none
  | k + 1, lo =>
    match (List.range n).reverse.find? fun i => used.contains (lo + i) with
    | none => if lo + n ≤ 16384 then some lo else none
    | some i => adjacentSlots used n k (lo + i + 1)

/-- An extent of more than one slot's units takes adjacent whole slots (R613). -/
def Dev.allocSlots (d : Dev) (s n units : Nat) : Option (List Run × Dev) :=
  match adjacentSlots (d.takenSlots s) n ((d.takenSlots s).length + 1) d.poolBase with
  | none => none
  | some lo =>
    let runs : List Run := (List.range n).map fun i =>
      { stall := s, slot := lo + i, first := 0, count := min 64 (units - 64 * i) }
    some (runs, runs.foldl (fun d r => d.setSlot s r.slot (.extent [(0, r.count)])) d)

/-! ### Corrections -/

/-- A stored copy is due within 1 s of a remap or degraded-mark change (R795). -/
def Dev.storeSoon (d : Dev) : Dev :=
  { d with bru := { d.bru with storeDue := some (match d.bru.storeDue with
      | some t => min t (d.now + 1000000000)
      | none => d.now + 1000000000) } }

/-- The loft of stall s is marked degraded (R682); `why` is D0 of the event. -/
def Dev.degrade (d : Dev) (s why : Nat) : Dev :=
  if (d.stall s).degraded then d
  else ((d.updStall s fun x => { x with degraded := true }).event Ev.loftDegraded.code (0x0100 + s) why 0 0).storeSoon

def remapCount (s : Stall) (layer : Nat) : Nat := (s.remaps.filter fun r => r.layer == layer).length

/-- A spare row of the layer that no entry uses. -/
def freeSpare (s : Stall) (layer : Nat) : Nat :=
  if s.remaps.any fun r => r.layer == layer && r.spare == 0 then 1 else 0

/-- The row of a granule with a hard fault is remapped, or the loft is marked degraded (R678–R681). -/
def Dev.hardFault (d : Dev) (s granule : Nat) (spareBad : Bool) : Dev :=
  let x := d.stall s
  let layer := loftLayer (granule * 64)
  let row := loftRow (granule * 64)
  if x.degraded then d
  else if x.remaps.length ≥ 16 ∨ remapCount x layer ≥ 2 then d.degrade s 0
  else if spareBad then d.degrade s 1
  else
    let sp := freeSpare x layer
    let d := d.updStall s fun x => { x with remaps := x.remaps ++ [{ layer := layer, row := row, spare := sp }] }
    let d := d.updBarn (s / 64) fun b => { b with remap := sat1 b.remap }
    (d.event Ev.eccRemap.code (0x0100 + s) layer row sp).storeSoon

/-- A count in the leaky bucket of barn b (R658–R660). -/
def Dev.bucketAdd (d : Dev) (b : Nat) : Dev :=
  let x := d.barn b
  if x.level + 1 > x.size then
    let d := d.updBarn b fun x => { x with level := x.size, ovfCnt := sat1 x.ovfCnt, ovf := true }
    if x.ovf then d else d.event Ev.eccBucket.code (0x0200 + b) x.size (sat1 x.ovfCnt) 0
  else d.updBarn b fun x => { x with level := x.level + 1, leakAt := if x.level = 0 then d.now else x.leakAt }

/-- EV_ECC_CORR, up to EVLIM per second (R655). -/
def Dev.corrEvent (d : Dev) (s granule symbol : Nat) : Dev :=
  let b := s / 64
  let sec := d.now / 1000000000
  let n := if (d.barn b).evAt = sec then (d.barn b).evCount else 0
  if n < (d.barn b).evlim then
    (d.updBarn b fun x => { x with evAt := sec, evCount := n + 1 }).event Ev.eccCorr.code (0x0100 + s) granule symbol 0
  else d.updBarn b fun x => { x with evAt := sec, evCount := n }

/-- The writeback of a corrected granule and its verifying read (R654, R678). -/
def Dev.writeback (d : Dev) (f : LoftFault) : Dev := if f.hard then d.hardFault f.stall f.granule f.spareBad else d

/-- A correction (R653): counters, STL_LC_LASTERR, and the barn's mode (R655, R656). With `direct` the writeback follows in
either mode (groomer, R674). -/
def Dev.correction (d : Dev) (f : LoftFault) (symbol : Nat) (direct : Bool) : Dev :=
  let b := f.stall / 64
  let d := d.updStall f.stall fun x =>
    { x with cnt := { x.cnt with corr := sat1 x.cnt.corr }, lastErr := BitVec.ofNat 32 (symbol * 2 ^ 24 + f.granule) }
  let d := d.updBarn b fun x => { x with corr := sat1 x.corr }
  if (d.barn b).bucketMode then
    let pend := (d.stall f.stall).pendList
    if direct then
      if pend.any fun p => p.1 == f.granule then d.writeback f else (d.bucketAdd b).writeback f
    else if pend.any fun p => p.1 == f.granule then d
    else if pend.length < 16 then
      (d.updStall f.stall fun x => { x with pendList := x.pendList ++ [(f.granule, d.now)] }).bucketAdd b
    else ((d.bucketAdd b).corrEvent f.stall f.granule symbol).writeback f
  else (d.corrEvent f.stall f.granule symbol).writeback f

/-- The kinds of data of EV_ECC_UE (R842). -/
def kindSegment : Nat := 0
def kindRecord : Nat := 1
def kindOverflow : Nat := 2
def kindExtent : Nat := 3
def kindWorking : Nat := 4
def kindWriteBuffer : Nat := 5
def kindFree : Nat := 6

/-- What kind of data a granule of a loft holds (R66, R666). -/
def Dev.granuleKind (d : Dev) (s granule : Nat) : Nat :=
  let slot := granule / 1024
  if slot < 32 then kindRecord
  else if slot < 64 then kindWorking
  else if slot < d.poolBase then kindWriteBuffer
  else
    match SMap.find (d.stall s).slots slot with
    | some (.seg _ _) => kindSegment
    | some (.bin _) => kindSegment
    | some (.extent _) => kindExtent
    | some (.tagSlot _) => kindExtent
    | some (.overflow _) => kindOverflow
    | some .records => kindRecord
    | none => kindFree

/-- An uncorrectable granule: counters, STL_LC_LASTERR and the event (R666). -/
def Dev.uncorrectable (d : Dev) (s granule : Nat) : Dev :=
  let kind := d.granuleKind s granule
  let d := d.updStall s fun x =>
    { x with cnt := { x.cnt with ue := sat1 x.cnt.ue }, lastErr := BitVec.ofNat 32 (0xFF000000 + granule) }
  let d := d.updBarn (s / 64) fun x => { x with ue := sat1 x.ue }
  d.event Ev.eccUe.code (0x0100 + s) granule kind 0

/-- What reading granules [lo, lo + n) of a loft shows. -/
structure GranuleRead where
  bad : Bool
  /-- errors left in the bytes delivered: (granule, symbol, value) -/
  left : List (Nat × Nat × Byte)
deriving DecidableEq, Repr

/-- Findings that lie in granules [lo, lo + n) of stall s. -/
def faultsIn (fs : List Finding) (s lo n : Nat) : List LoftFault :=
  fs.filterMap fun x => match x with
    | .loft f => if f.stall = s ∧ lo ≤ f.granule ∧ f.granule < lo + n then some f else none
    | .camParity _ _ => none

/-- The read of granules with what the media show (R649): corrections and uncorrectable granules take their effects. -/
def Dev.readGranules (d : Dev) (fs : List Finding) (s lo n : Nat) : GranuleRead × Dev :=
  (faultsIn fs s lo n).foldl (fun a f =>
    let r := a.1
    let d := a.2
    match eccDecode f.errs with
    | .clean => ({ r with left := r.left ++ f.errs.map fun e => (f.granule, e.1, e.2) }, d)
    | .corrected k v =>
      ({ r with left := r.left ++ ((k, v) :: f.errs).map fun e => (f.granule, e.1, e.2) }, d.correction f k false)
    | .uncorrectable => ({ r with bad := true }, d.uncorrectable s f.granule)) ({ bad := false, left := [] }, d)

/-- The uncorrectable granules of [lo, lo + n) are rewritten with valid check bits and verified (R667, R670, R678). -/
def Dev.rewriteBad (d : Dev) (fs : List Finding) (s lo n : Nat) : Dev :=
  ((faultsIn fs s lo n).filter fun f => eccDecode f.errs == .uncorrectable).foldl Dev.writeback d

/-- Bytes read from granule `lo` on, with the errors left in them. -/
def patchBytes (lo : Nat) (left : List (Nat × Nat × Byte)) (bytes : List Byte) : List Byte :=
  left.foldl (fun bs e => if e.2.1 < 64 then listUpd bs ((e.1 - lo) * 64 + e.2.1) (fun b => b ^^^ e.2.2) else bs) bytes

end Sys2Proof.Machine
end

