-- ==== Sys2Proof/Machine/Layout.lean ====
section
/-! DEFINITION. What the loft holds of keys, byte by byte: index records (R67), segment-map entries (R68), segment-map and tag
extents (R69, R612), overflow buckets and entries (R511, R512); and what is read of them when the loft code has left an error. -/

namespace Sys2Proof.Machine

open Sys2Proof

/-! ### Segment-map entries and extents (R68, R69, R612) -/

/-- A segment-map entry as its 32-bit word (R68). -/
def segWord (e : SegEnt) : Nat := e.stall + 2 ^ 10 * e.slot + 2 ^ 24 * e.st

def segOfWord (w : Nat) : SegEnt := { stall := bits w 0 8, slot := bits w 10 14, st := bits w 24 4 }

def mapBytes (segs : List SegEnt) : List Byte := segs.flatMap fun e => natLe 4 (segWord e)

def mapOfBytes (n : Nat) (b : List Byte) : List SegEnt := (List.range n).map fun i => segOfWord (fieldAt b (4 * i) 4)

/-- Where the tags lie in an extent: after the map, from the next 64-byte boundary; at its start when the map is inline (R612). -/
def tagBase (segs : Nat) : Nat := if segs > 32 then 64 * ceilDiv (4 * segs) 64 else 0

/-- The bytes of a record's extent. -/
def extentBytes (r : Rec) : List Byte :=
  let n := r.segs.length
  (if n > 32 then padTo (tagBase n) (mapBytes r.segs) else []) ++ r.tags.flatten

/-- The record with the map and tags that its extent's bytes give. -/
def recOfExtent (r : Rec) (b : List Byte) : Rec :=
  let n := r.segs.length
  { r with segs := if n > 32 then mapOfBytes n b else r.segs
           tags := (List.range r.tags.length).map fun i => slice (tagBase n + 8 * i) 8 b }

/-! ### Index records (R67) -/

/-- Loft byte address of a record's extent; 0 when it has none. -/
def extentAddr (r : Rec) : Nat :=
  match r.extSlots with
  | [] => 0
  | e :: _ => 65536 * e.slot + (if r.segs.length > 32 then 1024 else 64) * e.first

/-- Flags of an index record: small value, extent present, poisoned segment present. -/
def recFlags (r : Rec) : Nat := b2n r.small + 2 * b2n (!r.extSlots.isEmpty) + 4 * b2n (r.segs.any fun e => e.st == 3)

/-- The 512 bytes of an index record. -/
def encodeRec (r : Rec) : List Byte :=
  natLe 8 r.digest.toNat ++ natLe 2 (r.pad + 2 ^ 12 * recFlags r) ++ natLe 1 r.key.length ++ natLe 1 r.st ++ natLe 4 r.epoch ++
    natLe 8 r.len ++ natLe 8 r.shedId ++ natLe 8 r.wseq ++ natLe 8 (extentAddr r) ++
    natLe 2 ((r.bin.map Run.first).getD 0) ++ zeros 14 ++ padTo 240 r.key ++ zeros 16 ++
    padTo 128 (if r.segs.length > 32 then [] else mapBytes r.segs) ++ zeros 64

/-- Segments of a value of `len` bytes (R32, R36). -/
def segCount (len : Nat) : Nat := if len = 0 then 0 else if len ≤ 4096 then 1 else ceilDiv len 65536

/-- The record that 512 bytes give, over what `r` holds outside them: tags, a map in an extent, shed copies. -/
def decodeRec (b : List Byte) (r : Rec) : Rec :=
  let len := fieldAt b 16 8
  { r with
    digest := BitVec.ofNat 64 (fieldAt b 0 8), pad := bits (fieldAt b 8 2) 0 12, small := bit (fieldAt b 8 2) 12,
    key := slice 64 (fieldAt b 10 1) b, st := fieldAt b 11 1, epoch := fieldAt b 12 4, len := len, shedId := fieldAt b 24 8,
    wseq := fieldAt b 32 8, bin := r.bin.map fun x => { x with first := bits (fieldAt b 48 2) 0 10 },
    segs := if segCount len > 32 then r.segs else mapOfBytes (segCount len) (slice 320 128 b) }

/-! ### Overflow buckets (R511, R512) -/

def encodeOvf : Option OvfEnt → List Byte
  | none => zeros 16
  | some e => natLe 8 e.digest.toNat ++ natLe 2 (e.pad + 2 ^ 12) ++ zeros 2 ++ natLe 4 (e.recSlot + 2 ^ 14 * e.recNo)

/-- An entry in a state other than live is none. -/
def decodeOvf (b : List Byte) : Option OvfEnt :=
  if bits (fieldAt b 8 2) 12 4 = 1 then
    some { digest := BitVec.ofNat 64 (fieldAt b 0 8), pad := bits (fieldAt b 8 2) 0 12, recSlot := bits (fieldAt b 12 4) 0 14,
           recNo := bits (fieldAt b 12 4) 14 7 }
  else none

def bucketLive (b : Bucket) : Nat := b2n b.e0.isSome + b2n b.e1.isSome + b2n b.e2.isSome

def encodeBucket (b : Bucket) : List Byte :=
  encodeOvf b.e0 ++ encodeOvf b.e1 ++ encodeOvf b.e2 ++ natLe 4 b.next ++ natLe 1 (bucketLive b) ++ zeros 11

def decodeBucket (b : List Byte) : Bucket :=
  { e0 := decodeOvf (slice 0 16 b), e1 := decodeOvf (slice 16 16 b), e2 := decodeOvf (slice 32 16 b), next := fieldAt b 48 4 }

/-! ### Errors the loft code has left (R649) -/

/-- Bytes read from granule `lo` on, or `none` where the read shows them as stored. -/
def misread (lo : Nat) (left : List (Nat × Nat × Byte)) (b : List Byte) : Option (List Byte) :=
  if left.isEmpty || patchBytes lo left b == b then none else some (patchBytes lo left b)

/-- A record as a read of its granules from `lo` on delivers it. -/
def readRec (lo : Nat) (left : List (Nat × Nat × Byte)) (r : Rec) : Rec :=
  match misread lo left (encodeRec r) with
  | none => r
  | some b => decodeRec b r

/-- A bucket as a read of its granule delivers it. -/
def readBucket (g : Nat) (left : List (Nat × Nat × Byte)) (b : Bucket) : Bucket :=
  match misread g left (encodeBucket b) with
  | none => b
  | some bs => decodeBucket bs

/-! ### Paddock descriptors (R335) -/

/-- PDK_CTRL of a paddock. -/
def Paddock.ctrl (p : Paddock) : Nat :=
  p.persist + 4 * p.residency + 32 * b2n p.check + 64 * p.cls + 512 * b2n p.strict + 1024 * p.setMode +
    4096 * (if p.setMode = 1 then p.barn else 0)

/-- The 64-byte descriptor that gives a paddock its attributes. -/
def Paddock.descriptor (p : Paddock) : List Byte :=
  natLe 4 p.ctrl ++ natLe 2 0 ++ natLe 2 p.stage ++ natLe 2 p.shape ++ natLe 2 p.qDram ++ natLe 1 p.qShed ++ zeros 19 ++
    padTo 32 p.bitmap

/-! ### Journal records (R562, R563) -/

/-- Runs of consecutive LSNs, as (start, count). -/
def lsnRuns : List Nat → List (Nat × Nat)
  | [] => []
  | a :: r =>
    match lsnRuns r with
    | [] => [(a, 1)]
    | (b, n) :: q => if b = a + 1 then (a, n + 1) :: q else (a, 1) :: (b, n) :: q

/-- Type of a record (R563). -/
def JBody.typ : JBody → Nat
  | .value .. => 0x01
  | .delete .. => 0x02
  | .paddock .. => 0x03
  | .logOpen .. => 0x04
  | .ptr .. => 0x05
  | .merge .. => 0x06
  | .unmap .. => 0x07
  | .jretire .. => 0x08
  | .badBlk .. => 0x09

/-- The fill record that pads a page. -/
def jFill : Nat := 0x0A

/-- The body of a record; the widths of fields that the spec does not size are log 17. -/
def JBody.bytes : JBody → List Byte
  | .value pad epoch wseq key len lsns tags _ =>
    natLe 2 pad ++ natLe 4 epoch ++ natLe 8 wseq ++ natLe 1 key.length ++ key ++ natLe 8 len ++
      ((lsnRuns (lsns.filterMap id)).flatMap fun x => natLe 4 x.1 ++ natLe 4 x.2) ++ tags.flatten
  | .delete pad epoch wseq key => natLe 2 pad ++ natLe 4 epoch ++ natLe 8 wseq ++ natLe 1 key.length ++ key
  | .paddock subop pad epoch p => natLe 1 subop ++ natLe 2 pad ++ natLe 4 epoch ++ p.descriptor
  | .logOpen lblk sblk => natLe 4 lblk ++ natLe 4 sblk
  | .ptr lblk count => natLe 4 lblk ++ natLe 4 count
  | .merge lblk typ new released => natLe 4 lblk ++ natLe 1 typ ++ natLe 4 new ++ released.flatMap (natLe 4)
  | .unmap lblk released => natLe 4 lblk ++ released.flatMap (natLe 4)
  | .jretire sblk => natLe 4 sblk
  | .badBlk sblk pos retired => natLe 4 sblk ++ natLe 1 pos ++ natLe 4 (if retired then 0 else Config.spareBlock sblk pos)

/-- A record's 16-byte header over a piece of `n` body bytes (R562). -/
def jHeader (typ : Nat) (commit spill : Bool) (n seq : Nat) : List Byte :=
  natLe 1 typ ++ natLe 1 (b2n commit + 2 * b2n spill) ++ natLe 2 (16 * ceilDiv (16 + n) 16) ++ natLe 4 0 ++ natLe 8 seq

/-- A piece of a record. -/
def jPiece (r : JRec) (commit : Bool) (body : List Byte) : List Byte :=
  let spill := match r.body with
    | .value _ _ _ _ _ _ _ s => s
    | _ => false
  padTo (16 * ceilDiv (16 + body.length) 16) (jHeader r.body.typ commit spill body.length r.seq ++ body)

/-- The pieces of a record, each on a page of its own when there are several; only the last carries COMMIT (R562). -/
def JRec.pieces (r : JRec) : List (List Byte) :=
  let body := r.body.bytes
  let n := max 1 (ceilDiv body.length 16368)
  (List.range n).map fun i => jPiece r (i + 1 == n) (slice (16368 * i) 16368 body)

/-- A page with records at the given places, the rest of it filled (R563). -/
def jPage (at_ : List (Nat × List Byte)) : List Byte :=
  let used := (at_.map Prod.snd).flatten
  let rest := 16384 - used.length
  if rest = 0 then used else padTo 16384 (used ++ jHeader jFill true false (rest - 16) 0)

/-- The 16,384 bytes of page `k` of a journal unit whose first page is `first` (R562). -/
def journalPage (recs : List JRec) (k : Nat) : List Byte :=
  jPage (recs.flatMap fun r => (List.zip (List.range r.pieces.length) r.pieces).filterMap fun e =>
    if r.page + e.1 = k then some (16 * r.off, e.2) else none)

/-! ### NAND pages (R549–R551) -/

/-- Kinds of pages (R550). -/
def kindData : Nat := 1
def kindFill : Nat := 2
def kindJournal : Nat := 3
def kindCheckpoint : Nat := 4
def kindIdentity : Nat := 5
def kindSpill : Nat := 6

/-- The 32 bytes of metadata of a page with these 16,384 data bytes (R550): its program sequence number, its logical block or
superblock, its offset or index, its kind, its channel position, and the format identifier. -/
def pageMeta (pseq block index kind pos : Nat) (format : DWord) (data : List Byte) : List Byte :=
  let m := natLe 8 pseq ++ natLe 4 block ++ natLe 2 index ++ natLe 1 kind ++ natLe 1 pos ++ natLe 8 format.toNat ++ natLe 4 0
  m ++ natLe 4 (crc32c (data ++ m))

/-- A page is treated as written: its CRC is good and its format identifier is the shed's (R551). -/
def pageWritten (format : DWord) (data md : List Byte) : Bool :=
  fieldAt md 28 4 == crc32c (data ++ md.take 28) && fieldAt md 16 8 == format.toNat

/-- What is programmed of a page with `spare` spare bytes: four codewords of 4,096 data bytes, 8 mddata bytes and 484 parity bytes,
then 0xFF (R549). The code of the parity is not given (log 76). -/
def pageImage (spare : Nat) (data md : List Byte) : List Byte :=
  let word := fun i =>
    let d := slice (4096 * i) 4096 data ++ slice (8 * i) 8 md
    d ++ (List.range 484).map fun k => Config.ldpcParity (leNat d) k
  (List.range 4).flatMap word ++ List.replicate (spare - 1968) 0xFF

/-- The page of a stripe on channel position `pos` of its superblock, of logical block `lblk`: data and metadata. -/
def Stripe.page (s : Stripe) (lblk pos : Nat) (format : DWord) : List Byte × List Byte :=
  let data := slice (16384 * pos) 16384 (padTo 65536 s.bytes)
  (data, pageMeta s.pseq lblk s.off s.kind pos format data)

end Sys2Proof.Machine
end

