-- ==== Sys2Proof/Machine/Manger.lean ====
section
/-! DEFINITION. The manger (R437–R441, R530–R535): where bytes and tile elements lie in its 16 banks, one cycle of a bank with its
two masters, and the two transposing paths of a shaped read: the tiles of a manger and the exchange network of a slalom unit
(R442–R446). -/

namespace Sys2Proof.Machine

open Sys2Proof

/-! ### Places (R437, R438, R440, R441) -/

/-- A place in a manger: the bank, and the byte offset in it. -/
structure Place where
  bank : Nat
  off : Nat
deriving DecidableEq, Repr

/-- The 32-byte word a place lies in, by its number in `Stall.manger`. -/
def Place.word (p : Place) : Nat := 1024 * p.bank + p.off / 32

/-- Linear addressing (R437). -/
def linearPlace (a : Nat) : Place := { bank := a / 32 % 16, off := a / 512 * 32 + a % 32 }

/-- Herringbone addressing of element (r, c) of tile t (R438). -/
def tilePlace (t r c : Nat) : Place := { bank := (r + c) % 16, off := 32 * t + 2 * r }

/-- The high half of a 4-byte element (r, c) whose low half is in tile t (R441). -/
def highPlace (t r c : Nat) : Place := { bank := (r + c + 8) % 16, off := 32 * (t + 1) + 2 * r }

/-- The two-byte lanes of the 32 bytes at address `a` under herringbone addressing: tile a div 512, its rows in order (R438, R535;
DEDUCED: the bytes of a tile count row by row, log 73). -/
def tileLanes (a : Nat) : List Place := (List.range 16).map fun c => tilePlace (a / 512) (a % 512 / 32) c

/-! ### Storage -/

/-- A manger: its words that are not all zero. -/
abbrev Manger := SMap (List Byte)

def Manger.word (m : Manger) (k : Nat) : List Byte := SMap.get m k (zeros 32)

def Manger.setWord (m : Manger) (k : Nat) (bs : List Byte) : Manger :=
  if bs = zeros 32 then SMap.del m k else SMap.put m k bs

/-- `n` bytes of one word. -/
def Manger.at_ (m : Manger) (p : Place) (n : Nat) : List Byte := slice (p.off % 32) n (m.word p.word)

def Manger.put (m : Manger) (p : Place) (bs : List Byte) : Manger := m.setWord p.word (splice (m.word p.word) (p.off % 32) bs)

/-- The 32 bytes at address `a`, under either addressing (R535). -/
def Manger.read32 (m : Manger) (hb : Bool) (a : Nat) : List Byte :=
  if hb then (tileLanes a).flatMap fun p => m.at_ p 2 else m.at_ (linearPlace a) 32

/-- 32 bytes written at address `a`, under either addressing. -/
def Manger.write32 (m : Manger) (hb : Bool) (a : Nat) (bs : List Byte) : Manger :=
  if hb then (List.zip (List.range 16) (tileLanes a)).foldl (fun m x => m.put x.2 (slice (2 * x.1) 2 bs)) m
  else m.put (linearPlace a) bs

/-! ### Tiles -/

/-- Columns of a tile of elements of `w` bytes (R438, R440, R441). -/
def tileCols (w : Nat) : Nat := if w = 1 then 32 else 16

/-- Element (r, c) of the tile at t is written (R438, R440, R441). -/
def Manger.putElem (m : Manger) (w t r c : Nat) (bs : List Byte) : Manger :=
  if w = 1 then m.put { tilePlace t r (c / 2) with off := 32 * t + 2 * r + c % 2 } bs
  else if w = 4 then (m.put (tilePlace t r c) (bs.take 2)).put (highPlace t r c) (bs.drop 2)
  else m.put (tilePlace t r c) bs

/-- A row of a tile (R439): its 16 slots. -/
def Manger.row (m : Manger) (t r : Nat) : List (List Byte) := (List.range 16).map fun c => m.at_ (tilePlace t r c) 2

/-- A column of a tile (R439): its 16 slots. -/
def Manger.column (m : Manger) (t c : Nat) : List (List Byte) := (List.range 16).map fun r => m.at_ (tilePlace t r c) 2

/-- What the read path makes of column c of the matrix in a tile of elements of `w` bytes: 1-byte elements are separated from the
slot they share with their neighbours (R440), 4-byte elements are joined from their halves (R441). -/
def Manger.elems (m : Manger) (w t c : Nat) : List (List Byte) :=
  if w = 1 then (m.column t (c / 2)).map fun s => slice (c % 2) 1 s
  else if w = 4 then
    List.zipWith (· ++ ·) (m.column t c) ((List.range 16).map fun r => m.at_ (highPlace t r c) 2)
  else m.column t c

/-! ### One cycle of a bank (R530–R534) -/

/-- What a master asks of a bank in a cycle: a word, and the bytes to write if it writes. -/
structure BankAsk where
  word : Nat
  data : Option (List Byte)
deriving DecidableEq, Repr

/-- What the cycle gives: the words each master receives, whether the tow engine's access waits, and the content. -/
structure BankCycle where
  seqRead : Option (List Byte)
  towRead : Option (List Byte)
  /-- the tow engine's access waits for a later cycle (R531, R533) -/
  towWaits : Bool
  m : Manger
deriving DecidableEq, Repr

def Manger.apply (m : Manger) (a : BankAsk) : Manger := (a.data.map fun bs => m.setWord a.word bs).getD m

/-- One cycle of one bank: one access, or two to one word by the table *Same word, same SCLK cycle*; the sequencer is performed
before the tow engine (R530, R531, R533). A read beside a write of its word receives the old word. -/
def Manger.cycle (m : Manger) (seq tow : Option BankAsk) : BankCycle :=
  let got := fun (a : BankAsk) => if a.data.isNone then some (m.word a.word) else none
  match seq, tow with
  | none, none => { seqRead := none, towRead := none, towWaits := false, m := m }
  | some a, none => { seqRead := got a, towRead := none, towWaits := false, m := m.apply a }
  | none, some b => { seqRead := none, towRead := got b, towWaits := false, m := m.apply b }
  | some a, some b =>
    if a.word ≠ b.word ∨ (a.data.isSome ∧ b.data.isSome) then
      { seqRead := got a, towRead := none, towWaits := true, m := m.apply a }
    else { seqRead := got a, towRead := got b, towWaits := false, m := (m.apply a).apply b }

/-- The cycles among the last 15 and this one in which a bank must be idle for the sequencer: it leaves at least 4 of any 16 (R532).
`busy` holds the last 15 cycles, newest first. -/
def seqMay (busy : List Bool) : Bool := decide ((busy.take 15).countP id < 12)

/-! ### Transposing a matrix -/

/-- Groups of `k` of a list; the last may be shorter. -/
def groupsFuel {α : Type} (k : Nat) : Nat → List α → List (List α)
  | 0, _ => []
  | _ + 1, [] => []
  | f + 1, x :: xs => (x :: xs).take k :: groupsFuel k f ((x :: xs).drop k)

def groups {α : Type} (k : Nat) (l : List α) : List (List α) := groupsFuel k l.length l

/-- Blocks of rows joined side by side. -/
def besides (rows : Nat) (bs : List (List (List Nat))) : List (List Nat) :=
  bs.foldr (List.zipWith (· ++ ·)) (List.replicate rows [])

/-- A block of at most 16 rows and a tile's columns, of elements of `w` bytes, transposed in a manger: rows are written to a tile
and columns read from it (R439–R441). -/
def tileTurn (w cols : Nat) (blk : List (List Nat)) : List (List Nat) :=
  let m : Manger := (List.zip (List.range blk.length) blk).foldl (fun m x =>
    (List.zip (List.range x.2.length) x.2).foldl (fun m y => m.putElem w 0 x.1 y.1 (natLe w y.2)) m) []
  (List.range cols).map fun c => ((m.elems w 0 c).take blk.length).map leNat

/-- A matrix with `k` columns cut into blocks of at most `h` rows and `v` columns, each turned by `turn`. -/
def turnBlocks (h v k : Nat) (turn : Nat → List (List Nat) → List (List Nat)) (m : List (List Nat)) : List (List Nat) :=
  (List.range (ceilDiv k v)).flatMap fun b =>
    let cols := min v (k - v * b)
    besides cols ((groups h m).map fun rows => turn cols (rows.map fun r => (r.drop (v * b)).take cols))

/-- A matrix with `k` columns transposed in mangers. -/
def mangerTurn (w k : Nat) (m : List (List Nat)) : List (List Nat) := turnBlocks 16 (tileCols w) k (tileTurn w) m

/-- Exchange stage k: an element whose indices differ in bit k swaps it between them (R443). -/
def exchange (k : Nat) (p : Nat × Nat) : Nat × Nat :=
  if bit p.1 k = bit p.2 k then p
  else if bit p.1 k then (p.1 - 2 ^ k, p.2 + 2 ^ k)
  else (p.1 + 2 ^ k, p.2 - 2 ^ k)

/-- The element of an E × E block that the six stages bring to a place; stages with k ≥ log2(E) pass data unchanged (R443). -/
def slalomFrom (e : Nat) (p : Nat × Nat) : Nat × Nat :=
  (List.range 6).foldl (fun p k => if 2 ^ k < e then exchange k p else p) p

/-- An E × E block through the network of a slalom unit. -/
def slalomTurn (e : Nat) (blk : List (List Nat)) : List (List Nat) :=
  (List.range e).map fun i => (List.range e).map fun j =>
    (blk.getD (slalomFrom e (i, j)).1 []).getD (slalomFrom e (i, j)).2 0

/-- A matrix of elements of `w` bytes transposed with slalom units: complete E × E blocks, E = 64 / w, through the network, the
others in mangers, with the same bytes (R442, R444, R446). -/
def slalomMatrix (w k : Nat) (m : List (List Nat)) : List (List Nat) :=
  let e := 64 / w
  turnBlocks e e k (fun cols blk =>
    if cols = e ∧ blk.length = e then slalomTurn e blk else mangerTurn w cols blk) m

end Sys2Proof.Machine
end

