-- ==== Sys2Proof/Machine/Tow.lean ====
section
/-! DEFINITION. The tow engine of a stall (R536–R539): its descriptors, which ones the microcode writes (log 73), and one SCLK
cycle of a stall: the update queue and the manger's banks (R505–R507, R530–R534). -/

namespace Sys2Proof.Machine

open Sys2Proof

/-! ### Descriptors (R536) -/

/-- The 32 bytes of a tow descriptor. -/
def TowDesc.bytes (t : TowDesc) : List Byte :=
  natLe 1 (t.op + 16 * b2n t.hb + 32 * b2n t.chk + 64 * b2n t.last) ++ natLe 1 t.kind ++ natLe 2 t.dest ++ natLe 4 t.len ++
    natLe 8 t.src ++ natLe 8 t.dst ++ natLe 2 t.ctx ++ natLe 2 t.seg ++ zeros 4

/-- The descriptor that 32 bytes hold. -/
def towOfBytes (b : List Byte) : TowDesc :=
  let n := fieldAt b 0 1
  { op := bits n 0 4, hb := bit n 4, chk := bit n 5, last := bit n 6, kind := fieldAt b 1 1, dest := fieldAt b 2 2,
    len := fieldAt b 4 4, src := fieldAt b 8 8, dst := fieldAt b 16 8, ctx := bits (fieldAt b 24 2) 0 6, seg := fieldAt b 26 2 }

/-- Operations of a descriptor. -/
inductive TowOp where
  | loftToManger
  | mangerToLoft
  | loftToPort
  | portToLoft
  | mangerToPort
  | portToManger
  | loftToLoft
deriving DecidableEq, Repr

def TowOp.code : TowOp → Nat
  | .loftToManger => 1
  | .mangerToLoft => 2
  | .loftToPort => 3
  | .portToLoft => 4
  | .mangerToPort => 5
  | .portToManger => 6
  | .loftToLoft => 7

/-- The manger address of a descriptor that moves bytes to or from the manger. -/
def TowDesc.mangerAddr (t : TowDesc) : Option Nat :=
  if t.op = TowOp.loftToManger.code ∨ t.op = TowOp.portToManger.code then some t.dst
  else if t.op = TowOp.mangerToLoft.code ∨ t.op = TowOp.mangerToPort.code then some t.src
  else none

def TowDesc.fillsManger (t : TowDesc) : Bool := t.op == TowOp.loftToManger.code || t.op == TowOp.portToManger.code

/-- The sequencer writes a descriptor: it is active, and recorded in STL_TOWLAST, once one of 16 places is free (R536, R539). -/
def towWrite (x : Stall) (t : TowDesc) : Stall :=
  if x.tows.length < 16 then
    { x with tows := x.tows ++ [{ desc := t, moved := 0 }]
             towLast := (List.range 8).map fun k => BitVec.ofNat 32 (fieldAt t.bytes (4 * k) 4) }
  else { x with towNext := x.towNext ++ [t] }

def Dev.towPut (d : Dev) (s : Nat) (ts : List TowDesc) : Dev := d.updStall s fun x => ts.foldl towWrite x

/-! ### Descriptors of reads and commit copies -/

/-- The sequencer context of a command in a stall (DESIGN CHOICE, log 73). -/
def ctxOf (cid : Nat) : Nat := cid % 48

/-- The manger address that the microcode takes for `len` bytes: a free value in the bounds of R536 (log 73). -/
def mangerPlace (cid seg len : Nat) : Nat := 32 * (Config.mangerPlace cid seg % (16385 - ceilDiv len 32))

/-- The descriptors for granules [g, g + n) of a segment that a read takes from its loft: to the port, or through the manger when
they are shaped; CHK sends them to the check-value engine too (R536, log 73). -/
def readTows (cid seg g n : Nat) (chk shaped : Bool) : List TowDesc :=
  let t : TowDesc := { op := TowOp.loftToPort.code, hb := false, chk := chk, last := true, kind := 1, dest := 0, len := 64 * n,
                       src := 64 * g, dst := 0, ctx := ctxOf cid, seg := seg % 65536 }
  let m := mangerPlace cid seg (64 * n)
  if n = 0 then []
  else if shaped then
    [{ t with op := TowOp.loftToManger.code, last := false, kind := 0, dst := m },
     { t with op := TowOp.mangerToPort.code, chk := false, src := m }]
  else [t]

/-- The descriptors of a commit copy from a write-buffer slot to loft address `dst` of a stall, each with its stall: within one loft,
or through the ports of both stalls (R122, R536, R538, log 73). -/
def copyTows (cid seg len : Nat) (source : Nat × Nat) (target dst : Nat) : List (Nat × TowDesc) :=
  let t : TowDesc := { op := TowOp.loftToLoft.code, hb := false, chk := false, last := true, kind := 0, dest := target, len := len,
                       src := 65536 * source.2, dst := dst, ctx := ctxOf cid, seg := seg % 65536 }
  if len = 0 then []
  else if source.1 = target then [(target, t)]
  else
    [(source.1, { t with op := TowOp.loftToPort.code, dst := 0 }),
     (target, { t with op := TowOp.portToLoft.code, dest := source.1, src := 0 })]

/-! ### One SCLK cycle of a stall -/

/-- 32 bytes of a pool slot of stall x at a loft address. -/
def loftWord (x : Stall) (a : Nat) : List Byte :=
  let off := a % 65536
  padTo 32 (match SMap.find x.slots (a / 65536) with
    | some (.seg bs _) => slice off 32 bs
    | some (.bin rs) => (rs.find? fun r => decide (64 * r.1 ≤ off) && decide (off < 64 * (r.1 + r.2.1))).elim [] fun r =>
        slice (off - 64 * r.1) 32 r.2.2
    | _ => [])

/-- What the tow engine asks of the banks for the 32 bytes at `off` of a descriptor: a word for each lane (R535, R536). -/
def towAsks (x : Stall) (t : TowDesc) (a off : Nat) : List (Nat × BankAsk) :=
  let bs := if t.op = TowOp.loftToManger.code then loftWord x (t.src + off) else (List.range 32).map fun k => Config.portByte (off + k)
  let ps := if t.hb then tileLanes (a + off) else [linearPlace (a + off)]
  let n := if t.hb then 2 else 32
  (List.zip (List.range ps.length) ps).map fun p =>
    (p.2.bank, { word := p.2.word
                 data := if t.fillsManger then
                     some (splice (Manger.word x.manger p.2.word) (p.2.off % 32) (slice (n * p.1) n bs)) else none })

/-- The accesses of 32 bytes that the tow engine makes in a cycle, in order, up to the first that waits (R531, R538); `lost`: one
had to wait. -/
def towGrant (m : Manger) (seq : Nat → Option BankAsk) : List (List (Nat × BankAsk)) → List (List (Nat × BankAsk)) × Bool
  | [] => ([], false)
  | a :: r =>
    if a.any fun b => (m.cycle (seq b.1) (some b.2)).towWaits then ([], true)
    else
      let x := towGrant m seq r
      (a :: x.1, x.2)

/-- A descriptor that has moved `n` more bytes: it is complete, or goes on; at every 4 KiB another context takes its turn, and the
descriptors of one context stay in order (R537). A free place goes to the next descriptor. -/
def towMoved (x : Stall) (t : Tow) (r : List Tow) (n : Nat) : Stall :=
  let t : Tow := { t with moved := t.moved + n }
  if t.desc.len ≤ t.moved then
    let y := { x with tows := r, towNext := [], cnt := { x.cnt with tow := sat1 x.cnt.tow } }
    x.towNext.foldl towWrite y
  else if n ≠ 0 ∧ t.moved % 4096 = 0 then
    let mine := fun (u : Tow) => u.desc.ctx == t.desc.ctx
    { x with tows := (r.filter fun u => !mine u) ++ t :: r.filter mine }
  else { x with tows := t :: r }

/-- One cycle of the tow engine against the sequencer, whose access of each bank is `seq`, and the bytes it moved (R531–R534, R538). -/
def towCycle (x : Stall) (seq : Nat → Option BankAsk) : Nat × Stall :=
  match x.tows with
  | [] => (0, x)
  | t :: r =>
    let left := t.desc.len - t.moved
    match t.desc.mangerAddr with
    | none => (min 128 left, towMoved x t r (min 128 left))
    | some a =>
      let n := if t.desc.hb then 1 else ceilDiv (min 128 left) 32
      let asks := (List.range n).map fun k => towAsks x t.desc a (t.moved + 32 * k)
      let (got, lost) := towGrant x.manger seq asks
      let m := (List.range 16).foldl (fun (m : Manger) b =>
        (m.cycle (seq b) ((got.flatten.find? fun e => e.1 == b).map Prod.snd)).m) x.manger
      let busy := (List.range 16).map fun b => ((seq b).isSome :: x.seqBusy.getD b []).take 15
      let c := { x.cnt with seqWon := satAdd 16 x.cnt.seqWon (b2n lost), towLost := satAdd 16 x.cnt.towLost (b2n lost) }
      let n := min left (32 * got.length)
      (n, towMoved { x with manger := m, seqBusy := busy, cnt := c } t r n)

/-- What the sequencer asks of bank `b` in this cycle: a free value (the microcode's own accesses are not given), in the bound of
R532 (log 73). -/
def Dev.seqAsk (d : Dev) (s b : Nat) : Option BankAsk :=
  if seqMay ((d.stall s).seqBusy.getD b []) then
    (Config.seqAsk d.now s b).map fun a => { word := 1024 * b + a.1 % 1024, data := a.2.map fun n => natLe 32 n }
  else none

/-- The stall's clock runs (R543, R700, R750). -/
def Dev.stallClocked (d : Dev) (s : Nat) : Bool :=
  d.stallAvail s && !(d.barn (s / 64)).tripped && !(d.barn (s / 64)).sclkLost

end Sys2Proof.Machine
end

