-- ==== Sys2Proof/Machine/KeyStore.lean ====
section
/-! DEFINITION. The key store: homing (R27, R28), lookups (R503, R513, R540), insertion and removal of keys (R510–R525), what a
paddock is charged, and where segments are placed (R33, R64). -/

namespace Sys2Proof.Machine

open Sys2Proof

/-! ### Homing -/

/-- The ordered stall set of a paddock (R27): available stalls of its set, ascending. -/
def Dev.setOf (d : Dev) (p : Paddock) : List Nat :=
  d.availStalls.filter fun s =>
    match p.setMode with
    | 0 => true
    | 1 => s / 64 == p.barn
    | _ => bit ((p.bitmap.getD (s / 8) 0).toNat) (s % 8)

def Dev.padSet (d : Dev) (pad : Nat) : List Nat := d.setOf (d.pad pad)

/-- The home index d of a key (R28). -/
def homeIndex (set : List Nat) (digest : DWord) : Nat := if set.isEmpty then 0 else digest.toNat % set.length

def homeStall (set : List Nat) (digest : DWord) : Nat := set.getD (homeIndex set digest) 0

/-- The target stall of segment i (R33). -/
def targetStall (set : List Nat) (home i : Nat) : Nat := if set.isEmpty then 0 else set.getD ((home + i) % set.length) 0

/-! ### Entries -/

/-- Where a key's entry lies: a CAM index, or a place of an overflow bucket. -/
inductive Loc where
  | cam (i : Nat)
  | ovf (bucket place : Nat)
deriving DecidableEq, Repr

/-- The entry index that SCAN cursors carry (R514). -/
def entryIndex : Loc → Nat
  | .cam i => i
  | .ovf q p => 4096 + 3 * q + p

def Bucket.empty : Bucket := { e0 := none, e1 := none, e2 := none, next := 0 }

def bucketGet (b : Bucket) : Nat → Option OvfEnt
  | 0 => b.e0
  | 1 => b.e1
  | _ => b.e2

def bucketSet (b : Bucket) (p : Nat) (e : Option OvfEnt) : Bucket :=
  match p with
  | 0 => { b with e0 := e }
  | 1 => { b with e1 := e }
  | _ => { b with e2 := e }

def recKey (e : OvfEnt) : Nat := 128 * e.recSlot + e.recNo

/-- The record of an entry. -/
def entryRec (s : Stall) : Loc → Option Rec
  | .cam i => SMap.find s.cam i
  | .ovf q p =>
    match bucketGet (SMap.get s.buckets q Bucket.empty) p with
    | none => none
    | some e => SMap.find s.ovfRecs (recKey e)

/-- The chain of a primary bucket (R513); the fuel bounds its length. -/
def chainFrom (s : Stall) : Nat → Nat → List Nat
  | 0, _ => []
  | k + 1, q =>
    let b := SMap.get s.buckets q Bucket.empty
    q :: (if b.next = 0 then [] else chainFrom s k b.next)

/-- Primary bucket of a digest (R513). -/
def primaryBucket (digest : DWord) : Nat := digest.toNat / 2 ^ 54

def chainOf (s : Stall) (digest : DWord) : List Nat := chainFrom s (s.buckets.length + 1) (primaryBucket digest)

/-- Live entries of the chain (R515). -/
def chainCount (s : Stall) (digest : DWord) : Nat :=
  ((chainOf s digest).map fun q => bucketLive (SMap.get s.buckets q Bucket.empty)).sum

/-! ### CAM operations and the update queue (R503–R509) -/

/-- Valid CAM entries of {paddock, digest}, ascending: what SEARCH and its STEPs return one by one (R503). A record in state 3 is
taken as not matching (R525). -/
def camMatches (s : Stall) (pad : Nat) (digest : DWord) : List Nat :=
  (s.cam.filter fun e => e.2.pad == pad && e.2.digest == digest && e.2.st != 3).map Prod.fst

/-- READ: the contents of entry j, a paddock id and a digest (R503). -/
def camRead (s : Stall) (j : Nat) : Option (Nat × DWord) := (SMap.find s.cam j).map fun r => (r.pad, r.digest)

/-- WRITE j rebuilds or fills entry j from index record j; CLEAR j makes it not valid (R503, R509, R522, R525). -/
def camPerform (s : Stall) (u : CamUpd) : Stall :=
  let s : Stall := { s with cnt := { s.cnt with update := sat1 s.cnt.update } }
  match u with
  | .write _ => s
  | .clear i => { s with cam := SMap.del s.cam i }

/-- The oldest queued update takes its CAM slot (R506). -/
def camStepQueue (s : Stall) : Stall :=
  match s.updq with
  | [] => s
  | u :: r => camPerform { s with updq := r } u

/-- An update enters the queue; one that finds all 8 places taken waits until the oldest has been performed (R505). -/
def camPush (s : Stall) (u : CamUpd) : Stall :=
  let s := if 8 ≤ s.updq.length then camStepQueue s else s
  { s with updq := s.updq ++ [u] }

/-- A search arrives: it waits one cycle for each update then queued, and sees them all performed (R506–R508). -/
def camDrain (s : Stall) : Stall :=
  let s : Stall := { s with cnt := { s.cnt with delay := satAdd 32 s.cnt.delay s.updq.length } }
  s.updq.foldl camPerform { s with updq := [] }

/-- Overflow entries of {paddock, digest} in chain order. -/
def ovfMatches (s : Stall) (pad : Nat) (digest : DWord) : List Loc :=
  (chainOf s digest).flatMap fun q =>
    [0, 1, 2].filterMap fun p =>
      match bucketGet (SMap.get s.buckets q Bucket.empty) p with
      | some e => if e.pad = pad ∧ e.digest = digest then some (Loc.ovf q p) else none
      | none => none

def allMatches (s : Stall) (pad : Nat) (digest : DWord) : List Loc :=
  (camMatches s pad digest).map Loc.cam ++ (if chainCount s digest = 0 then [] else ovfMatches s pad digest)

/-- A lookup: the entry of the key, and the first quarantined entry it reached (R667). -/
structure Lookup where
  hit : Option (Loc × Rec)
  quarantined : Option Loc
deriving DecidableEq, Repr

/-- Steps through the matches, comparing full keys (R26, R540). -/
def lookupIn (s : Stall) (key : List Byte) : List Loc → Lookup
  | [] => { hit := none, quarantined := none }
  | l :: r =>
    match entryRec s l with
    | none => lookupIn s key r
    | some x =>
      if x.quarantined then { lookupIn s key r with quarantined := some l }
      else if x.key = key then { hit := some (l, x), quarantined := none }
      else lookupIn s key r

/-- The entries a lookup reads, in order: up to the hit. -/
def visited (s : Stall) (key : List Byte) : List Loc → List Loc
  | [] => []
  | l :: r =>
    match entryRec s l with
    | none => l :: visited s key r
    | some x => if x.quarantined = false ∧ x.key = key then [l] else l :: visited s key r

/-- Granules of an entry's index record: CAM records in the index region, overflow records in record slots (R66, R516). -/
def recGranule (s : Stall) : Loc → Nat
  | .cam i => 8 * i
  | .ovf q p =>
    match bucketGet (SMap.get s.buckets q Bucket.empty) p with
    | none => 0
    | some e => 1024 * e.recSlot + 8 * e.recNo

/-- The loft slot of overflow slot k. -/
def ovfSlot (s : Stall) (k : Nat) : Option Nat :=
  (s.slots.find? fun u => match u.2 with
    | .overflow j => j == k
    | _ => false).map Prod.fst

def bucketGranule (s : Stall) (q : Nat) : Nat := (ovfSlot s (q / 1024)).getD 0 * 1024 + q % 1024

def setRec (s : Stall) (l : Loc) (x : Rec) : Stall :=
  match l with
  | .cam i => { s with cam := SMap.put s.cam i x }
  | .ovf q p =>
    match bucketGet (SMap.get s.buckets q Bucket.empty) p with
    | none => s
    | some e => { s with ovfRecs := SMap.put s.ovfRecs (recKey e) x }

def quarantineLoc (s : Stall) (l : Loc) : Stall :=
  match entryRec s l with
  | none => s
  | some x => setRec s l { x with quarantined := true }

/-- The update that a parity failure of entry i queues: WRITE i from a live index record, CLEAR i otherwise (R509). -/
def parityUpd (s : Stall) (i : Nat) : CamUpd :=
  if (SMap.find s.cam i).any fun r => r.st == 1 || r.st == 2 then .write i else .clear i

/-- A search arrives at stall s behind its queued updates. Each parity failure it meets queues the rebuilding of the entry and costs
one repeated search, which waits for that update (R507, R509). -/
def Dev.camParity (d : Dev) (s : Nat) (fs : List Finding) : Dev :=
  fs.foldl (fun d f => match f with
    | .camParity st i =>
      if st = s then
        (d.updStall s fun x =>
          camDrain (camPush { x with cnt := { x.cnt with parity := sat1 x.cnt.parity, search := sat1 x.cnt.search } }
            (parityUpd x i))).event Ev.camParity.code (0x0100 + s) i 0 0
      else d
    | .loft _ => d) (d.updStall s camDrain)

/-- Overflow bucket q is read at its granule: an uncorrectable one quarantines its entries, an error the code has left is read as
it stands (R649, R667). -/
def Dev.readBucketAt (d : Dev) (fs : List Finding) (s granule q : Nat) : Dev :=
  let r := d.readGranules fs s granule 1
  if r.1.bad then (r.2.rewriteBad fs s granule 1).updStall s fun x => [0, 1, 2].foldl (fun x p => quarantineLoc x (.ovf q p)) x
  else if r.1.left.isEmpty then r.2
  else r.2.updStall s fun x => { x with buckets := SMap.upd x.buckets q Bucket.empty (readBucket granule r.1.left) }

/-- The index record of an entry is read at its granules: an uncorrectable one quarantines it and is rewritten, an error the code has
left is read as it stands (R649, R667, R678). -/
def Dev.readRecAt (d : Dev) (fs : List Finding) (s granule : Nat) (l : Loc) : Dev :=
  let r := d.readGranules fs s granule 8
  if r.1.bad then (r.2.rewriteBad fs s granule 8).updStall s fun x => quarantineLoc x l
  else if r.1.left.isEmpty then r.2
  else r.2.updStall s fun x => match entryRec x l with
    | none => x
    | some y => setRec x l (readRec granule r.1.left y)

/-- The searches of a lookup and those that return MULTI = 1, of `c` CAM matches of which `v` were visited (R503, R504). -/
def searchCounts (c v : Nat) : Nat × Nat := (max 1 (min c v), min v (c - 1))

/-- A full lookup of a key at its home stall, with its counters and what the media show of the records and buckets it reads
(R509, R515, R540, R667). -/
def Dev.lookup (d : Dev) (fs : List Finding) (s pad : Nat) (key : List Byte) : Lookup × Dev :=
  let digest := keyDigest key
  let d := d.camParity s fs
  let st := d.stall s
  let vs := visited st key (allMatches st pad digest)
  let buckets := if chainCount st digest = 0 || vs.any (fun l => match l with
      | .cam i => (entryRec st (.cam i)).any fun x => x.key == key && !x.quarantined
      | .ovf _ _ => false) then [] else chainOf st digest
  let sc := searchCounts (camMatches st pad digest).length (vs.filter fun l => match l with
      | .cam _ => true
      | .ovf _ _ => false).length
  let d := d.updStall s fun x =>
    { x with cnt := { x.cnt with search := satAdd 32 x.cnt.search sc.1, multi := satAdd 32 x.cnt.multi sc.2,
                                 ovfRead := satAdd 32 x.cnt.ovfRead buckets.length } }
  -- buckets, then records, with their errors
  let d := buckets.foldl (fun d q => d.readBucketAt fs s (bucketGranule st q) q) d
  let d := vs.foldl (fun d l => d.readRecAt fs s (recGranule st l) l) d
  (lookupIn (d.stall s) key (allMatches (d.stall s) pad digest), d)

/-- The record of a live key, looked up without touching counters (for decisions of the front end). -/
def Dev.peek (d : Dev) (pad : Nat) (key : List Byte) : Option Rec :=
  let set := d.padSet pad
  let s := homeStall set (keyDigest key)
  if set.isEmpty then none
  else (lookupIn (d.stall s) key (allMatches (d.stall s) pad (keyDigest key))).hit.map Prod.snd

/-! ### Every record -/

/-- Every record of a stall with its entry, in entry order (R314); a deleted one is none of them (R525). -/
def stallRecs (s : Stall) : List (Loc × Rec) :=
  (s.cam.filter fun e => e.2.st != 3).map (fun e => (Loc.cam e.1, e.2)) ++
    s.buckets.flatMap fun b => [0, 1, 2].filterMap fun p =>
      match bucketGet b.2 p with
      | none => none
      | some e => (SMap.find s.ovfRecs (recKey e)).map fun x => (Loc.ovf b.1 p, x)

def Dev.allRecs (d : Dev) : List (Nat × Loc × Rec) :=
  d.stalls.flatMap fun s => (stallRecs s.2).map fun e => (s.1, e.1, e.2)

def Dev.padRecs (d : Dev) (pad : Nat) : List (Nat × Loc × Rec) := d.allRecs.filter fun e => e.2.2.pad == pad

def Dev.updRec (d : Dev) (s : Nat) (l : Loc) (f : Rec → Rec) : Dev :=
  d.updStall s fun x =>
    match entryRec x l with
    | none => x
    | some r => setRec x l (f r)

/-- The record of a key changed in place. -/
def Dev.updKey (d : Dev) (pad : Nat) (key : List Byte) (f : Rec → Rec) : Dev :=
  let s := homeStall (d.padSet pad) (keyDigest key)
  match (lookupIn (d.stall s) key (allMatches (d.stall s) pad (keyDigest key))).hit with
  | none => d
  | some (l, _) => d.updRec s l f

/-! ### Charges (*Loft pressure and quotas*) -/

/-- Loft bytes a record is charged: slots or granules it holds, its record, extent, tags and overflow entry (R60). -/
def recDram (r : Rec) (ovf : Bool) : Nat :=
  let held := r.segs.filter fun e => e.st == 0 || e.st == 3
  512 + 16 * b2n ovf +
    (if r.small then (if held.isEmpty then 0 else 64 * ceilDiv r.len 64) else 65536 * held.length) +
    (if r.segs.length > 32 then 1024 * ceilDiv (4 * r.segs.length) 1024 else 0) + 8 * r.tags.length

/-- What writes of a paddock past their commit point hold: their quota is charged until their effect (R363). -/
def Dev.committed (d : Dev) (pad : Nat) : List Reserve := (d.cmds.filter fun c => c.body.pad == pad).filterMap Cmd.commit

/-- Whether an entry lies in the overflow table. -/
def Loc.isOvf : Loc → Bool
  | .ovf _ _ => true
  | .cam _ => false

def Dev.padDram (d : Dev) (pad : Nat) : Nat :=
  ((d.padRecs pad).map fun e => recDram e.2.2 e.2.1.isOvf).sum + ((d.committed pad).map Reserve.dram).sum

/-- Whether a paddock's keys are charged in the shed as whole values: STAGED, DURABLE, spill (R48). -/
def Paddock.shedWhole (p : Paddock) : Bool := p.persist != 0 || p.residency == 2

/-- Shed bytes of a record: 64 KiB per segment and 512 per key; for a cached spill the segments spilled (log 18). -/
def recShed (p : Paddock) (r : Rec) : Nat :=
  if p.shedWhole then 65536 * r.segs.length + 512
  else if p.residency = 1 then
    let n := (r.lsns.filter Option.isSome).length
    if n = 0 then 0 else 65536 * n + 512
  else 0

def Dev.padShed (d : Dev) (pad : Nat) : Nat :=
  ((d.padRecs pad).map fun e => recShed (d.pad pad) e.2.2).sum + ((d.committed pad).map Reserve.shed).sum

def Dev.padKeys (d : Dev) (pad : Nat) : Nat := (d.padRecs pad).length

/-! ### Eviction and placement -/

/-- Segment i of a record may leave its loft: CACHED, in loft, with a valid shed copy or, for a cached spill, a shed that can take
one (R52, R53). A small value is a segment like another (R39); only the walk of R64 leaves it out. -/
def Dev.evictable (d : Dev) (r : Rec) (i : Nat) : Bool :=
  let p := d.pad r.pad
  p.residency == 1 && !r.pinnedByFailure && (r.segs[i]?).any (fun e => e.st == 0) &&
    ((r.lsns.getD i none).isSome || (p.persist == 0 && d.shd.st == 2))

/-- A segment that may be evicted: (stall of the record, entry, segment, its stall, its slot, use stamp). -/
structure Victim where
  home : Nat
  loc : Loc
  seg : Nat
  stall : Nat
  slot : Nat
  used : Nat
  /-- a small value in a bin -/
  small : Bool
deriving DecidableEq, Repr

/-- When a segment was last used: its slot's stamp; a small value carries none and counts as least recently used (log 72). -/
def Dev.useStampOf (d : Dev) (s slot : Nat) : Nat :=
  match SMap.find (d.stall s).slots slot with
  | some (.seg _ u) => u
  | _ => 0

/-- Evictable segments among the records given. -/
def Dev.victims (d : Dev) (rs : List (Nat × Loc × Rec)) : List Victim :=
  rs.flatMap fun e =>
    (List.range e.2.2.segs.length).filterMap fun i =>
      match e.2.2.segs[i]? with
      | none => none
      | some g =>
        if d.evictable e.2.2 i then
          some { home := e.1, loc := e.2.1, seg := i, stall := g.stall, slot := g.slot, used := d.useStampOf g.stall g.slot,
                 small := e.2.2.small }
        else none

def lruVictim : List Victim → Option Victim
  | [] => none
  | v :: r =>
    match lruVictim r with
    | none => some v
    | some w => if w.used < v.used then some w else some v

def setSeg (l : List SegEnt) (i st : Nat) : List SegEnt := listUpd l i fun e => { e with st := st }

/-- Whether a stall can take a new segment from its free slots (R64, R77). -/
def Dev.canPlace (d : Dev) (s : Nat) : Bool := !(d.stall s).degraded && (d.freeSlot s).isSome

/-! ### Keys (R516–R525) -/

/-- The lowest free record of a stall's record slots (R516). -/
def freeRecord (s : Stall) : Option (Nat × Nat) :=
  (s.slots.filterMap fun u => match u.2 with
    | .records => ((List.range 128).find? fun k => (SMap.find s.ovfRecs (128 * u.1 + k)).isNone).map fun k => (u.1, k)
    | _ => none).head?

/-- A record slot and number for a new overflow record. -/
def Dev.takeRecord (d : Dev) (s : Nat) : Option ((Nat × Nat) × Dev) :=
  match freeRecord (d.stall s) with
  | some x => some (x, d)
  | none =>
    match d.freeSlot s with
    | none => none
    | some slot => some ((slot, 0), d.setSlot s slot .records)

/-- The newest overflow slot's number and the buckets in use of it (R517). -/
def ovfSlots (s : Stall) : List Nat := s.slots.filterMap fun u => match u.2 with
  | .overflow k => some k
  | _ => none

/-- A new bucket: from the free list, else the lowest unused one of the newest extension slot, else of a new slot (R517,
R520). -/
def Dev.takeBucket (d : Dev) (s : Nat) : Option (Nat × Dev) :=
  let x := d.stall s
  match x.freeBuckets with
  | q :: r => some (q, d.updStall s fun x => { x with freeBuckets := r })
  | [] =>
    let k := (ovfSlots x).foldl max 0
    if k ≥ 1 ∧ x.nextBucket < 1024 * (k + 1) then
      if x.nextBucket ≥ 5591039 then none
      else some (x.nextBucket, d.updStall s fun x => { x with nextBucket := x.nextBucket + 1 })
    else if 1024 * (k + 1) ≥ 5591039 then none
    else
      match d.freeSlot s with
      | none => none
      | some slot =>
        some (1024 * (k + 1),
          (d.setSlot s slot (.overflow (k + 1))).updStall s fun x => { x with nextBucket := 1024 * (k + 1) + 1 })

/-- A new key's overflow entry would need a bucket above the last one allowed (R520). -/
def Dev.bucketLimit (d : Dev) (s : Nat) (full : Bool) : Bool :=
  let x := d.stall s
  let k := (ovfSlots x).foldl max 0
  full && x.freeBuckets.isEmpty &&
    (if k ≥ 1 ∧ x.nextBucket < 1024 * (k + 1) then decide (5591039 ≤ x.nextBucket) else decide (5591039 ≤ 1024 * (k + 1)))

/-- The lowest free place of a bucket. -/
def freePlace (b : Bucket) : Option Nat := [0, 1, 2].find? fun p => (bucketGet b p).isNone

/-- The first bucket of the chain with a free place. -/
def chainPlace (s : Stall) : List Nat → Option (Nat × Nat)
  | [] => none
  | q :: r =>
    match freePlace (SMap.get s.buckets q Bucket.empty) with
    | some p => some (q, p)
    | none => chainPlace s r

/-- An overflow entry is written (R517, R518). -/
def Dev.insertOvf (d : Dev) (s : Nat) (x : Rec) : Option Dev :=
  match (if (ovfSlots (d.stall s)).isEmpty then (d.freeSlot s).map (fun slot => d.setSlot s slot (.overflow 0)) else some d) with
  | none => none
  | some d =>
    match d.takeRecord s with
    | none => none
    | some ((slot, k), d) =>
      let e : OvfEnt := { digest := x.digest, pad := x.pad, recSlot := slot, recNo := k }
      let chain := chainOf (d.stall s) x.digest
      let put := fun (d : Dev) (q p : Nat) => d.updStall s fun st =>
        { st with buckets := SMap.upd st.buckets q Bucket.empty (fun b => bucketSet b p (some e)),
                  ovfRecs := SMap.put st.ovfRecs (128 * slot + k) x }
      match chainPlace (d.stall s) chain with
      | some (q, p) => some (put d q p)
      | none =>
        match d.takeBucket s with
        | none => none
        | some (q, d) =>
          let last := chain.getLastD 0
          let link := fun (b : Bucket) => { b with next := q }
          some (put (d.updStall s fun st =>
            { st with buckets := SMap.upd (SMap.put st.buckets q Bucket.empty) last Bucket.empty link }) q 0)

/-- Every queued update is performed (R506): the key that WRITE i makes live is live from then on (R522). -/
def camDrainUpd (s : Stall) : Stall := s.updq.foldl camPerform { s with updq := [] }

/-- A new key takes the lowest free CAM entry, else an overflow entry (R522). -/
def Dev.insertRec (d : Dev) (s : Nat) (x : Rec) : Option Dev :=
  let i := firstGap 0 (SMap.keys (d.stall s).cam)
  if i < 4096 then
    some (d.updStall s fun st => camDrainUpd (camPush { st with cam := SMap.put st.cam i x } (.write i)))
  else d.insertOvf s x

/-- An insert of a new key with this digest would pass the last bucket (R520). -/
def Dev.insertBarred (d : Dev) (s : Nat) (digest : DWord) : Bool :=
  let x := d.stall s
  d.bucketLimit s (decide (4096 ≤ firstGap 0 (SMap.keys x.cam)) && (chainPlace x (chainOf x digest)).isNone)

/-- The bucket that links to `q` in a chain. -/
def linkBefore (s : Stall) (q : Nat) : List Nat → Option Nat
  | [] => none
  | a :: r => if (SMap.get s.buckets a Bucket.empty).next = q then some a else linkBefore s q r

/-- Live overflow keys of a stall (R510). -/
def ovfKeys (s : Stall) : Nat := (s.ovfRecs.filter fun r => r.2.st != 3).length

/-- A record slot with no record left returns to the pool (R516). -/
def dropEmptyRecords (s : Stall) : Stall :=
  { s with slots := s.slots.filter fun u => match u.2 with
      | .records => s.ovfRecs.any fun r => r.1 / 128 == u.1
      | _ => true }

/-- The last live overflow key is gone: every overflow slot returns and the free-bucket list is emptied (R518). -/
def dropOverflow (s : Stall) : Stall :=
  if ovfKeys s = 0 then
    let keep := fun (u : Nat × SlotUse) => match u.2 with
      | .overflow _ => false
      | _ => true
    { s with slots := s.slots.filter keep, buckets := [], freeBuckets := [], loose := [], nextBucket := 0 }
  else s

/-- Bucket q of an entry's chain is unlinked once it holds no entry, unless it is a primary one; it keeps its contents (R519). -/
def unlinkBucket (s : Stall) (q : Nat) (digest : DWord) : Stall :=
  let b := SMap.get s.buckets q Bucket.empty
  if q ≥ 1024 ∧ bucketLive b = 0 then
    match linkBefore s q (chainOf s digest) with
    | none => s
    | some a => { s with buckets := SMap.upd s.buckets a Bucket.empty (fun x => { x with next := b.next }), loose := s.loose ++ [q] }
  else s

/-- The entry of a key is cleared (R519, R525): its record goes to state 3; a CAM entry's CLEAR joins the update queue, an overflow
entry is written free and its record stays until its release (R516, R526). -/
def clearEntry (s : Stall) (l : Loc) : Stall :=
  match l with
  | .cam i =>
    match SMap.find s.cam i with
    | none => s
    | some r => camPush { s with cam := SMap.put s.cam i { r with st := 3 } } (.clear i)
  | .ovf q p =>
    match bucketGet (SMap.get s.buckets q Bucket.empty) p with
    | none => s
    | some e =>
      let dead := fun (r : Nat × Rec) => if r.1 = recKey e then (r.1, { r.2 with st := 3 }) else r
      let b := bucketSet (SMap.get s.buckets q Bucket.empty) p none
      dropOverflow (unlinkBucket { s with buckets := SMap.put s.buckets q b, ovfRecs := s.ovfRecs.map dead } q e.digest)

def Dev.removeEntry (d : Dev) (s : Nat) (l : Loc) : Dev := d.updStall s fun x => clearEntry x l

/-- The overflow record of a deleted key and the bucket unlinked with it are released (R42, R516, R519). -/
def releaseEntry (s : Stall) (ovfRec bucket : Option Nat) : Stall :=
  let s : Stall := match ovfRec with
    | some k => dropEmptyRecords { s with ovfRecs := s.ovfRecs.filter fun r => !(r.1 == k && r.2.st == 3) }
    | none => s
  match bucket with
  | some q => if s.loose.contains q then { s with loose := s.loose.filter (fun x => x != q), freeBuckets := s.freeBuckets ++ [q] } else s
  | none => s

/-- The overflow record of an entry, and its bucket where clearing the entry unlinks it. -/
def entryLeaves (s : Stall) : Loc → Option Nat × Option Nat
  | .cam _ => (none, none)
  | .ovf q p =>
    let b := SMap.get s.buckets q Bucket.empty
    ((bucketGet b p).map recKey, if q ≥ 1024 ∧ bucketLive b = 1 then some q else none)

/-! ### Storage of a value -/

/-- The slots, runs and extents of a record go back to their pools (R42). -/
def Dev.freeStorage (d : Dev) (r : Rec) : Dev :=
  let d := if r.small then (match r.bin with
      | some b => if r.segs.any (fun e => e.st == 0 || e.st == 2 || e.st == 3) then d.freeRun b else d
      | none => d)
    else r.segs.foldl (fun d e => if e.st = 1 then d else d.dropSlot e.stall e.slot) d
  r.extSlots.foldl Dev.freeRun d

/-- Two records of a key are one value, or the later keeps slots of the earlier (R40, R307). -/
def sharesStorage (x r : Rec) : Bool :=
  x.pad == r.pad && x.key == r.key &&
    (x.wseq == r.wseq || x.segs.any fun e => r.segs.any fun f => e.stall == f.stall && e.slot == f.slot && f.st != 1)

/-- Commands still running that read a value of a key, or an older value whose slots it has kept (R42). -/
def Dev.readersOf (d : Dev) (r : Rec) : List Nat :=
  (d.cmds.filter fun c => c.plan.any (fun x => sharesStorage x r) || c.keyRecs.any fun x => x.any fun y => y.any fun z => sharesStorage z r).map
    Cmd.id

/-- A replaced value awaits the release of its storage (R42). -/
def Dev.retire (d : Dev) (r : Rec) : Dev :=
  let (v, d') := d.fresh
  { d' with old := d'.old ++ [{ id := v, recd := r, readers := d.readersOf r, home := 0, ovfRec := none, bucket := none }] }

/-- The value of a key whose entry is being cleared awaits the release of its storage, its overflow record and its bucket (R42,
R516, R519). -/
def Dev.retireEntry (d : Dev) (r : Rec) (s : Nat) (l : Loc) : Dev :=
  let (v, d') := d.fresh
  let x := entryLeaves (d.stall s) l
  { d' with old := d'.old ++ [{ id := v, recd := r, readers := d.readersOf r, home := s, ovfRec := x.1, bucket := x.2 }] }

/-- Extent units a value needs: a map above 32 segments with its tags, or tags alone (R69, R612, R613). -/
def mapUnits (segs : Nat) (check : Bool) : Nat :=
  ceilDiv (if check then ceilDiv (4 * segs) 64 * 64 + 8 * segs else 4 * segs) 1024

/-- The extent of a value of `segs` segments in its home stall. -/
def Dev.allocExtent (d : Dev) (s segs : Nat) (check : Bool) : Option (List Run × Dev) :=
  if segs > 32 then
    let u := mapUnits segs check
    if u ≤ 64 then (d.allocRun s .extent u []).map fun x => ([x.1], x.2) else d.allocSlots s (ceilDiv u 64) u
  else if check ∧ segs > 0 then (d.allocRun s .tag (ceilDiv (8 * segs) 64) []).map fun x => ([x.1], x.2)
  else some ([], d)

/-- The bytes of a stored segment in its loft. -/
def Dev.segBytes (d : Dev) (r : Rec) (i : Nat) : List Byte :=
  if r.small then
    match r.bin with
    | none => []
    | some b =>
      match SMap.find (d.stall b.stall).slots b.slot with
      | some (.bin rs) => ((rs.find? fun x => x.1 == b.first).map fun x => x.2.2).getD []
      | _ => []
  else
    match r.segs[i]? with
    | none => []
    | some e =>
      match SMap.find (d.stall e.stall).slots e.slot with
      | some (.seg bs _) => bs
      | _ => []

/-- Stored length of segment i (R608). -/
def segLen (len i : Nat) : Nat := if len ≤ 4096 then len else min 65536 (len - 65536 * i)

end Sys2Proof.Machine
end

