-- ==== Sys2Proof/Machine/Cycle.lean ====
section
/-! DEFINITION. What goes on inside the device in a tick of yard time, without any command (log 6): the CAM update queues and the
tow engines of the stalls, and the packets inside the package. -/

namespace Sys2Proof.Machine

open Sys2Proof

/-- The crossbar port and route tag a descriptor of stall s sends to; `none` when its bytes do not leave the barn (R95, R105, R110,
R536). -/
def towTarget (s : Nat) (t : TowDesc) : Option (Nat × Nat) :=
  if t.op ≠ TowOp.loftToPort.code ∧ t.op ≠ TowOp.mangerToPort.code then none
  else
    match t.kind with
    | 0 => if t.dest / 64 = s / 64 then none else some (stallPort t.dest, t.dest % 64)
    | 1 => some (portFrontEnd, 0xFF)
    | 2 => some (portCheck, 0xFF)
    | 3 => some (portShed, 0xFF)
    | _ => some (linkPort t.dest, t.dest)

/-- The crossbar ports that the bytes of a descriptor go to: its own, and the check-value engine for CHK (R119, R536). -/
def towTargets (s : Nat) (t : TowDesc) : List (Nat × Nat) :=
  (towTarget s t).toList ++ if t.chk then [(portCheck, 0xFF)] else []

/-- `n` bytes that a descriptor moves from `off` on, as they stand in the loft or the manger. -/
def towBytes (x : Stall) (t : TowDesc) (off n : Nat) : List Byte :=
  ((List.range (ceilDiv n 32)).flatMap fun k =>
    if t.op = TowOp.mangerToPort.code then Manger.read32 x.manger t.hb (t.src + off + 32 * k)
    else loftWord x (t.src + off + 32 * k)).take n

/-- Loft slots in 16 that the governor's level and hot hold leave the sequencer and the tow engine of a stall (R735, R745). -/
def Dev.loftSlots (d : Dev) (s : Nat) : Nat :=
  min (if d.pwr.level ≤ 8 then 16 else 24 - d.pwr.level) (if (d.barn (s / 64)).hot then 8 else 16)

/-- A descriptor moves bytes to or from the loft. -/
def TowDesc.usesLoft (t : TowDesc) : Bool := t.op != TowOp.mangerToPort.code && t.op != TowOp.portToManger.code

/-- The tow engine may not move in this cycle: its loft slots of these 16 cycles are used up (R735, R745; log 74: they are the first
ones). -/
def Dev.slotsUsedUp (d : Dev) (s : Nat) (t : TowDesc) : Bool := t.usesLoft && decide (d.loftSlots s ≤ d.now % 16)

/-- One cycle of a stall whose clock runs: the oldest update is performed, and the tow engine moves, unless the way of its bytes is shut
(R114, R124, R506, R531, R538). The sequencer's granules are read and written in the steps of the commands, so they are served before
the tow engine's and in their order (R528). -/
def Dev.stallCycle (d : Dev) (s : Nat) : Dev :=
  let x := camStepQueue (d.stall s)
  match x.tows with
  | [] => d.updStall s fun _ => x
  | t :: _ =>
    let goes := towTargets s t.desc
    if d.slotsUsedUp s t.desc || (!goes.isEmpty && !d.wayOpen (stallPort s) (s % 64)) then d.updStall s fun _ => x
    else
      let (n, y) := towCycle x (d.seqAsk s)
      let d := d.updStall s fun _ => y
      if n = 0 then d
      else
        let bytes := towBytes x t.desc t.moved n
        goes.foldl (fun d g => d.intoYard (stallPort s) (s % 64) { src := 0, dst := g.1, ch := vcCode .data, tag := g.2, bytes := bytes }) d

/-- Stalls in which something waits. -/
def Dev.busyStalls (d : Dev) : List Nat :=
  (d.stalls.filter fun e => (!e.2.updq.isEmpty || !e.2.tows.isEmpty) && d.stallClocked e.1).map Prod.fst

/-- One cycle of every stall and of the package. -/
def Dev.cycles (d : Dev) : Dev := (d.busyStalls.foldl Dev.stallCycle d).fabricCycle

end Sys2Proof.Machine
end

