-- ==== Sys2Proof/Machine/Crypto.lean ====
section
/-! DEFINITION. The check-value engine's primitives: AES-256 (FIPS 197), CMAC (SP 800-38B), and the key derivation of R620.
Bytes are held as numbers below 256; a block is 16 of them in input order. -/

namespace Sys2Proof.Machine

open Sys2Proof

/-- The rows of the S-box of FIPS 197, 16 bytes each, first byte most significant. -/
def aesSboxRows : List Nat :=
  [0x637c777bf26b6fc53001672bfed7ab76, 0xca82c97dfa5947f0add4a2af9ca472c0,
   0xb7fd9326363ff7cc34a5e5f171d83115, 0x04c723c31896059a071280e2eb27b275,
   0x09832c1a1b6e5aa0523bd6b329e32f84, 0x53d100ed20fcb15b6acbbe394a4c58cf,
   0xd0efaafb434d338545f9027f503c9fa8, 0x51a3408f929d38f5bcb6da2110fff3d2,
   0xcd0c13ec5f974417c4a77e3d645d1973, 0x60814fdc222a908846eeb814de5e0bdb,
   0xe0323a0a4906245cc2d3ac629195e479, 0xe7c8376d8dd54ea96c56f4ea657aae08,
   0xba78252e1ca6b4c6e8dd741f4bbd8b8a, 0x703eb5664803f60e613557b986c11d9e,
   0xe1f8981169d98e949b1e87e9ce5528df, 0x8ca1890dbfe6426841992d0fb054bb16]

def aesSub (b : Nat) : Nat := (aesSboxRows.getD (b / 16) 0 >>> (8 * (15 - b % 16))) % 256

/-- Multiplication by x in GF(2^8) modulo 0x11B. -/
def aesXtime (b : Nat) : Nat := if b < 128 then b * 2 else (b * 2 % 256) ^^^ 0x1B

def xorList (a b : List Nat) : List Nat := List.zipWith (fun x y => Nat.xor x y) a b

/-- Key-schedule words 8 to 59 of AES-256, from the last eight words, newest last; `i` is the word's number. -/
def aesExpand : Nat → Nat → Nat → List (List Nat) → List (List Nat)
  | 0, _, _, ws => ws
  | k + 1, i, rcon, ws =>
    let prev := ws.getD (i - 1) []
    let t :=
      if i % 8 = 0 then xorList ((prev.drop 1 ++ prev.take 1).map aesSub) [rcon, 0, 0, 0]
      else if i % 8 = 4 then prev.map aesSub
      else prev
    aesExpand k (i + 1) (if i % 8 = 0 then aesXtime rcon else rcon) (ws ++ [xorList (ws.getD (i - 8) []) t])

def wordsOf : Nat → List Nat → List (List Nat)
  | 0, _ => []
  | k + 1, l => l.take 4 :: wordsOf k (l.drop 4)

/-- The 15 round keys of a 32-byte key. -/
def aesRoundKeys (key : List Nat) : List (List Nat) :=
  let ws := aesExpand 52 8 1 (wordsOf 8 key)
  (List.range 15).map fun r => (ws.drop (4 * r)).take 4 |>.flatten

def aesShiftRows (s : List Nat) : List Nat :=
  (List.range 16).map fun i => s.getD ((i + 4 * (i % 4)) % 16) 0

def aesMixCol (c : List Nat) : List Nat :=
  match c with
  | [a, b, d, e] =>
    let t := ((a ^^^ b) ^^^ d) ^^^ e
    [(a ^^^ t) ^^^ aesXtime (a ^^^ b), (b ^^^ t) ^^^ aesXtime (b ^^^ d), (d ^^^ t) ^^^ aesXtime (d ^^^ e),
     (e ^^^ t) ^^^ aesXtime (e ^^^ a)]
  | _ => c

def aesMix (s : List Nat) : List Nat := ((wordsOf 4 s).map aesMixCol).flatten

def aesRounds : List (List Nat) → List Nat → List Nat
  | [], s => s
  | [k], s => xorList (aesShiftRows (s.map aesSub)) k
  | k :: ks, s => aesRounds ks (xorList (aesMix (aesShiftRows (s.map aesSub))) k)

/-- AES-256 of one block under expanded round keys. -/
def aesBlock (rk : List (List Nat)) (blk : List Nat) : List Nat :=
  match rk with
  | [] => blk
  | k :: ks => aesRounds ks (xorList blk k)

def aes256 (key blk : List Nat) : List Nat := aesBlock (aesRoundKeys key) blk

/-- Doubling in GF(2^128), the subkey step of CMAC. -/
def cmacDouble (b : List Nat) : List Nat :=
  let n := b.foldl (fun a x => a * 256 + x) 0
  let d := (n * 2) % 2 ^ 128
  let d := if n < 2 ^ 127 then d else d ^^^ 0x87
  (List.range 16).map fun i => (d >>> (8 * (15 - i))) % 256

/-- The CBC chain over whole blocks; the last block is whole (with K1) or padded (with K2). `n` bounds the blocks. -/
def cmacChain (rk : List (List Nat)) (k1 k2 : List Nat) : Nat → List Nat → List Nat → List Nat
  | 0, c, m =>
    if m.length = 16 then aesBlock rk (xorList c (xorList m k1))
    else aesBlock rk (xorList c (xorList (m ++ 0x80 :: List.replicate (15 - m.length) 0) k2))
  | n + 1, c, m =>
    if m.length ≤ 16 then cmacChain rk k1 k2 0 c m
    else cmacChain rk k1 k2 n (aesBlock rk (xorList c (m.take 16))) (m.drop 16)

/-- AES-256-CMAC (SP 800-38B). -/
def cmac (key msg : List Nat) : List Nat :=
  let rk := aesRoundKeys key
  let l := aesBlock rk (List.replicate 16 0)
  let k1 := cmacDouble l
  cmacChain rk k1 (cmacDouble k1) (msg.length / 16 + 1) (List.replicate 16 0) msg

def toNats (bs : List Byte) : List Nat := bs.map BitVec.toNat

def ofNats (ns : List Nat) : List Byte := ns.map (BitVec.ofNat 8)

/-- The 35-byte derivation input (R620, R621). -/
def deriveInput (i pad : Nat) (digest : DWord) (seg epoch : Nat) : List Byte :=
  natBe 4 i ++ ofNats [0x53, 0x4B, 0x56, 0x4D, 0x2D, 0x54, 0x41, 0x47] ++ [0] ++ natBe 2 pad ++ natBe 8 digest.toNat ++
    natBe 4 seg ++ natBe 4 epoch ++ natBe 4 256

/-- The derived key of a segment (R620). -/
def deriveKey (root : List Byte) (pad : Nat) (digest : DWord) (seg epoch : Nat) : List Nat :=
  cmac (toNats root) (toNats (deriveInput 1 pad digest seg epoch)) ++
    cmac (toNats root) (toNats (deriveInput 2 pad digest seg epoch))

/-- The tag of a segment: the first 8 bytes of the CMAC over its stored bytes under its derived key (R608). -/
def segTag (root : List Byte) (pad : Nat) (digest : DWord) (seg epoch : Nat) (stored : List Byte) : List Byte :=
  ofNats ((cmac (deriveKey root pad digest seg epoch) (toNats stored)).take 8)

/-- The key check value: the first 3 bytes of AES-256 of 16 zero bytes (R625), as CHK_KCV shows them. -/
def keyCheckValue (root : List Byte) : Nat :=
  leNat (ofNats ((aes256 (toNats root) (List.replicate 16 0)).take 3))

end Sys2Proof.Machine
end

