-- ==== Sys2Proof/Machine/Flags.lean ====
section
/-! DEFINITION. Completion status codes (R342), command classes and the opcodes of the body (R276). -/

namespace Sys2Proof.Machine

open Sys2Proof

/-- Completion statuses (R342). -/
inductive Status where
  | ok
  | notFound
  | keyExists
  | truncated
  | badDescriptor
  | badAlign
  | badShape
  | badLength
  | depth
  | noSpace
  | quota
  | noPaddock
  | checkFail
  | mediaError
  | linkLost
  | aborted
  | timeout
  | tetherTimeout
  | tetherFull
  | thermalHold
deriving DecidableEq, Repr

/-- The status code of a completion (R342). -/
def Status.code : Status → Nat
  | .ok => 0x00
  | .notFound => 0x01
  | .keyExists => 0x02
  | .truncated => 0x03
  | .badDescriptor => 0x10
  | .badAlign => 0x11
  | .badShape => 0x12
  | .badLength => 0x13
  | .depth => 0x14
  | .noSpace => 0x20
  | .quota => 0x21
  | .noPaddock => 0x22
  | .checkFail => 0x30
  | .mediaError => 0x31
  | .linkLost => 0x40
  | .aborted => 0x41
  | .timeout => 0x42
  | .tetherTimeout => 0x50
  | .tetherFull => 0x51
  | .thermalHold => 0x60

/-- Command classes (R274). -/
inductive CmdClass where
  | urgent
  | high
  | normal
  | bulk
deriving DecidableEq, Repr

/-- The number of a class (R274). -/
def CmdClass.code : CmdClass → Nat
  | .urgent => 0
  | .high => 1
  | .normal => 2
  | .bulk => 3

/-- Opcodes of the command body (R276). -/
inductive Opcode where
  | nop
  | get
  | getRange
  | shapeGet
  | existsKey
  | scan
  | gather
  | score
  | put
  | putRange
  | append
  | delete
  | flush
  | tether
  | paddock
deriving DecidableEq, Repr

/-- The OPCODE byte (R276). -/
def Opcode.code : Opcode → Nat
  | .nop => 0x00
  | .get => 0x01
  | .getRange => 0x02
  | .shapeGet => 0x03
  | .existsKey => 0x04
  | .scan => 0x05
  | .gather => 0x06
  | .score => 0x07
  | .put => 0x10
  | .putRange => 0x11
  | .append => 0x12
  | .delete => 0x13
  | .flush => 0x20
  | .tether => 0x21
  | .paddock => 0x22

/-- The completion add is made for these statuses (R474). -/
def addsTether (status : Nat) : Bool := decide (status ≤ 0x0F)

/-- The longest value, 2^36 bytes (R30). -/
def maxValue : Nat := 68719476736

/-- The INFO of a PUT of an absent key. -/
def infoAbsent : Nat := 0xFFFFFFFFFFFFFFFF

end Sys2Proof.Machine
end

