-- ==== Sys2Proof/Machine/Numeric.lean ====
section
/-! DEFINITION. Element types and their arithmetic (R412–R417, R434, R452–R455). A finite number is a sign, a magnitude and a
power of two, so products and sums are exact until they are rounded. -/

namespace Sys2Proof.Machine

open Sys2Proof

/-- A number of an element type: `fin neg m e` is ±m × 2^e, with a signed zero. -/
inductive Num where
  | nan
  | inf (neg : Bool)
  | fin (neg : Bool) (m : Nat) (e : Int)
deriving DecidableEq, Repr

def Num.zero : Num := .fin false 0 0

/-- A binary floating-point type: precision, lowest normal exponent, largest finite value as m × 2^e, whether it has
infinities, its width in bits and its canonical NaN (R412). -/
structure FloatTy where
  p : Nat
  emin : Int
  maxM : Nat
  maxE : Int
  hasInf : Bool
  width : Nat
  nanCode : Nat
deriving DecidableEq, Repr

def tyE4M3 : FloatTy := { p := 4, emin := -6, maxM := 14, maxE := 5, hasInf := false, width := 8, nanCode := 0x7F }
def tyE5M2 : FloatTy := { p := 3, emin := -14, maxM := 7, maxE := 13, hasInf := true, width := 8, nanCode := 0x7E }
def tyBf16 : FloatTy := { p := 8, emin := -126, maxM := 255, maxE := 120, hasInf := true, width := 16, nanCode := 0x7FC0 }
def tyFp16 : FloatTy := { p := 11, emin := -14, maxM := 2047, maxE := 5, hasInf := true, width := 16, nanCode := 0x7E00 }
def tyFp32 : FloatTy :=
  { p := 24, emin := -126, maxM := 16777215, maxE := 104, hasInf := true, width := 32, nanCode := 0x7FC00000 }

/-- The floating-point type of an element code (R412). -/
def floatTy (code : Nat) : Option FloatTy :=
  match code with
  | 1 => some tyE4M3
  | 2 => some tyE5M2
  | 5 => some tyBf16
  | 6 => some tyFp16
  | 7 => some tyFp32
  | _ => none

/-- Bits per element of a type code (R412). -/
def typeBits (code : Nat) : Nat :=
  match code with
  | 1 => 8
  | 2 => 8
  | 3 => 8
  | 4 => 4
  | 5 => 16
  | 6 => 16
  | 7 => 32
  | 8 => 8
  | _ => 0

def typeBytes (code : Nat) : Nat := typeBits code / 8

/-- The number a code of a floating-point type stands for. -/
def FloatTy.decode (t : FloatTy) (n : Nat) : Num :=
  let frac := n % 2 ^ (t.p - 1)
  let field := (n / 2 ^ (t.p - 1)) % 2 ^ (t.width - t.p)
  let neg := bit n (t.width - 1)
  let qmin := t.emin - ((t.p : Int) - 1)
  if field = 2 ^ (t.width - t.p) - 1 ∧ t.hasInf = true then
    if frac = 0 then .inf neg else .nan
  else if field = 2 ^ (t.width - t.p) - 1 ∧ frac = 2 ^ (t.p - 1) - 1 then .nan
  else if field = 0 then .fin neg frac qmin
  else .fin neg (2 ^ (t.p - 1) + frac) (qmin + ((field : Int) - 1))

/-- A two's-complement integer as a number. -/
def intNum (width n : Nat) : Num :=
  if bit n (width - 1) then .fin true (2 ^ width - n % 2 ^ width) 0 else .fin false (n % 2 ^ width) 0

/-- The number of an element code: element types 1–7 and the scale type 8 (E8M0) (R412). -/
def decodeElem (ty n : Nat) : Num :=
  match ty with
  | 3 => intNum 8 n
  | 4 => intNum 4 n
  | 8 => if n = 255 then .nan else .fin false 1 ((n : Int) - 127)
  | _ =>
    match floatTy ty with
    | some t => t.decode n
    | none => .nan

/-! ### Exact arithmetic -/

/-- The exact product; NaN operands and 0 × infinity give NaN (R416). -/
def Num.mul (a b : Num) : Num :=
  match a, b with
  | .nan, _ => .nan
  | _, .nan => .nan
  | .inf s, .inf t => .inf (s != t)
  | .inf s, .fin t m _ => if m = 0 then .nan else .inf (s != t)
  | .fin s m _, .inf t => if m = 0 then .nan else .inf (s != t)
  | .fin s m e, .fin t n f => .fin (s != t) (m * n) (e + f)

/-- The exact sum under IEEE 754 rules for infinities and zeros. -/
def Num.add (a b : Num) : Num :=
  match a, b with
  | .nan, _ => .nan
  | _, .nan => .nan
  | .inf s, .inf t => if s = t then .inf s else .nan
  | .inf s, _ => .inf s
  | _, .inf t => .inf t
  | .fin s m e, .fin t n f =>
    let q := min e f
    let x : Int := (cond s (-1) 1) * (m * 2 ^ (e - q).toNat : Nat)
    let y : Int := (cond t (-1) 1) * (n * 2 ^ (f - q).toNat : Nat)
    let z := x + y
    if z = 0 then .fin (s && t && decide (m = 0) && decide (n = 0)) 0 q else .fin (decide (z < 0)) z.natAbs q

/-- The number divided by a positive integer: the quotient with 130 bits and a sticky bit, which every later rounding of 24
bits or fewer turns into the rounding of the exact quotient (n below 2^64). -/
def Num.divNat (a : Num) (n : Nat) : Num :=
  match a with
  | .fin s m e =>
    let num := m * 2 ^ 130
    .fin s (2 * (num / n) + (if num % n = 0 then 0 else 1)) (e - 131)
  | x => x

/-! ### Rounding -/

/-- The number of bits of `n`. -/
def bitLen (n : Nat) : Nat := if n = 0 then 0 else n.log2 + 1

/-- m / 2^d rounded to an integer, ties to even. -/
def roundShift (m d : Nat) : Nat :=
  let k := m >>> d
  let r := m % 2 ^ d
  if d = 0 then m
  else if r < 2 ^ (d - 1) then k
  else if r > 2 ^ (d - 1) then k + 1
  else k + k % 2

/-- m × 2^e rounded to `t` with an unbounded exponent range and subnormals kept: k × 2^q (R414). -/
def FloatTy.roundMag (t : FloatTy) (m : Nat) (e : Int) : Nat × Int :=
  let q := max ((bitLen m : Int) + e - t.p) (t.emin - ((t.p : Int) - 1))
  if e ≥ q then (m * 2 ^ (e - q).toNat, q) else (roundShift m (q - e).toNat, q)

/-- Whether k × 2^q exceeds the largest finite value of `t` (R415). -/
def FloatTy.over (t : FloatTy) (k : Nat) (q : Int) : Bool :=
  let b := min q t.maxE
  decide (k * 2 ^ (q - b).toNat > t.maxM * 2 ^ (t.maxE - b).toNat)

/-- The code of ±k × 2^q, in range, with k at most 2^p. -/
def FloatTy.pack (t : FloatTy) (neg : Bool) (k : Nat) (q : Int) : Nat :=
  let mag := if k = 0 then 0 else (q - (t.emin - ((t.p : Int) - 1))).toNat * 2 ^ (t.p - 1) + k
  b2n neg * 2 ^ (t.width - 1) + mag

/-- The code of an infinite or too large result (R415). -/
def FloatTy.overflow (t : FloatTy) (neg sat : Bool) : Nat :=
  if sat then t.pack neg t.maxM t.maxE
  else if t.hasInf then b2n neg * 2 ^ (t.width - 1) + (2 ^ (t.width - t.p) - 1) * 2 ^ (t.p - 1)
  else t.nanCode

/-- Conversion to a floating-point type (R414–R416). -/
def FloatTy.encode (t : FloatTy) (sat : Bool) (x : Num) : Nat :=
  match x with
  | .nan => t.nanCode
  | .inf s => t.overflow s sat
  | .fin s m e =>
    let r := t.roundMag m e
    if t.over r.1 r.2 then t.overflow s sat else t.pack s r.1 r.2

/-- Conversion to int8: to an integer, ties to even, then clamped (R416, R417). -/
def encodeInt8 (x : Num) : Nat :=
  match x with
  | .nan => 0
  | .inf s => cond s 0x80 0x7F
  | .fin s m e =>
    let k := if e ≥ 0 then m * 2 ^ e.toNat else roundShift m (-e).toNat
    if s then (256 - min k 128) % 256 else min k 127

/-- The code of a number in destination type `ty` (R414–R417). -/
def encodeElem (ty : Nat) (sat : Bool) (x : Num) : Nat :=
  if ty = 3 then encodeInt8 x
  else
    match floatTy ty with
    | some t => t.encode sat x
    | none => 0

/-- A number rounded to fp32, a value beyond the largest finite one becoming infinity (R433). -/
def toFp32 (x : Num) : Num := tyFp32.decode (tyFp32.encode false x)

/-- fp32 addition, rounded to nearest even. -/
def fp32Add (a b : Num) : Num := toFp32 (a.add b)

/-! ### Order -/

/-- The value as a signed multiple of 2^q. -/
def scaled (s : Bool) (m : Nat) (e q : Int) : Int := (cond s (-1) 1) * (m * 2 ^ (e - q).toNat : Nat)

/-- a < b for numbers that are not NaN, +0 and −0 being equal (R455). -/
def Num.lt (a b : Num) : Bool :=
  match a, b with
  | .nan, _ => false
  | _, .nan => false
  | .inf s, .inf t => s && !t
  | .inf s, .fin _ _ _ => s
  | .fin _ _ _, .inf t => !t
  | .fin s m e, .fin t n f => decide (scaled s m e (min e f) < scaled t n f (min e f))

def Num.isNan : Num → Bool
  | .nan => true
  | _ => false

/-- The larger of two numbers, +0 above −0; NaN wins (R434, R454). -/
def Num.max (a b : Num) : Num :=
  match a, b with
  | .nan, _ => .nan
  | _, .nan => .nan
  | .fin s m e, .fin t n f => if m = 0 ∧ n = 0 then (if s then b else a) else if Num.lt (.fin s m e) (.fin t n f) then b else a
  | x, y => if Num.lt x y then y else x

/-- a ranks strictly above b: NaN is below negative infinity (R455). -/
def Num.ranksAbove (a b : Num) : Bool := if a.isNan then false else if b.isNan then true else Num.lt b a

/-- The number a fp32 SCALE field gives: 0x0000_0000 means 1.0 (R408). -/
def scaleNum (w : Word) : Num := if w = 0 then .fin false 1 0 else tyFp32.decode w.toNat

def scaleBad (w : Word) : Bool :=
  match tyFp32.decode w.toNat with
  | .fin _ _ _ => false
  | _ => true

end Sys2Proof.Machine
end

