-- ==== Sys2Proof/Machine/Shaping.lean ====
section
/-! DEFINITION. Shape descriptors and their checks (R408–R411), shaped output (R418–R435) and scores (R450–R456). -/

namespace Sys2Proof.Machine

open Sys2Proof

/-! ### Descriptors -/

/-- The fields of a 60-byte descriptor (R408). -/
def descShape (b : List Byte) : Shape :=
  { kind := bits (fieldAt b 0 1) 0 2, src := bits (fieldAt b 1 1) 0 4, scaleT := bits (fieldAt b 1 1) 4 4,
    dst := bits (fieldAt b 2 1) 0 4, transpose := bit (fieldAt b 3 1) 0, slalom := bit (fieldAt b 3 1) 1,
    sat := bit (fieldAt b 3 1) 2, trailing := bit (fieldAt b 3 1) 3, g := fieldAt b 4 2, trc := fieldAt b 6 1,
    tcc := fieldAt b 7 1, k := fieldAt b 8 4, rowStride := fieldAt b 12 4, tileStride := fieldAt b 16 4,
    pool := bits (fieldAt b 20 1) 0 2, bag := fieldAt b 24 4, scale := BitVec.ofNat 32 (fieldAt b 28 4),
    dcode := bits (fieldAt b 2 1) 0 3, aggMean := bit (fieldAt b 3 1) 0, tokens := fieldAt b 4 2 + 1 }

def Shape.sd (s : Shape) : Nat := typeBytes s.dst

/-- The source row length W (R420). -/
def Shape.rowLen (s : Shape) : Nat :=
  s.k * typeBits s.src / 8 + (if s.g = 0 then 0 else s.k / s.g * typeBytes s.scaleT)

def Shape.tiled (s : Shape) : Bool := s.trc != 0 && s.tcc != 0

def Shape.tr (s : Shape) : Nat := 2 ^ (s.trc - 1)

def Shape.tc (s : Shape) : Nat := 2 ^ (s.tcc - 1)

/-- The size checks of ERR code 6 on the strides a descriptor uses (R409). -/
def Shape.strideShort (s : Shape) : Bool :=
  s.rowStride == 0 || (s.tiled && (s.tileStride == 0 || decide (s.tileStride < s.tr * s.tc * s.sd))) ||
    (!s.tiled && !s.transpose && decide (s.rowStride < s.k * s.sd))

/-- A used stride that is not a multiple of 64 (R448). -/
def Shape.strideUnaligned (s : Shape) : Bool := s.rowStride % 64 != 0 || (s.tiled && s.tileStride % 64 != 0)

/-- Reserved bits and bytes of a descriptor (R408). -/
def descReserved (b : List Byte) (score : Bool) : Bool :=
  bits (fieldAt b 0 1) 2 6 != 0 || fieldAt b 32 28 != 0 ||
  (if score then
     bits (fieldAt b 2 1) 3 5 != 0 || bits (fieldAt b 3 1) 1 7 != 0 || fieldAt b 6 22 != 0
   else
     bits (fieldAt b 2 1) 4 4 != 0 || bits (fieldAt b 3 1) 4 4 != 0 || bits (fieldAt b 20 1) 2 6 != 0 ||
       fieldAt b 21 3 != 0)

/-- The first failing check of the table *Descriptor validation*, 0 when none fails (R409). -/
def descErr (b : List Byte) : Nat :=
  let s := descShape b
  if s.kind > 1 then 1
  else if descReserved b (s.kind == 1) then 1
  else if s.kind = 1 then
    if ¬ ([1, 2, 3, 5, 6].contains s.src && [1, 2, 3, 5, 6].contains s.scaleT) then 2
    else if scaleBad s.scale || decide (s.dcode > 4) then 8
    else 0
  else if ¬ ([1, 2, 3, 4, 5, 6, 7].contains s.src && [0, 5, 6, 7, 8].contains s.scaleT &&
      [1, 2, 3, 5, 6, 7].contains s.dst) then 2
  else if ¬ [0, 16, 32, 64, 128, 256].contains s.g || (s.g != 0 && s.scaleT == 0) || (s.g == 0 && s.scaleT != 0) ||
      (s.g != 0 && !([1, 2, 3, 4].contains s.src)) || (s.g != 0 && s.k % s.g != 0) || (s.src == 4 && s.k % 2 == 1) then 3
  else if s.k = 0 ∨ s.rowLen > 65536 ∨ s.k * s.sd > 65536 then 4
  else if (s.trc == 0) != (s.tcc == 0) || decide (s.trc > 9) || decide (s.tcc > 9) then 5
  else if s.strideShort || s.strideUnaligned then 6
  else if s.slalom && !s.transpose then 7
  else if scaleBad s.scale then 8
  else 0

/-- The effective descriptor under the parameters of a SHAPE header, whose bytes 2 onward are `h` (R410). -/
def Shape.withParams (s : Shape) (h : List Byte) : Shape :=
  let f := fun off v => if fieldAt h off 4 = 0 then v else fieldAt h off 4
  { s with rowStride := f 2 s.rowStride, tileStride := f 6 s.tileStride, bag := f 10 s.bag,
           scale := if fieldAt h 14 4 = 0 then s.scale else BitVec.ofNat 32 (fieldAt h 14 4) }

/-- The breaches of R411 that complete a command with ST_BAD_DESCRIPTOR. -/
def shapeParamsBad (s : Shape) (h : List Byte) : Bool :=
  fieldAt h 18 12 != 0 || scaleBad (BitVec.ofNat 32 (fieldAt h 14 4)) || (s.kind == 0 && (s.withParams h).strideShort)

/-! ### Rows -/

/-- The byte of an element and its position in it: element j of a row (R413, R418, R419). -/
def Shape.elemByte (s : Shape) (j : Nat) : Nat :=
  if s.g = 0 ∨ s.trailing = true then j * typeBits s.src / 8
  else (j / s.g) * (typeBytes s.scaleT + s.g * typeBits s.src / 8) + typeBytes s.scaleT + (j % s.g) * typeBits s.src / 8

def Shape.scaleByte (s : Shape) (j : Nat) : Nat :=
  if s.trailing then s.k * typeBits s.src / 8 + j / s.g * typeBytes s.scaleT
  else (j / s.g) * (typeBytes s.scaleT + s.g * typeBits s.src / 8)

/-- Element j of a row after stage 3, exactly; 0 where a byte of it or of its scale lies beyond the row's bytes (R414,
R422). -/
def Shape.elem (s : Shape) (row : List Byte) (j : Nat) : Num :=
  let eb := s.elemByte j
  let en := if s.src = 4 then 1 else typeBytes s.src
  let sn := typeBytes s.scaleT
  if row.length < eb + en ∨ (s.g ≠ 0 ∧ row.length < s.scaleByte j + sn) then Num.zero
  else
    let raw := fieldAt row eb en
    let x := decodeElem s.src (if s.src = 4 then (if j % 2 = 0 then raw % 16 else raw / 16) else raw)
    let y := if s.g = 0 then x else x.mul (decodeElem s.scaleT (fieldAt row (s.scaleByte j) sn))
    y.mul (scaleNum s.scale)

def Shape.rowNums (s : Shape) (row : List Byte) : List Num := (List.range s.k).map (s.elem row)

/-- The rows of W bytes that stored bytes form (R421). -/
def Shape.rowsOf (s : Shape) (stored : List Byte) : List (List Byte) := chunks s.rowLen stored

/-! ### Pooling -/

/-- The sum of a column in row order, each addition rounded to fp32 (R434). -/
def sumColumn : List Num → Num
  | [] => Num.zero
  | x :: xs => xs.foldl fp32Add x

def maxColumn : List Num → Num
  | [] => Num.zero
  | x :: xs => xs.foldl Num.max x

/-- The pool of one column of a bag (R434, R435). -/
def poolColumn (pool : Nat) (col : List Num) : Num :=
  match pool with
  | 1 => sumColumn col
  | 2 => if col.isEmpty then Num.zero else toFp32 ((sumColumn col).divNat col.length)
  | _ => maxColumn col

/-- Groups of `k` rows (0: one group), the last one possibly short (R432). -/
def bagsFuel (k : Nat) : Nat → List (Option (List Num)) → List (List (Option (List Num)))
  | 0, _ => []
  | _ + 1, [] => []
  | f + 1, r :: rs => (r :: rs).take k :: bagsFuel k f ((r :: rs).drop k)

def bags (k : Nat) (rows : List (Option (List Num))) : List (List (Option (List Num))) :=
  bagsFuel (if k = 0 then rows.length else k) rows.length rows

/-- Pooled rows: absent keys (`none`) take no part (R435). -/
def Shape.poolRows (s : Shape) (rows : List (Option (List Num))) : List (List Num) :=
  (bags s.bag rows).map fun bag =>
    let present := bag.filterMap id
    (List.range s.k).map fun j => poolColumn s.pool (present.map fun r => toFp32 (r.getD j Num.zero))

/-! ### The output matrix and its places -/

/-- The rows of the output matrix before transposition, as destination codes: pooled or not (R424, R433). -/
def Shape.codes (s : Shape) (rows : List (Option (List Byte))) : List (List Nat) :=
  let nums := rows.map fun r => r.map s.rowNums
  if s.pool = 0 then nums.map fun r => (r.getD (List.replicate s.k Num.zero)).map (encodeElem s.dst s.sat)
  else (s.poolRows nums).map fun r => r.map (encodeElem s.dst s.sat)

/-- Ro and Co for `r` rows or bags (R425). -/
def Shape.dims (s : Shape) (r : Nat) : Nat × Nat := if s.transpose then (s.k, r) else (r, s.k)

/-- The output matrix: with TRANSPOSE turned by the slalom units or in mangers (R425, R444, R446). -/
def Shape.matrix (s : Shape) (m : List (List Nat)) : List (List Nat) :=
  if !s.transpose then m else if s.slalom then slalomMatrix s.sd s.k m else mangerTurn s.sd s.k m

/-- Output offset of element (i, j) (R426, R427). -/
def Shape.place (s : Shape) (i j : Nat) : Nat :=
  if s.tiled then
    (i / s.tr) * s.rowStride + (j / s.tc) * s.tileStride + ((i % s.tr) * s.tc + j % s.tc) * s.sd
  else i * s.rowStride + j * s.sd

/-- Rows and columns of positions, edge tiles filled up (R427). -/
def Shape.posDims (s : Shape) (r : Nat) : Nat × Nat :=
  let d := s.dims r
  if s.tiled then (ceilDiv d.1 s.tr * s.tr, ceilDiv d.2 s.tc * s.tc) else d

/-- The shaped output length (R428). -/
def Shape.outLen (s : Shape) (r : Nat) : Nat :=
  let d := s.dims r
  if d.1 = 0 ∨ d.2 = 0 then 0
  else if s.tiled then
    (ceilDiv d.1 s.tr - 1) * s.rowStride + (ceilDiv d.2 s.tc - 1) * s.tileStride + s.tr * s.tc * s.sd
  else (d.1 - 1) * s.rowStride + d.2 * s.sd

/-- BYTES of a shaped output (R430). -/
def Shape.outBytes (s : Shape) (r : Nat) : Nat :=
  if (s.dims r).1 = 0 then 0 else s.sd * ((s.posDims r).1 * (s.posDims r).2)

/-- Every position with its bytes, in ascending row and column; positions outside the matrix are 0 (R427). -/
def Shape.positions (s : Shape) (m : List (List Nat)) : List Piece :=
  let d := s.dims m.length
  let p := s.posDims m.length
  let out := s.matrix m
  if d.1 = 0 then []
  else
    (List.range p.1).flatMap fun i =>
      let row := out.getD i []
      (List.range p.2).map fun j => { off := s.place i j, bytes := natLe s.sd (row.getD j 0) }

/-! ### Pieces -/

/-- One output byte added to the bytes sorted by offset; a byte that several positions map to is `none` (R431). -/
def addByte (off : Nat) (b : Option Byte) : List (Nat × Option Byte) → List (Nat × Option Byte)
  | [] => [(off, b)]
  | (o, c) :: r =>
    if off < o then (off, b) :: (o, c) :: r else if off = o then (o, none) :: r else (o, c) :: addByte off b r

def addBytes : Nat → List Byte → List (Nat × Option Byte) → List (Nat × Option Byte)
  | _, [], l => l
  | off, b :: bs, l => addByte off (some b) (addBytes (off + 1) bs l)

def byteMap (ps : List Piece) : List (Nat × Option Byte) := ps.foldr (fun p l => addBytes p.off p.bytes l) []

/-- Contiguous bytes joined into pieces that end at multiples of 8,192, so none crosses a 64 KiB boundary (R279); undefined
bytes are free values from index `free` on (R431, log 3). -/
def joinBytes (free : Nat) : List (Nat × Option Byte) → List Piece
  | [] => []
  | (o, c) :: r =>
    let b := c.getD (Config.overlapByte (free + o))
    match joinBytes free r with
    | p :: ps =>
      if p.off = o + 1 ∧ p.off % 8192 ≠ 0 then { off := o, bytes := b :: p.bytes } :: ps
      else { off := o, bytes := [b] } :: p :: ps
    | [] => [{ off := o, bytes := [b] }]

/-- Bytes at `off` cut at multiples of 8,192 (R279). -/
def cutPieces (off : Nat) (bs : List Byte) : List Piece :=
  let head := 8192 - off % 8192
  let first := bs.take head
  let rest := chunks 8192 (bs.drop head)
  if bs.isEmpty then []
  else { off := off, bytes := first } ::
    (List.zip (List.range rest.length) rest).map fun p => { off := off + head + 8192 * p.1, bytes := p.2 }

/-- The output pieces of shaped rows (`none`: an absent key). -/
def Shape.output (s : Shape) (free : Nat) (rows : List (Option (List Byte))) : List Piece :=
  joinBytes free (byteMap (s.positions (s.codes rows)))

/-- The number of rows or bags of `r` source rows (R425, R432). -/
def Shape.outRows (s : Shape) (r : Nat) : Nat :=
  if s.pool = 0 then r else if s.bag = 0 then min r 1 else ceilDiv r s.bag

/-! ### Slalom (R442–R446) -/

/-- Complete and incomplete E × E blocks of a run of `rows` consecutive rows that one stall holds. -/
def Shape.slalomBlocks (s : Shape) (rows : Nat) : Nat × Nat :=
  let e := 64 / s.sd
  let full := (rows / e) * (s.k / e)
  (full, ceilDiv rows e * ceilDiv s.k e - full)

/-! ### Scores -/

def Shape.dDim (s : Shape) : Nat := 16 * 2 ^ s.dcode

/-- Q, the query block length (R326). -/
def Shape.queryLen (s : Shape) : Nat := ceilDiv (s.dDim * typeBytes s.src) 64 * 64

/-- The value length a page must have (R450). -/
def Shape.pageLen (s : Shape) : Nat := s.tokens * s.dDim * typeBytes s.scaleT

def elemsOf (ty n : Nat) (b : List Byte) : List Num :=
  (List.range n).map fun i => decodeElem ty (fieldAt b (i * typeBytes ty) (typeBytes ty))

/-- Block sums of at most 64 dimensions, exact and rounded once, added in order (R452). -/
def dotBlocks : Nat → List Num → Num → Num
  | 0, _, acc => acc
  | f + 1, ps, acc =>
    match ps with
    | [] => acc
    | p :: r =>
      let blk := (p :: r).take 64
      let sum := toFp32 (match blk with
        | [] => Num.zero
        | x :: xs => xs.foldl Num.add x)
      dotBlocks f ((p :: r).drop 64) (fp32Add acc sum)

/-- The score of a token (R452, R453). The first block sum starts the sum. -/
def Shape.tokenScore (s : Shape) (query token : List Byte) : Num :=
  let ps := List.zipWith Num.mul (elemsOf s.src s.dDim query) (elemsOf s.scaleT s.dDim token)
  let blk := ps.take 64
  let first := toFp32 (match blk with
    | [] => Num.zero
    | x :: xs => xs.foldl Num.add x)
  toFp32 ((dotBlocks 4 (ps.drop 64) first).mul (scaleNum s.scale))

/-- The token scores of a page (R450). -/
def Shape.pageTokens (s : Shape) (query page : List Byte) : List Num :=
  (List.range s.tokens).map fun t =>
    s.tokenScore query (slice (t * s.dDim * typeBytes s.scaleT) (s.dDim * typeBytes s.scaleT) page)

/-- A page's score (R454). -/
def Shape.pageScore (s : Shape) (toks : List Num) : Num :=
  if s.aggMean then toFp32 ((sumColumn toks).divNat s.tokens) else maxColumn toks

/-- fp32 bytes of a score (R453, R455, R916). -/
def scoreBytes (x : Num) : List Byte := natLe 4 (tyFp32.encode false x)

/-- Insertion into a descending list; an equal score keeps the earlier entry first (R455). -/
def rankInsert (x : Nat × Num) : List (Nat × Num) → List (Nat × Num)
  | [] => [x]
  | y :: r => if x.2.ranksAbove y.2 then x :: y :: r else y :: rankInsert x r

/-- Pages by descending score, ties to the lower list index. -/
def rankPages (ps : List (Nat × Num)) : List (Nat × Num) := ps.foldl (fun l p => rankInsert p l) []

end Sys2Proof.Machine
end

