-- ==== Sys2Proof/Machine/Operands.lean ====
section
/-! DEFINITION. The operands of a command: the fields of its body (R271), what its opcode uses (R272, R273, R276), its class (R274),
its cost (R369), the checks of R277 with the limits of R278, and the effective shape (R301, R407). -/

namespace Sys2Proof.Machine

open Sys2Proof

/-- The 48 bytes of a body (R271). -/
def parseBody (b : List Byte) : Body :=
  { opcode := fieldAt b 0 1, subop := fieldAt b 1 1, flags := fieldAt b 2 1, param := fieldAt b 3 1,
    paddock := fieldAt b 4 2, tether := fieldAt b 6 2, offset := fieldAt b 8 8, length := fieldAt b 16 8,
    addr := fieldAt b 24 8, tadd := fieldAt b 32 4, ilen := fieldAt b 36 4, arg := fieldAt b 40 8 }

def Body.clsEn (b : Body) : Bool := bit b.flags 0
def Body.cls (b : Body) : Nat := bits b.flags 1 2
def Body.raw (b : Body) : Bool := bit b.flags 3
def Body.teth (b : Body) : Bool := bit b.flags 4
def Body.ifAbsent (b : Body) : Bool := bit b.flags 5
def Body.teth14 (b : Body) : Nat := b.tether % 16384

/-- SUBOP values an opcode has; 0 for a reserved opcode (R272, R276). -/
def subops (op : Nat) : Nat :=
  match op with
  | 0x00 | 0x01 | 0x02 | 0x03 | 0x04 | 0x06 | 0x10 | 0x11 | 0x12 | 0x13 => 1
  | 0x05 | 0x07 => 2
  | 0x20 => 3
  | 0x21 | 0x22 => 4
  | _ => 0

/-- The command names a paddock (R277). -/
def Body.namesPad (b : Body) : Bool :=
  [0x01, 0x02, 0x03, 0x04, 0x05, 0x06, 0x07, 0x10, 0x11, 0x12, 0x13].contains b.opcode || (b.opcode == Opcode.paddock.code && b.subop != 0)

def Body.usesRaw (b : Body) : Bool := [0x01, 0x02, 0x03, 0x06].contains b.opcode

/-- A KEY header is required (R276). -/
def Body.needsKey (b : Body) : Bool :=
  [0x01, 0x02, 0x03, 0x04, 0x10, 0x11, 0x12, 0x13].contains b.opcode || (b.opcode == Opcode.scan.code && b.subop == 0)

def Body.needsShape (b : Body) : Bool := b.opcode == Opcode.shapeGet.code || b.opcode == Opcode.score.code

def Body.takesShape (b : Body) : Bool := [0x01, 0x02, 0x03, 0x06, 0x07].contains b.opcode

/-- Commands whose inbound data is auxiliary input (R271, R283). -/
def Body.usesAux (b : Body) : Bool :=
  b.opcode == Opcode.gather.code || b.opcode == Opcode.score.code || (b.opcode == Opcode.paddock.code && (b.subop == 0 || b.subop == 2))

/-- Writes with value bytes. -/
def Body.movesValue (b : Body) : Bool := [0x10, 0x11, 0x12].contains b.opcode

/-- Commands that use ADDR (R447). -/
def Body.usesAddr (b : Body) : Bool :=
  [0x01, 0x02, 0x03, 0x05, 0x06, 0x07, 0x10, 0x11, 0x12].contains b.opcode || (b.opcode == Opcode.paddock.code && b.subop == 3)

def Body.isRead (b : Body) : Bool := decide (0x01 ≤ b.opcode) && decide (b.opcode ≤ 0x07)

def Body.isWrite (b : Body) : Bool := decide (0x10 ≤ b.opcode) && decide (b.opcode ≤ 0x13)

/-- The inbound length N (R283). -/
def Body.inbound (b : Body) : Nat := if b.movesValue then b.length else if b.usesAux then b.ilen else 0

/-- Reserved encodings (R272, R273). -/
def Body.reserved (b : Body) : Bool :=
  decide (subops b.opcode ≤ b.subop) || decide (64 ≤ b.flags) ||
    ((b.namesPad || b.opcode == Opcode.paddock.code) && decide (4096 ≤ b.paddock)) ||
    ((b.teth || b.opcode == Opcode.tether.code) && decide (16384 ≤ b.tether))

/-- Headers against the table Opcodes (R277). -/
def headersBad (b : Body) (key shape : Bool) : Bool :=
  b.needsKey != key || (b.needsShape && !shape) || (!b.takesShape && shape) || (b.usesRaw && b.raw && shape)

/-- PARAM and SUBOP-specific fields out of range (R313, R325). -/
def Body.paramBad (b : Body) : Bool :=
  (b.opcode == Opcode.score.code && b.subop == 0 && (b.param == 0 || decide (64 < b.param))) ||
    (b.opcode == Opcode.scan.code && b.subop == 1 && decide (b.arg < b.offset))

/-- Lengths outside the table Length limits (R278). -/
def Body.lengthBad (b : Body) : Bool :=
  match b.opcode with
  | 0x01 | 0x10 => decide (maxValue < b.length)
  | 0x02 | 0x03 | 0x11 => decide (b.length < 1) || decide (maxValue < b.offset + b.length)
  | 0x12 => decide (b.length < 1) || decide (maxValue < b.length)
  | 0x05 => decide (b.length < 264) || decide (67108864 < b.length)
  | 0x06 => decide (b.length < 1) || decide (262144 < b.length) || decide (maxValue < b.offset + b.length) ||
      decide (b.ilen < 8) || decide (63488 < b.ilen) || b.ilen % 8 != 0
  | 0x07 => decide (b.length < 16) || decide (67108864 < b.length) || decide (b.ilen < 72) || decide (1048576 < b.ilen) ||
      b.ilen % 8 != 0
  | 0x21 => b.subop == 2 && (decide (b.length < 1) || decide (60000000 < b.length))
  | 0x22 => ((b.subop == 0 || b.subop == 2) && b.ilen != 64) || (b.subop == 3 && decide (b.length < 128))
  | _ => false

/-- C at admission (R369, R370). -/
def Body.cost (b : Body) (push : Bool) : Nat :=
  match b.opcode with
  | 0x01 => if push && b.length == 0 then 256 + 1048576 else 256 + b.length
  | 0x02 | 0x03 | 0x05 | 0x10 | 0x11 | 0x12 => 256 + b.length
  | 0x06 => 256 + b.ilen + (b.param + 1) * b.length
  | 0x07 => 256 + b.ilen + b.length
  | 0x22 => if b.subop = 0 ∨ b.subop = 2 then 320 else 256
  | _ => 256

/-- The actual cost at completion (R369). -/
def Body.actualCost (b : Body) (push : Bool) (stored moved : Nat) : Nat :=
  match b.opcode with
  | 0x01 | 0x02 | 0x03 => 256 + stored
  | 0x06 => 256 + b.ilen + stored
  | 0x07 => 256 + b.ilen + moved
  | 0x05 | 0x10 | 0x11 | 0x12 => 256 + moved
  | _ => b.cost push

/-- The class of a command, given its paddock's default when that is live (R159, R274). -/
def Body.classOf (b : Body) (onUrg : Bool) (padCls : Option Nat) : Nat :=
  if onUrg then CmdClass.urgent.code else if b.clsEn then b.cls else if b.namesPad then padCls.getD CmdClass.normal.code else CmdClass.normal.code

/-- A live paddock for commands (R75, R339, R918). -/
def Dev.padLive (d : Dev) (n : Nat) : Bool := (d.pad n).live && (d.pad n).st != 2

/-- The descriptor an id names, if it exists for reads or for SCORE (R403, R404). -/
def Dev.shapeById (d : Dev) (id : Nat) (score : Bool) : Option Shape :=
  let e := d.shape id
  let s := descShape (e.words.flatMap fun w => natLe 4 w.toNat)
  if 1 ≤ id ∧ id < 1024 ∧ e.valid = true ∧ s.kind = b2n score then some s else none

/-- SHAPE header checks of R411: reserved bytes and SCALE, and the strides when the descriptor exists. -/
def Dev.shapeHdrBad (d : Dev) (h : List Byte) (score : Bool) : Bool :=
  match d.shapeById (fieldAt h 0 2) score with
  | some s => shapeParamsBad s h
  | none => fieldAt h 18 12 != 0 || scaleBad (BitVec.ofNat 32 (fieldAt h 14 4))

/-- The effective shape of a command: `none` where none is in force, `some none` where it does not exist (R301, R407). -/
def Dev.effShape (d : Dev) (c : Cmd) : Option (Option Shape) :=
  let score := c.body.opcode == Opcode.score.code
  if !c.body.takesShape then none
  else
    match c.shapeHdr with
    | some h => some ((d.shapeById (fieldAt h 0 2) score).map fun s => s.withParams h)
    | none =>
      let dflt := (d.pad c.body.pad).shape
      if c.body.raw || dflt = 0 || !c.body.usesRaw then none else some (d.shapeById dflt score)

/-- The checks of R277 in their order: the status of the first that fails, else the effective shape. -/
def Dev.admitCheck (d : Dev) (c : Cmd) : Nat ⊕ Option Shape :=
  let b := c.body
  let push := c.via == .push
  let eff := d.effShape c
  match c.pre with
  | some st => .inl st
  | none =>
    if b.reserved then .inl Status.badDescriptor.code
    else if headersBad b c.key.isSome c.shapeHdr.isSome then .inl Status.badDescriptor.code
    else if c.shapeHdr.any (fun h => d.shapeHdrBad h (b.opcode == Opcode.score.code)) || b.paramBad then .inl Status.badDescriptor.code
    else if c.key.any (fun k => k.isEmpty || decide (240 < k.length)) then .inl Status.badLength.code
    else if b.lengthBad then .inl Status.badLength.code
    else if b.namesPad && !(d.padLive b.pad) &&
        !(b.opcode == Opcode.paddock.code && b.subop == 1 && !(d.pad b.pad).live && (d.pad b.pad).st == 4) then .inl Status.noPaddock.code
    else
      match eff with
      | some none => .inl Status.badShape.code
      | some (some s) =>
        if (!push && (b.usesAddr && b.addr % 64 != 0 || b.usesAux && b.arg % 8 != 0)) || (s.kind == 0 && s.strideUnaligned) then
          .inl Status.badAlign.code
        else .inr (some s)
      | none =>
        if !push && (b.usesAddr && b.addr % 64 != 0 || b.usesAux && b.arg % 8 != 0) then .inl Status.badAlign.code else .inr none

/-! ### Key lists (R319, R326) -/

/-- The records of a key list: keys, or `none` on a breach of R319. -/
def keyList : Nat → List Byte → Option (List (List Byte))
  | 0, bs => if bs.isEmpty then some [] else none
  | f + 1, bs =>
    if bs.isEmpty then some []
    else
      let k := fieldAt bs 2 1
      let n := 8 * ceilDiv (4 + k) 8
      if fieldAt bs 0 1 ≠ 0 ∨ fieldAt bs 3 1 ≠ 0 ∨ 8 * fieldAt bs 1 1 ≠ n ∨ bs.length < n ∨ k = 0 ∨ 240 < k then none
      else (keyList f (bs.drop n)).map fun ks => slice 4 k bs :: ks

end Sys2Proof.Machine
end

