-- ==== Sys2Proof/Machine/Shed.lean ====
section
/-! DEFINITION. The shed: geometry (R552–R555), LSNs and log blocks (R556–R561), the journal (R562–R569), shed jobs (the programs
and the record of one write, R570, R574), and what a durable record changes. -/

namespace Sys2Proof.Machine

open Sys2Proof

/-! ### States and geometry -/

def shdAbsent : Nat := 0
def shdRecovering : Nat := 1
def shdReady : Nat := 2
def shdReadOnly : Nat := 3
def shdBlank : Nat := 4
def shdForeign : Nat := 5
def shdFormatting : Nat := 6

/-- S, the stripes of a superblock, which is the pages per block. -/
def Dev.stripesPerSblk (d : Dev) : Nat :=
  match d.shd.pop with
  | some p => p.pages
  | none => 1024

/-- The program unit u. -/
def Dev.progUnit (d : Dev) : Nat :=
  match d.shd.pop with
  | some p => max 1 p.unit
  | none => 1

/-- Superblocks formed in group g (R552). -/
def Dev.formedAt (d : Dev) (g : Nat) : Nat :=
  match d.shd.ident with
  | some i => i.formed.getD g 0
  | none => 0

def Dev.superblocks (d : Dev) : Nat := ((List.range 4).map d.formedAt).sum

/-- L (R555). -/
def Dev.lblkCount (d : Dev) : Nat := 92 * d.superblocks / 100 - 1032

/-- Logical block and stripe offset of an LSN, with S stripes to a block (R554). -/
def lsnBlock (s n : Nat) : Nat := 4 * (n / 4 / s) + n % 4

def lsnOff (s n : Nat) : Nat := n / 4 % s

/-- The LSN at an offset of a logical block. -/
def lsnAt (s lblk off : Nat) : Nat := 4 * (lblk / 4 * s + off) + lblk % 4

def Dev.sblk (d : Dev) (i : Nat) : Sblk := SMap.get d.shd.sblks i Sblk.reset

def Dev.updSblk (d : Dev) (i : Nat) (f : Sblk → Sblk) : Dev :=
  { d with shd := { d.shd with sblks := SMap.upd d.shd.sblks i Sblk.reset f } }

/-- Superblocks of group g that are in use or retired. -/
def Dev.usedSblks (d : Dev) (g : Nat) : Nat :=
  (d.shd.sblks.filter fun e => e.1 % 4 == g && e.2.use != .free).length

/-- Free superblocks F of group g; two of each group form the checkpoint region (R553). -/
def Dev.freeSblks (d : Dev) (g : Nat) : Nat := d.formedAt g - 2 - d.usedSblks g

/-- The muck-out minimum share of a group with F free superblocks, in percent (R586). -/
def muckShare (f : Nat) : Nat :=
  if f > 64 then 10 else if f > 16 then 10 + (64 - f) * 40 / 48 else if f > 4 then 50 else 100

/-- The lowest superblock of group g that no table lists; superblock 8 + g + 4k is the k-th of group g (log 16). -/
def Dev.freshSblk (d : Dev) (g : Nat) : Option Nat :=
  let k := firstGap 0 ((d.shd.sblks.filter fun e => e.1 % 4 == g).map fun e => (e.1 - 8) / 4)
  if k < d.formedAt g - 2 then some (8 + g + 4 * k) else none

/-- The entry with the lowest erase count (or the highest), the lower number on a tie. -/
def pickErases (most : Bool) : List (Nat × Nat) → Option (Nat × Nat)
  | [] => none
  | x :: r =>
    match pickErases most r with
    | none => some x
    | some y => if (if most then decide (x.2 < y.2) else decide (y.2 < x.2)) then some y else some x

/-- Free superblocks of group g with their erase counts. -/
def Dev.freeList (d : Dev) (g : Nat) : List (Nat × Nat) :=
  ((d.shd.sblks.filter fun e => e.1 % 4 == g && e.2.use == .free).map fun e => (e.1, e.2.erases)) ++
    (match d.freshSblk g with
     | some i => [(i, 0)]
     | none => [])

def Dev.queueErase (d : Dev) (i : Nat) : Dev :=
  if d.shd.erasing.contains i then d else { d with shd := { d.shd with erasing := d.shd.erasing ++ [i] } }

/-- A free superblock of group g is taken for a use and queued for its erase (R572, R588, R589). -/
def Dev.allocSblk (d : Dev) (g : Nat) (most : Bool) (use : SblkUse) : Option (Nat × Dev) :=
  match pickErases most (d.freeList g) with
  | none => none
  | some (i, _) =>
    some (i, (d.updSblk i fun b =>
      { b with use := use, erased := false, stripes := [], closed := false, openSeq := d.shd.openSeq, ptr := 0,
               openDurable := false }).queueErase i)

/-- The blocks of a retired superblock but the failed one become spares of their channels (R590). -/
def addSpares (spares : List Nat) (g pos : Nat) : List Nat :=
  (List.zip (List.range spares.length) spares).map fun e => if e.1 / 4 = g ∧ e.1 % 4 ≠ pos then e.2 + 1 else e.2

/-- A superblock that nothing references any more: free, and queued for erase, or retired (R572, R590). -/
def Dev.releaseSblk (d : Dev) (i : Nat) : Dev :=
  match (d.sblk i).bad with
  | some pos =>
    let d := d.updSblk i fun b => { b with use := .retired, stripes := [] }
    { d with shd := { d.shd with retired := satAdd 16 d.shd.retired 1, spares := addSpares d.shd.spares (i % 4) pos } }
  | none => (d.updSblk i fun b => { b with use := .free, stripes := [], erased := false, closed := false }).queueErase i

/-! ### The journal -/

/-- Bytes of a record, a multiple of 16 (R562). -/
def recBytes (b : JBody) : Nat := 16 * ceilDiv (16 + b.bytes.length) 16

/-- Where a record of `n` bytes lies after position (page, byte), and the position after it: it never crosses a page, and a
longer one takes pages of its own (R562). -/
def placeRec (pos : Nat × Nat) (n : Nat) : (Nat × Nat) × (Nat × Nat) :=
  if pos.2 + n ≤ 16384 then (pos, (pos.1, pos.2 + n))
  else
    let page := if pos.2 = 0 then pos.1 else pos.1 + 1
    if n ≤ 16384 then ((page, 0), (page, n)) else ((page, 0), (page + ceilDiv n 16368, 0))

/-- Pages used up to a position. -/
def pagesTo (pos : Nat × Nat) : Nat := if pos.2 = 0 then pos.1 else pos.1 + 1

/-- The records that the next program unit of u pages takes, placed from page 0, with the position reached and the rest. -/
def fillUnit (u : Nat) (pos : Nat × Nat) : List JRec → List JRec × (Nat × Nat) × List JRec
  | [] => ([], pos, [])
  | r :: rs =>
    let p := placeRec pos (recBytes r.body)
    if pagesTo p.2 ≤ u || pos == (0, 0) then
      let x := fillUnit u p.2 rs
      ({ r with page := p.1.1, off := p.1.2 / 16 } :: x.1, x.2.1, x.2.2)
    else ([], pos, r :: rs)

/-- The journal head with room for `n` pages: a superblock of the next group in rotation when the head is full. -/
def Dev.journalHead (d : Dev) (n : Nat) : Option Dev :=
  if d.shd.jhead ≠ 0 ∧ d.shd.jpages + n ≤ 4 * d.stripesPerSblk then some d
  else
    let g := (d.shd.jhead + 1) % 4
    match ([g, (g + 1) % 4, (g + 2) % 4, (g + 3) % 4].findSome? fun g => d.allocSblk g false .journal) with
    | none => none
    | some (i, d) => some { d with shd := { d.shd with jhead := i, jpages := 0 } }

def Dev.addProg (d : Dev) (w : ProgFor) : Dev :=
  let (i, d) := d.fresh
  { d with shd := { d.shd with progs := d.shd.progs ++ [{ id := i, what := w, tries := 0 }], pseq := d.shd.pseq + 1 } }

/-- The gathered records are padded and programmed as one unit (R569). At most four units are in flight. -/
def Dev.issueUnit (d : Dev) : Dev :=
  if d.shd.gather.isEmpty ∨ (d.shd.units.filter fun u => !u.complete).length ≥ 4 ∨ d.shd.st ≠ shdReady then d
  else
    let u := d.progUnit
    let x := fillUnit u (0, 0) d.shd.gather
    let n := ceilDiv (pagesTo x.2.1) u * u
    match d.journalHead n with
    | none => d
    | some d =>
      let (i, d) := d.fresh
      let recs := x.1.map fun r => { r with sblk := d.shd.jhead, page := d.shd.jpages + r.page }
      let d : Dev := { d with shd := { d.shd with
        units := d.shd.units ++ [{ id := i, recs := recs, complete := false }], gather := x.2.2, gatherAt := d.now,
        jpages := d.shd.jpages + n, jsince := d.shd.jsince + n } }
      d.addProg (.unit i)

/-- A record joins the journal unit being gathered; a unit that is full is programmed at once. -/
def Dev.appendRec (d : Dev) (b : JBody) : Nat × Dev :=
  let s := d.shd.jseq
  let d : Dev := { d with shd := { d.shd with
    gather := d.shd.gather ++ [{ seq := s, sblk := 0, page := 0, off := 0, body := b }],
    gatherAt := if d.shd.gather.isEmpty then d.now else d.shd.gatherAt, jseq := s + 1 } }
  (s, if (fillUnit d.progUnit (0, 0) d.shd.gather).2.2.isEmpty then d else d.issueUnit)

/-- Records can become durable: not in READ_ONLY (R600). -/
def Dev.canJournal (d : Dev) : Bool := d.shd.st != shdReadOnly

/-! ### What the durable journal says -/

/-- PADDOCK record subops. -/
def subCreate : Nat := 0
def subDelete : Nat := 1
def subAlter : Nat := 2

/-- A PADDOCK record has ended the records of this paddock id and epoch (R564). -/
def padEnded (j : List JRec) (pad epoch : Nat) : Bool :=
  j.any fun r => match r.body with
    | .paddock sub p e a => p == pad && e == epoch && (sub == subDelete || (sub == subAlter && a.persist == 0))
    | _ => false

/-- Write sequence number of a VALUE or DELETE record of the key. -/
def keyWseq (pad epoch : Nat) (key : List Byte) (b : JBody) : Option Nat :=
  match b with
  | .value p e w k _ _ _ spill => if p = pad ∧ e = epoch ∧ k = key ∧ spill = false then some w else none
  | .delete p e w k => if p = pad ∧ e = epoch ∧ k = key then some w else none
  | _ => none

/-- The VALUE or DELETE record of a key with the highest write sequence number (R564); of equal ones the first. -/
def liveRec (j : List JRec) (pad epoch : Nat) (key : List Byte) : Option JRec :=
  j.foldl (fun a r =>
    match keyWseq pad epoch key r.body with
    | none => a
    | some w =>
      match a with
      | none => some r
      | some b => if (keyWseq pad epoch key b.body).getD 0 < w then some r else a) none

/-- LSNs of a VALUE record. -/
def recLsns : JBody → List Nat
  | .value _ _ _ _ _ lsns _ _ => lsns.filterMap id
  | _ => []

/-- Whether a journal record is live: named by R564, the newest PADDOCK record of its id, a DELETE that hides an older VALUE, or a
record of the tables that no valid checkpoint covers (R581). -/
def recIsLive (d : Dev) (r : JRec) : Bool :=
  let j := d.shd.journal
  match r.body with
  | .value p e w k _ _ _ spill =>
    if spill then (d.peek p k).any fun x => x.wseq == w
    else !padEnded j p e && (liveRec j p e k).any fun x => x.seq == r.seq
  | .delete p e _ k => !padEnded j p e && (liveRec j p e k).any (fun x => x.seq == r.seq) &&
      j.any fun x => match x.body with
        | .value p' e' _ k' _ _ _ false => p' == p && e' == e && k' == k
        | _ => false
  | .paddock _ p _ _ => !(j.any fun x => match x.body with
      | .paddock _ p' _ _ => p' == p && decide (r.seq < x.seq)
      | _ => false)
  | _ => !(d.shd.ckpt.any fun c => decide (r.seq ≤ c.covers))

/-- Journal records of a superblock that are durable. -/
def Dev.journalOn (d : Dev) (i : Nat) : List JRec := d.shd.journal.filter fun r => r.sblk == i

/-- The journal superblocks under a merge whose live records have all been copied forward get their JRETIRE record (R582, R584). -/
def Dev.retireMoved (d : Dev) : Dev :=
  let moved := d.shd.jmerge.filter fun i => (d.journalOn i).all fun r => !recIsLive d r
  moved.foldl (fun d i =>
    (({ d with shd := { d.shd with jmerge := d.shd.jmerge.filter fun x => x != i } } : Dev).appendRec (.jretire i)).2) d

/-! ### LSNs -/

def Dev.dataRefs (d : Dev) (lblk : Nat) : Nat :=
  (d.shd.refs.filter fun e => lsnBlock d.stripesPerSblk e.1 == lblk).length

/-- One more holder of an LSN. -/
def Dev.holdLsn (d : Dev) (n : Nat) : Dev :=
  { d with shd := { d.shd with refs := SMap.upd d.shd.refs n 0 (· + 1) } }

/-- A logical block that no LSN of is referenced any more is unmapped (R560). -/
def Dev.unmapIfEmpty (d : Dev) (lblk : Nat) : Dev :=
  let sb := (SMap.find d.shd.bmap lblk).toList ++ (SMap.find d.shd.logs lblk).toList
  if d.dataRefs lblk ≠ 0 ∨ sb.isEmpty ∨ d.shd.merging.contains lblk ∨ !d.canJournal then d
  else
    let d : Dev := { d with shd := { d.shd with merging := d.shd.merging ++ [lblk] } }
    (d.appendRec (.unmap lblk sb)).2

/-- One holder of an LSN less; without holders it is free (R561). -/
def Dev.releaseLsn (d : Dev) (n : Nat) : Dev :=
  let k := SMap.get d.shd.refs n 0
  if k ≤ 1 then
    let d : Dev := { d with shd := { d.shd with refs := SMap.del d.shd.refs n } }
    d.unmapIfEmpty (lsnBlock d.stripesPerSblk n)
  else { d with shd := { d.shd with refs := SMap.put d.shd.refs n (k - 1) } }

def Dev.releaseLsns (d : Dev) (ns : List Nat) : Dev := ns.foldl Dev.releaseLsn d

def Dev.holdLsns (d : Dev) (ns : List Nat) : Dev := ns.foldl Dev.holdLsn d

/-- The log block of a logical block has room, or one can be opened (R556). -/
def Dev.logUsable (d : Dev) (lblk : Nat) : Bool :=
  !d.shd.merging.contains lblk &&
  match SMap.find d.shd.logs lblk with
  | some i => !(d.sblk i).closed && decide ((d.sblk i).stripes.length < d.stripesPerSblk)
  | none => decide (d.shd.logs.length < 1024) && decide (0 < d.freeSblks (lblk % 4))

def Dev.lsnUsable (d : Dev) (n : Nat) : Bool :=
  let lblk := lsnBlock d.stripesPerSblk n
  decide (lblk < d.lblkCount) && (SMap.find d.shd.refs n).isNone && d.logUsable lblk

def Dev.searchLsn (d : Dev) : Nat → Nat → Option Nat
  | 0, _ => none
  | k + 1, n =>
    if d.lblkCount ≤ lsnBlock d.stripesPerSblk n then none
    else if d.lsnUsable n then some n
    else d.searchLsn k (n + 1)

/-- A free LSN of a logical block with an open log block. -/
def Dev.openLsn (d : Dev) : Option Nat :=
  (SMap.keys d.shd.logs).findSome? fun lblk =>
    if d.logUsable lblk then
      ((List.range d.stripesPerSblk).map fun o => lsnAt d.stripesPerSblk lblk o).find? fun n => (SMap.find d.shd.refs n).isNone
    else none

/-- The LSN handed out next: of a logical block with an open log block, else the lowest one. -/
def Dev.nextLsn (d : Dev) : Option Nat :=
  match d.openLsn with
  | some n => some n
  | none => d.searchLsn (d.shd.refs.length + (d.shd.logs.length + d.shd.merging.length + 1) * 4 * d.stripesPerSblk + 1) 0

/-- The log block of a logical block, opened if there is none (R557, R571). -/
def Dev.openLog (d : Dev) (lblk : Nat) : Option (Nat × Dev) :=
  match SMap.find d.shd.logs lblk with
  | some i => some (i, d)
  | none =>
    match d.allocSblk (lblk % 4) false (.log lblk) with
    | none => none
    | some (i, d) =>
      let d : Dev := { d with shd := { d.shd with logs := SMap.put d.shd.logs lblk i, openSeq := d.shd.openSeq + 1 } }
      some (i, (d.appendRec (.logOpen lblk i)).2)

/-- A stripe is written to the next page of its logical block's log block (R557). -/
def Dev.writeStripe (d : Dev) (n kind : Nat) (bytes : List Byte) (job seg : Nat) : Option Dev :=
  match d.openLog (lsnBlock d.stripesPerSblk n) with
  | none => none
  | some (i, d) =>
    let page := (d.sblk i).stripes.length
    if page ≥ d.stripesPerSblk ∨ (d.sblk i).closed then none
    else
      let st : Stripe :=
        { kind := kind, off := lsnOff d.stripesPerSblk n, bytes := bytes, good := false, since := d.now, pseq := d.shd.pseq }
      some ((d.updSblk i fun b => { b with stripes := b.stripes ++ [st] }).addProg (.stripe i page job seg))

/-! ### Reading -/

/-- The newest stripe of a superblock at an offset. -/
def newestStripe (ss : List Stripe) (off : Nat) : Option Stripe :=
  ss.foldl (fun a s => if s.good ∧ s.kind ≠ kindFill ∧ s.off = off then some s else a) none

/-- The superblock and stripe that hold the newest copy of an LSN (R559). -/
def Dev.locateLsn (d : Dev) (n : Nat) : Option (Nat × Stripe) :=
  let lblk := lsnBlock d.stripesPerSblk n
  let off := lsnOff d.stripesPerSblk n
  let inSb := fun i => (newestStripe (d.sblk i).stripes off).map fun s => (i, s)
  match (SMap.find d.shd.logs lblk).bind inSb with
  | some x => some x
  | none => (SMap.find d.shd.bmap lblk).bind inSb

/-- A shed read is issued (R559). -/
def Dev.issueRead (d : Dev) (n len : Nat) (w : NReadFor) : Dev :=
  let sb := ((d.locateLsn n).map Prod.fst).getD 0
  let (i, d) := d.fresh
  { d with shd := { d.shd with reads := d.shd.reads ++ [{ id := i, lsn := n, sblk := sb, len := len, what := w }] } }

/-! ### Jobs -/

def Dev.findJob (d : Dev) (i : Nat) : Option Job := d.shd.jobs.find? fun j => j.id == i

def Dev.updJob (d : Dev) (i : Nat) (f : Job → Job) : Dev :=
  { d with shd := { d.shd with jobs := d.shd.jobs.map fun j => if j.id = i then f j else j } }

def Dev.dropJob (d : Dev) (i : Nat) : Dev :=
  { d with shd := { d.shd with jobs := d.shd.jobs.filter fun j => j.id != i } }

/-- A job is in progress for the key. -/
def Dev.keyBusy (d : Dev) (pad : Nat) (key : List Byte) : Bool :=
  d.shd.jobs.any fun j => j.pad == pad && j.key == key

/-- Commands that wait for a job get a final program failure (R363, R575). -/
def Dev.failJobCmds (d : Dev) (i : Nat) : Dev :=
  { d with cmds := d.cmds.map fun c => if c.job = some i ∧ c.status = 0 then { c with status := 0x31 } else c }

/-- The job's record cannot be made durable. -/
def Dev.jobLost (d : Dev) (j : Job) : Dev :=
  let d := (d.failJobCmds j.id).dropJob j.id
  { d with shd := { d.shd with delq := d.shd.delq.filter fun x => !(x.pad == j.pad && x.key == j.key && x.wseq == j.wseq) } }

/-- The record of a key as long as it is the write of the job. -/
def Dev.updJobRec (d : Dev) (j : Job) (f : Rec → Rec) : Dev :=
  d.updKey j.pad j.key fun r => if r.wseq = j.wseq ∧ r.epoch = j.epoch then f r else r

def Dev.jobRec (d : Dev) (j : Job) : Option Rec :=
  (d.peek j.pad j.key).bind fun r => if r.wseq = j.wseq ∧ r.epoch = j.epoch then some r else none

/-- The DELETE record of a job (R567, R597). -/
def Dev.jobDelete (d : Dev) (j : Job) : Dev :=
  if !d.canJournal then d.jobLost j
  else
    let (s, d) := d.appendRec (.delete j.pad j.epoch j.wseq j.key)
    d.updJob j.id fun x => { x with isDelete := true, left := 0, lsns := [], recSeq := some s }

/-- A final program failure of a job (R597–R599). -/
def Dev.jobFailed (d : Dev) (j : Job) : Dev :=
  let d := d.releaseLsns (j.lsns.filterMap id)
  if j.spill then d.dropJob j.id
  else if j.key = [] ∨ j.isDelete then d.jobLost j
  else
    let old := ((d.jobRec j).map fun r => r.lsns.filterMap id).getD []
    let d := d.updJobRec j fun r =>
      { r with shedId := 0, pinnedByFailure := true, staging := none, lsns := r.lsns.map fun _ => none }
    let d := d.releaseLsns old
    let d := d.failJobCmds j.id
    let dg := (keyDigest j.key).toNat
    let d := if j.staged then d.event Ev.shedStageLost.code 0x0002 j.pad (dg % 2 ^ 32) (dg / 2 ^ 32) else d
    d.jobDelete j

/-- SHED_ONLY segments leave their loft once the shed has them (R48). -/
def Dev.dropTransit (d : Dev) (pad : Nat) (key : List Byte) : Dev :=
  match d.peek pad key with
  | none => d
  | some r =>
    if (d.pad pad).residency ≠ 2 then d
    else
      let gone := fun i => (r.lsns.getD i none).isSome && (r.segs[i]?).any fun e => e.st == 0 || e.st == 2
      let is := (List.range r.segs.length).filter gone
      let d := if r.small then (match r.bin with
          | some b => if is.isEmpty then d else d.freeRun b
          | none => d)
        else is.foldl (fun d i => match r.segs[i]? with
          | some e => d.dropSlot e.stall e.slot
          | none => d) d
      d.updKey pad key fun r =>
        { r with segs := is.foldl (fun l i => setSeg l i 1) r.segs, bin := if is.isEmpty then r.bin else none }

/-- The LSNs a record takes over from a job, where it had none or others. -/
def adoptLsns (old new : List (Option Nat)) : List (Option Nat) :=
  (List.zip (List.range old.length) old).map fun e => match new.getD e.1 none with
    | some n => some n
    | none => e.2

/-- A spill job is done: its record adopts the LSNs; a SPILL record follows for which nothing waits (R595). -/
def Dev.spillDone (d : Dev) (j : Job) : Dev :=
  match d.jobRec j with
  | none => (d.releaseLsns (j.lsns.filterMap id)).dropJob j.id
  | some r =>
    let d := d.releaseLsns ((List.zip r.lsns j.lsns).filterMap fun e => if e.2.isSome then e.1 else none)
    let d := d.updJobRec j fun r => { r with lsns := adoptLsns r.lsns j.lsns }
    let d := d.dropJob j.id
    let d := if d.canJournal then
        (d.appendRec (.value j.pad j.epoch j.wseq j.key j.len (adoptLsns r.lsns j.lsns) j.tags true)).2
      else d
    d.dropTransit j.pad j.key

/-- A job whose programs are done (R570). -/
def Dev.advanceJob (d : Dev) (i : Nat) : Dev :=
  match d.findJob i with
  | none => d
  | some j =>
    if j.left ≠ 0 ∨ j.recSeq.isSome then d
    else if j.failed then d.jobFailed j
    else if j.spill then d.spillDone j
    else if j.isDelete then d.jobDelete j
    else if !d.canJournal then d.jobFailed j
    else
      let (s, d) := d.appendRec (.value j.pad j.epoch j.wseq j.key j.len j.lsns j.tags false)
      d.updJob i fun x => { x with recSeq := some s }

/-- The segments of a record that a job has to program: in loft, without a shed copy (R566); with `only`, that one. -/
def jobSegs (r : Rec) (only : Option Nat) : List Nat :=
  (List.range r.segs.length).filter fun i =>
    (r.lsns.getD i none).isNone && (only.isNone || only == some i) &&
      (r.segs[i]?).any fun e => e.st == 0 || e.st == 2

/-- The stripes of a job are written, each to an LSN of its own. -/
def Dev.jobStripes (d : Dev) (job kind : Nat) (r : Rec) : List Nat → List (Option Nat) → Nat → List (Option Nat) × Nat × Bool × Dev
  | [], lsns, left => (lsns, left, true, d)
  | i :: is, lsns, left =>
    match (if d.canJournal then d.nextLsn else none) with
    | none => (lsns, left, false, d)
    | some n =>
      match (d.holdLsn n).writeStripe n kind (d.segBytes r i) job i with
      | none => (lsns, left, false, d)
      | some d' => d'.jobStripes job kind r is (listUpd lsns i fun _ => some n) (left + 1)

/-- Shed work for a value starts: its stripes are issued, its record follows (R566, R570). -/
def Dev.startJob (d : Dev) (r : Rec) (spill staged : Bool) (only : Option Nat) : Nat × Dev :=
  let (i, d) := d.fresh
  let kept := if spill then r.lsns.map fun _ => none else r.lsns
  let d := d.holdLsns (kept.filterMap id)
  let (lsns, left, ok, d) := d.jobStripes i (if spill then kindSpill else kindData) r (jobSegs r only) kept 0
  let j : Job :=
    { id := i, pad := r.pad, epoch := r.epoch, key := r.key, wseq := r.wseq, spill := spill, staged := staged,
      lsns := lsns, len := r.len, tags := r.tags, left := left, recSeq := none, failed := !ok, isDelete := false,
      by_ := if spill then [] else (r.staging.map Staging.by_).getD [] }
  let d : Dev := { d with shd := { d.shd with jobs := d.shd.jobs ++ [j] } }
  (i, d.advanceJob i)

/-- Shed work for a DELETE starts. -/
def Dev.startDelete (d : Dev) (pad epoch wseq : Nat) (key : List Byte) (staged : Bool) : Nat × Dev :=
  let (i, d) := d.fresh
  let j : Job :=
    { id := i, pad := pad, epoch := epoch, key := key, wseq := wseq, spill := false, staged := staged, lsns := [],
      len := 0, tags := [], left := 0, recSeq := none, failed := false, isDelete := true,
      by_ := ((d.shd.delq.find? fun x => x.pad == pad && x.key == key).map fun x => x.staging.by_).getD [] }
  let d : Dev := { d with shd := { d.shd with jobs := d.shd.jobs ++ [j] } }
  (i, d.advanceJob i)

/-- Shed work for a PADDOCK record starts: a job with an empty key (R575). -/
def Dev.startPaddockRec (d : Dev) (sub pad epoch : Nat) (p : Paddock) : Nat × Dev :=
  let (i, d) := d.fresh
  let j : Job :=
    { id := i, pad := pad, epoch := epoch, key := [], wseq := 0, spill := false, staged := false, lsns := [], len := 0,
      tags := [], left := 0, recSeq := none, failed := false, isDelete := false, by_ := [] }
  let d : Dev := { d with shd := { d.shd with jobs := d.shd.jobs ++ [j] } }
  if !d.canJournal then (i, d.jobLost j)
  else
    let (s, d) := d.appendRec (.paddock sub pad epoch p)
    (i, d.updJob i fun x => { x with recSeq := some s })

/-! ### Durable records -/

/-- The shed value identifier of a record (R565). -/
def shedIdOf (r : JRec) (wseq : Nat) : Nat :=
  r.sblk % 2 ^ 22 + 2 ^ 22 * (r.page % 2 ^ 15) + 2 ^ 37 * (r.off % 1024) + 2 ^ 47 * (wseq % 2 ^ 17)

/-- The live VALUE records of a paddock id and epoch. -/
def liveValues (j : List JRec) (pad epoch : Nat) : List JRec :=
  j.filter fun r => match r.body with
    | .value p e _ k _ _ _ false => p == pad && e == epoch && (liveRec j p e k).any fun x => x.seq == r.seq
    | _ => false

/-- A VALUE record is durable: the LSNs of the record it replaces are released, and the index record names it. -/
def Dev.valueDurable (d : Dev) (prev : Option JRec) (r : JRec) (pad epoch wseq : Nat) (key : List Byte)
    (lsns : List (Option Nat)) : Dev :=
  let newer := prev.any fun p => decide (wseq < (keyWseq pad epoch key p.body).getD 0)
  let d := if newer || padEnded d.shd.journal pad epoch then d.releaseLsns (lsns.filterMap id)
    else d.releaseLsns ((prev.map fun p => recLsns p.body).getD [])
  match d.peek pad key with
  | none => d
  | some x =>
    if x.wseq = wseq ∧ x.epoch = epoch then
      let new := adoptLsns x.lsns lsns
      let d := d.holdLsns (new.filterMap id)
      let d := d.releaseLsns (x.lsns.filterMap id)
      let d := d.updKey pad key fun x => { x with shedId := shedIdOf r wseq, lsns := new, staging := none }
      d.dropTransit pad key
    else d

/-- The journal with a record: a copy made by muck-out takes the place of its original (R584). -/
def putRec (j : List JRec) (r : JRec) : List JRec :=
  if j.any fun x => x.seq == r.seq then j.map fun x => if x.seq = r.seq then r else x else j ++ [r]

/-- The writes that a job's durable record has taken to the shed are no longer owed by what has superseded them (R390, R567). -/
def Dev.discharged (d : Dev) (j : Job) : Dev :=
  let left := fun (s : Staging) => { s with by_ := s.by_.filter fun w => !j.by_.contains w }
  let d := if j.by_.isEmpty then d else d.updKey j.pad j.key fun r => { r with staging := r.staging.map left }
  let delq := d.shd.delq.map fun x => if x.pad = j.pad ∧ x.key = j.key then { x with staging := left x.staging } else x
  { d with shd := { d.shd with delq := delq } }

/-- What a record changes once it is durable (R569). -/
def Dev.recDurable (d : Dev) (r : JRec) : Dev :=
  let copy := d.shd.journal.any fun x => x.seq == r.seq
  let old := d.shd.journal
  let d : Dev := { d with shd := { d.shd with journal := putRec d.shd.journal r } }
  let done := d.shd.jobs.find? fun j => j.recSeq == some r.seq
  let d := match done with
    | some j => (d.dropJob j.id).discharged j
    | none => d
  if copy then
    let d := match r.body with
      | .value p e w k _ _ _ false => d.updKey p k fun x =>
          if x.wseq = w ∧ x.epoch = e ∧ x.shedId ≠ 0 then { x with shedId := shedIdOf r w } else x
      | _ => d
    d.retireMoved
  else
    match r.body with
    | .value p e w k _ lsns _ spill => if spill then d else d.valueDurable (liveRec old p e k) r p e w k lsns
    | .delete p e w k =>
      let prev := liveRec old p e k
      let d := if padEnded old p e || prev.any (fun x => decide (w < (keyWseq p e k x.body).getD 0)) then d
        else d.releaseLsns ((prev.map fun x => recLsns x.body).getD [])
      { d with shd := { d.shd with
          delq := d.shd.delq.filter fun x => !(x.pad == p && x.epoch == e && x.key == k && decide (x.wseq ≤ w)) } }
    | .paddock sub p e a =>
      if sub = subDelete ∨ (sub = subAlter ∧ a.persist = 0) then
        if padEnded old p e then d else d.releaseLsns ((liveValues old p e).flatMap fun x => recLsns x.body)
      else d
    | .logOpen _ i => d.updSblk i fun b => { b with openDurable := true }
    | .ptr _ _ => d
    | .merge lblk typ new rel =>
      let d := d.updSblk new fun b => { b with use := .dataBlk lblk, closed := true }
      let d : Dev := { d with shd := { d.shd with
        bmap := SMap.put d.shd.bmap lblk new, merging := d.shd.merging.filter fun x => x != lblk,
        logs := if typ = 4 then d.shd.logs else SMap.del d.shd.logs lblk,
        cntSwitch := if typ = 1 then sat1 d.shd.cntSwitch else d.shd.cntSwitch,
        cntPartial := if typ = 2 then sat1 d.shd.cntPartial else d.shd.cntPartial,
        cntFull := if typ = 3 then sat1 d.shd.cntFull else d.shd.cntFull } }
      (rel.foldl Dev.releaseSblk d).unmapIfEmpty lblk
    | .unmap lblk rel =>
      let d : Dev := { d with shd := { d.shd with
        bmap := SMap.del d.shd.bmap lblk, logs := SMap.del d.shd.logs lblk,
        merging := d.shd.merging.filter fun x => x != lblk } }
      rel.foldl Dev.releaseSblk d
    | .jretire i =>
      let d : Dev := { d with shd := { d.shd with journal := d.shd.journal.filter fun x => x.sblk != i } }
      d.releaseSblk i
    | .badBlk _ _ _ => d

/-- Records become durable in sequence order: a unit counts when every earlier one is complete (R569). -/
def Dev.settleJournal (d : Dev) : Nat → Dev
  | 0 => d
  | k + 1 =>
    match d.shd.units with
    | [] => d
    | u :: us =>
      if u.complete then
        (u.recs.foldl Dev.recDurable { d with shd := { d.shd with units := us } }).settleJournal k
      else d

/-- A record that cannot be made durable (R575, R597, R598). -/
def Dev.recLost (d : Dev) (r : JRec) : Dev :=
  match d.shd.jobs.find? fun j => j.recSeq == some r.seq with
  | none => d
  | some j => d.jobFailed { j with recSeq := none }

/-! ### Records of values -/

/-- The storage of a value goes back to its pools, its LSNs with it (R42, R561, R596). -/
def Dev.releaseValue (d : Dev) (r : Rec) : Dev := (d.freeStorage r).releaseLsns (r.lsns.filterMap id)

/-! ### The identity -/

/-- The identity as the newest page in flight or written gives it. -/
def Dev.identNext (d : Dev) : Option Identity :=
  d.shd.progs.foldl (fun a p => match p.what with
    | .identity i => some i
    | _ => a) d.shd.ident

/-- An IDENTITY page with the present identity state changed by `f` is programmed (R577). -/
def Dev.writeIdentity (d : Dev) (f : Identity → Identity) : Dev :=
  if d.shd.st = shdReady ∨ d.shd.st = shdReadOnly then
    match d.identNext with
    | none => d
    | some i => d.addProg (.identity (f i))
  else d

end Sys2Proof.Machine
end

