-- ==== Sys2Proof/Machine/Values.lean ====
section
/-! DEFINITION. Values: where their segments are placed (R33, R36, R64), what they are charged (R60–R63, R919), how a stored segment
is read, checked and recovered (R55, R638–R642, R662–R666), and how a key is found and its record stored. -/

namespace Sys2Proof.Machine

open Sys2Proof

/-- Barn b is stopped: tripped, or a floor PLL has lost lock (R719, R748). -/
def Dev.barnStopped (d : Dev) (b : Nat) : Bool := (d.barn b).tripped || (d.barn b).sclkLost || (d.barn b).dclkLost

/-! ### Eviction and placement (R52, R53, R64) -/

def Dev.victimRec (d : Dev) (v : Victim) : Option Rec := entryRec (d.stall v.home) v.loc

/-- The segment leaves its loft, a small value its bin; its shed copy stands. -/
def Dev.evict (d : Dev) (v : Victim) : Dev :=
  let d := if v.small then (match (d.victimRec v).bind Rec.bin with
      | some b => d.freeRun b
      | none => d)
    else d.dropSlot v.stall v.slot
  d.updRec v.home v.loc fun r => { r with segs := setSeg r.segs v.seg 1, bin := if v.small then none else r.bin }

/-- Whether the segment has a shed copy. -/
def Dev.victimHasCopy (d : Dev) (v : Victim) : Bool :=
  (d.victimRec v).any fun r => (r.lsns.getD v.seg none).isSome

/-- The spill copy that must precede an eviction is written (R53). -/
def Dev.spillVictim (d : Dev) (v : Victim) : Dev :=
  match d.victimRec v with
  | none => d
  | some r => if d.keyBusy r.pad r.key then d else (d.startJob r true false (some v.seg)).2

/-- Segments in stall s that the walk of R64 may evict: those with a slot of their own. -/
def Dev.stallVictims (d : Dev) (s : Nat) : List Victim := (d.victims d.allRecs).filter fun v => v.stall == s && !v.small

/-- What an attempt to take space gives: the space, a wait for a spill copy, or no space. -/
inductive Tried (α : Type) where
  | ok (a : α)
  | wait (d : Dev)
  | full (d : Dev)

/-- A slot for a segment by the walk of R64 over the stalls given; degraded lofts, and barns that are stopped
or cannot be reached, are passed over (R77, R124, R753). -/
def walkSlot : List Nat → Dev → Tried (Nat × Nat × Dev)
  | [], d => .full d
  | s :: r, d =>
    if (d.stall s).degraded || d.barnStopped (s / 64) || !d.barnReached (s / 64) then walkSlot r d
    else
      match d.freeSlot s with
      | some slot => .ok (s, slot, d)
      | none =>
        match lruVictim (d.stallVictims s) with
        | none => walkSlot r d
        | some v => if d.victimHasCopy v then .ok (s, v.slot, d.evict v) else .wait (d.spillVictim v)

/-- The ordered stall set from position i on, wrapping at its end. -/
def rotateSet (set : List Nat) (i : Nat) : List Nat := if set.isEmpty then [] else set.rotate (i % set.length)

/-- Slots for the segments listed, each reserved; none stays reserved when one finds no place (R65). -/
def placeSegs (set : List Nat) (home st : Nat) : List Nat → List (Nat × SegEnt) → Dev → Tried (List (Nat × SegEnt) × Dev)
  | [], got, d => .ok (got.reverse, d)
  | i :: is, got, d =>
    let undo := fun (d : Dev) => got.foldl (fun (d : Dev) e => d.dropSlot e.2.stall e.2.slot) d
    match walkSlot (rotateSet set (home + i)) d with
    | .full d => .full (undo d)
    | .wait d => .wait (undo d)
    | .ok (s, slot, d) =>
      placeSegs set home st is ((i, { stall := s, slot := slot, st := st }) :: got) (d.setSlot s slot (.seg [] d.useStamp))

/-- An allocation in the home stall, repeated after each eviction there that makes room (R521). -/
def withRoom {α : Type} (f : Dev → Option α) (s : Nat) : Nat → Dev → Tried α
  | 0, d => .full d
  | k + 1, d =>
    match f d with
    | some a => .ok a
    | none =>
      if (d.stall s).degraded then .full d
      else
        match lruVictim (d.stallVictims s) with
        | none => .full d
        | some v => if d.victimHasCopy v then withRoom f s k (d.evict v) else .wait (d.spillVictim v)

def Dev.inRoom {α : Type} (d : Dev) (s : Nat) (f : Dev → Option α) : Tried α :=
  withRoom f s ((d.stallVictims s).length + 1) d

/-! ### Quotas (R61–R63, R919) -/

def overQuota (quota unit before after : Nat) : Bool :=
  quota != 0 && decide (quota * unit < after) && decide (before < after)

/-- The record that a write takes the place of, and whether it has an overflow entry: the live one at `loc`, or a quarantined one
at `bad` (R668). -/
def Dev.replaced (d : Dev) (home : Nat) (loc bad : Option Loc) : Option (Rec × Bool) :=
  (loc.or bad).bind fun l => (entryRec (d.stall home) l).map fun r => (r, l.isOvf)

/-- A paddock's loft charge once `old` gives way to a record charged `new` (R919). -/
def Dev.dramAfter (d : Dev) (pad : Nat) (old : Option (Rec × Bool)) (new : Nat) : Nat :=
  d.padDram pad - ((old.map fun o => recDram o.1 o.2).getD 0) + new

/-- A CACHED paddock evicts its own least recently used segments until the write fits its quota (R62). -/
def evictOwn (pad quota before : Nat) (after : Dev → Nat) (usable : Victim → Bool) : Nat → Dev → Tried Dev
  | 0, d => .full d
  | k + 1, d =>
    if !overQuota quota (2 ^ 30) before (after d) then .ok d
    else
      match lruVictim ((d.victims (d.padRecs pad)).filter usable) with
      | none => .full d
      | some v => if d.victimHasCopy v then evictOwn pad quota before after usable k (d.evict v) else .wait (d.spillVictim v)

/-! ### Finding a key -/

/-- What a lookup finds: the key's record, nothing, a quarantined record and no other match (R667), or that a granule of the working
region cannot be read (R670). -/
inductive Found where
  | hit (home : Nat) (loc : Loc) (r : Rec)
  | absent (home : Nat)
  | bad (home : Nat) (loc : Loc)
  | broken
deriving DecidableEq, Repr

/-- Granules of an extent run. -/
def runGranules (r : Run) (whole : Bool) : Nat × Nat :=
  if whole then (r.slot * 1024 + 16 * r.first, 16 * r.count) else (r.slot * 1024 + r.first, r.count)

/-- What reading a record's extents has shown so far: an uncorrectable granule, and the bytes as delivered. -/
structure ExtentRead where
  bad : Bool
  bytes : List Byte

/-- The runs of a record's extents are read in order; `bs` are the bytes they hold. -/
def readRuns (fs : List Finding) (whole : Bool) (bs : List Byte) : List Run → ExtentRead → Dev → ExtentRead × Dev
  | [], a, d => (a, d)
  | e :: es, a, d =>
    let g := runGranules e whole
    let y := d.readGranules fs e.stall g.1 g.2
    let part := patchBytes g.1 y.1.left (slice a.bytes.length (64 * g.2) bs)
    readRuns fs whole bs es { bad := a.bad || y.1.bad, bytes := a.bytes ++ part } y.2

/-- The extents of a record are read: an uncorrectable granule quarantines the record (R668), an error the code has left is read
as it stands (R649). -/
def Dev.readExtents (d : Dev) (fs : List Finding) (home : Nat) (loc : Loc) (r : Rec) : Bool × Dev :=
  let units := (r.extSlots.map fun e => (runGranules e (r.segs.length > 32)).2).sum
  let bs := padTo (64 * units) (extentBytes r)
  let x := readRuns fs (r.segs.length > 32) bs r.extSlots { bad := false, bytes := [] } d
  if x.1.bad then (true, x.2.updStall home fun s => quarantineLoc s loc)
  else if x.1.bytes = bs then (false, x.2)
  else (false, x.2.updRec home loc fun y => recOfExtent y x.1.bytes)

/-- The working region that a request uses is read: slots 32 to 63 of its home stall (R66). An uncorrectable granule there ends the
request and is rewritten (R670). DESIGN CHOICE (log 78): which granules a request uses is what the media show of that region; the
shed controller's tables lie elsewhere. -/
def Dev.readWorking (d : Dev) (fs : List Finding) (s : Nat) : Bool × Dev :=
  let r := d.readGranules fs s 32768 32768
  if r.1.bad then (true, r.2.rewriteBad fs s 32768 32768) else (false, r.2)

/-- The lookup of a key with its record's extents. -/
def Dev.find (d : Dev) (fs : List Finding) (pad : Nat) (key : List Byte) : Found × Dev :=
  let home := homeStall (d.padSet pad) (keyDigest key)
  let (broken, d) := d.readWorking fs home
  let (l, d) := d.lookup fs home pad key
  if broken then (.broken, d)
  else
  match l.hit with
  | some (loc, r) =>
    let (bad, d) := d.readExtents fs home loc r
    if bad then (.bad home loc, d) else (.hit home loc ((entryRec (d.stall home) loc).getD r), d)
  | none =>
    match l.quarantined with
    | some loc => (.bad home loc, d)
    | none => (.absent home, d)

/-! ### Checks (R608–R616, R629, R638–R642) -/

/-- The tag of segment i of a record over `bytes`. -/
def tagOf (root : List Byte) (r : Rec) (i : Nat) (bytes : List Byte) : List Byte := segTag root r.pad r.digest i r.epoch bytes

/-- AES blocks that the engine runs for the tag of `n` bytes: the derivation's two CMACs of 35 bytes, and the tag's own, each with
the block its subkeys come from. Fresh mask bits are drawn for each (R632); DESIGN CHOICE (log 77): one output of the generator. -/
def tagBlocks (n : Nat) : Nat := 2 * 4 + 1 + max 1 (ceilDiv n 16)

/-- The engine draws masks for a tag of `n` bytes (R632, R633). -/
def Chk.draws (c : Chk) (n : Nat) : Chk := { c with maskCount := c.maskCount + tagBlocks n }

/-- A check of `bytes` as segment i of a record, against `tag`, with its counters and event (R629, R642). -/
def Dev.checkBytes (d : Dev) (r : Rec) (i stall : Nat) (bytes tag : List Byte) : Bool × Dev :=
  let ok := match d.chk.root with
    | none => false
    | some root => tagOf root r i bytes == tag
  let chk := if d.chk.root.isNone then { d.chk with noKey := sat1 d.chk.noKey } else d.chk.draws bytes.length
  let d : Dev := { d with chk := { chk with
    check := sat1 d.chk.check, fail := if ok then d.chk.fail else sat1 d.chk.fail } }
  (ok, if ok then d else d.event Ev.chkFail.code 0x0001 r.pad stall i)

/-- A check of stored bytes against the record's tag. -/
def Dev.checkTag (d : Dev) (r : Rec) (i stall : Nat) (bytes : List Byte) : Bool × Dev :=
  d.checkBytes r i stall bytes (r.tags.getD i [])

/-- Whether the segments of a record carry tags. -/
def Rec.tagged (r : Rec) : Bool := !r.tags.isEmpty

/-! ### Reading a stored segment -/

/-- A segment is used: its use stamp is the newest (R62, R64). -/
def Dev.touchSlot (d : Dev) (s slot : Nat) : Dev :=
  match SMap.find (d.stall s).slots slot with
  | some (.seg bs _) => { (d.setSlot s slot (.seg bs d.useStamp)) with useStamp := d.useStamp + 1 }
  | _ => d

/-- First granule and granules of bytes [lo, hi) of segment i, as its loft holds them. -/
def Rec.granulesOf (r : Rec) (e : SegEnt) (lo hi : Nat) : Nat × Nat :=
  let first := match r.bin with
    | some b => if r.small then b.first else 0
    | none => 0
  (e.slot * 1024 + first + lo / 64, ceilDiv hi 64 - lo / 64)

def Dev.poison (d : Dev) (home : Nat) (loc : Loc) (i : Nat) : Dev :=
  d.updRec home loc fun r => { r with segs := setSeg r.segs i 3 }

/-- The staging of a key is abandoned as for a final program failure (R598, R662). -/
def Dev.abandonStaging (d : Dev) (home : Nat) (loc : Loc) (r : Rec) : Dev :=
  let d := d.updRec home loc fun x =>
    { x with staging := none, pinnedByFailure := true, shedId := 0, lsns := x.lsns.map fun _ => none }
  let d := d.releaseLsns (r.lsns.filterMap id)
  let dg := r.digest.toNat
  let d := d.event Ev.shedStageLost.code 0x0002 r.pad (dg % 2 ^ 32) (dg / 2 ^ 32)
  (d.startDelete r.pad r.epoch r.wseq r.key true).2

/-- What the read of a segment gives: bytes, an end with a status, or a shed read (`some ue`: a recovery read). -/
inductive SegRes where
  | bytes (b : List Byte)
  | fail (status : Nat)
  | ask (lsn : Nat) (recovery : Option Bool)
deriving DecidableEq, Repr

/-- The shed copy of segment i can serve a recovery read (R638, R662). -/
def Dev.recoverable (d : Dev) (r : Rec) (i : Nat) : Option Nat :=
  if (d.pad r.pad).persist = 0 ∨ r.pinnedByFailure = true then none else r.lsns.getD i none

/-- Segment i of a record is read, bytes [lo, hi) or the whole segment when it is checked (R56). -/
def Dev.readSeg (d : Dev) (fs : List Finding) (home : Nat) (loc : Loc) (r : Rec) (i lo hi : Nat) : SegRes × Dev :=
  match r.segs[i]? with
  | none => (.bytes [], d)
  | some e =>
    if e.st = 3 then (.fail Status.mediaError.code, d)
    else if e.st = 1 then
      (match r.lsns.getD i none with
       | none => (.fail Status.mediaError.code, d)
       | some n => if d.shd.nclkLost then (.fail Status.mediaError.code, d) else (.ask n none, d))
    else if d.barnStopped (e.stall / 64) then (.fail Status.thermalHold.code, d)
    else
      let g := if r.tagged then r.granulesOf e 0 (segLen r.len i) else r.granulesOf e lo hi
      let (gr, d) := d.readGranules fs e.stall g.1 g.2
      if gr.bad then
        match d.recoverable r i with
        | some n => if d.shd.nclkLost then (.fail Status.mediaError.code, d.poison home loc i) else (.ask n (some true), d)
        | none =>
          let d := d.poison home loc i
          (.fail Status.mediaError.code, if (d.pad r.pad).persist = 1 ∧ r.pinnedByFailure = false then d.abandonStaging home loc r else d)
      else
        let d := d.touchSlot e.stall e.slot
        let whole := patchBytes (e.slot * 1024 + (if r.small then (r.bin.map Run.first).getD 0 else 0)) gr.left (d.segBytes r i)
        if !r.tagged then (.bytes whole, d)
        else
          let (ok, d) := d.checkTag r i e.stall whole
          if ok then (.bytes whole, d)
          else if d.chk.root.isNone ∨ d.shd.nclkLost = true then (.fail Status.checkFail.code, d)
          else
            match d.recoverable r i with
            | some n => (.ask n (some false), d)
            | none => (.fail Status.checkFail.code, d)

/-- A command's record of a segment it has asked for. -/
def findFetch (fet : List Fetch) (r : Rec) (i : Nat) : Option Fetch :=
  fet.find? fun f => f.key == r.key && f.seg == i && f.wseq == r.wseq

def mkFetch (r : Rec) (i : Nat) (arrived : Bool) (status : Nat) (bytes : List Byte) : Fetch :=
  { pos := 0, key := r.key, seg := i, wseq := r.wseq, arrived := arrived, status := status, bytes := bytes }

/-- The tow descriptors for part [lo, hi) of segment i of a record that command c reads in the loft (R536, log 73). -/
def Dev.towRead (d : Dev) (c : Nat) (r : Rec) (i lo hi : Nat) : Dev :=
  match r.segs[i]? with
  | none => d
  | some e =>
    let g := if r.tagged then r.granulesOf e 0 (segLen r.len i) else r.granulesOf e lo hi
    d.towPut e.stall (readTows c i g.1 g.2 r.tagged ((d.findCmd c).any fun x => x.shape.isSome))

/-- The segments listed as (index, lo, hi) are read, or asked of the shed, unless they were before. -/
def Dev.fetchSegs (d : Dev) (c : Nat) (fs : List Finding) (home : Nat) (loc : Loc) (r : Rec) :
    List (Nat × Nat × Nat) → List Fetch → List Fetch × Dev
  | [], fet => (fet, d)
  | (i, lo, hi) :: is, fet =>
    match findFetch fet r i with
    | some _ => d.fetchSegs c fs home loc r is fet
    | none =>
      let (x, d) := d.readSeg fs home loc r i lo hi
      match x with
      | .bytes b => (d.towRead c r i lo hi).fetchSegs c fs home loc r is (fet ++ [mkFetch r i true 0 b])
      | .fail st => (fet ++ [mkFetch r i true st []], d)
      | .ask n rcv =>
        let w := match rcv with
          | none => NReadFor.cmd c r.pad r.key i
          | some ue => NReadFor.recovery c r.pad r.key i r.wseq ue
        let d := (d.holdLsn n).issueRead n (segLen r.len i) w
        d.fetchSegs c fs home loc r is (fet ++ [mkFetch r i false 0 []])

/-- What has become of the segments asked for. -/
inductive Fetched where
  | done (bytes : List (List Byte))
  | wait
  | fail (status : Nat)
deriving DecidableEq, Repr

def fetchedOf (fet : List Fetch) (r : Rec) : List (Nat × Nat × Nat) → Fetched
  | [] => .done []
  | (i, _) :: is =>
    match findFetch fet r i with
    | none => .wait
    | some f =>
      if f.arrived ∧ f.status ≠ 0 then .fail f.status
      else
        match fetchedOf fet r is with
        | .fail st => .fail st
        | .wait => .wait
        | .done bs => if f.arrived then .done (f.bytes :: bs) else .wait

/-- Segments that hold bytes [lo, hi) of a value, with the part of each that is wanted. -/
def segsOfRange (len lo hi : Nat) : List (Nat × Nat × Nat) :=
  let hi := min hi len
  if hi ≤ lo then []
  else if len ≤ 4096 then [(0, lo, hi)]
  else (List.range (ceilDiv hi 65536 - lo / 65536)).map fun k =>
    let i := lo / 65536 + k
    (i, max lo (65536 * i) - 65536 * i, min hi (65536 * (i + 1)) - 65536 * i)

/-- Bytes [lo, hi) of a value out of the segments that hold them. -/
def cutRange (len lo hi : Nat) (bs : List (List Byte)) : List Byte :=
  let hi := min hi len
  let base := if len ≤ 4096 then 0 else lo / 65536 * 65536
  slice (lo - base) (hi - lo) bs.flatten

/-! ### Shed reads that arrive -/

/-- The repair copy of a recovered segment (R640): free space of the same stall only. -/
def Dev.repairCopy (d : Dev) (home : Nat) (loc : Loc) (r : Rec) (i : Nat) (bytes : List Byte) : Dev :=
  match r.segs[i]? with
  | none => d
  | some e =>
    if (d.stall e.stall).degraded then d
    else if r.small then
      match r.bin, d.allocRun e.stall .bin (ceilDiv r.len 64) bytes with
      | some old, some (run, d) =>
        (d.freeRun old).updRec home loc fun x =>
          { x with bin := some run, segs := listUpd x.segs i fun e => { e with slot := run.slot, st := 0 } }
      | _, _ => d
    else
      match d.freeSlot e.stall with
      | none => d
      | some slot =>
        ((d.setSlot e.stall slot (.seg bytes d.useStamp)).dropSlot e.stall e.slot).updRec home loc fun x =>
          { x with segs := listUpd x.segs i fun e => { e with slot := slot, st := 0 } }

/-- The live record of a key as long as it is write `wseq`. -/
def Dev.currentRec (d : Dev) (pad : Nat) (key : List Byte) (wseq : Nat) : Option (Nat × Loc × Rec) :=
  let home := homeStall (d.padSet pad) (keyDigest key)
  match (lookupIn (d.stall home) key (allMatches (d.stall home) pad (keyDigest key))).hit with
  | some (loc, r) => if r.wseq = wseq then some (home, loc, r) else none
  | none => none

/-- The record that a command began with: the live one, or the replaced one that awaits its release. -/
def Dev.recOf (d : Dev) (pad : Nat) (key : List Byte) (wseq : Nat) : Option Rec :=
  match d.currentRec pad key wseq with
  | some x => some x.2.2
  | none => (d.old.find? fun o => o.recd.pad == pad && o.recd.key == key && o.recd.wseq == wseq).map OldVal.recd

/-- A segment read from the shed: its check, and what it delivers (R614, R638). -/
def Dev.shedSegment (d : Dev) (r : Rec) (i : Nat) (ok : Bool) (bytes : List Byte) : Nat × Dev :=
  if !ok then (Status.mediaError.code, d)
  else if r.tagged then
    let stall := ((r.segs[i]?).map SegEnt.stall).getD 0
    let (good, d) := d.checkTag r i stall bytes
    (if good then 0 else Status.checkFail.code, d)
  else (0, d)

/-- The record that command c itself captured of a key, which stands although its entry has since been quarantined (R55). -/
def Dev.capturedRec (d : Dev) (c : Nat) (key : List Byte) (wseq : Nat) : Option Rec :=
  (d.findCmd c).bind fun x => (x.plan.toList ++ x.keyRecs.filterMap fun y => y.getD none).find? fun r => r.key == key && r.wseq == wseq

/-- A recovery read has ended (R639, R640, R663); `own` is the record captured by the command that asked for it. -/
def Dev.recovered (d : Dev) (own : Option Rec) (pad : Nat) (key : List Byte) (seg wseq : Nat) (ue : Bool) (ok : Bool)
    (bytes : List Byte) : Nat × Dev :=
  match (d.recOf pad key wseq).or own with
  | none => (if ok then 0 else Status.mediaError.code, d)
  | some r =>
    let (st, d) := d.shedSegment r seg ok bytes
    match d.currentRec pad key wseq with
    | none => (st, d)
    | some (home, loc, cur) =>
      if st ≠ 0 then (st, if ue then d.poison home loc seg else d)
      else
        let d : Dev := if r.tagged then { d with chk := { d.chk with recov := sat1 d.chk.recov } } else d
        let stall := ((r.segs[seg]?).map SegEnt.stall).getD 0
        let d := if ue then d.updBarn (stall / 64) fun b => { b with recov := sat1 b.recov } else d
        (0, d.repairCopy home loc cur seg bytes)

/-! ### Storing a value -/

/-- The bytes of each segment of a value (R32, R36). -/
def segmentsOf (bytes : List Byte) : List (List Byte) := if bytes.length ≤ 4096 then (if bytes.isEmpty then [] else [bytes]) else chunks 65536 bytes

/-- A record with nothing stored yet. -/
def freshRec (pad epoch : Nat) (key : List Byte) (len wseq : Nat) : Rec :=
  { digest := keyDigest key, pad := pad, key := key, st := 1, quarantined := false, epoch := epoch, len := len, shedId := 0,
    wseq := wseq, small := false, bin := none, segs := [], tags := [], extSlots := [], lsns := [], staging := none,
    pinnedByFailure := false }

/-- What a write stores: the new length, the segments it writes with their bytes, and those it keeps from the old record. -/
structure WritePlan where
  len : Nat
  written : List (Nat × List Byte)
deriving DecidableEq, Repr

def WritePlan.small (w : WritePlan) : Bool := decide (1 ≤ w.len) && decide (w.len ≤ 4096)

/-- Loft charge of the record that a plan makes (R60). -/
def WritePlan.dram (w : WritePlan) (old : Option Rec) (shedOnly check ovf : Bool) : Nat :=
  let n := segCount w.len
  let kept := match old with
    | none => 0
    | some o => ((List.zip (List.range o.segs.length) o.segs).filter fun e =>
        (e.2.st == 0 || e.2.st == 3) && decide (e.1 < n) && !(w.written.any fun x => x.1 == e.1)).length
  512 + 16 * b2n ovf +
    (if w.small then (if shedOnly then 0 else 64 * ceilDiv w.len 64)
     else 65536 * (kept + if shedOnly then 0 else w.written.length)) +
    (if n > 32 then 1024 * ceilDiv (4 * n) 1024 else 0) + (if check then 8 * n else 0)

/-- Shed charge of the record that a plan makes (R63, log 18). -/
def WritePlan.shed (w : WritePlan) (p : Paddock) (old : Option Rec) : Nat :=
  if p.shedWhole then 65536 * segCount w.len + 512
  else if p.residency = 1 then
    let n := match old with
      | none => 0
      | some o => ((List.zip (List.range o.lsns.length) o.lsns).filter fun e =>
          e.2.isSome && !(w.written.any fun x => x.1 == e.1) && !w.small).length
    if n = 0 then 0 else 65536 * n + 512
  else 0

/-- The tag of a written segment: made as its data entered, or made now (R610). -/
def tagFor (root : Option (List Byte)) (made : List (Nat × List Byte)) (base : Rec) (i : Nat) (bytes : List Byte) : List Byte :=
  match made.find? fun e => e.1 == i with
  | some e => e.2
  | none => (root.map fun k => tagOf k base i bytes).getD []

/-- The new record: kept segments from the old one, written segments in their slots. -/
def WritePlan.record (w : WritePlan) (root : Option (List Byte)) (made : List (Nat × List Byte)) (base : Rec) (old : Option Rec)
    (check : Bool) (slots : List (Nat × SegEnt)) (bin : Option Run) (ext : List Run) : Rec :=
  let oseg := (old.map Rec.segs).getD []
  let otag := (old.map Rec.tags).getD []
  let olsn := (old.map Rec.lsns).getD []
  let n := segCount w.len
  let ent := fun i => match slots.find? fun s => s.1 == i with
    | some s => s.2
    | none => oseg.getD i { stall := 0, slot := 0, st := 3 }
  let wrote := fun i => w.written.find? fun x => x.1 == i
  { base with
    small := w.small, bin := bin, segs := (List.range n).map ent, extSlots := ext
    tags := if check then (List.range n).map (fun i => match wrote i with
      | some x => tagFor root made base i x.2
      | none => otag.getD i []) else []
    lsns := (List.range n).map fun i => match wrote i with
      | some _ => none
      | none => olsn.getD i none }

/-- The part of an old record whose storage its successor does not keep: that is what awaits its release (R42). -/
def WritePlan.leaves (w : WritePlan) (old : Rec) : Rec :=
  let n := segCount w.len
  let kept := fun i => decide (i < n) && !(w.written.any fun x => x.1 == i) && !w.small && !old.small
  { old with
    segs := (List.zip (List.range old.segs.length) old.segs).map (fun e => if kept e.1 then { e.2 with st := 1 } else e.2)
    lsns := (List.zip (List.range old.lsns.length) old.lsns).map fun e => if kept e.1 then none else e.2 }

/-- Why a write cannot be stored, or that it must wait for a spill copy. -/
inductive Stored where
  | ok (r : Rec) (d : Dev)
  | wait (d : Dev)
  | fail (status : Nat) (d : Dev)

/-- A new key's entry lies in the overflow table: its home CAM has no free entry (R522). -/
def Dev.camFull (d : Dev) (home : Nat) : Bool := decide (4096 ≤ firstGap 0 (SMap.keys (d.stall home).cam))

/-- What a write adds to its paddock's loft and shed charges: the charge after it, and the charge it releases (R60, R63, R919). -/
structure Charge where
  dram : Nat
  oldDram : Nat
  shed : Nat
  oldShed : Nat

def Dev.charge (d : Dev) (pad home : Nat) (w : WritePlan) (loc bad : Option Loc) : Charge :=
  let p := d.pad pad
  let old := d.replaced home loc bad
  let live := if loc.isSome then old.map Prod.fst else none
  let ovf := match loc with
    | some l => l.isOvf
    | none => d.camFull home
  { dram := w.dram live (p.residency == 2) p.check ovf, oldDram := ((old.map fun o => recDram o.1 o.2).getD 0),
    shed := w.shed p live, oldShed := (old.map fun o => recShed p o.1).getD 0 }

/-- Quotas of a write (R61–R63, R919): the device after the evictions that R62 makes. -/
def Dev.quotaRoom (d : Dev) (pad home : Nat) (w : WritePlan) (key : List Byte) (loc bad : Option Loc) : Tried Dev :=
  let p := d.pad pad
  let after := fun (d : Dev) => d.dramAfter pad (d.replaced home loc bad) (d.charge pad home w loc bad).dram
  let before := d.padDram pad
  let sb := d.padShed pad
  let sa := sb - (d.charge pad home w loc bad).oldShed + (d.charge pad home w loc bad).shed
  if (p.shedWhole || p.residency == 1) && overQuota p.qShed (2 ^ 40) sb sa then .full d
  else if p.residency = 1 then
    let touched := fun (v : Victim) => match d.victimRec v with
      | some r => !(r.key == key) || !(w.small || w.written.any fun x => x.1 == v.seg)
      | none => false
    evictOwn pad p.qDram before after touched ((d.victims (d.padRecs pad)).length + 1) d
  else if overQuota p.qDram (2 ^ 30) before (after d) then .full d
  else .ok d

/-- The value bytes go to their slots. -/
def fillSlots (w : WritePlan) (d : Dev) (slots : List (Nat × SegEnt)) : Dev :=
  slots.foldl (fun (d : Dev) s =>
    let bytes := ((w.written.find? fun x => x.1 == s.1).map Prod.snd).getD []
    { (d.setSlot s.2.stall s.2.slot (.seg bytes d.useStamp)) with useStamp := d.useStamp + 1 }) d

/-- Space for a write: its segments by the walk of R64, or a bin run, and its extent, in the home stall. -/
def Dev.writeSpace (d : Dev) (pad home : Nat) (key : List Byte) (w : WritePlan) : Tried (List (Nat × SegEnt) × Option Run × List Run × Dev) :=
  let p := d.pad pad
  let set := d.padSet pad
  let st := if p.residency = 2 then 2 else 0
  let ext := fun (slots : List (Nat × SegEnt)) (bin : Option Run) (d : Dev) =>
    let undo := fun (d : Dev) =>
      let d := slots.foldl (fun (d : Dev) e => d.dropSlot e.2.stall e.2.slot) d
      match bin with
      | some b => d.freeRun b
      | none => d
    match d.inRoom home fun d => d.allocExtent home (segCount w.len) p.check with
    | .ok (runs, d) => Tried.ok ((if w.small then bin.toList.map (fun b => (0, ({ stall := home, slot := b.slot, st := st } : SegEnt))) else slots), bin, runs, d)
    | .wait d => .wait (undo d)
    | .full d => .full (undo d)
  if w.small then
    match d.inRoom home fun d => d.allocRun home .bin (ceilDiv w.len 64) ((w.written.map Prod.snd).headD []) with
    | .ok (b, d) => ext [] (some b) d
    | .wait d => .wait d
    | .full d => .full d
  else
    match placeSegs set (homeIndex set (keyDigest key)) st (w.written.map Prod.fst) [] d with
    | .ok (slots, d) => ext slots none d
    | .wait d => .wait d
    | .full d => .full d

/-- Slots, bin and extents that have been taken and are given back. -/
def giveBack (slots : List (Nat × SegEnt)) (bin : Option Run) (ext : List Run) (small : Bool) (d : Dev) : Dev :=
  (ext ++ bin.toList).foldl Dev.freeRun (if small then d else slots.foldl (fun (d : Dev) e => d.dropSlot e.2.stall e.2.slot) d)

/-! ### The commit point (R363) -/

/-- What reserving for a write gives. -/
inductive Reserved where
  | ok (r : Reserve) (d : Dev)
  | wait (d : Dev)
  | fail (status : Nat) (d : Dev)

/-- Space and quota for a write, held by its command until the effect (R363, R520). -/
def Dev.reserve (d : Dev) (pad home : Nat) (key : List Byte) (loc bad : Option Loc) (w : WritePlan) : Reserved :=
  match d.quotaRoom pad home w key loc bad with
  | .wait d => .wait d
  | .full d => .fail Status.quota.code d
  | .ok d =>
    if loc.isNone && d.insertBarred home (keyDigest key) then .fail Status.noSpace.code d
    else
      match d.writeSpace pad home key w with
      | .wait d => .wait d
      | .full d => .fail Status.noSpace.code d
      | .ok (slots, bin, ext, d) =>
        let c := d.charge pad home w loc bad
        .ok { len := w.len, segs := w.written.map Prod.fst, slots := slots, bin := bin, ext := ext, dram := c.dram - c.oldDram,
              shed := c.shed - c.oldShed } (giveBack slots bin ext w.small d)

/-- A run that was reserved is taken. -/
def Dev.placeRun (d : Dev) (k : RunKind) (bytes : List Byte) (r : Run) : Dev :=
  d.updStall r.stall fun x => { x with slots := SMap.upd x.slots r.slot (emptyRunSlot k) (addRun k r.first r.count bytes) }

/-- The reservation fits the plan that the write has at its effect. -/
def WritePlan.fits (w : WritePlan) (r : Reserve) : Bool := w.len == r.len && w.written.map Prod.fst == r.segs

/-- The space of a write at its effect: what it reserved, or fresh space where the value has changed since (R363). -/
def Dev.effectSpace (d : Dev) (pad home : Nat) (key : List Byte) (w : WritePlan) (held : Option Reserve) :
    Tried (List (Nat × SegEnt) × Option Run × List Run × Dev) :=
  match held with
  | some r =>
    if w.fits r then
      let d := r.bin.toList.foldl (fun d b => d.placeRun .bin ((w.written.map Prod.snd).headD []) b) d
      let kind := if segCount w.len > 32 then RunKind.extent else RunKind.tag
      .ok (r.slots, r.bin, r.ext, r.ext.foldl (fun d e => d.placeRun kind [] e) d)
    else d.writeSpace pad home key w
  | none => d.writeSpace pad home key w

/-- A write is stored by a single update of its index record (R41, R307, R522–R526): quotas, space, bytes, tags, record. `loc` is
the entry of the live key, `bad` a quarantined entry that the write takes over (R668), `made` the tags made as its data entered,
`held` what it reserved at its commit point: a write past it fails for no quota or space, and waits instead where the value has
outgrown what it reserved (R363). -/
def Dev.store (d : Dev) (pad home : Nat) (key : List Byte) (loc bad : Option Loc) (made : List (Nat × List Byte)) (held : Option Reserve)
    (w : WritePlan) : Stored :=
  let p := d.pad pad
  match (if held.isSome then Tried.ok d else d.quotaRoom pad home w key loc bad) with
  | .wait d => .wait d
  | .full d => .fail Status.quota.code d
  | .ok d =>
    if loc.isNone && d.insertBarred home (keyDigest key) then .fail Status.noSpace.code d
    else
      match d.effectSpace pad home key w held with
      | .wait d => .wait d
      | .full d => if held.isSome then .wait d else .fail Status.noSpace.code d
      | .ok (slots, bin, ext, d) =>
        let old := d.peek pad key
        let wseq := d.shd.wseq
        let base := freshRec pad p.epoch key w.len wseq
        let r := w.record d.chk.root made base old p.check slots bin ext
        let put := match loc, old with
          | some l, some o =>
            let d := d.updRec home l fun _ => { r with st := 2 }
            Tried.ok (d.retire (w.leaves o))
          | _, _ =>
            let d := match bad with
              | some l => (match entryRec (d.stall home) l with
                  | some o => (d.retireEntry o home l).removeEntry home l
                  | none => d)
              | none => d
            d.inRoom home fun d => d.insertRec home r
        match put with
        | .wait d => .wait (giveBack slots bin ext w.small d)
        | .full d =>
          let d := giveBack slots bin ext w.small d
          if held.isSome then .wait d else .fail Status.noSpace.code d
        | .ok d =>
          let d := if w.small then d else fillSlots w d slots
          let d : Dev := { d with shd := { d.shd with wseq := wseq + 1 } }
          let late := w.written.filter fun x => !(made.any fun e => e.1 == x.1)
          let draws := late.foldl (fun (c : Chk) x => c.draws x.2.length) d.chk
          let d : Dev := if p.check then { d with chk := { draws with make := satAdd 32 d.chk.make late.length } } else d
          .ok { r with st := if loc.isSome then 2 else 1 } d

end Sys2Proof.Machine
end

