-- ==== Sys2Proof/Machine/CmdOps.lean ====
section
/-! DEFINITION. The life of a command: its place and budget (R367–R372), the session shaper (R380–R385), the order of effect
(R351–R359), its output and inbound data (R279–R296, R361), its end, and its completion (R387, R221–R226, R253–R257, R473–R482). -/

namespace Sys2Proof.Machine

open Sys2Proof

/-! ### Counting -/

/-- SES_OUT (R206). -/
def Dev.sesOut (d : Dev) (s : Nat) : Nat := (d.cmds.filter fun c => c.ses == s && c.slotHeld).length

def Dev.slotsUsed (d : Dev) : Nat := (d.cmds.filter fun c => c.slotHeld).length

def isPending (c : Cmd) : Bool := c.stage == .fetching || c.stage == .waiting

/-- A command that was never admitted keeps its pending place until its completion is queued (R206). -/
def Cmd.holdsPlace (c : Cmd) : Bool := isPending c || (c.stage == .ended && !c.slotHeld)

/-- Pending places of a session in use (R367): commands not admitted, and entries asked for. -/
def Dev.pendUsed (d : Dev) (s : Nat) : Nat :=
  (d.cmds.filter fun c => c.ses == s && c.holdsPlace).length +
    ((d.qps.filter fun q => q.1 / 64 == s).map fun q => (q.2.sqAsked + 2 ^ 32 - q.2.sqCi) % 2 ^ 32).sum

/-- H: the budget a session holds (R372). -/
def Dev.held_ (d : Dev) (s : Nat) : Nat := ((d.cmds.filter fun c => c.ses == s && c.slotHeld).map Cmd.cost).sum

def Dev.sesShare (d : Dev) (s extra : Nat) : Nat := d.held_ s + extra - d.arb.resvKib * 1024

/-- The sum of all sessions' shares, with `extra` for session s. -/
def Dev.sharedUsed (d : Dev) (s extra : Nat) : Nat :=
  ((d.cmds.map Cmd.ses).eraseDups.filter fun t => t != s).foldl (fun n t => n + d.sesShare t 0) (d.sesShare s extra)

/-- Commands of a queue pair. -/
def Dev.qpCmds (d : Dev) (s q : Nat) : List Cmd := d.cmds.filter fun c => c.ses == s && c.qp == q

/-! ### Session shapers -/

def unshapedRate : Nat := 0x7FFFFF

/-- The balance refilled to yard time `now`, in thousandths of a byte: a rate of r MB/s is r of them per ns (R380, R383). -/
def Session.refill (x : Session) (now : Nat) : Session :=
  if x.rate = 0 ∨ x.rate = unshapedRate then { x with balAt := now }
  else { x with balAt := now, bal := max x.bal (min (x.bal + x.rate * (now - x.balAt)) (x.burstKib * 1024 * 1000)) }

/-- The shaper allows a charge (R381, R385). -/
def Session.mayCharge (x : Session) (now : Nat) : Bool :=
  x.rate == unshapedRate || (x.rate != 0 && decide (0 ≤ (x.refill now).bal))

def Session.charge (x : Session) (now n : Nat) : Session :=
  if x.rate = unshapedRate then x else { (x.refill now) with bal := (x.refill now).bal - n * 1000 }

/-- A refund, up to the burst (R371). -/
def Session.refund (x : Session) (now n : Nat) : Session :=
  if x.rate = unshapedRate then x
  else
    let y := x.refill now
    { y with bal := max y.bal (min (y.bal + n * 1000) (y.burstKib * 1024 * 1000)) }

/-! ### Order of effect -/

/-- One access of a command: its paddock, its key (`none`: every key), and its byte range (R351, R925). -/
structure Access where
  pad : Nat
  key : Option (List Byte)
  lo : Nat
  hi : Nat
deriving DecidableEq, Repr

/-- A read of one value has read the index record that fixes what it returns, or is served from the write buffer (R350). -/
def Cmd.looked (c : Cmd) : Bool := c.plan.isSome || !c.layers.isEmpty

/-- The effect of a command has begun: a read has captured what it returns of some key, a write is past its commit point (R219,
R350, R363). -/
def Cmd.begun (c : Cmd) : Bool :=
  c.effected || c.commit.isSome || (c.body.isRead && (c.looked || c.keyRecs.any Option.isSome))

/-- The inbound bytes received, at their offsets. -/
def Cmd.input (c : Cmd) : List Byte := c.got.foldl (fun bs p => splice bs p.off p.bytes) []

/-- Every inbound byte has arrived. -/
def Cmd.arrived (c : Cmd) : Bool := decide (c.need ≤ c.gotBytes)

/-! ### Tags made as data arrives (R610, R628, R630) -/

/-- Segments of the value that a write's inbound bytes fill alone, and where those bytes begin and end. The other segments of a
write join old bytes at the effect, and an APPEND's place is known only then. -/
def Cmd.tagSpans (c : Cmd) : List (Nat × Nat × Nat) :=
  if c.body.opcode = Opcode.put.code then
    (List.range (segCount c.need)).map fun i => (i, 65536 * i, min c.need (65536 * (i + 1)))
  else if c.body.opcode = Opcode.putRange.code then
    let off := c.body.offset
    let first := ceilDiv off 65536
    (List.range ((off + c.need) / 65536 - first)).map fun k =>
      let i := first + k
      (i, 65536 * i - off, 65536 * (i + 1) - off)
  else []

/-- The parts of the inbound pieces that lie in [a, b), in order of arrival. -/
def partsIn (got : List Piece) (a b : Nat) : List (Nat × Nat) :=
  got.filterMap fun p =>
    let lo := max a p.off
    let hi := min b (p.off + p.bytes.length)
    if lo < hi then some (lo, hi) else none

/-- The parts follow each other from `a`. -/
def inOrderFrom (a : Nat) : List (Nat × Nat) → Bool
  | [] => true
  | p :: r => p.1 == a && inOrderFrom p.2 r

/-- What arrival, or a key that is installed, does to the tag of one segment: it starts in the engine with its first byte, under the key
then installed, and is made when it is complete; bytes out of order, and a segment that found no key, are tagged from the
write-buffer copy (R610, R628, R630). -/
def Cmd.tagSegment (root : Option (List Byte)) (base : Rec) (c : Cmd) (s : Nat × Nat × Nat) : Cmd :=
  let (i, a, b) := s
  if c.made.any fun e => e.1 == i then c
  else
    let ps := partsIn c.got a b
    let c := match root, ps with
      | some k, [p] => if p.1 = a ∧ !(c.started.any fun e => e.1 == i) then { c with started := c.started ++ [(i, k)] } else c
      | _, _ => c
    if (ps.map fun p => p.2 - p.1).sum < b - a then c
    else
      let own := if inOrderFrom a ps then (c.started.find? fun e => e.1 == i).map Prod.snd else none
      match own.or root with
      | none => c
      | some k =>
        { c with started := c.started.filter (fun e => e.1 != i), made := c.made ++ [(i, tagOf k base i (slice a (b - a) c.input))] }

/-- The tags of a write to a checked paddock that can be made now (R610, R630). -/
def Dev.makeTags (d : Dev) (cid : Nat) : Dev :=
  match d.findCmd cid with
  | none => d
  | some c =>
    let p := d.pad c.body.pad
    if c.stage != .admitted || c.effected || !p.check || !c.body.movesValue then d
    else
      let base := freshRec c.body.pad p.epoch (c.key.getD []) 0 0
      let x := c.tagSpans.foldl (Cmd.tagSegment d.chk.root base) c
      let new := (c.tagSpans.filter fun s => x.made.any (fun e => e.1 == s.1) && !(c.made.any fun e => e.1 == s.1)).map fun s => s.2.2 - s.2.1
      let chk := new.foldl Chk.draws d.chk
      ({ d with chk := { chk with make := satAdd 32 d.chk.make new.length } } : Dev).updCmd cid fun y => { y with made := x.made, started := x.started }

/-- A tag of the write's inbound data is still to be made, or one that joins old bytes (R630). -/
def Cmd.tagsDue (c : Cmd) : Bool :=
  c.tagSpans.any (fun s => !(c.made.any fun e => e.1 == s.1)) || decide ((c.tagSpans.map fun s => s.2.2 - s.2.1).sum < c.need)

/-- The keys a GATHER or SCORE lists, once its list has arrived. -/
def Cmd.listed (c : Cmd) : Option (List (List Byte)) :=
  if isPending c || !c.arrived then none
  else if c.body.opcode = Opcode.gather.code then keyList c.input.length c.input
  else
    match c.shape with
    | some s => keyList c.input.length (c.input.drop s.queryLen)
    | none => none

/-- The command reads a list of keys. -/
def Body.lists (b : Body) : Bool := b.opcode == Opcode.gather.code || b.opcode == Opcode.score.code

/-- The access of a command to one key (table Accessed ranges). -/
def Cmd.accessTo (c : Cmd) (key : Option (List Byte)) : Access :=
  let ranged := [0x02, 0x03, 0x06, 0x11].contains c.body.opcode
  { pad := c.body.pad, key := key, lo := if ranged then c.body.offset else 0,
    hi := if ranged then c.body.offset + c.body.length else maxValue }

/-- The accesses of a command (table Accessed ranges, R925). DEDUCED (log 43): a command whose KEY header is still being read may
name any key, and is held like a list that has not arrived; this changes timing only (R355). -/
def Cmd.accesses (c : Cmd) : List Access :=
  let whole : Access := { pad := c.body.pad, key := none, lo := 0, hi := maxValue }
  if c.body.lists then
    match c.listed with
    | some ks => ks.map fun k => c.accessTo (some k)
    | none => [whole]
  else if (c.body.isRead || c.body.isWrite) && c.body.opcode != Opcode.scan.code then
    match c.key with
    | some k => [c.accessTo (some k)]
    | none => if c.stage == .fetching then [whole] else []
  else []

/-- The accesses of a command that have yet to take effect, key by key (R350, R353). -/
def Cmd.openAccesses (c : Cmd) : List Access :=
  if c.effected || c.stage == .ended then []
  else if c.body.lists && c.listed.isSome then
    (List.zip c.accesses (List.range c.accesses.length)).filterMap fun x =>
      if (c.keyRecs.getD x.2 none).isSome then none else some x.1
  else if c.body.isRead && c.looked then []
  else c.accesses

/-- Two accesses overlap: the same paddock, equal keys and ranges that share a byte (R352). -/
def Access.overlaps (a b : Access) : Bool :=
  a.pad == b.pad && (a.key.isNone || b.key.isNone || a.key == b.key) && decide (max a.lo b.lo < min a.hi b.hi)

/-- An access of x that has yet to take effect overlaps access a of command c, and one of the two commands is a write (R352). -/
def Cmd.blocks (x c : Cmd) (a : Access) : Bool := (x.body.isWrite || c.body.isWrite) && x.openAccesses.any a.overlaps

/-- Two commands conflict (R352). -/
def conflicts (x c : Cmd) : Bool := c.openAccesses.any (x.blocks c)

/-- The command has taken effect for every key (R358). -/
def Cmd.allEffected (c : Cmd) : Bool :=
  c.effected || c.stage == .ended || (c.body.isRead && c.begun && c.openAccesses.isEmpty)

/-- Read c is served from the write-buffer data of x, a write past its commit point (R364). -/
def Cmd.serves (x c : Cmd) : Bool := c.body.isRead && x.commit.isSome

/-- The later command is ordered under R358 behind the earlier one: a STRICT queue pair, or a STRICT paddock both name (R359). -/
def Dev.strictAfter (d : Dev) (a b : Cmd) : Bool :=
  (d.qp (dqp b.ses b.qp)).ctx.strict || (b.padStrict && a.body.namesPad && b.body.namesPad && a.body.pad == b.body.pad)

/-- Commands of the same queue pair submitted earlier. -/
def Dev.earlier (d : Dev) (c : Cmd) : List Cmd :=
  d.cmds.filter fun x => x.ses == c.ses && x.qp == c.qp && decide (x.subSeq < c.subSeq)

/-- The ordering rules let the command be admitted (R354, R358, R359). -/
def Dev.mayAdmit (d : Dev) (c : Cmd) : Bool :=
  (d.earlier c).all fun x =>
    !isPending x || !(d.strictAfter x c || (c.body.isRead && conflicts x c))

/-- The ordering rules let access a of the command take effect (R353, R358, R359, R364). -/
def Dev.accessFree (d : Dev) (c : Cmd) (a : Access) : Bool :=
  (d.earlier c).all fun x => x.allEffected || if x.blocks c a then x.serves c else !d.strictAfter x c

/-- The ordering rules let the command take effect (R353, R358, R359, R364). -/
def Dev.mayEffect (d : Dev) (c : Cmd) : Bool :=
  (d.earlier c).all fun x => x.allEffected || if conflicts x c then x.serves c else !d.strictAfter x c

/-- The ordering rules let the command complete (R358, R359). -/
def Dev.mayComplete (d : Dev) (c : Cmd) : Bool := (d.earlier c).all fun x => !d.strictAfter x c

/-! ### Requests at a stall (R500, R501) -/

/-- The home stall of a key. -/
def Dev.homeOf (d : Dev) (pad : Nat) (key : List Byte) : Nat := homeStall (d.padSet pad) (keyDigest key)

/-- Another request with this paddock and digest is between its first search and its effect point (R501). -/
def Dev.digestBusy (d : Dev) (c : Cmd) (key : List Byte) : Bool :=
  d.cmds.any fun x => x.id != c.id && x.searching && x.body.pad == c.body.pad && x.key.any fun k => keyDigest k == keyDigest key

/-- Request contexts of stall s in use: reads that wait for segments of the shed, key by key, and writes between their search and
their effect (R500). -/
def Dev.ctxUsed (d : Dev) (s : Nat) : Nat :=
  (d.cmds.map fun c =>
    let waits := (c.fetches.filter fun f => !f.arrived && d.homeOf c.body.pad f.key == s).map Fetch.pos
    max waits.eraseDups.length (b2n (c.searching && c.key.any fun k => d.homeOf c.body.pad k == s))).sum

/-- The barns of a key's home stall and of its stored segments can be reached (R124; log 74: until the next bring-up gives their bundles
back, requests for it wait). -/
def Dev.keyReached (d : Dev) (pad : Nat) (key : List Byte) : Bool :=
  d.barnReached (d.homeOf pad key / 64) &&
    (((d.peek pad key).map Rec.segs).getD []).all fun e => e.st != 0 || d.barnReached (e.stall / 64)

/-- A request for a key may begin at its home stall: it can be reached, a context is free, and no request of the same digest runs (R124,
R500, R501). -/
def Dev.stallTakes (d : Dev) (c : Cmd) (key : List Byte) : Bool :=
  decide (d.ctxUsed (d.homeOf c.body.pad key) < 48) && !d.digestBusy c key && d.keyReached c.body.pad key

/-- The command could run as far as its stage and session go. -/
def Dev.ready (d : Dev) (c : Cmd) (op : Nat) : Bool := c.stage == .admitted && !c.effected && c.body.opcode == op && !d.held c.ses

/-- The command runs: admitted, not yet effected, its session not held, its turn come, its stall free to take it or at work on
it. -/
def Dev.runnable (d : Dev) (c : Cmd) (op : Nat) : Bool :=
  d.ready c op && d.mayEffect c && c.key.all fun k => c.looked || c.searching || d.stallTakes c k

/-! ### Packets of a command -/

def Cmd.echo (c : Cmd) : List ExtHdr := echoHdrs c.route c.tunnel

def Cmd.urgent (c : Cmd) : Bool := c.cls == CmdClass.urgent.code

/-- A packet of a command on the RSP or URG channel of its session's current link (R160). -/
def Dev.sendRsp (d : Dev) (c : Cmd) (typ arg : Nat) (hdrs : List ExtHdr) (payload : List Byte) (o : Owner) : Dev :=
  let d := d.refreshClink c.ses
  let vc := d.rspVc (d.ses c.ses).clink c.urgent
  d.sendSes c.ses (d.sesPkt typ vc c.ses c.qp c.tag arg hdrs payload o)

/-- The CHECK header of a piece (R617). -/
def checkHdr : Option (Nat × List Byte) → List ExtHdr
  | none => []
  | some (seg, tag) => [{ typ := 5, body := zeros 2 ++ natLe 4 seg ++ tag }]

/-- One output piece as a packet: DATA in push mode, WRITE in ring mode (R279, R280). -/
def Dev.piecePkt (d : Dev) (c : Cmd) (p : OutPiece) : Pkt × Dev :=
  if c.via = .push then
    let last := if p.off + p.bytes.length = c.outTotal then 2 ^ 63 else 0
    (d.sesPkt 0x04 .data c.ses c.qp c.tag (p.off + last) (c.echo ++ checkHdr p.check) p.bytes (.output c.id), d)
  else
    let (t, d) := d.takeTag
    (d.sesPkt 0x09 .data c.ses c.qp t (c.body.addr + p.off) [] p.bytes (.output c.id),
      { d with writes := d.writes ++ [{ tag := t, d := dqp c.ses c.qp, cmd := some c.id, len := p.bytes.length }] })

def Dev.piecePkts (d : Dev) (c : Cmd) : List OutPiece → List Pkt → List Pkt × Dev
  | [], ps => (ps.reverse, d)
  | p :: r, ps =>
    let (k, d) := d.piecePkt c p
    d.piecePkts c r (k :: ps)

/-- Consecutive pieces of one 64 KiB part of the output. -/
def takePart (i : Nat) : List OutPiece → List OutPiece × List OutPiece
  | [] => ([], [])
  | p :: r => if p.off / 65536 = i then ((p :: (takePart i r).1), (takePart i r).2) else ([], p :: r)

/-- Output pieces leave: by PCIe memory writes, or as frames, those of one 64 KiB part of the output on one link (R224). -/
def Dev.sendPieces (d : Dev) (c : Cmd) : Nat → List OutPiece → Dev
  | 0, _ => d
  | _ + 1, [] => d
  | k + 1, p :: r =>
    if c.via = .pcie then (d.pcieSend (.write (c.body.addr + p.off) p.bytes)).sendPieces c k r
    else
      let part := takePart (p.off / 65536) r
      let (ps, d) := d.piecePkts c (p :: part.1) []
      (d.sendPart c.id c.ses (p.off / 65536) ps).sendPieces c k part.2

/-- The pieces that may leave now (R370): those whose stored bytes have been charged. -/
def Dev.sendOutput (d : Dev) (cid : Nat) : Dev :=
  match d.findCmd cid with
  | none => d
  | some c =>
    let free := c.via != .push || c.body.opcode != Opcode.get.code || c.body.length != 0 || (d.ses c.ses).rate == unshapedRate
    let go := c.outLeft.filter fun p => free || decide (p.stored ≤ c.releasedTo)
    let stay := c.outLeft.filter fun p => !(free || decide (p.stored ≤ c.releasedTo))
    let n := (go.map fun p => p.bytes.length).sum
    (d.updCmd cid fun x => { x with outLeft := stay, sent := x.sent + n }).sendPieces c (go.length + 1) go

/-! ### Inbound data -/

/-- READs for inbound bytes [lo, hi) at `base`: at most 8,192 bytes each, crossing no 64 KiB boundary (R291, R292). -/
def Dev.pullRange (d : Dev) (c : Cmd) (base lo hi : Nat) (value : Bool) : Nat → Dev
  | 0 => d
  | k + 1 =>
    if hi ≤ lo then d
    else
      let n := min (8192 - lo % 8192) (hi - lo)
      let w := if value then ReadFor.value c.id lo else ReadFor.input c.id lo
      (d.sendRead c.ses c.qp (base + lo) n [] w).pullRange c base (lo + n) hi value k

/-- A grant's READY packet (R283). -/
def Dev.sendGrant (d : Dev) (c : Cmd) (g : Grant) : Dev :=
  let d := d.updCmd c.id fun x => { x with grants := x.grants ++ [g], nextGrant := g.idx + 1, asked := g.off + g.len }
  d.sendRsp c 0x03 (g.off + 2 ^ 37 * g.len + 2 ^ 58 * (g.idx % 4)) c.echo [] (.grant c.id)

/-- The next grant of a push-mode command, when its space is there and fewer than 4 are outstanding (R283–R285). -/
def Dev.nextGrant (d : Dev) (cid : Nat) : Nat → Dev
  | 0 => d
  | k + 1 =>
    match d.findCmd cid with
    | none => d
    | some c =>
      let off := c.nextGrant * 1048576
      let len := min 1048576 (c.need - off)
      let room := if c.body.movesValue then decide (off + len ≤ c.wbGiven) else true
      if c.stage = .admitted ∧ off < c.need ∧ room = true ∧ c.grants.length < 4 ∧
          (c.grants.all fun g => g.idx + 4 > c.nextGrant) then
        (d.sendGrant c { idx := c.nextGrant, off := off, len := len, got := 0, due := none }).nextGrant cid k
      else d

/-- The next pulls of a ring-mode or PCIe command: at most 4 MiB of value READs outstanding (R291). -/
def Dev.nextPulls (d : Dev) (cid : Nat) : Dev :=
  match d.findCmd cid with
  | none => d
  | some c =>
    if c.stage ≠ .admitted then d
    else if c.body.movesValue then
      let hi := min c.wbGiven (c.gotBytes + 4194304)
      if c.asked < hi then
        (d.updCmd cid fun x => { x with asked := hi }).pullRange c c.body.addr c.asked hi true (hi / 8192 + 1)
      else d
    else if c.asked < c.need then
      (d.updCmd cid fun x => { x with asked := c.need }).pullRange c c.body.arg 0 c.need false (c.need / 8192 + 1)
    else d

/-- Grants or pulls that have become possible. -/
def Dev.askInput (d : Dev) (cid : Nat) : Dev :=
  match d.findCmd cid with
  | none => d
  | some c => if c.need = 0 then d else if c.via = .push then d.nextGrant cid 5 else d.nextPulls cid

/-! ### The write buffer (R121, R361) -/

/-- Write-buffer slots of stall s in use. -/
def Dev.wbUsedAt (d : Dev) (s : Nat) : List Nat :=
  (d.cmds.flatMap fun c => c.wb.filterMap fun e => if e.2.1 = s then some e.2.2 else none) ++
    (d.barn (s / 64)).wbKept.filterMap fun e => if e.1 = s then some e.2 else none

def Dev.wbUsed (d : Dev) : Nat :=
  (d.cmds.map fun c => c.wb.length).sum + (d.barns.map fun b => b.2.wbKept.length).sum

/-- A free write-buffer slot of stall s. -/
def Dev.wbFreeAt (d : Dev) (s : Nat) (taken : List (Nat × Nat × Nat)) : Option Nat :=
  if d.barnStopped (s / 64) || !d.barnReached (s / 64) then none
  else
    let used := d.wbUsedAt s ++ taken.filterMap fun e => if e.2.1 = s then some e.2.2 else none
    ((List.range d.wbShare).find? fun k => !used.contains (64 + k)).map fun k => 64 + k

/-- The slot of a segment: in its target stall's share, else in the same barn, else in any stall (R121). DESIGN CHOICE (log 10): of
several stalls that would do, the lowest-numbered available one. -/
def Dev.wbSlot (d : Dev) (target seg : Nat) (taken : List (Nat × Nat × Nat)) : Option (Nat × Nat × Nat) :=
  let order := [target] ++ d.availStalls.filter (fun s => s / 64 == target / 64 && s != target) ++
    d.availStalls.filter fun s => s / 64 != target / 64
  order.findSome? fun s => (d.wbFreeAt s taken).map fun k => (seg, s, k)

/-- Segments of the value that inbound bytes [lo, hi) fall in. -/
def Cmd.wbSegs (c : Cmd) (lo hi : Nat) : List Nat :=
  let a := (c.wbBase + lo) / 65536
  (List.range (ceilDiv (c.wbBase + hi) 65536 - a)).map (a + ·)

/-- Slots for the segments that inbound bytes [lo, hi) fill and that have none yet; `none` when they do not all fit. -/
def Dev.wbPiece (d : Dev) (c : Cmd) (lo hi : Nat) : Option (List (Nat × Nat × Nat)) :=
  let set := d.padSet c.body.pad
  let home := homeIndex set (keyDigest (c.key.getD []))
  ((c.wbSegs lo hi).filter fun i => !(c.wb.any fun e => e.1 == i)).foldl (fun a i =>
    match a with
    | none => none
    | some l => (d.wbSlot (targetStall set home i) i l).map fun e => l ++ [e]) (some [])

/-- The command waits for write-buffer space: its next grant or pull only lacks it. -/
def Dev.wantsWb (d : Dev) (c : Cmd) : Bool :=
  c.stage == .admitted && !c.effected && c.body.movesValue && decide (c.wbGiven < c.need) && !d.held c.ses &&
    (if c.via = .push then decide (c.grants.length < 4) && c.grants.all (fun g => decide (g.idx + 4 > c.nextGrant)) &&
        decide (c.wbGiven = c.asked)
     else decide (c.asked = c.wbGiven) && decide (c.asked < c.gotBytes + 4194304))

/-! ### The end of a command -/

/-- Write-buffer slots of a command go back; those of a tripped barn only at its resumption (R750). -/
def Dev.releaseWb (d : Dev) (c : Cmd) (keepStopped : Bool) : Dev :=
  let d := d.updCmd c.id fun x => { x with wb := [] }
  if keepStopped then
    c.wb.foldl (fun d e =>
      if d.barnStopped (e.2.1 / 64) then d.updBarn (e.2.1 / 64) fun b => { b with wbKept := b.wbKept ++ [(e.2.1, e.2.2)] } else d) d
  else d

/-- READs that a command still waits for. -/
def readOfCmd (cid : Nat) (r : OutRead) : Bool :=
  match r.what with
  | .aux _ c => c == cid
  | .value c _ => c == cid
  | .input c _ => c == cid
  | _ => false

/-- Flows that have lost their last waiting command leave the weighted round (R379). -/
def Dev.leaveRound (d : Dev) : Dev :=
  let waits := fun (f : Nat × Nat × Nat) => d.cmds.any fun c => c.stage == .waiting && c.ses == f.1 && c.cls == f.2.1
  { d with arb := { d.arb with round := d.arb.round.filter waits } }

/-- The outcome of a command is fixed: it asks for nothing more, and its completion follows. -/
def Dev.finish (d : Dev) (cid status bytes info : Nat) : Dev :=
  let d := match d.findCmd cid with
    | some c => d.releaseWb c true
    | none => d
  let d := d.updCmd cid fun x =>
    { x with stage := .ended, effected := true, status := status, bytes := bytes, info := info, grants := [], fetches := [],
             isWaiter := false, commit := none, searching := false }
  ({ d with reads := d.reads.filter (fun r => !readOfCmd cid r),
            tth := { d.tth with waiters := d.tth.waiters.filter (fun w => w.cmd != cid),
                                ready := d.tth.ready.filter (fun w => w.1 != cid) },
            arb := { d.arb with wbRound := d.arb.wbRound.filter (fun w => w != cid) } } : Dev).leaveRound

/-- A PADDOCK DELETE that ends before it removed its keys leaves the paddock as it found it (R219, R339, log 40). -/
def Dev.undelete (d : Dev) (cid : Nat) : Dev :=
  match d.findCmd cid with
  | none => d
  | some c =>
    let p := d.pad c.body.pad
    if c.body.opcode = Opcode.paddock.code ∧ c.body.subop = 1 ∧ c.stage = .admitted ∧ p.live = true ∧ p.st = 2 then
      let left := p.residency = 0 ∧ (d.padRecs c.body.pad).any (fun e => e.2.2.segs.any fun g => g.st == 1) = true
      d.updPad c.body.pad fun x => { x with st := if left then 1 else 0 }
    else d

/-! ### Tethers -/

def Dev.tether (d : Dev) (t : Nat) : DWord := SMap.get d.tth.counters t 0

/-- INFO of a GATHER or SCORE that ends early, over the records looked up: keys found and short, or pages absent, with none scored
(R276, R323, R330). -/
def Cmd.listInfo (c : Cmd) : Nat :=
  let rs : List (Option Rec) := c.keyRecs.filterMap fun x => x
  let found : List Rec := rs.filterMap fun x => x
  if c.body.opcode = Opcode.gather.code then
    found.length + 2 ^ 16 * (found.filter fun r => decide (r.len < c.body.offset + c.body.length)).length
  else 2 ^ 16 * (rs.length - found.length)

/-- INFO of a command that ends early: the table's word as far as it has found its key, its list's keys or its tether; 0 before
(R276, R333). -/
def Dev.infoNow (d : Dev) (c : Cmd) : Nat :=
  if c.isWaiter then (d.tether c.body.teth14).toNat
  else if c.body.lists then c.listInfo
  else (c.plan.map Rec.len).getD 0

/-- The command ends with an error status and sends nothing more (R282, R297); BYTES counts what was delivered (R281). -/
def Dev.abortWith (d : Dev) (cid status info : Nat) : Dev :=
  let d := d.undelete cid
  let sent := match d.findCmd cid with
    | some c => if c.body.isWrite then c.gotBytes else c.sent
    | none => 0
  (d.updCmd cid fun x => { x with outLeft := [], effected := true }).finish cid status sent info

def Dev.abort (d : Dev) (cid status : Nat) : Dev :=
  d.abortWith cid status (((d.findCmd cid).map d.infoNow).getD 0)

/-- One operation leaves counter t at v: every waiter it satisfies awaits release, in the order of joining (R469, R481, R482). -/
def Dev.tetherSetTo (d : Dev) (t : Nat) (v : DWord) : Dev :=
  let sat := fun (w : Waiter) => w.tether == t && decide (w.target ≤ v)
  { d with tth := { d.tth with
      counters := SMap.put d.tth.counters t v, waiters := d.tth.waiters.filter (fun w => !sat w),
      ready := d.tth.ready ++ (d.tth.waiters.filter sat).map fun w => (w.cmd, v) } }

def Dev.tetherAddTo (d : Dev) (t : Nat) (n : Nat) : Dev := d.tetherSetTo t (d.tether t + BitVec.ofNat 64 n)

/-! ### Rings -/

/-- A doorbell read, or one more after the one in flight (R241, R242). -/
def Dev.doorbell (d : Dev) (q : Nat) : Dev :=
  if (d.qp q).dbBusy then d.updQp q fun x => { x with dbAgain := true }
  else
    (d.updQp q fun x => { x with dbBusy := true }).sendRead (q / 64) (q % 64) (d.qp q).ctx.dbAddr 8 [] (.doorbell q)

/-- A queue pair that fetches: ACTIVE in ring mode, its session OPEN (R218, R236). -/
def Dev.fetching (d : Dev) (q : Nat) : Bool :=
  (d.qp q).st == .active && !(d.qp q).ctx.push && (d.ses (q / 64)).st == .opened

/-- Entries below SQ_PI that have not been asked for: none while a doorbell read has shown an SQ_PI below them (R239). -/
def Qp.toFetch (x : Qp) : Nat :=
  (x.sqPi + 2 ^ 32 - x.sqCi) % 2 ^ 32 - (x.sqAsked + 2 ^ 32 - x.sqCi) % 2 ^ 32

/-- How many further entries may be fetched (R239, R367, R207). -/
def Dev.fetchRoom (d : Dev) (q : Nat) : Nat :=
  let x := d.qp q
  let s := q / 64
  let avail := x.toFetch
  let open_ := (d.qpCmds s (q % 64)).length + (x.sqAsked + 2 ^ 32 - x.sqCi) % 2 ^ 32
  let slots := 2 ^ x.ctx.cqLog - ((x.cqPi + 2 ^ 32 - x.cqCi) % 2 ^ 32 + open_)
  let out := if d.sesOut s < (d.ses s).maxOut then avail else 0
  min (min avail slots) (min (64 - d.pendUsed s) out)

/-- READs of at most 128 consecutive entries, stopping at the ring's end (R245). -/
def Dev.fetchRuns (d : Dev) (q : Nat) : Nat → Nat → Dev
  | 0, _ => d
  | k + 1, n =>
    if n = 0 then d
    else
      let x := d.qp q
      let slot := x.sqAsked % 2 ^ x.ctx.sqLog
      let m := min (min n 128) (2 ^ x.ctx.sqLog - slot)
      let d := d.updQp q fun x => { x with sqAsked := (x.sqAsked + m) % 2 ^ 32 }
      (d.sendRead (q / 64) (q % 64) (x.ctx.sqBase + 64 * slot) (64 * m) [] (.entries q x.sqAsked m)).fetchRuns q k (n - m)

/-- Entries that may be fetched are asked for; what is held back is fetched later (R241, R245). -/
def Dev.fetchEntries (d : Dev) (q : Nat) : Dev :=
  if !d.fetching q then d
  else
    let n := d.fetchRoom q
    (d.updQp q fun x => { x with heldBack := decide (n < x.toFetch) }).fetchRuns q (n + 1) n

/-- Fetching that was held back reads its doorbell again once it is possible (R241). -/
def Dev.wakeFetch (d : Dev) (s : Nat) : Dev :=
  ((d.qps.filter fun q => q.1 / 64 == s && q.2.heldBack).map Prod.fst).foldl (fun d q =>
    if d.fetching q && decide (0 < d.fetchRoom q) then (d.updQp q fun x => { x with heldBack := false }).doorbell q else d) d

/-- A queue pair put in ERROR (R236). -/
def Dev.qpError (d : Dev) (q code : Nat) : Dev :=
  d.updQp q fun x => { x with st := .error, err := code, dbBusy := false, dbAgain := false, dbUrg := false }

/-! ### Completions -/

/-- A completion of the queue pair has a path (R221, R831). -/
def Dev.hasPath (d : Dev) (s q : Nat) : Bool :=
  ((d.ses s).st == .opened || (d.ses s).st == .closing) && !(d.ses s).fault && (d.qp (dqp s q)).st != .error &&
    (if (d.ses s).pcie then d.pcie.up else !(d.servingLinks s).isEmpty)

/-- The 32 bytes of a completion entry (R253). -/
def completionEntry (tag status flags sqCi bytes info now : Nat) : List Byte :=
  natLe 4 tag ++ natLe 1 status ++ natLe 1 flags ++ natLe 2 sqCi ++ natLe 8 bytes ++ natLe 8 info ++ natLe 4 now ++ zeros 4

/-- Whether a command names a tether (R167). -/
def Body.namesTether (b : Body) : Bool := b.teth || b.opcode == Opcode.tether.code

def Dev.tetherHdr (d : Dev) (b : Body) : List ExtHdr :=
  if b.namesTether then
    [{ typ := 6, body := natLe 2 b.teth14 ++ zeros 4 ++ natLe 8 (d.tether b.teth14).toNat }]
  else []

/-- A completion entry is written to the ring (R254, R256, R259). -/
def Dev.writeEntry (d : Dev) (c : Cmd) : Dev :=
  let q := dqp c.ses c.qp
  let x := d.qp q
  let j := x.cqPi
  let phase := 1 - j / 2 ^ x.ctx.cqLog % 2
  let bytes := completionEntry c.tag c.status phase x.sqCi c.bytes c.info d.now
  let addr := x.ctx.cqBase + 32 * (j % 2 ^ x.ctx.cqLog)
  let d := d.updQp q fun x => { x with cqPi := (j + 1) % 2 ^ 32, unann := x.unann ++ [(j, d.now, c.urgent)] }
  if c.via = .pcie then d.pcieSend (.write addr bytes)
  else
    let (t, d) := d.takeTag
    let d : Dev := { d with writes := d.writes ++ [{ tag := t, d := q, cmd := none, len := 0 }] }
    d.sendSes c.ses (d.sesPkt 0x09 .data c.ses c.qp t addr [] bytes (.entry q j))

/-- The completion goes out where it has a path, and is counted otherwise (R194, R216, R221, R225). -/
def Dev.deliver (d : Dev) (c : Cmd) : Dev :=
  if c.faulted || !d.hasPath c.ses c.qp then
    if c.linkLost && !c.faulted then { d with lnkc := { d.lnkc with lostCmd := sat1 d.lnkc.lostCmd } } else d.countLost c.ses
  else if c.via = .push then
    d.sendRsp c 0x02 0 (c.echo ++ d.tetherHdr c.body) (completionEntry c.tag c.status 0 0 c.bytes c.info d.now) (.response c.id)
  else d.writeEntry c

/-- A queue pair in IDLE: completion entries written and not yet announced are still announced as its context said (R257, R259). -/
def Qp.idle (x : Qp) : Qp := { Qp.reset with unann := x.unann, ctx := if x.unann.isEmpty then QpCtx.none else x.ctx }

/-- A queue pair returns to IDLE; what it still waited for is forgotten (R220, R235, R269). -/
def Dev.qpIdle (d : Dev) (q : Nat) : Dev :=
  { d with qps := d.qps.map (fun x => if x.1 = q then (x.1, x.2.idle) else x), reads := d.reads.filter (fun r => dqp r.ses r.qp != q),
           writes := d.writes.filter fun w => w.d != q }

/-- A command of session s that keeps it CLOSING: it is outstanding or ended, or waits and will still be admitted, which one of
a queue pair in ERROR will not (R220, R236, R397). -/
def Dev.keepsOpen (d : Dev) (s : Nat) (c : Cmd) : Bool :=
  c.ses == s && !(isPending c && (d.qp (dqp c.ses c.qp)).st == .error)

/-- A queue pair that has nothing left leaves STOPPING; a session that has nothing left leaves CLOSING, and commands of it that can
no longer be admitted are discarded and counted (R220, R221, R235). -/
def Dev.settleSession (d : Dev) (s : Nat) : Dev :=
  let gone := (d.qps.filter fun q => q.1 / 64 == s && q.2.st == .stopping && (d.qpCmds s (q.1 % 64)).isEmpty).map Prod.fst
  let d := gone.foldl Dev.qpIdle d
  if (d.ses s).st = .closing ∧ !(d.cmds.any (d.keepsOpen s)) then
    let d := ((d.cmds.filter fun c => c.ses == s).foldl (fun d c => (d.dropCmd c.id).countLost s) d).leaveRound
    let d := d.updSes s fun x => { x with st := .closed, hold := none, clinkNone := true }
    ((d.qps.filter fun q => q.1 / 64 == s).map Prod.fst).foldl Dev.qpIdle d
  else d

/-- A command leaves the device: refund, counters, and what its place lets go on (R371, R241). -/
def Dev.retireCmd (d : Dev) (c : Cmd) : Dev :=
  let actual := c.body.actualCost (c.via == .push) c.storedRead c.bytes
  let d := if c.slotHeld then d.updSes c.ses fun x => x.refund d.now (c.charged - actual) else d
  let d : Dev := { d with writes := d.writes.filter fun w => w.cmd != some c.id }
  ((d.dropCmd c.id).settleSession c.ses).wakeFetch c.ses

/-- The completion point (R473–R476): the add, then the completion. DESIGN CHOICE (log 69): a completion counts as delivered (R206)
when its RESPONSE or entry WRITE is queued, so the command is no longer outstanding while that frame waits or is held. -/
def Dev.completeCmd (d : Dev) (c : Cmd) : Dev :=
  let d := if c.body.teth ∧ addsTether c.status = true then d.tetherAddTo c.body.teth14 c.body.tadd else d
  (d.deliver c).retireCmd c

/-- The conditions of R387 on what is stored: shed work, the identity page of a CREATE (R577), output and its acknowledgements. -/
def Dev.durableDone (d : Dev) (c : Cmd) : Bool :=
  (match c.job with
   | some j => (d.findJob j).isNone
   | none => true) &&
  !(c.body.opcode == Opcode.paddock.code && c.body.subop == 0 && (c.status == Status.ok.code) &&
    (d.shd.st == shdReady || d.shd.st == shdReadOnly) &&
    (match d.shd.ident with
     | some i => decide (SMap.get i.epochs c.body.pad 0 < c.info)
     | none => true)) &&
  c.outLeft.isEmpty && d.allAcked fun o => o == .output c.id

/-- The completion of a command may be sent now. -/
def Dev.completable (d : Dev) (c : Cmd) : Bool :=
  c.stage == .ended && d.durableDone c && d.mayComplete c && !d.held c.ses

/-! ### Submission -/

/-- A command with the fields of its body and headers, in its pending place (R924). -/
def Dev.mkCmd (d : Dev) (id s q : Nat) (via : Via) (onUrg : Bool) (tag : Nat) (b : Body) (hdrs : List ExtHdr)
    (stage : Stage) (pre : Option Nat) : Cmd :=
  let live := b.namesPad && d.padLive b.pad
  { id := id, ses := s, qp := q, via := via, tag := tag, body := b,
    key := (findHdr 3 hdrs).map fun h => keyOfBody h.body, shapeHdr := (findHdr 4 hdrs).map ExtHdr.body,
    route := if via = .push then (findHdr 1 hdrs).map ExtHdr.body else none,
    tunnel := if via = .push then (findHdr 2 hdrs).map ExtHdr.body else none, pre := pre, auxNext := 0, auxLen := 0,
    cls := b.classOf onUrg (if live then some (d.pad b.pad).cls else none), padStrict := live && (d.pad b.pad).strict,
    subSeq := d.subSeq, admSeq := 0, stage := stage, slotHeld := false, cost := 0, charged := 0, shape := none,
    need := 0, got := [], gotBytes := 0, grants := [], nextGrant := 0, wbGiven := 0, asked := 0, wb := [], wbBase := 0, wbLost := [],
    plan := none, effected := false, status := 0, bytes := 0, info := 0, storedRead := 0, outLeft := [],
    outTotal := 0, sent := 0, releasedTo := 0, fetches := [], keyRecs := [], commit := none,
    searching := false, made := [], started := [], layers := [], segLink := none, job := none, isWaiter := false,
    flushOn := [], linkLost := false, faulted := false }

/-- The command takes a pending place: it is submitted (R924). -/
def Dev.submit (d : Dev) (c : Cmd) : Dev := { d with cmds := d.cmds ++ [c], subSeq := d.subSeq + 1 }

end Sys2Proof.Machine
end

