-- ==== Sys2Proof/Machine/Reads.lean ====
section
/-! DEFINITION. The reads: GET, GET_RANGE, SHAPE_GET, EXISTS, SCAN, GATHER and SCORE (R298–R330, R418–R465). A read looks its key
up once, captures the segments it needs, waits for those the shed has to deliver, and then delivers its output. -/

namespace Sys2Proof.Machine

open Sys2Proof

/-! ### Output of a read -/

/-- Pieces of unshaped bytes: each ends at a multiple of 8,192 of the output; in a checked paddock also at segment boundaries,
and the last piece of each segment carries its tag (R279, R617). `base` is the output offset of value offset `lo`. -/
def rawPieces (r : Rec) (base lo : Nat) (parts : List (Nat × Nat × Nat)) (bytes : List (List Byte)) : List OutPiece :=
  let cut := (List.zip parts bytes).flatMap fun x =>
    let i := x.1.1
    let bs := slice x.1.2.1 (x.1.2.2 - x.1.2.1) x.2
    let off := base + 65536 * i + x.1.2.1 - lo
    (cutPieces off bs).map fun p => (i, off + bs.length, p)
  if r.tagged then
    cut.map fun x =>
      { off := x.2.2.off, bytes := x.2.2.bytes, stored := x.2.2.off + x.2.2.bytes.length
        check := if x.2.2.off + x.2.2.bytes.length = x.2.1 then some (x.1, r.tags.getD x.1 []) else none }
  else
    (cutPieces base (cutRange r.len lo (lo + (cut.map fun x => x.2.2.bytes.length).sum) bytes)).map fun p =>
      { off := p.off, bytes := p.bytes, check := none, stored := p.off + p.bytes.length }

/-- The end of an output: the byte after the one with the highest offset. -/
def piecesEnd (ps : List OutPiece) : Nat := ps.foldl (fun n p => max n (p.off + p.bytes.length)) 0

/-- Pieces of shaped output; `total` stored bytes are read for it (R370). -/
def shapedPieces (s : Shape) (free total : Nat) (rows : List (Option (List Byte))) : List OutPiece :=
  let ps := s.output free rows
  let len := ps.foldl (fun n p => max n (p.off + p.bytes.length)) 0
  ps.map fun p =>
    { off := p.off, bytes := p.bytes, check := none
      stored := if len = 0 then 0 else ceilDiv (total * (p.off + p.bytes.length)) len }

/-- The read has its output and its outcome; the output leaves as far as it may (R279, R370). -/
def Dev.readDone (d : Dev) (cid : Nat) (outs : List OutPiece) (status bytes info stored : Nat) : Dev :=
  let d := d.updCmd cid fun c =>
    { c with outLeft := outs, outTotal := piecesEnd outs, storedRead := stored, releasedTo := 1048576 }
  (d.finish cid status bytes info).sendOutput cid

/-! ### Shaping in the stalls -/

/-- The shape uses stage 3 or stage 5 (R459). -/
def Shape.usesMac (s : Shape) : Bool := s.g != 0 || (s.scale != 0 && s.scale != 0x3F800000#32) || s.pool != 0

/-- Work of a shape in the barns given has to wait: a barn in hot hold (R459, R745), or a throttle level that issues none (R735). -/
def Dev.macWaits (d : Dev) (usesMac : Bool) (barns : List Nat) : Bool :=
  decide (8 ≤ d.pwr.level) || (usesMac && barns.any fun b => (d.barn b).hot)

/-- Barns whose stalls hold segments of a record, and its home's. -/
def Rec.barns (r : Rec) (home : Nat) : List Nat := (home / 64) :: r.segs.map fun e => e.stall / 64

/-- The stall that holds byte `off` of a value (R423). -/
def Rec.stallAt (r : Rec) (off : Nat) : Option Nat :=
  ((if r.small then r.segs[0]? else r.segs[off / 65536]?)).map SegEnt.stall

/-- Lengths of runs of equal consecutive stalls. -/
def stallRuns : List (Option Nat) → List (Option Nat × Nat)
  | [] => []
  | a :: r =>
    match stallRuns r with
    | (b, n) :: t => if a = b then (a, n + 1) :: t else (a, 1) :: (b, n) :: t
    | [] => [(a, 1)]

/-- Blocks counted by the slalom unit of the edge port that a stall's yard traffic uses, its home's or the one it is diverted to:
transposed by the unit, and in mangers (R94, R97, R442–R446). -/
def Dev.slalomCount (d : Dev) (stall : Nat) (blocks : Nat × Nat) : Dev :=
  let u := d.edgePort stall
  d.updBarn (stall / 64) fun b =>
    let on := b.slmEnable.getD u true
    { b with slmBlocks := listUpd b.slmBlocks u fun n => satAdd 32 n (if on then blocks.1 else 0)
             slmFallback := listUpd b.slmFallback u fun n => satAdd 32 n (if on then blocks.2 else blocks.1 + blocks.2) }

/-- The slalom work of a shape over matrix rows that the stalls listed shape. -/
def Dev.slalom (d : Dev) (s : Shape) (stalls : List (Option Nat)) : Dev :=
  if s.slalom && s.transpose then
    (stallRuns stalls).foldl (fun d x => match x.1 with
      | none => d
      | some st => d.slalomCount st (s.slalomBlocks x.2)) d
  else d

/-- The bag stalls of a range read: each bag's is the stall of its first row (R436). -/
def Shape.bagStalls (s : Shape) (rows : List (Option Nat)) : List (Option Nat) :=
  if s.bag = 0 then rows.take 1 else (List.range (ceilDiv rows.length s.bag)).map fun i => (rows[i * s.bag]?).getD none

/-- Barns where a shape works: stage 3 at the stalls of its rows, stage 5 at the bag stalls (R423, R436, R459). -/
def Shape.workBarns (s : Shape) (rows bags : List (Option Nat)) : List Nat :=
  let scales := s.g != 0 || (s.scale != 0 && s.scale != 0x3F800000#32)
  ((if scales then rows.filterMap id else []) ++ (if s.pool ≠ 0 then bags.filterMap id else [])).map (· / 64)

/-- The stalls whose rows the slalom network takes: the rows' own, or the bag stalls (R423, R436). -/
def Shape.blockStalls (s : Shape) (rows bags : List (Option Nat)) : List (Option Nat) := if s.pool = 0 then rows else bags

/-! ### Reads served from the write buffer (R364–R366, R461, R616) -/

/-- The writes past their commit point whose write-buffer data read c takes for a key, oldest first (R364). -/
def Dev.servingWrites (d : Dev) (c : Cmd) (key : List Byte) : List Cmd :=
  (d.earlier c).filter fun x => x.serves c && !x.effected && x.blocks c (c.accessTo (some key))

def Layer.lo (l : Layer) : Nat := l.off.getD 0
def Layer.hi (l : Layer) : Nat := l.lo + l.bytes.length

/-- The length a value has with the layer over it. -/
def Layer.grow (len : Option Nat) (l : Layer) : Option Nat :=
  some (if l.off.isNone then l.bytes.length else max (len.getD 0) l.hi)

/-- The data of the writes given, in their order, over a value of length `len`; an APPEND's lies at the end the value then has. -/
def layersOf (pos : Nat) : List Cmd → Option Nat → List Layer
  | [], _ => []
  | x :: xs, len =>
    let off := if x.body.opcode = Opcode.put.code then none
      else if x.body.opcode = Opcode.append.code then some (len.getD 0) else some x.body.offset
    let l : Layer := { pos := pos, off := off, bytes := x.input, base := x.wbBase, stalls := x.wb.map fun e => (e.1, e.2.1) }
    l :: layersOf pos xs (Layer.grow len l)

/-- The length of the value a read sees; `none` when it sees no key. -/
def viewLen (base : Option Rec) (ls : List Layer) : Option Nat := ls.foldl Layer.grow (base.map Rec.len)

/-- The stored record, unless a whole new value lies over it. -/
def keptBase (base : Option Rec) (ls : List Layer) : Option Rec := if ls.any fun l => l.off.isNone then none else base

/-- The stall that shapes byte `x`: of its write-buffer slot, or where it is stored (R365, R461). -/
def viewStall (base : Option Rec) (ls : List Layer) (x : Nat) : Option Nat :=
  match (ls.filter fun l => decide (l.lo ≤ x) && decide (x < l.hi)).getLast? with
  | some l => (l.stalls.find? fun e => e.1 == (l.base + (x - l.lo)) / 65536).map Prod.snd
  | none => (keptBase base ls).bind fun r => r.stallAt x

/-- The stored segments that a read of [lo, hi) needs: under layers whole segments, but for those a layer covers. -/
def viewParts (base : Option Rec) (ls : List Layer) (lo hi : Nat) : List (Nat × Nat × Nat) :=
  match keptBase base ls with
  | none => []
  | some r =>
    if ls.isEmpty then segsOfRange r.len lo hi
    else (segsOfRange r.len (lo / 65536 * 65536) (ceilDiv hi 65536 * 65536)).filterMap fun p =>
      let a := 65536 * p.1
      let n := segLen r.len p.1
      if ls.any fun l => decide (l.lo ≤ a) && decide (a + n ≤ l.hi) then none else some (p.1, 0, n)

/-- `new` at value offset `off` laid over the window of `n` bytes from `w` on. -/
def layOver (w n : Nat) (bs : List Byte) (off : Nat) (new : List Byte) : List Byte :=
  let a := max off w
  let b := min (off + new.length) (w + n)
  if b ≤ a then bs else splice bs (a - w) (slice (a - off) (b - a) new)

/-- What a read of [lo, hi) sees of a value: its record and, of each segment of the range, the bytes (R364, R365). -/
structure View where
  r : Rec
  segs : List (List Byte)
deriving DecidableEq, Repr

/-- The view of a stored value under layers; `bs` are the stored segments of `viewParts`. -/
def Dev.layered (d : Dev) (pad : Nat) (key : List Byte) (base : Option Rec) (ls : List Layer) (len lo hi : Nat)
    (bs : List (List Byte)) : View :=
  let w := lo / 65536 * 65536
  let n := min (ceilDiv hi 65536 * 65536) len - w
  let old := (List.zip (viewParts base ls lo hi) bs).foldl (fun a p => layOver w n a (65536 * p.1.1) p.2) (zeros n)
  let win := ls.foldl (fun a l => layOver w n a l.lo l.bytes) old
  let b := base.getD (freshRec pad (d.pad pad).epoch key len 0)
  let r := { b with len := len, small := decide (1 ≤ len) && decide (len ≤ 4096), bin := none, extSlots := []
                    segs := (List.range (segCount len)).map fun i => { stall := (viewStall base ls (65536 * i)).getD 0, slot := 0, st := 0 } }
  let tag := fun i =>
    if ls.any fun l => decide (l.lo < 65536 * i + segLen len i) && decide (65536 * i < l.hi) then
      (d.chk.root.map fun k => tagOf k r i (slice (65536 * i - w) (segLen len i) win)).getD []
    else b.tags.getD i []
  { r := { r with tags := if (d.pad pad).check then (List.range (segCount len)).map tag else [] }
    segs := if len ≤ 4096 then [win] else chunks 65536 win }

/-- What has become of a read of [lo, hi): the view of the value once the stored segments it needs have arrived. -/
def Dev.viewed (d : Dev) (pad : Nat) (key : List Byte) (base : Option Rec) (ls : List Layer) (fet : List Fetch) (len lo hi : Nat) :
    Fetched × View :=
  let none_ : View := { r := freshRec pad 0 key len 0, segs := [] }
  let got := match keptBase base ls with
    | none => Fetched.done []
    | some r => fetchedOf fet r (viewParts base ls lo hi)
  match got, base with
  | .done bs, some r => if ls.isEmpty then (got, { r := r, segs := bs }) else (got, d.layered pad key base ls len lo hi bs)
  | .done bs, none => (got, d.layered pad key none ls len lo hi bs)
  | _, _ => (got, none_)

/-- The write-buffer slots that serve a read are read; whether one of them cannot be (R669). -/
def Dev.servedBad (d : Dev) (fs : List Finding) (ws : List Cmd) : Bool × Dev :=
  (ws.flatMap Cmd.wb).foldl (fun a e =>
    let g := a.2.readGranules fs e.2.1 (e.2.2 * 1024) 1024
    (a.1 || g.1.bad, g.2)) (false, d)

/-- Data of serving writes is checked against the tags made as it entered (R365, R616, R638); whether a check has failed. -/
def Dev.servedCheck (d : Dev) (c : Cmd) (key : List Byte) (ws : List Cmd) : Bool × Dev :=
  let p := d.pad c.body.pad
  let acc := c.accessTo (some key)
  let base := freshRec c.body.pad p.epoch key 0 0
  let uses := fun (s : Nat × Nat × Nat) => decide (65536 * s.1 < acc.hi) && decide (acc.lo < 65536 * s.1 + (s.2.2 - s.2.1))
  if !p.check then (false, d)
  else
    ws.foldl (fun a x => (x.tagSpans.filter uses).foldl (fun (a : Bool × Dev) s =>
      match x.made.find? fun e => e.1 == s.1 with
      | none => a
      | some e =>
        let stall := ((x.wb.find? fun w => w.1 == (x.wbBase + s.2.1) / 65536).map fun w => w.2.1).getD 0
        let y := a.2.checkBytes base s.1 stall (slice s.2.1 (s.2.2 - s.2.1) x.input) e.2
        (a.1 || !y.1, y.2)) a) (false, d)

/-- What the lookup of a key for a read gives: a status, or the stored record, if any, with the layers over it. -/
inductive Seen where
  | fail (status : Nat)
  | value (base : Option (Nat × Loc × Rec)) (ls : List Layer)

/-- A read looks its key up (R350, R364, R667, R752). -/
def Dev.see (d : Dev) (c : Cmd) (fs : List Finding) (pos : Nat) (key : List Byte) : Seen × Dev :=
  if d.barnStopped (d.homeOf c.body.pad key / 64) then (.fail Status.thermalHold.code, d)
  else
    let ws := d.servingWrites c key
    let (f, d) := d.find fs c.body.pad key
    let data := if c.body.opcode = Opcode.existsKey.code then [] else ws
    let (lost, d) := d.servedBad fs data
    let (wrong, d) := d.servedCheck c key data
    if lost then (.fail Status.mediaError.code, d)
    else if wrong then (.fail Status.checkFail.code, d)
    else
      match f with
      | .hit home loc r => (.value (some (home, loc, r)) (layersOf pos ws (some r.len)), d)
      | .absent _ => (.value none (layersOf pos ws none), d)
      | .broken => (.fail Status.mediaError.code, d)
      | .bad _ _ =>
        let ls := layersOf pos ws none
        (if ls.any fun l => l.off.isNone then .value none ls else .fail Status.mediaError.code, d)

/-! ### GET, GET_RANGE, SHAPE_GET -/

/-- The stored range of a read of one value, and whether it is cut short (R73, R298, R299). -/
def Cmd.readRange (c : Cmd) (len : Nat) : Nat × Nat × Bool :=
  if c.body.opcode = Opcode.get.code then
    if c.body.length ≥ 1 then (0, min len c.body.length, decide (c.body.length < len))
    else if c.via = .push then (0, len, false)
    else (0, 0, decide (0 < len))
  else (c.body.offset, min len (c.body.offset + c.body.length), decide (len < c.body.offset + c.body.length))

/-- A read of one value whose segments have arrived: shaped or not; `at_` names the stall that shapes a byte. -/
def Dev.deliverRead (d : Dev) (c : Cmd) (v : View) (at_ : Nat → Option Nat) : Dev :=
  let (lo, hi, cut) := c.readRange v.r.len
  let st := if cut then Status.truncated.code else Status.ok.code
  let n := hi - lo
  match c.shape with
  | none => d.readDone c.id (rawPieces v.r 0 lo (segsOfRange v.r.len lo hi) v.segs) st n v.r.len n
  | some s =>
    if n = 0 then d.readDone c.id [] st 0 v.r.len 0
    else
      let rows := s.rowsOf (cutRange v.r.len lo hi v.segs)
      let stalls := (List.range rows.length).map fun i => at_ (lo + i * s.rowLen)
      let bags := s.bagStalls stalls
      if d.macWaits s.usesMac (s.workBarns stalls bags) then d
      else
        let d := d.slalom s (s.blockStalls stalls bags)
        let outs := shapedPieces s d.free n (rows.map some)
        let d : Dev := { d with free := d.free + piecesEnd outs }
        d.readDone c.id outs st (s.outBytes (s.outRows rows.length)) v.r.len n

/-- A read that has seen its value goes on: it waits for segments, ends with the status of one, or delivers. -/
def Dev.readOn (d : Dev) (c : Cmd) (base : Option Rec) (ls : List Layer) (fet : List Fetch) : Dev :=
  match viewLen base ls with
  | none => d.finish c.id Status.notFound.code 0 0
  | some len =>
    let (lo, hi, _) := c.readRange len
    match d.viewed c.body.pad (c.key.getD []) base ls fet len lo hi with
    | (.wait, _) => d
    | (.fail st, _) => d.abortWith c.id st len
    | (.done _, v) => d.deliverRead c v (viewStall base ls)

/-- GET, GET_RANGE and SHAPE_GET (R298–R302, R350, R364, R662, R752). -/
def Dev.readValue (d : Dev) (cid op : Nat) (fs : List Finding) : Dev :=
  match d.findCmd cid with
  | none => d
  | some c =>
    if !d.runnable c op then d
    else if c.looked then d.readOn c c.plan c.layers c.fetches
    else
      let (x, d) := d.see c fs 0 (c.key.getD [])
      match x with
      | .fail st => d.abort cid st
      | .value none ls => (d.updCmd cid fun x => { x with layers := ls }).readOn c none ls []
      | .value (some (home, loc, r)) ls =>
        let len := (viewLen (some r) ls).getD 0
        let (lo, hi, _) := c.readRange len
        let (fet, d) := d.fetchSegs cid fs home loc r (viewParts (some r) ls lo hi) []
        (d.updCmd cid fun x => { x with plan := some r, layers := ls, fetches := fet }).readOn c (some r) ls fet

/-- GET command reads the stored value from byte 0 (R298). -/
def execGet (c : Nat) (f : List Finding) (s : State) : Host.Outcome State Fault Refusal := s.run fun d => d.readValue c Opcode.get.code f

/-- GET_RANGE reads [OFFSET, OFFSET + LENGTH) (R299). -/
def execGetRange (c : Nat) (f : List Finding) (s : State) : Host.Outcome State Fault Refusal :=
  s.run fun d => d.readValue c Opcode.getRange.code f

/-- SHAPE_GET reads a range and shapes it (R300). -/
def execShapeGet (c : Nat) (f : List Finding) (s : State) : Host.Outcome State Fault Refusal :=
  s.run fun d => d.readValue c Opcode.shapeGet.code f

/-- EXISTS (R312, R364, R667). -/
def Dev.existsOp (d : Dev) (cid : Nat) (fs : List Finding) : Dev :=
  match d.findCmd cid with
  | none => d
  | some c =>
    if !d.runnable c Opcode.existsKey.code then d
    else
      let (x, d) := d.see c fs 0 (c.key.getD [])
      match x with
      | .fail st => d.abort cid st
      | .value base ls =>
        match viewLen (base.map fun b => b.2.2) ls with
        | none => d.finish cid Status.notFound.code 0 0
        | some len => d.finish cid Status.ok.code 0 len

/-- EXISTS reports whether a key is live and its value length (R312). -/
def execExistsKey (c : Nat) (f : List Finding) (s : State) : Host.Outcome State Fault Refusal := s.run fun d => d.existsOp c f

/-! ### SCAN -/

/-- A SCAN record (R316). -/
def scanRecord (r : Rec) : List Byte :=
  let n := 8 * ceilDiv (24 + r.key.length) 8
  padTo n (natLe 8 r.len ++ natLe 8 r.digest.toNat ++ natLe 1 r.key.length ++ zeros 7 ++ r.key)

def isListPrefix : List Byte → List Byte → Bool
  | [], _ => true
  | _, [] => false
  | a :: r, b :: s => a == b && isListPrefix r s

/-- The SCAN selects a record (R313); a quarantined record has no readable key and is passed over. -/
def Cmd.selects (c : Cmd) (r : Rec) : Bool :=
  r.st != 3 && !r.quarantined &&
    (if c.body.subop = 0 then isListPrefix (c.key.getD []) r.key
     else decide (c.body.offset ≤ r.digest.toNat) && decide (r.digest.toNat ≤ c.body.arg))

/-- How far a SCAN has come: the bytes and records delivered, and the cursor of the record that did not fit. -/
structure ScanAt where
  bytes : List Byte
  count : Nat
  stop : Option Nat
deriving DecidableEq, Repr

/-- The walk of one stall's entries (R314, R527). -/
def Dev.scanEntries (d : Dev) (fs : List Finding) (c : Cmd) (p s : Nat) : List (Loc × Rec) → ScanAt → ScanAt × Dev
  | [], a => (a, d)
  | (l, r) :: es, a =>
    if a.stop.isSome then (a, d)
    else
      let reads := c.body.subop == 0 || c.selects r
      let (g, d) := if reads && !r.quarantined then d.readGranules fs s (recGranule (d.stall s) l) 8
        else ({ bad := false, left := [] }, d)
      if g.bad then (d.updStall s fun x => quarantineLoc x l).scanEntries fs c p s es a
      else if !c.selects r then d.scanEntries fs c p s es a
      else
        let b := scanRecord r
        if a.bytes.length + b.length > c.body.length then ({ a with stop := some (p * 2 ^ 24 + entryIndex l) }, d)
        else d.scanEntries fs c p s es { a with bytes := a.bytes ++ b, count := a.count + 1 }

/-- PSEARCHes of a stall walk with `n` CAM entries of the paddock from the cursor on, of which `v` were visited, and those that
return MULTI = 1; `ended`: the walk of the CAM came to its end. With SUBOP 1 a READ gives each entry's digest (R503, R504, R527;
DEDUCED, log 27: a search operation like the others). -/
def psearches (sub n v : Nat) (ended : Bool) : Nat × Nat := (v + b2n ended + (if sub = 1 then v else 0), min v (n - 1))

/-- Overflow buckets in use. -/
def bucketsInUse (s : Stall) : Nat :=
  if (ovfSlots s).isEmpty then 0 else 1024 + (s.nextBucket - 1024)

/-- The walk of a stall's CAM from entry index e on, with its searches (R527); none is made from 4,096 on. -/
def Dev.scanCam (d : Dev) (fs : List Finding) (c : Cmd) (p e s : Nat) (a : ScanAt) : ScanAt × Dev :=
  if 4096 ≤ e then (a, d)
  else
    let d := d.camParity s fs
    let es := (stallRecs (d.stall s)).filter fun x => x.2.pad == c.body.pad && !x.1.isOvf && decide (e ≤ entryIndex x.1)
    let (a, d) := d.scanEntries fs c p s es a
    let stopped := (a.stop.map fun k => k % 2 ^ 24).getD 4096
    let seen := (es.filter fun x => decide (entryIndex x.1 ≤ stopped)).length
    let n := psearches c.body.subop es.length seen a.stop.isNone
    (a, d.updStall s fun x => { x with cnt := { x.cnt with search := satAdd 32 x.cnt.search n.1, multi := satAdd 32 x.cnt.multi n.2 } })

/-- Overflow buckets in use, from the one of entry index e on. -/
def bucketsFrom (x : Stall) (e : Nat) : List Nat :=
  (List.range (bucketsInUse x - (e - 4096) / 3)).map ((e - 4096) / 3 + ·)

/-- Records of a paddock in overflow bucket q, from entry index e on. -/
def bucketRecs (x : Stall) (pad e q : Nat) : List (Loc × Rec) :=
  (stallRecs x).filter fun y => y.2.pad == pad && decide (e ≤ entryIndex y.1) && y.1.isOvf && decide ((entryIndex y.1 - 4096) / 3 = q)

/-- The walk of overflow buckets in ascending number, entries in ascending index from e on (R527); each bucket is read from its
loft. -/
def Dev.scanBuckets (d : Dev) (fs : List Finding) (c : Cmd) (p e s : Nat) : List Nat → ScanAt → ScanAt × Dev
  | [], a => (a, d)
  | q :: qs, a =>
    if a.stop.isSome then (a, d)
    else
      let d := (d.readBucketAt fs s (bucketGranule (d.stall s) q) q).updStall s fun x =>
        { x with cnt := { x.cnt with ovfRead := sat1 x.cnt.ovfRead } }
      let (a, d) := d.scanEntries fs c p s (bucketRecs (d.stall s) c.body.pad e q) a
      d.scanBuckets fs c p e s qs a

/-- The SCAN of the stalls from list position p on; `none` when it reaches a stopped barn (R752). -/
def Dev.scanStalls (d : Dev) (fs : List Finding) (c : Cmd) : Nat → Nat → List Nat → ScanAt → Option ScanAt × Dev
  | _, _, [], a => (some a, d)
  | p, e, s :: ss, a =>
    if a.stop.isSome then (some a, d)
    else if d.barnStopped (s / 64) then (none, d)
    else
      let x := d.scanCam fs c p e s a
      let y := x.2.scanBuckets fs c p e s (bucketsFrom (x.2.stall s) e) x.1
      y.2.scanStalls fs c (p + 1) 0 ss y.1

/-- SCAN (R313–R318). -/
def Dev.scan (d : Dev) (cid sub : Nat) (fs : List Finding) : Dev :=
  match d.findCmd cid with
  | none => d
  | some c =>
    if !d.runnable c Opcode.scan.code || c.body.subop != sub || (d.padSet c.body.pad).any (fun s => !d.barnReached (s / 64)) then d
    else
      let p := c.body.ilen / 2 ^ 24
      let set := d.padSet c.body.pad
      let (x, d) := d.scanStalls fs c p (c.body.ilen % 2 ^ 24) (set.drop p) { bytes := [], count := 0, stop := none }
      match x with
      | none => d.abort cid Status.thermalHold.code
      | some a =>
        let outs := (cutPieces 0 a.bytes).map fun q => { off := q.off, bytes := q.bytes, check := none, stored := 0 : OutPiece }
        match a.stop with
        | some cur => d.readDone cid outs Status.truncated.code a.bytes.length (cur + 2 ^ 32 * a.count) 0
        | none => d.readDone cid outs Status.ok.code a.bytes.length (0xFFFFFFFF + 2 ^ 32 * a.count) 0

/-- SCAN with SUBOP 0: by prefix (R313). -/
def execScanPfx (c : Nat) (f : List Finding) (s : State) : Host.Outcome State Fault Refusal := s.run fun d => d.scan c 0 f

/-- SCAN with SUBOP 1: by digest range (R313). -/
def execScanDigest (c : Nat) (f : List Finding) (s : State) : Host.Outcome State Fault Refusal := s.run fun d => d.scan c 1 f

/-! ### Lists of keys -/

/-- A list that has arrived breaks R319 or R326, or its largest output does not fit (R329). -/
def Cmd.listBad (c : Cmd) : Bool :=
  if c.body.opcode = Opcode.gather.code then
    match c.listed with
    | none => true
    | some ks => ks.length != c.body.param + 1
  else if c.body.opcode = Opcode.score.code then
    match c.listed, c.shape with
    | some ks, some s =>
      ks.isEmpty || decide (4096 < ks.length) ||
        decide (c.body.length < (if c.body.subop = 0 then min c.body.param ks.length * 16 else ks.length * s.tokens * 4))
    | _, _ => true
  else false

/-- The list of a GATHER or SCORE is judged when it has arrived (R319, R326, R329). -/
def Dev.checkList (d : Dev) (cid : Nat) : Dev :=
  match d.findCmd cid with
  | none => d
  | some c => if c.stage == .admitted && !c.effected && c.arrived && c.listBad then d.abort cid Status.badLength.code else d

/-- One key of a list is looked up, once its order and its stall let it, and the parts of it that `range` names are read (R350,
R353, R364, R500, R501). Tells the status that ends the command, if one does. -/
def Dev.lookKey (d : Dev) (cid : Nat) (fs : List Finding) (range : Nat → Nat × Nat) (i : Nat) (k : List Byte) : Option Nat × Dev :=
  match d.findCmd cid with
  | none => (none, d)
  | some c =>
    if (c.keyRecs.getD i none).isSome || !(d.accessFree c (c.accessTo (some k)) && d.stallTakes c k) then (none, d)
    else
      let (x, d) := d.see c fs i k
      match x with
      | .fail st => (some st, d)
      | .value none ls =>
        (none, d.updCmd cid fun x => { x with keyRecs := listUpd x.keyRecs i fun _ => some none, layers := x.layers ++ ls })
      | .value (some (home, loc, r)) ls =>
        let (lo, hi) := range ((viewLen (some r) ls).getD 0)
        let (fet, d) := d.fetchSegs cid fs home loc r (viewParts (some r) ls lo hi) []
        (none, d.updCmd cid fun x =>
          { x with keyRecs := listUpd x.keyRecs i fun _ => some (some r), layers := x.layers ++ ls,
                   fetches := x.fetches ++ fet.map fun f => { f with pos := i } })

/-- The keys of a list are looked up in order, each as it can be. -/
def Dev.lookKeys (d : Dev) (cid : Nat) (fs : List Finding) (range : Nat → Nat × Nat) : List (Nat × List Byte) → Option Nat × Dev
  | [] => (none, d)
  | (i, k) :: ks =>
    match d.lookKey cid fs range i k with
    | (some st, d) => (some st, d)
    | (none, d) => d.lookKeys cid fs range ks

/-- One key of a list as the command sees it: the value's record, its bytes in the range, and the stall of the range's first
byte. -/
structure Seat where
  r : Rec
  bytes : List Byte
  stall : Option Nat
deriving DecidableEq, Repr

/-- Key i of a list once its bytes have arrived: `none` for an absent key. -/
def Dev.seat (d : Dev) (c : Cmd) (range : Nat → Nat × Nat) (i : Nat) (k : List Byte) : Fetched × Option Seat :=
  let base := (c.keyRecs.getD i none).getD none
  let ls := c.layers.filter fun l => l.pos == i
  match viewLen base ls with
  | none => (.done [], none)
  | some len =>
    let (lo, hi) := range len
    let x := d.viewed c.body.pad k base ls (c.fetches.filter fun f => f.pos == i) len lo hi
    (x.1, some { r := x.2.r, bytes := cutRange len lo hi x.2.segs, stall := viewStall base ls lo })

/-- Every key of a list once all bytes have arrived; the status of a key that failed comes first (R324). -/
def Dev.seats (d : Dev) (c : Cmd) (range : Nat → Nat × Nat) : List (Nat × List Byte) → Fetched × List (Option Seat)
  | [] => (.done [], [])
  | (i, k) :: ks =>
    let x := d.seat c range i k
    let y := d.seats c range ks
    (match x.1, y.1 with
     | .fail st, _ => .fail st
     | _, .fail st => .fail st
     | .wait, _ => .wait
     | _, .wait => .wait
     | .done _, .done _ => .done [], x.2 :: y.2)

/-! ### GATHER -/

/-- The presence bitmap: bit i is set when key i was live (R322). -/
def presence {α : Type} (rs : List (Option α)) : List Byte :=
  (List.range 32).map fun m => BitVec.ofNat 8
    ((List.range 8).foldl (fun n b => n + b2n ((rs.getD (8 * m + b) none).isSome) * 2 ^ b) 0)

/-- Unshaped pieces of output bytes at an offset. -/
def plainPieces (off : Nat) (b : List Byte) : List OutPiece :=
  (cutPieces off b).map fun p => { off := p.off, bytes := p.bytes, check := none, stored := 0 }

/-- The bag stalls of a GATHER: each bag's is the home stall of its first key, present or not (R436). -/
def Dev.gatherBags (d : Dev) (c : Cmd) (s : Shape) : List (Option Nat) :=
  s.bagStalls ((c.listed.getD []).map fun k => some (d.homeOf c.body.pad k))

/-- The output of a GATHER (R321, R322, R424). -/
def Dev.deliverGather (d : Dev) (c : Cmd) (ss : List (Option Seat)) : Dev :=
  let off := c.body.offset
  let len := c.body.length
  let found := (ss.filter Option.isSome).length
  let short := (ss.filter fun x => x.any fun y => decide (y.r.len < off + len)).length
  let st := if found < ss.length then Status.notFound.code else if short ≠ 0 then Status.truncated.code else Status.ok.code
  let info := found + 2 ^ 16 * short
  let stored := (ss.map fun x => ((x.map Seat.bytes).getD []).length).sum
  match c.shape with
  | none =>
    let slot := 64 * ceilDiv len 64
    let outs := (List.zip (List.range ss.length) ss).flatMap fun x => match x.2 with
      | some y =>
        if y.r.tagged then
          let parts := segsOfRange y.r.len off (off + len)
          rawPieces y.r (x.1 * slot) off parts
            (parts.map fun q => zeros q.2.1 ++ slice (65536 * q.1 + q.2.1 - off) (q.2.2 - q.2.1) y.bytes)
        else plainPieces (x.1 * slot) y.bytes
      | none => []
    d.readDone c.id (outs ++ plainPieces (ss.length * slot) (presence ss)) st (stored + 32) info stored
  | some s =>
    let stalls := ss.map fun x => x.bind Seat.stall
    let bags := d.gatherBags c s
    if d.macWaits s.usesMac (s.workBarns stalls bags) then d
    else
      let rows := ss.map fun x => x.map fun y => y.bytes.take s.rowLen
      let d := d.slalom s (s.blockStalls stalls bags)
      let outs := shapedPieces s d.free 0 rows
      let d : Dev := { d with free := d.free + piecesEnd outs }
      let at_ := 64 * ceilDiv (s.outLen (s.outRows rows.length)) 64
      d.readDone c.id (outs ++ plainPieces at_ (presence ss)) st (s.outBytes (s.outRows rows.length) + 32) info stored

/-- A GATHER or SCORE runs: each key is looked up as its order allows, then it waits for their bytes; `judge` may end it once all
are known. -/
def Dev.runList (d : Dev) (c : Cmd) (fs : List Finding) (ks : List (List Byte)) (range : Nat → Nat × Nat)
    (judge : List (Option Seat) → Option Nat) (done : Dev → List (Option Seat) → Dev) : Dev :=
  let idx := List.zip (List.range ks.length) ks
  let d := if c.keyRecs.isEmpty then d.updCmd c.id fun x => { x with keyRecs := ks.map fun _ => none } else d
  let (x, d) := d.lookKeys c.id fs range idx
  match x, d.findCmd c.id with
  | some st, _ => d.abort c.id st
  | none, none => d
  | none, some c =>
    if c.keyRecs.any Option.isNone then d
    else
      let (got, ss) := d.seats c range idx
      match judge ss with
      | some st => d.abort c.id st
      | none =>
        match got with
        | .fail st => d.abort c.id st
        | .wait => d
        | .done _ => done d ss

/-- GATHER reads one range from each key of an inbound list (R319–R324). -/
def Dev.gatherOp (d : Dev) (cid : Nat) (fs : List Finding) : Dev :=
  match d.findCmd cid with
  | none => d
  | some c =>
    if !d.ready c Opcode.gather.code || !c.arrived then d
    else if c.listBad then d.abort cid Status.badLength.code
    else
      let range := fun len => (c.body.offset, min len (c.body.offset + c.body.length))
      d.runList c fs (c.listed.getD []) range (fun _ => none) fun d ss => d.deliverGather c ss

def execGather (c : Nat) (f : List Finding) (s : State) : Host.Outcome State Fault Refusal := s.run fun d => d.gatherOp c f

/-! ### SCORE -/

/-- The output bytes of a SCORE (R327, R328, R450–R456). -/
def scoreOutput (c : Cmd) (s : Shape) (ss : List (Option Seat)) : List Byte :=
  let query := c.input.take s.queryLen
  let toks := ss.map fun x => x.map fun y => s.pageTokens query y.bytes
  if c.body.subop = 0 then
    let scored := (List.zip (List.range toks.length) toks).filterMap fun x => x.2.map fun t => (x.1, s.pageScore t)
    ((rankPages scored).take c.body.param).flatMap fun x =>
      natLe 4 x.1 ++ scoreBytes x.2 ++ natLe 8 (((ss.getD x.1 none).map fun y => y.r.digest.toNat).getD 0)
  else toks.flatMap fun t => match t with
    | some ts => ts.flatMap scoreBytes
    | none => (List.replicate s.tokens (natLe 4 0xFF800000)).flatten

/-- The outcome of a SCORE whose pages are all there: its work waits for barns in hot hold, then its records leave (R330, R457,
R459). -/
def Dev.deliverScore (d : Dev) (c : Cmd) (s : Shape) (ss : List (Option Seat)) : Dev :=
  if d.macWaits true (ss.flatMap fun x => (x.map fun y => y.r.barns (d.homeOf c.body.pad y.r.key)).getD []) then d
  else
    let out := scoreOutput c s ss
    let absent := (ss.filter Option.isNone).length
    d.readDone c.id (plainPieces 0 out) (if absent = 0 then Status.ok.code else Status.notFound.code) out.length
      (ss.length - absent + 2 ^ 16 * absent) 0

/-- SCORE (R325–R330, R457–R463). -/
def Dev.scoreOp (d : Dev) (cid sub : Nat) (fs : List Finding) : Dev :=
  match d.findCmd cid with
  | none => d
  | some c =>
    if !d.ready c Opcode.score.code || c.body.subop != sub || !c.arrived then d
    else if c.listBad then d.abort cid Status.badLength.code
    else
      match c.shape with
      | none => d
      | some s =>
        let judge := fun (ss : List (Option Seat)) =>
          if ss.any fun x => x.any fun y => y.r.len != s.pageLen then some Status.badShape.code else none
        d.runList c fs (c.listed.getD []) (fun len => (0, len)) judge fun d ss => d.deliverScore c s ss

/-- SCORE with SUBOP 0: the k best pages (R325, R327). -/
def execScoreTopk (c : Nat) (f : List Finding) (s : State) : Host.Outcome State Fault Refusal := s.run fun d => d.scoreOp c 0 f

/-- SCORE with SUBOP 1: every token score (R328). -/
def execScoreTokens (c : Nat) (f : List Finding) (s : State) : Host.Outcome State Fault Refusal := s.run fun d => d.scoreOp c 1 f

end Sys2Proof.Machine
end

