-- ==== Sys2Proof/Machine/Writes.lean ====
section
/-! DEFINITION. The writes PUT, PUT_RANGE, APPEND and DELETE (R303–R311): what they store, and the shed work their durability needs
(R48, R386, R566–R575, R595–R598). A write reaches its commit point when its last inbound byte arrives, if it can then reserve what
it needs; its effect point and its index-record update are one (R350, R363). -/

namespace Sys2Proof.Machine

open Sys2Proof

/-! ### What a write does to the shed -/

def persistVolatile : Nat := 0
def persistStaged : Nat := 1
def persistDurable : Nat := 2
def resPinned : Nat := 0
def resCached : Nat := 1
def resShedOnly : Nat := 2

/-- The staging of a write at time `now`, together with what it supersedes (R54, R567). -/
def mkStaging (due : Nat) (by_ : Nat × Nat × Nat) (old : Option Staging) : Staging :=
  match old with
  | none => { due := due, by_ := [by_] }
  | some o => { due := min due o.due, by_ := o.by_ ++ [by_] }

/-- The staging a key has: of its live record, or of a delete. -/
def Dev.stagingOf (d : Dev) (pad : Nat) (key : List Byte) (old : Option Rec) : Option Staging :=
  match old.bind Rec.staging with
  | some s => some s
  | none => (d.shd.delq.find? fun x => x.pad == pad && x.key == key).map StagedDel.staging

/-- A command waits for a shed job; a job that has already failed finally gives ST_MEDIA_ERROR (R363, R575, R597). -/
def Dev.awaitJob (d : Dev) (cid job : Nat) : Dev :=
  let lost := match d.findJob job with
    | none => true
    | some j => j.isDelete && j.recSeq.isNone
  d.updCmd cid fun c => { c with job := some job, status := if lost then Status.mediaError.code else c.status }

/-- As `awaitJob`, for a write whose job turned into the DELETE record of a final program failure. -/
def Dev.awaitWrite (d : Dev) (cid job : Nat) : Dev :=
  let lost := match d.findJob job with
    | none => true
    | some j => j.isDelete
  d.updCmd cid fun c => { c with job := some job, status := if lost then Status.mediaError.code else c.status }

/-- The shed work of a value just stored (R48, R386, R595). -/
def Dev.persistValue (d : Dev) (c : Cmd) (r : Rec) (old : Option Rec) : Dev :=
  let p := d.pad r.pad
  if p.persist = persistDurable then
    let (j, d) := d.startJob r false false none
    d.awaitWrite c.id j
  else if p.persist = persistStaged then
    let st := mkStaging (d.now + p.stage * 1000000) (c.ses, c.qp, c.admSeq) (d.stagingOf r.pad r.key old)
    let d := d.updKey r.pad r.key fun x => { x with staging := some st }
    let keep := fun (x : StagedDel) => !(x.pad == r.pad && x.key == r.key)
    { d with shd := { d.shd with delq := d.shd.delq.filter keep } }
  else if p.residency = resShedOnly then (d.startJob r true false none).2
  else d

/-- The DELETE record of a key (R54, R386, R567). -/
def Dev.persistDelete (d : Dev) (c : Cmd) (pad : Nat) (key : List Byte) (wseq : Nat) (old : Option Rec) : Dev :=
  let p := d.pad pad
  if p.persist = persistDurable then
    let (j, d) := d.startDelete pad p.epoch wseq key false
    d.awaitJob c.id j
  else if p.persist = persistStaged then
    let st := mkStaging (d.now + p.stage * 1000000) (c.ses, c.qp, c.admSeq) (d.stagingOf pad key old)
    let keep := fun (x : StagedDel) => !(x.pad == pad && x.key == key)
    { d with shd := { d.shd with
      delq := d.shd.delq.filter keep ++ [{ pad := pad, epoch := p.epoch, key := key, wseq := wseq, staging := st }] } }
  else d

/-! ### Uncorrectable write-buffer data (R669) -/

/-- What the media show of a command's write-buffer slots: the segments of its inbound data that cannot be read. -/
def Dev.readWb (d : Dev) (fs : List Finding) (c : Cmd) : List Nat × Dev :=
  c.wb.foldl (fun a e =>
    let g := a.2.readGranules fs e.2.1 (e.2.2 * 1024) 1024
    (if g.1.bad then a.1 ++ [e.1] else a.1, g.2)) (c.wbLost, d)

/-- Segments of a value of `len` bytes that hold inbound bytes of the unreadable write-buffer segments `bad`, numbered from value
offset `wb`; the inbound bytes lie at value offset `base`. -/
def poisonedSegs (len base wb need : Nat) (bad : List Nat) : List Nat :=
  (List.range (segCount len)).filter fun i =>
    bad.any fun k =>
      let lo := base + (65536 * k - wb)
      let hi := base + min need (65536 * (k + 1) - wb)
      let slo := if len ≤ 4096 then 0 else 65536 * i
      decide (lo < slo + 65536) && decide (slo < hi)

/-- The poisoned segments of a value just stored; a STAGED or DURABLE key gets a durable DELETE record (R669). -/
def Dev.storePoisoned (d : Dev) (c : Cmd) (r : Rec) (segs : List Nat) : Dev :=
  let p := d.pad r.pad
  let d := d.updKey r.pad r.key fun x =>
    { x with segs := segs.foldl (fun l i => setSeg l i 3) x.segs, shedId := 0, pinnedByFailure := p.persist != 0 }
  if p.persist = 0 then d
  else
    let old := ((d.peek r.pad r.key).map fun x => x.lsns.filterMap id).getD []
    let d := d.updKey r.pad r.key fun x => { x with lsns := x.lsns.map fun _ => none }
    let d := d.releaseLsns old
    let (j, d) := d.startDelete r.pad r.epoch r.wseq r.key (p.persist == persistStaged)
    d.updCmd c.id fun x => { x with job := some j }

/-! ### Storing -/

/-- A write to a checked paddock waits until its tags are made or can be (R630). -/
def Dev.mayStore (d : Dev) (c : Cmd) : Bool :=
  c.need == 0 || !(d.pad c.body.pad).check || d.chk.root.isSome || !c.tagsDue

/-- A PINNED value whose segments exceed the free pool of its stall set (R71). -/
def Dev.poolShort (d : Dev) (pad len : Nat) : Bool :=
  (d.pad pad).residency == resPinned && decide (4096 < len) &&
    decide (((d.padSet pad).map d.poolFree).sum < segCount len)

/-- The commit copies of a value just stored: from the write-buffer slot of the first byte that the write brought for each place,
to the loft the record names (R122, R536, log 73). `base` is the value offset of the first inbound byte. -/
def Dev.towCommit (d : Dev) (c : Cmd) (r : Rec) (w : WritePlan) (base : Nat) : Dev :=
  let source := fun i => (c.wb.find? fun e => e.1 == (c.wbBase + (65536 * i - base)) / 65536).map Prod.snd
  let places := if r.small then (r.bin.map fun b => (0, b.stall, 65536 * b.slot + 64 * b.first, r.len)).toList
    else w.written.filterMap fun x => (r.segs[x.1]?).map fun e => (x.1, e.stall, 65536 * e.slot, x.2.length)
  (places.flatMap fun p => ((source p.1).map fun s => copyTows c.id p.1 p.2.2.2 s p.2.1 p.2.2.1).getD []).foldl
    (fun d x => d.towPut x.1 [x.2]) d

/-- A write is stored and completes with INFO `info`; `base` is the value offset of its first inbound byte. One that waits for a
spill copy keeps its CAM entry's digest to itself until its effect (R501). -/
def Dev.storeWrite (d : Dev) (c : Cmd) (fs : List Finding) (home : Nat) (loc bad : Option Loc) (w : WritePlan) (base info : Nat) : Dev :=
  let pad := c.body.pad
  let key := c.key.getD []
  let old := d.peek pad key
  match d.store pad home key loc bad c.made c.commit w with
  | .wait d => d.updCmd c.id fun x => { x with searching := true }
  | .fail st d => d.abortWith c.id st info
  | .ok r d =>
    let (lost, d) := (d.towCommit c r w base).readWb fs c
    let segs := poisonedSegs w.len base c.wbBase c.need lost
    if segs.isEmpty then (d.finish c.id Status.ok.code c.gotBytes info).persistValue c r old
    else (d.finish c.id Status.mediaError.code c.gotBytes info).storePoisoned c r segs

/-- The lookup of a write: its first one searches, a later one finds what that one found (R501). -/
def Dev.findFor (d : Dev) (c : Cmd) (fs : List Finding) : Found × Dev :=
  if c.searching then
    let pad := c.body.pad
    let key := c.key.getD []
    let home := d.homeOf pad key
    let l := lookupIn (d.stall home) key (allMatches (d.stall home) pad (keyDigest key))
    match l.hit, l.quarantined with
    | some (loc, r), _ => (.hit home loc r, d)
    | none, some loc => (.bad home loc, d)
    | none, none => (.absent home, d)
  else d.find fs c.body.pad (c.key.getD [])

/-- The plan of a whole new value. -/
def wholePlan (bytes : List Byte) : WritePlan :=
  { len := bytes.length, written := (List.zip (List.range (segmentsOf bytes).length) (segmentsOf bytes)) }

/-- PUT (R303, R304, R668). -/
def Dev.putOp (d : Dev) (cid : Nat) (fs : List Finding) : Dev :=
  match d.findCmd cid with
  | none => d
  | some c =>
    if !d.runnable c Opcode.put.code || !c.arrived || !d.mayStore c then d
    else
      let key := c.key.getD []
      let home := homeStall (d.padSet c.body.pad) (keyDigest key)
      if d.barnStopped (home / 64) then d
      else
        let (f, d) := d.findFor c fs
        let w := wholePlan c.input
        match f with
        | .hit _ loc r =>
          if c.body.ifAbsent then d.abortWith cid Status.keyExists.code r.len else d.storeWrite c fs home (some loc) none w 0 r.len
        | .bad _ loc => if c.body.ifAbsent then d.abort cid Status.mediaError.code else d.storeWrite c fs home none (some loc) w 0 infoAbsent
        | .absent _ => d.storeWrite c fs home none none w 0 infoAbsent
        | .broken => d.abort cid Status.mediaError.code

/-- PUT stores its inbound bytes as the whole new value (R303). -/
def execPut (c : Nat) (f : List Finding) (s : State) : Host.Outcome State Fault Refusal := s.run fun d => d.putOp c f

/-! ### Writes into a range (R305–R309, R566, R611, R665) -/

/-- Segments of the old value whose bytes a write of [lo, hi) must read, each whole. -/
def oldSegs (old lo hi : Nat) : List (Nat × Nat × Nat) :=
  let new := max old hi
  let is := if old ≤ 4096 then (if old = 0 ∨ (lo = 0 ∧ old ≤ hi) then [] else [0])
    else
      (List.range (ceilDiv hi 65536 - lo / 65536)).filterMap fun k =>
        let i := lo / 65536 + k
        let slo := 65536 * i
        let shi := min old (65536 * (i + 1))
        if slo < old ∧ ¬ (lo ≤ slo ∧ shi ≤ hi) then some i else none
  if new = 0 then [] else is.map fun i => (i, 0, segLen old i)

/-- Old bytes of segment i, as read. -/
def oldSegBytes (parts : List (Nat × Nat × Nat)) (bs : List (List Byte)) (i : Nat) : List Byte :=
  (((List.zip parts bs).find? fun x => x.1.1 == i).map Prod.snd).getD []

/-- The plan of a write of `data` at `lo` into a value of length `old` (R40, R307). -/
def rangePlan (old lo : Nat) (data : List Byte) (parts : List (Nat × Nat × Nat)) (bs : List (List Byte)) : WritePlan :=
  let hi := lo + data.length
  let new := max old hi
  if old ≤ 4096 then
    { wholePlan (splice (padTo old (oldSegBytes parts bs 0)) lo data) with len := new }
  else
    { len := new
      written := (List.range (ceilDiv hi 65536 - lo / 65536)).map fun k =>
        let i := lo / 65536 + k
        let keep := padTo (segLen old i) (oldSegBytes parts bs i)
        let a := max lo (65536 * i)
        let b := min hi (65536 * (i + 1))
        (i, splice (if 65536 * i < old then keep else []) (a - 65536 * i) (slice (a - lo) (b - a) data)) }

/-- The range write of a key found: old bytes are read first where segments are only partly written. -/
def Dev.rangeWrite (d : Dev) (c : Cmd) (fs : List Finding) (home : Nat) (loc : Loc) (r : Rec) (lo info : Nat) : Dev :=
  let parts := oldSegs r.len lo (lo + c.body.length)
  let same := c.plan.any fun x => x.wseq == r.wseq
  let (fet, d) := d.fetchSegs c.id fs home loc r parts (if same then c.fetches else [])
  let d := d.updCmd c.id fun x => { x with plan := some r, fetches := fet, searching := true }
  match fetchedOf fet r parts with
  | .wait => d
  | .fail st => d.abortWith c.id (if st = Status.checkFail.code then Status.mediaError.code else st) r.len
  | .done bs => d.storeWrite c fs home (some loc) none (rangePlan r.len lo c.input parts bs) lo info

/-! ### The commit point (R363) -/

/-- What a write of command c will store over the live record `cur`, as far as its size goes; `none` where the write is decided at
its index-record update only (R304–R306). DESIGN CHOICE (log 43): a PUT with IF_ABSENT is one of these. -/
def Cmd.commitPlan (c : Cmd) (cur : Option Rec) : Option WritePlan :=
  let at_ := fun (r : Rec) (lo : Nat) =>
    if r.len < lo ∨ maxValue < lo + c.body.length then none else some (rangePlan r.len lo c.input [] [])
  if c.body.opcode = Opcode.put.code then (if c.body.ifAbsent then none else some (wholePlan c.input))
  else if c.body.opcode = Opcode.putRange.code then cur.bind fun r => at_ r c.body.offset
  else if c.body.opcode = Opcode.append.code then
    (match cur with
     | none => some (wholePlan c.input)
     | some r => at_ r r.len)
  else none

/-- The last inbound byte of a write has arrived: it reserves its space and quota and is past its commit point, or ends for want of
them (R61–R65, R363). One that finds neither yet, for want of a spill copy, tries again at its effect. -/
def Dev.commitWrite (d : Dev) (cid : Nat) : Dev :=
  match d.findCmd cid with
  | none => d
  | some c =>
    let pad := c.body.pad
    let key := c.key.getD []
    let home := d.homeOf pad key
    if c.stage != .admitted || c.effected || c.commit.isSome || !c.arrived || !d.mayStore c || d.barnStopped (home / 64) then d
    else
      let l := lookupIn (d.stall home) key (allMatches (d.stall home) pad (keyDigest key))
      match c.commitPlan (l.hit.map Prod.snd) with
      | none => d
      | some w =>
        match d.reserve pad home key (l.hit.map Prod.fst) (if l.hit.isSome then none else l.quarantined) w with
        | .ok r d => d.updCmd cid fun x => { x with commit := some r }
        | .wait d => d
        | .fail st d => d.abortWith cid st (match l.hit with
          | some x => x.2.len
          | none => if c.body.opcode = Opcode.put.code then infoAbsent else 0)

/-- The command waits for a segment it asked of the shed. -/
def Cmd.awaits (c : Cmd) : Bool := c.fetches.any fun f => !f.arrived

/-- PUT_RANGE (R305, R309). -/
def Dev.putRangeOp (d : Dev) (cid : Nat) (fs : List Finding) : Dev :=
  match d.findCmd cid with
  | none => d
  | some c =>
    if !d.runnable c Opcode.putRange.code || !c.arrived || !d.mayStore c || c.awaits then d
    else
      let key := c.key.getD []
      let home := homeStall (d.padSet c.body.pad) (keyDigest key)
      if d.barnStopped (home / 64) then d
      else
        let (f, d) := d.findFor c fs
        match f with
        | .bad _ _ | .broken => d.abort cid Status.mediaError.code
        | .absent _ => d.abortWith cid Status.notFound.code 0
        | .hit _ loc r =>
          if r.len < c.body.offset ∨ maxValue < c.body.offset + c.body.length then d.abortWith cid Status.badLength.code r.len
          else d.rangeWrite c fs home loc r c.body.offset (max r.len (c.body.offset + c.body.length))

/-- PUT_RANGE writes inbound bytes into a range of an existing value (R305). -/
def execPutRange (c : Nat) (f : List Finding) (s : State) : Host.Outcome State Fault Refusal := s.run fun d => d.putRangeOp c f

/-- APPEND (R306, R308, R309). -/
def Dev.appendOp (d : Dev) (cid : Nat) (fs : List Finding) : Dev :=
  match d.findCmd cid with
  | none => d
  | some c =>
    if !d.runnable c Opcode.append.code || !c.arrived || !d.mayStore c || c.awaits then d
    else
      let key := c.key.getD []
      let home := homeStall (d.padSet c.body.pad) (keyDigest key)
      if d.barnStopped (home / 64) then d
      else
        let (f, d) := d.findFor c fs
        match f with
        | .bad _ _ | .broken => d.abort cid Status.mediaError.code
        | .absent _ => d.storeWrite c fs home none none (wholePlan c.input) 0 0
        | .hit _ loc r =>
          if maxValue < r.len + c.body.length then d.abortWith cid Status.badLength.code r.len
          else d.rangeWrite c fs home loc r r.len r.len

/-- APPEND writes inbound bytes at the present end of the value (R306). -/
def execAppend (c : Nat) (f : List Finding) (s : State) : Host.Outcome State Fault Refusal := s.run fun d => d.appendOp c f

/-! ### DELETE (R310, R525, R668) -/

/-- The entry of a deleted key is cleared and its value awaits release (R42, R525). -/
def Dev.dropKey (d : Dev) (home : Nat) (loc : Loc) : Dev :=
  match entryRec (d.stall home) loc with
  | none => d
  | some r => (d.retireEntry r home loc).removeEntry home loc

/-- DELETE (R311): it waits for no read of the key that has begun; those keep what they captured until they end (R42, R74). -/
def Dev.deleteOp (d : Dev) (cid : Nat) (fs : List Finding) : Dev :=
  match d.findCmd cid with
  | none => d
  | some c =>
    if !d.runnable c Opcode.delete.code then d
    else
      let key := c.key.getD []
      let pad := c.body.pad
      let home := homeStall (d.padSet pad) (keyDigest key)
      if d.barnStopped (home / 64) then d
      else
        let (f, d) := d.find fs pad key
        let gone := fun (d : Dev) (loc : Loc) (old : Option Rec) (info : Nat) =>
          let w := d.shd.wseq
          let d : Dev := { d with shd := { d.shd with wseq := w + 1 } }
          ((d.dropKey home loc).finish cid Status.ok.code 0 info).persistDelete c pad key w old
        match f with
        | .absent _ => d.finish cid Status.notFound.code 0 0
        | .bad _ loc => gone d loc none 0
        | .broken => d.abort cid Status.mediaError.code
        | .hit _ loc r => gone d loc (some r) r.len

/-- DELETE removes a live key (R310). -/
def execDelete (c : Nat) (f : List Finding) (s : State) : Host.Outcome State Fault Refusal := s.run fun d => d.deleteOp c f

/-! ### Release of storage (R42, R754) -/

/-- The storage of a replaced or deleted value whose readers have completed returns to its pools, and the key's record state to
live (R42, R516, R524, R596). -/
def Dev.storageRelease (d : Dev) (v : Nat) : Dev :=
  match d.old.find? fun o => o.id == v with
  | none => d
  | some o =>
    let ended := fun (c : Cmd) => c.stage == .ended && c.status == Status.thermalHold.code
    if o.readers.any fun i => (d.findCmd i).any fun c => !ended c then d
    else
      let rest := d.old.filter fun x => x.id != v
      let d := (({ d with old := rest } : Dev).releaseValue o.recd).updStall o.home fun x => releaseEntry x o.ovfRec o.bucket
      if rest.any fun x => x.recd.pad == o.recd.pad && x.recd.key == o.recd.key then d
      else d.updKey o.recd.pad o.recd.key fun r => { r with st := if r.st = 2 then 1 else r.st }

def execStorageRelease (v : Nat) (s : State) : Host.Outcome State Fault Refusal := s.run fun d => d.storageRelease v

end Sys2Proof.Machine
end

