-- ==== Sys2Proof/Machine/Admission.lean ====
section
/-! DEFINITION. Admission (R367–R379), completion (R387), write-buffer space (R361, R388), the data timeout (R294) and paused output
(R370). -/

namespace Sys2Proof.Machine

open Sys2Proof

/-! ### Admissible commands (R368, R372–R374) -/

/-- Slots a session may always hold (R368). -/
def Session.ownSlots (x : Session) : Nat := min x.maxOut 32

/-- Slots taken from the shared pool. -/
def Dev.sharedSlots (d : Dev) : Nat :=
  ((d.cmds.map Cmd.ses).eraseDups.map fun s => d.sesOut s - (d.ses s).ownSlots).sum

def Dev.slotFree (d : Dev) (s : Nat) : Bool :=
  decide (d.sesOut s < (d.ses s).ownSlots) || decide (d.sharedSlots < 49152)

/-- Budget for a cost (R372). -/
def Dev.budgetFree (d : Dev) (s cost : Nat) : Bool :=
  decide (d.held_ s < d.arb.resvKib * 1024) ||
    (decide (d.sharedUsed s cost ≤ d.arb.inflShared * 1048576) && decide (d.held_ s + cost ≤ d.arb.capMib * 1048576))

def Cmd.admitCost (c : Cmd) : Nat := c.body.cost (c.via == .push)

/-- The session still admits: OPEN, or CLOSING with its waiting commands drained (R373, R397). -/
def Session.admits (x : Session) : Bool := (x.st == .opened || (x.st == .closing && !x.abort)) && x.hold.isNone

/-- A waiting command is admissible (R373); a queue pair in ERROR admits nothing (R236). -/
def Dev.admissible (d : Dev) (c : Cmd) : Bool :=
  let x := d.ses c.ses
  x.admits && x.mayCharge d.now && decide (d.sesOut c.ses < x.maxOut) && d.slotFree c.ses &&
    d.budgetFree c.ses c.admitCost && d.mayAdmit c && (d.qp (dqp c.ses c.qp)).st != .error

/-- The first command of a flow: its oldest waiting one that no ordering rule holds back (R374). -/
def Dev.firstOf (d : Dev) (s cls : Nat) : Option Cmd :=
  d.cmds.find? fun c => c.stage == .waiting && c.ses == s && c.cls == cls && d.mayAdmit c

/-- The URGENT cap in bytes (R376). -/
def Dev.urgentCap (d : Dev) : Nat := d.arb.ucapNow * urefOf d.variant * 100

/-- A new URGENT window begins (R377, R395). -/
def Dev.rollWindow (d : Dev) : Dev :=
  if d.arb.windowStart + 10000 ≤ d.now then
    { d with arb := { d.arb with windowStart := d.now / 10000 * 10000, urgentUsed := 0, ucapNow := d.arb.ucapPct } }
  else d

/-- Sessions with waiting commands of a class. -/
def Dev.sesWaiting (d : Dev) (cls : Nat) : List Nat :=
  ((d.cmds.filter fun c => c.stage == .waiting && c.cls == cls).map Cmd.ses).eraseDups

/-- The admissible first command of an URGENT flow, round robin over sessions (R376). -/
def Dev.pickUrgent (d : Dev) : Option Cmd :=
  let ss := d.sesWaiting CmdClass.urgent.code
  let order := ((List.range 512).filter fun s => ss.contains s && decide (d.arb.urgRr < s)) ++
    (List.range 512).filter fun s => ss.contains s && decide (s ≤ d.arb.urgRr)
  order.findSome? fun s => (d.firstOf s CmdClass.urgent.code).bind fun c => if d.admissible c then some c else none

/-- The flow still takes part in the weighted round: it has waiting commands, and is URGENT only once the cap is reached
(R378, R379). -/
def Dev.flowWaits (d : Dev) (s cls : Nat) : Bool :=
  (cls != CmdClass.urgent.code || decide (d.urgentCap ≤ d.arb.urgentUsed)) &&
    d.cmds.any fun c => c.stage == .waiting && c.ses == s && c.cls == cls

/-- The weighted round as it stands: flows that lost their last waiting command have left, new ones join at its end (R379). -/
def Dev.roundNow (d : Dev) : List (Nat × Nat × Nat) :=
  let old := d.arb.round.filter fun f => d.flowWaits f.1 f.2.1
  let new := ((d.cmds.filter fun c => c.stage == .waiting && d.flowWaits c.ses c.cls &&
    !(old.any fun f => f.1 == c.ses && f.2.1 == c.cls)).map fun c => (c.ses, c.cls)).eraseDups
  old ++ new.map fun f => (f.1, f.2, 0)

def Session.weight (x : Session) (cls : Nat) : Nat :=
  match cls with
  | 2 => x.wNormal
  | 3 => x.wBulk
  | _ => x.wHigh

/-- The weighted loop of R379: the command chosen, and the round with its current flow first. -/
def Dev.weightedLoop (d : Dev) : Nat → Nat → List (Nat × Nat × Nat) → Option Cmd × List (Nat × Nat × Nat)
  | 0, _, round => (none, round)
  | _ + 1, _, [] => (none, [])
  | k + 1, visited, (s, cls, deficit) :: rest =>
    if 2 * (rest.length + 1) ≤ visited then (none, (s, cls, deficit) :: rest)
    else
      match d.firstOf s cls with
      | some c =>
        if d.admissible c then
          if c.admitCost ≤ deficit then (some c, (s, cls, deficit) :: rest)
          else d.weightedLoop k 0 (rest ++ [(s, cls, deficit + 4096 * (d.ses s).weight cls)])
        else d.weightedLoop k (visited + 1) (rest ++ [(s, cls, deficit)])
      | none => d.weightedLoop k (visited + 1) (rest ++ [(s, cls, deficit)])

/-- Turns that the weighted loop can take. -/
def Dev.loopFuel (d : Dev) (round : List (Nat × Nat × Nat)) : Nat :=
  let most := (round.map fun f => ((d.firstOf f.1 f.2.1).map Cmd.admitCost).getD 0).foldl max 0
  (round.length + 1) * (most / 4096 + 4)

/-! ### Admitting (R348, R369, R375, R752) -/

/-- Commands of a FLUSH's scope that are outstanding (R389). -/
def Dev.flushScope (d : Dev) (c : Cmd) : List Nat :=
  (d.cmds.filter fun x => x.slotHeld && x.body.isWrite && x.id != c.id &&
    match c.body.subop with
    | 0 => x.ses == c.ses
    | 1 => x.ses == c.ses && x.qp == c.qp
    | _ => true).map Cmd.id

/-- The home stall of the command's key lies in a stopped barn (R752). -/
def Dev.homeStopped (d : Dev) (c : Cmd) : Bool :=
  match c.key with
  | none => false
  | some k => c.body.opcode != Opcode.scan.code && d.barnStopped (homeStall (d.padSet c.body.pad) (keyDigest k) / 64)

/-- Where the first inbound byte of a write lies in its value; an APPEND's as the value stands now (R121). -/
def Dev.inputBase (d : Dev) (c : Cmd) : Nat :=
  if c.body.opcode = Opcode.putRange.code then c.body.offset
  else if c.body.opcode = Opcode.append.code then ((d.peek c.body.pad (c.key.getD [])).map Rec.len).getD 0
  else 0

/-- The admitted command begins: PADDOCK DELETE takes its id out of use, a PINNED value too large for its stall set is refused,
IF_ABSENT makes its first check, inbound data is asked for (R71, R283, R285, R292, R304, R339). -/
def Dev.begin (d : Dev) (c : Cmd) : Dev :=
  let d := if c.body.opcode = Opcode.paddock.code ∧ c.body.subop = 1 ∧ (d.pad c.body.pad).live = true then
      d.updPad c.body.pad fun p => { p with st := 2 }
    else d
  if d.homeStopped c then d.abort c.id Status.thermalHold.code
  else if c.body.opcode = Opcode.put.code ∧ d.poolShort c.body.pad c.body.length = true then d.abort c.id Status.noSpace.code
  else if c.body.opcode = Opcode.put.code ∧ c.body.ifAbsent = true then
    let (f, d) := d.find [] c.body.pad (c.key.getD [])
    match f with
    | .hit _ _ r => d.abortWith c.id Status.keyExists.code r.len
    | _ => d.askInput c.id
  else d.askInput c.id

/-- A command chosen by the arbiter is admitted, or completes at once on a failed check; tells which (R375). -/
def Dev.takeIn (d : Dev) (c : Cmd) : Bool × Dev :=
  match d.admitCheck c with
  | .inl st => (false, d.finish c.id st 0 0)
  | .inr shape =>
    let cost := c.admitCost
    let c' : Cmd :=
      { c with stage := .admitted, slotHeld := true, cost := cost, charged := if (d.ses c.ses).rate = unshapedRate then 0 else cost,
               shape := shape, need := c.body.inbound, wbBase := d.inputBase c, admSeq := d.admSeq, flushOn := if c.body.opcode = Opcode.flush.code then d.flushScope c else [] }
    let d := d.updCmd c.id fun _ => c'
    let d := d.updSes c.ses fun x => x.charge d.now cost
    (true, ({ d with admSeq := d.admSeq + 1 } : Dev).begin c')

/-- The arbiter's choice and what it admits (R379). -/
def Dev.chooseNext (d : Dev) : Dev :=
  let d := d.rollWindow
  let d : Dev := { d with arb := { d.arb with round := d.roundNow } }
  let under := decide (d.arb.urgentUsed < d.urgentCap)
  match (if under then d.pickUrgent else none) with
  | some c =>
    let (ok, d) := d.takeIn c
    { d with arb := { d.arb with urgRr := c.ses, urgentUsed := if ok then d.arb.urgentUsed + c.admitCost else d.arb.urgentUsed } }
  | none =>
    let (f, round) := d.weightedLoop (d.loopFuel d.arb.round) 0 d.arb.round
    let d : Dev := { d with arb := { d.arb with round := round } }
    match f with
    | none => d
    | some c =>
      let (ok, d) := d.takeIn c
      let pay := fun (f : Nat × Nat × Nat) => if f.1 = c.ses ∧ f.2.1 = c.cls then (f.1, f.2.1, f.2.2 - c.admitCost) else f
      if ok then { d with arb := { d.arb with round := d.arb.round.map pay } } else d

/-- ADMIT: the arbiter makes one choice; a flow that it left without a waiting command leaves the round (R379). -/
def Dev.admitNext (d : Dev) : Dev := d.chooseNext.leaveRound

/-! ### Completion -/

def Dev.completeOp (d : Dev) (cid : Nat) : Dev :=
  match d.findCmd cid with
  | none => d
  | some c => if d.completable c then d.completeCmd c else d

/-! ### Data timeout (R294, R295) -/

/-- A grant or READ of the command has passed its deadline. -/
def Dev.overdue (d : Dev) (c : Cmd) : Bool :=
  (c.grants.any fun g => g.due.any fun t => decide (t < d.now)) ||
    d.reads.any fun r => readOfCmd c.id r && r.due.any fun t => decide (t < d.now)

def Dev.dataTimeoutOp (d : Dev) (cid : Nat) : Dev :=
  match d.findCmd cid with
  | none => d
  | some c => if d.overdue c && !c.effected && c.stage != .ended && !d.held c.ses then d.abort cid Status.timeout.code else d

/-- DATA_TIMEOUT (R294). -/
def execDataTimeout (c : Nat) (s : State) : Host.Outcome State Fault Refusal := s.run fun d => d.dataTimeoutOp c

/-! ### Write-buffer space (R361, R388) -/

/-- STAGED bytes of a record that are not in the shed. -/
def stagedBytes (r : Rec) : Nat :=
  if r.staging.isNone then 0
  else ((List.range r.segs.length).map fun i => if (r.lsns.getD i none).isSome then 0 else segLen r.len i).sum

def Dev.stagedTotal (d : Dev) : Nat := (d.allRecs.map fun e => stagedBytes e.2.2).sum

/-- STAGED writes but `own` that have been given write-buffer space and have not taken effect: their bytes are on their way (R388). -/
def Dev.stagedComing (d : Dev) (own : Nat) : List Cmd :=
  d.cmds.filter fun c => c.id != own && c.stage == .admitted && !c.effected && c.body.movesValue && decide (0 < c.wbGiven) &&
    (d.pad c.body.pad).persist == 1

/-- The shortest staging bound among paddocks with STAGED bytes not in the shed, and `own`. -/
def Dev.shortestBound (d : Dev) (coming : List Cmd) (own : Nat) : Nat :=
  ((d.allRecs.filter fun e => decide (0 < stagedBytes e.2.2)).map (fun e => (d.pad e.2.2.pad).stage) ++
    coming.map fun c => (d.pad c.body.pad).stage).foldl min own

/-- R388 holds the command back: ms × MB/s × 1,000 is what the shed programs in a bound. -/
def Dev.stageHeld (d : Dev) (c : Cmd) : Bool :=
  let p := d.pad c.body.pad
  let coming := d.stagedComing c.id
  p.persist == 1 && decide (d.shortestBound coming p.stage * d.shd.prate * 1000 <
    d.stagedTotal + (coming.map Cmd.need).sum + c.need)

/-- Commands waiting for write-buffer space, the one whose turn it is first; new ones join in admission order. -/
def insertAdm (c : Cmd) : List Cmd → List Cmd
  | [] => [c]
  | x :: r => if c.admSeq < x.admSeq then c :: x :: r else x :: insertAdm c r

def Dev.wbWaiting (d : Dev) : List Nat :=
  let old := d.arb.wbRound.filter fun i => (d.findCmd i).any d.wantsWb
  let new := (d.cmds.filter fun c => d.wantsWb c && !old.contains c.id).foldl (fun l c => insertAdm c l) []
  old ++ new.map Cmd.id

/-- The next piece of a command gets its space, and its grant or pulls follow. -/
def Dev.wbGive (d : Dev) (c : Cmd) : Option Dev :=
  let hi := min c.need (c.wbGiven + 1048576)
  match d.wbPiece c c.wbGiven hi with
  | none => none
  | some es =>
    if d.arb.wbufCur * 16384 < d.wbUsed + es.length then none
    else
      let d := d.updCmd c.id fun x => { x with wb := x.wb ++ es, wbGiven := hi }
      some (d.askInput c.id)

def Dev.wbAllocate (d : Dev) : Dev :=
  let round := d.wbWaiting
  match round.findSome? fun i => (d.findCmd i).bind fun c => if d.stageHeld c then none else some c with
  | none => { d with arb := { d.arb with wbRound := round } }
  | some c =>
    match ({ d with arb := { d.arb with wbRound := round.filter (fun i => i != c.id) ++ [c.id] } } : Dev).wbGive c with
    | some d => d
    | none => { d with arb := { d.arb with wbRound := round } }

/-- WBUF_ALLOCATE (R361). -/
def execWbufAllocate (s : State) : Host.Outcome State Fault Refusal := s.run Dev.wbAllocate

/-! ### Paused output (R370) -/

def Dev.outputResume (d : Dev) (cid : Nat) : Dev :=
  match d.findCmd cid with
  | none => d
  | some c =>
    let x := d.ses c.ses
    if c.outLeft.isEmpty || d.held c.ses || !x.mayCharge d.now || decide (c.storedRead ≤ c.releasedTo) then d
    else
      let n := min 1048576 (c.storedRead - c.releasedTo)
      let d := d.updSes c.ses fun x => x.charge d.now n
      let paid := if x.rate = unshapedRate then 0 else n
      (d.updCmd cid fun x => { x with releasedTo := x.releasedTo + n, charged := x.charged + paid }).sendOutput cid

/-- GET_OUTPUT_RESUME (R370). -/
def execGetOutputResume (c : Nat) (s : State) : Host.Outcome State Fault Refusal := s.run fun d => d.outputResume c

/-- URGENT_WINDOW (R377). -/
def execUrgentWindow (s : State) : Host.Outcome State Fault Refusal := s.run Dev.rollWindow

end Sys2Proof.Machine
end

