-- ==== Sys2Proof/Machine/Control.lean ====
section
/-! DEFINITION. NOP, FLUSH, TETHER and PADDOCK (R331–R341, R389–R392, R466–R498), and the tether unit's releases and timeouts. -/

namespace Sys2Proof.Machine

open Sys2Proof

/-! ### NOP -/

def Dev.nopOp (d : Dev) (cid : Nat) : Dev :=
  match d.findCmd cid with
  | none => d
  | some c => if d.runnable c Opcode.nop.code then d.finish cid Status.ok.code 0 0 else d

/-- NOP has no effect and completes with ST_OK (R334). -/
def execNop (c : Nat) (s : State) : Host.Outcome State Fault Refusal := s.run fun d => d.nopOp c

/-! ### FLUSH (R389–R392) -/

/-- The scope of a FLUSH takes in the write (session, queue pair, admission number) (R389). -/
def Cmd.scopeHas (c : Cmd) (w : Nat × Nat × Nat) : Bool :=
  decide (w.2.2 < c.admSeq) &&
  match c.body.subop with
  | 0 => w.1 == c.ses
  | 1 => w.1 == c.ses && w.2.1 == c.qp
  | _ => true

/-- The FLUSH waits for staged work: any of its scope, or any at all for DEVICE (R390). -/
def Cmd.scopeStaged (c : Cmd) (s : Staging) : Bool := c.body.subop == 2 || s.by_.any c.scopeHas

/-- Staged records a FLUSH waits for. -/
def Dev.flushRecs (d : Dev) (c : Cmd) : List Rec :=
  d.allRecs.filterMap fun e => if e.2.2.staging.any c.scopeStaged then some e.2.2 else none

/-- Staged deletes a FLUSH waits for. -/
def Dev.flushDels (d : Dev) (c : Cmd) : List StagedDel := d.shd.delq.filter fun x => c.scopeStaged x.staging

/-- Shed work for a staged record of a key that has none in progress (R54, R567). -/
def Dev.stageRec (d : Dev) (r : Rec) : Dev := if d.keyBusy r.pad r.key then d else (d.startJob r false true none).2

def Dev.stageDel (d : Dev) (x : StagedDel) : Dev :=
  if d.keyBusy x.pad x.key then d else (d.startDelete x.pad x.epoch x.wseq x.key true).2

/-- Outstanding writes and DELETEs admitted before the FLUSH, in its scope. -/
def Dev.flushCmds (d : Dev) (c : Cmd) : List Nat := c.flushOn.filter fun i => (d.findCmd i).isSome

/-- FLUSH: staged work of its scope is started; it completes when none is left and the commands of its scope have completed. -/
def Dev.flushOp (d : Dev) (cid sub : Nat) : Dev :=
  match d.findCmd cid with
  | none => d
  | some c =>
    if !d.runnable c Opcode.flush.code || c.body.subop != sub then d
    else
      let d := (d.flushRecs c).foldl Dev.stageRec d
      let d := (d.flushDels c).foldl Dev.stageDel d
      if (d.flushRecs c).isEmpty && (d.flushDels c).isEmpty && (d.flushCmds c).isEmpty then d.finish cid Status.ok.code 0 0 else d

/-- FLUSH with SUBOP SESSION (R389). -/
def execFlushSession (c : Nat) (s : State) : Host.Outcome State Fault Refusal := s.run fun d => d.flushOp c 0

/-- FLUSH with SUBOP QUEUE (R389). -/
def execFlushQueue (c : Nat) (s : State) : Host.Outcome State Fault Refusal := s.run fun d => d.flushOp c 1

/-- FLUSH with SUBOP DEVICE (R390). -/
def execFlushDevice (c : Nat) (s : State) : Host.Outcome State Fault Refusal := s.run fun d => d.flushOp c 2

/-! ### TETHER (R332, R333, R468–R482) -/

/-- The TETHER command `cid` of this SUBOP, when it may perform its operation. -/
def Dev.tetherCmd (d : Dev) (cid sub : Nat) : Option Cmd :=
  match d.findCmd cid with
  | none => none
  | some c => if d.runnable c Opcode.tether.code && c.body.subop == sub && !c.isWaiter then some c else none

def Dev.tetherSetOp (d : Dev) (cid : Nat) : Dev :=
  match d.tetherCmd cid 0 with
  | none => d
  | some c =>
    let v := BitVec.ofNat 64 c.body.arg
    (d.tetherSetTo c.body.teth14 v).finish cid Status.ok.code 0 v.toNat

/-- TETHER SET sets the counter to ARG (R468). -/
def execTetherSet (c : Nat) (s : State) : Host.Outcome State Fault Refusal := s.run fun d => d.tetherSetOp c

def Dev.tetherAddOp (d : Dev) (cid : Nat) : Dev :=
  match d.tetherCmd cid 1 with
  | none => d
  | some c =>
    let d := d.tetherAddTo c.body.teth14 c.body.arg
    d.finish cid Status.ok.code 0 (d.tether c.body.teth14).toNat

/-- TETHER ADD adds ARG modulo 2^64 (R468). -/
def execTetherAdd (c : Nat) (s : State) : Host.Outcome State Fault Refusal := s.run fun d => d.tetherAddOp c

/-- Wait slots a session holds (R480). -/
def Dev.waitSlots (d : Dev) (s : Nat) : Nat := (d.tth.waiters.filter fun w => w.ses == s).length

/-- WAIT_GE: satisfied at once, refused for want of a wait slot, or waiting (R479, R480). -/
def Dev.tetherWaitOp (d : Dev) (cid : Nat) : Dev :=
  match d.tetherCmd cid 2 with
  | none => d
  | some c =>
    let t := c.body.teth14
    let target := BitVec.ofNat 64 c.body.arg
    if target ≤ d.tether t then d.finish cid Status.ok.code 0 (d.tether t).toNat
    else if d.tth.perSes ≤ d.waitSlots c.ses ∨ 65536 ≤ d.tth.waiters.length then
      ({ d with tth := { d.tth with cntFull := sat1 d.tth.cntFull } } : Dev).finish cid Status.tetherFull.code 0 (d.tether t).toNat
    else
      let w : Waiter := { cmd := cid, ses := c.ses, tether := t, target := target, deadline := d.now + c.body.length * 1000 }
      let d := d.updCmd cid fun x => { x with isWaiter := true }
      { d with tth := { d.tth with waiters := d.tth.waiters ++ [w] } }

/-- TETHER WAIT_GE (R479, R480). -/
def execTetherWaitGe (c : Nat) (s : State) : Host.Outcome State Fault Refusal := s.run fun d => d.tetherWaitOp c

def Dev.tetherReadOp (d : Dev) (cid : Nat) : Dev :=
  match d.tetherCmd cid 3 with
  | none => d
  | some c => d.finish cid Status.ok.code 0 (d.tether c.body.teth14).toNat

/-- TETHER READ returns the counter value (R468). -/
def execTetherRead (c : Nat) (s : State) : Host.Outcome State Fault Refusal := s.run fun d => d.tetherReadOp c

/-- At most four satisfied waiters complete with ST_OK (R481, R482). -/
def Dev.releaseWaiters (d : Dev) : Dev :=
  let rest := d.tth.ready.drop 4
  (d.tth.ready.take 4).foldl (fun (d : Dev) w => d.finish w.1 Status.ok.code 0 w.2.toNat) { d with tth := { d.tth with ready := rest } }

/-- The tether unit releases satisfied waiters (R482). -/
def execWaiterRelease (s : State) : Host.Outcome State Fault Refusal := s.run Dev.releaseWaiters

/-- A waiter whose deadline has passed (R483). -/
def Dev.waitTimeout (d : Dev) (cid : Nat) : Dev :=
  match d.tth.waiters.find? fun w => w.cmd == cid with
  | none => d
  | some w =>
    if d.now < w.deadline then d
    else
      ({ d with tth := { d.tth with cntTimeout := sat1 d.tth.cntTimeout } } : Dev).finish cid Status.tetherTimeout.code 0 (d.tether w.tether).toNat

/-- WAIT_GE_TIMEOUT (R483). -/
def execWaitGeTimeout (c : Nat) (s : State) : Host.Outcome State Fault Refusal := s.run fun d => d.waitTimeout c

/-! ### PADDOCK descriptors (R335, R917) -/

/-- A descriptor's fields. -/
structure Desc where
  ctrl : Nat
  mask : Nat
  stage : Nat
  shape : Nat
  qDram : Nat
  qShed : Nat
  zero : Nat
  bitmap : List Byte
deriving DecidableEq, Repr

def parseDesc (b : List Byte) : Desc :=
  { ctrl := fieldAt b 0 4, mask := fieldAt b 4 2, stage := fieldAt b 6 2, shape := fieldAt b 8 2, qDram := fieldAt b 10 2,
    qShed := fieldAt b 12 1, zero := fieldAt b 13 19, bitmap := slice 32 32 b }

def Desc.persist (x : Desc) : Nat := bits x.ctrl 0 2
def Desc.residency (x : Desc) : Nat := bits x.ctrl 2 2
def Desc.setMode (x : Desc) : Nat := bits x.ctrl 10 2

/-- Reserved bits of CTRL and reserved bytes. -/
def Desc.reserved (x : Desc) : Bool := bits x.ctrl 14 18 != 0 || bit x.ctrl 8 || bit x.ctrl 4 || x.zero != 0

/-- The stall-set bitmap before intersection (PDK_SET). -/
def setBitmap (mode barn : Nat) (bitmap : List Byte) : List Byte :=
  match mode with
  | 0 => List.replicate 32 0xFF
  | 1 => (List.range 32).map fun m => if m / 8 = barn then 0xFF else 0
  | _ => bitmap

/-- A paddock with the fields of a descriptor that `sel` selects. -/
def Desc.apply (x : Desc) (sel : Nat → Bool) (p : Paddock) : Paddock :=
  let persist := if sel 0 then x.persist else p.persist
  { p with
    persist := persist
    residency := if sel 1 then x.residency else p.residency
    check := if sel 2 then bit x.ctrl 5 else p.check
    cls := if sel 3 then bits x.ctrl 6 2 else p.cls
    strict := if sel 4 then bit x.ctrl 9 else p.strict
    setMode := if sel 5 then x.setMode else p.setMode
    barn := if sel 5 then bits x.ctrl 12 2 else p.barn
    bitmap := if sel 5 then setBitmap x.setMode (bits x.ctrl 12 2) x.bitmap else p.bitmap
    stage := if persist = 1 then (if sel 6 then x.stage else p.stage) else 0
    shape := if sel 7 then x.shape else p.shape
    qDram := if sel 8 then x.qDram else p.qDram
    qShed := if sel 9 then x.qShed else p.qShed }

/-- Item 1 of R917 on the selected fields, and on the bound in force afterwards (R76). -/
def Desc.fieldsBad (x : Desc) (sel : Nat → Bool) (new : Paddock) : Bool :=
  x.reserved || (sel 0 && x.persist == 3) || (sel 1 && x.residency == 3) || (sel 5 && x.setMode == 3) ||
    (sel 8 && decide (256 < x.qDram)) || (sel 9 && decide (128 < x.qShed)) ||
    (new.persist == 1 && (decide (new.stage < 10) || decide (60000 < new.stage)))

/-- A persistence and residency that need the shed (R604). -/
def Paddock.needsShed (p : Paddock) : Bool := p.persist != 0 || p.residency != 0

/-- The shed refuses new paddocks that need it (R604). -/
def Dev.shedRefuses (d : Dev) : Bool :=
  d.shd.st == shdAbsent || d.shd.st == shdBlank || d.shd.st == shdForeign || d.shd.st == shdReadOnly

/-- A default shape that does not exist (R336). -/
def Dev.shapeMissing (d : Dev) (id : Nat) : Bool := id != 0 && (d.shapeById id false).isNone

/-- An ALTER forbidden while the paddock holds keys (R44). -/
def alterForbidden (old new : Paddock) : Bool :=
  old.persist != new.persist || old.check != new.check || old.setMode != new.setMode ||
    (new.setMode == 1 && old.barn != new.barn) || (new.setMode == 2 && old.bitmap != new.bitmap) ||
    (old.persist == 0 && old.residency != new.residency && (old.residency == 2 || new.residency == 2))

/-- The PADDOCK command `cid` of this SUBOP, when it may take effect. -/
def Dev.padCmd (d : Dev) (cid sub : Nat) : Option Cmd :=
  match d.findCmd cid with
  | none => none
  | some c => if d.runnable c Opcode.paddock.code && c.body.subop == sub && c.arrived then some c else none

/-- The PADDOCK record of a paddock that the shed holds, before or after the command (R337, R575). -/
def Dev.recordPad (d : Dev) (cid sub pad epoch : Nat) (old new : Nat) (p : Paddock) : Dev :=
  if old = 0 ∧ new = 0 then d
  else
    let (j, d) := d.startPaddockRec sub pad epoch p
    d.awaitJob cid j

/-- The first check of R917 that a CREATE fails, 0 when none does. -/
def Dev.createFails (d : Dev) (pad : Nat) (x : Desc) (new : Paddock) : Nat :=
  if x.fieldsBad (fun _ => true) new || (d.setOf new).isEmpty then Status.badDescriptor.code
  else if (d.pad pad).live || (d.pad pad).st != 0 then Status.keyExists.code
  else if d.shapeMissing x.shape then Status.badShape.code
  else if d.shedRefuses && new.needsShed then Status.noSpace.code
  else 0

def Dev.createOp (d : Dev) (cid : Nat) : Dev :=
  match d.padCmd cid 0 with
  | none => d
  | some c =>
    let pad := c.body.pad
    let x := parseDesc c.input
    let e := (d.pad pad).mark + 1
    let new := x.apply (fun _ => true) { Paddock.reset with live := true, epoch := e, mark := e }
    let st := d.createFails pad x new
    if st ≠ 0 then d.abortWith cid st (if st = Status.keyExists.code then (d.pad pad).epoch else 0)
    else
      let d := (d.updPad pad fun _ => new).finish cid Status.ok.code 0 e
      let d := d.writeIdentity fun i => { i with epochs := SMap.put i.epochs pad e }
      d.recordPad cid subCreate pad e 0 new.persist new

/-- PADDOCK CREATE makes an id live (R336). -/
def execPaddockCreate (c : Nat) (s : State) : Host.Outcome State Fault Refusal := s.run fun d => d.createOp c

/-- The first check of R917 that an ALTER fails, 0 when none does. -/
def Dev.alterFails (d : Dev) (pad : Nat) (x : Desc) (new : Paddock) : Nat :=
  let old := d.pad pad
  let sel := bit x.mask
  if x.fieldsBad sel new || decide (1024 ≤ x.mask) || (sel 5 && (d.setOf new).isEmpty) then Status.badDescriptor.code
  else if decide (0 < d.padKeys pad) && alterForbidden old new then Status.badDescriptor.code
  else if sel 7 && d.shapeMissing x.shape then Status.badShape.code
  else if d.shedRefuses && new.needsShed && (old.persist != new.persist || old.residency != new.residency) then Status.noSpace.code
  else 0

def Dev.alterOp (d : Dev) (cid : Nat) : Dev :=
  match d.padCmd cid 2 with
  | none => d
  | some c =>
    let pad := c.body.pad
    let x := parseDesc c.input
    let old := d.pad pad
    let new := x.apply (bit x.mask) old
    let st := d.alterFails pad x new
    if st ≠ 0 then d.abortWith cid st old.epoch
    else
      let d := (d.updPad pad fun _ => new).finish cid Status.ok.code 0 old.epoch
      d.recordPad cid subAlter pad old.epoch old.persist new.persist new

/-- PADDOCK ALTER changes the attributes its mask selects (R340). -/
def execPaddockAlter (c : Nat) (s : State) : Host.Outcome State Fault Refusal := s.run fun d => d.alterOp c

/-- Commands on the paddock admitted before this one (R339). -/
def Dev.padBefore (d : Dev) (c : Cmd) : Bool :=
  d.cmds.any fun x => x.slotHeld && x.body.namesPad && x.body.pad == c.body.pad && decide (x.admSeq < c.admSeq)

/-- Every key of a paddock goes. -/
def Dev.clearPad (d : Dev) (pad : Nat) : Dev := (d.padRecs pad).foldl (fun (d : Dev) e => d.dropKey e.1 e.2.1) d

def Dev.deletePadOp (d : Dev) (cid : Nat) : Dev :=
  match d.padCmd cid 1 with
  | none => d
  | some c =>
    let pad := c.body.pad
    let p := d.pad pad
    if d.padBefore c || (d.padSet pad).any fun s => d.barnStopped (s / 64) then d
    else
      let n := if p.live then d.padKeys pad else p.heldKeys
      let d := d.clearPad pad
      let d : Dev := { d with shd := { d.shd with delq := d.shd.delq.filter fun x => x.pad != pad } }
      let d := (d.updPad pad fun _ => { Paddock.reset with epoch := p.mark, mark := p.mark }).finish cid Status.ok.code 0 n
      d.recordPad cid subDelete pad p.epoch p.persist 0 p

/-- PADDOCK DELETE removes every key and frees the id (R339). -/
def execPaddockDelete (c : Nat) (s : State) : Host.Outcome State Fault Refusal := s.run fun d => d.deletePadOp c

/-! ### STAT (R341) -/

/-- PDK_STATUS of a paddock. -/
def Dev.padStatus (d : Dev) (pad : Nat) : Nat :=
  let p := d.pad pad
  if p.live then 1 + 2 * p.st + 2 ^ 16 * (d.padSet pad).length else 2 * p.st

/-- The 128-byte record of STAT. -/
def Dev.statRecord (d : Dev) (pad : Nat) : List Byte :=
  let p := d.pad pad
  p.descriptor ++ natLe 4 p.epoch ++ natLe 4 (d.padStatus pad) ++ natLe 8 (d.padKeys pad) ++
    natLe 8 (d.padDram pad) ++ natLe 8 (d.padShed pad) ++ zeros 32

def Dev.statOp (d : Dev) (cid : Nat) : Dev :=
  match d.padCmd cid 3 with
  | none => d
  | some c =>
    let out : OutPiece := { off := 0, bytes := d.statRecord c.body.pad, check := none, stored := 0 }
    d.readDone cid [out] Status.ok.code 128 (d.padKeys c.body.pad) 0

/-- PADDOCK STAT delivers a 128-byte record (R341). -/
def execPaddockStat (c : Nat) (s : State) : Host.Outcome State Fault Refusal := s.run fun d => d.statOp c

end Sys2Proof.Machine
end

