-- ==== Sys2Proof/Machine/Power.lean ====
section
/-! DEFINITION. Power and heat: the estimator and the governor (R733–R737), sensors, refresh bands, hot hold and trip (R739–R764), and
the clock monitor (R719, R863). -/

namespace Sys2Proof.Machine

open Sys2Proof

/-! ### Estimator and governor -/

/-- PWR_EST.AVG_W: the mean of the last 100 estimates (R734). -/
def Pwr.avg (p : Pwr) : Nat := if p.est.isEmpty then 0 else p.est.sum / p.est.length

/-- POWER_ESTIMATE: a new estimate, and the rise of the throttle level (R733–R735). Before READY the estimate is below 250 W and
the governor is not used (R787). -/
def Dev.estimateOp (d : Dev) : Dev :=
  if !d.ytRun || decide (d.now < d.pwr.estAt + 10000) then d
  else
    let (i, d) := d.draw
    let w := Config.powerEstimate i % (if d.glb.ready then 1024 else 250)
    let p : Pwr := { d.pwr with inst := w, est := (w :: d.pwr.est).take 100, estAt := d.now }
    let level := if d.glb.ready ∧ p.cap < p.avg ∧ p.level < 23 then p.level + 1 else p.level
    let below := if d.glb.ready ∧ p.avg * 100 < 98 * p.cap then p.below + 1 else 0
    { d with pwr := { p with level := level, below := below, cntGov := if 0 < level then sat1 p.cntGov else p.cntGov } }

/-- GOVERNOR_LOWER: ten estimates in a row below 0.98 of the cap; a further fall takes a further estimate (R735). -/
def Dev.governorLowerOp (d : Dev) : Dev :=
  if 10 ≤ d.pwr.below ∧ 0 < d.pwr.level then { d with pwr := { d.pwr with level := d.pwr.level - 1, below := 9 } } else d

/-- A write to PWR_CAP (R737). -/
def Dev.capWrite (d : Dev) (v : Nat) : Dev := { d with pwr := { d.pwr with cap := max 250 (min 600 (v % 1024)) } }

/-- A write to PWR_THR: each field stores the nearer limit (R761). -/
def Dev.thrWrite (d : Dev) (v : Nat) : Dev :=
  let fit := fun (lo hi x : Nat) => max lo (min hi x)
  { d with pwr := { d.pwr with tripC := fit 100 115 (bits v 16 8), hotC := fit 95 105 (bits v 8 8), warmC := fit 60 110 (bits v 0 8) } }

/-! ### Sensors -/

/-- The latest reading of a sensor: `none` where it failed its self-check or has not been sampled (R763). -/
def Dev.sensor (d : Dev) (n : Nat) : Option Int := (SMap.get d.pwr.sensors n none)

/-- Sensor n has been sampled since reset. -/
def Dev.sampled (d : Dev) (n : Nat) : Bool := d.pwr.sensors.any fun x => x.1 == n

/-- Readings of the floor sensors of barn b, with their numbers. -/
def Dev.floorReadings (d : Dev) (b : Nat) : List (Nat × Int) :=
  (List.range 4).filterMap fun q => (d.sensor (36 * b + q)).map fun t => (36 * b + q, t)

/-- Readings of the layer sensors of barn b. -/
def Dev.layerReadings (d : Dev) (b : Nat) : List (Nat × Int) :=
  (List.range 32).filterMap fun i => (d.sensor (36 * b + 4 + i)).map fun t => (36 * b + 4 + i, t)

/-- Readings of the yard and gatehouse sensors. -/
def Dev.yardReadings (d : Dev) : List (Nat × Int) :=
  (List.range 8).filterMap fun i => (d.sensor (144 + i)).map fun t => (144 + i, t)

/-- The hotter valid sensor of layer k of barn b. -/
def Dev.layerTemp (d : Dev) (b k : Nat) : Option Int :=
  match d.sensor (36 * b + 4 + 2 * k), d.sensor (36 * b + 5 + 2 * k) with
  | some x, some y => some (max x y)
  | some x, none => some x
  | none, y => y

/-- The hottest of some readings, the lowest number on a tie. -/
def hottest : List (Nat × Int) → Option (Nat × Int)
  | [] => none
  | x :: r =>
    match hottest r with
    | some y => if x.2 < y.2 then some y else some x
    | none => some x

/-- The refresh band of a temperature in 0.25 °C units (R741). -/
def bandOf (t : Int) : Nat := if t > 420 then 3 else if t > 380 then 2 else if t > 340 then 1 else 0

/-- The lower limit of a band, in 0.25 °C units. -/
def bandLimit (band : Nat) : Int :=
  match band with
  | 1 => 340
  | 2 => 380
  | _ => 420

/-- A temperature as a detail word of an event: two's complement. -/
def tempWord (t : Int) : Nat := (t % 2 ^ 32).toNat

/-! ### Trips (R748–R754) -/

/-- A key's home stall lies in barn b, or a read or range write of [lo, hi) still needs a segment that is held there (R750). -/
def Dev.keyInBarn (d : Dev) (b : Nat) (c : Cmd) (key : List Byte) : Bool :=
  let parts := fun (r : Rec) =>
    if c.body.isWrite then oldSegs r.len (if c.body.opcode = Opcode.append.code then r.len else c.body.offset) (c.body.offset + c.body.length)
    else segsOfRange r.len (c.accessTo (some key)).lo (c.accessTo (some key)).hi
  let held := fun (r : Rec) => (parts r).any fun p => (r.segs[p.1]?).any fun e => (e.st == 0 || e.st == 2) && decide (e.stall / 64 = b)
  decide (d.homeOf c.body.pad key / 64 = b) ||
    (c.body.opcode != Opcode.put.code && c.body.opcode != Opcode.delete.code && c.body.opcode != Opcode.existsKey.code &&
      !c.looked && (d.peek c.body.pad key).any held)

/-- An admitted command has work in barn b: it holds write-buffer slots there, or needs one of its stalls for a step not yet
finished (R750). -/
def Dev.worksIn (d : Dev) (b : Nat) (c : Cmd) : Bool :=
  (c.wb.any fun e => decide (e.2.1 / 64 = b)) ||
    (if c.body.opcode = Opcode.scan.code then ((d.padSet c.body.pad).drop (c.body.ilen / 2 ^ 24)).any fun s => decide (s / 64 = b)
     else if c.body.lists then (c.listed.getD []).any (d.keyInBarn b c)
     else c.key.any (d.keyInBarn b c))

/-- What a trip does to one outstanding command (R750, R752): a write before its commit point and a read with work in the barn
end; a write past its commit point and a PADDOCK command wait. -/
def Dev.tripCmd (d : Dev) (b : Nat) (c : Cmd) : Dev :=
  if c.stage != .admitted || c.effected || c.commit.isSome then d
  else if (c.body.isWrite || c.body.isRead) && d.worksIn b c then d.abort c.id Status.thermalHold.code
  else d

/-- The commands of a barn that has stopped end or wait (R750, R764). -/
def Dev.stopCommands (d : Dev) (b : Nat) : Dev := d.cmds.foldl (fun d c => d.tripCmd b c) d

/-- Barn b trips at sensor n (R748, R749). -/
def Dev.trip (d : Dev) (b n : Nat) (t : Int) : Dev :=
  let d := d.event Ev.pwrTrip.code (0x200 + b) n (tempWord t) 0
  let d := d.updBarn b fun x => { x with tripped := true, tripAt := d.now, resumeDue := false }
  let d : Dev := { d with pwr := { d.pwr with cntTrip := sat1 d.pwr.cntTrip } }
  d.stopCommands b

/-- Barn b enters hot hold (R744, R747). -/
def Dev.enterHot (d : Dev) (b n : Nat) (t : Int) : Dev :=
  let d := d.event Ev.pwrHot.code (0x200 + b) n (tempWord t) 0
  let d := d.updBarn b fun x => { x with hot := true, hotCool := 0 }
  { d with pwr := { d.pwr with cntHot := sat1 d.pwr.cntHot } }

/-- One layer at a sample: a higher band at once, and the run of samples 2 °C below its band's limit (R742, R763). -/
def Dev.sampleLayer (d : Dev) (b k : Nat) : Dev :=
  let x := d.barn b
  let cur := x.bands.getD k 0
  let set := fun (band cool : Nat) => d.updBarn b fun x => { x with bands := x.bands.set k band, bandCool := x.bandCool.set k cool }
  match d.layerTemp b k with
  | none => if d.sampled (36 * b + 4 + 2 * k) && d.sampled (36 * b + 5 + 2 * k) then set 3 0 else d
  | some t =>
    if cur < bandOf t then set (bandOf t) 0
    else if cur ≠ 0 ∧ t + 8 ≤ bandLimit cur then set cur (x.bandCool.getD k 0 + 1)
    else set cur 0

/-- Barn b at a sample (R742, R744, R748, R755, R763). -/
def Dev.sampleBarn (d : Dev) (b : Nat) : Dev :=
  if !d.dieOk b then d
  else
    let d := (List.range 16).foldl (fun d k => d.sampleLayer b k) d
    let fl := d.floorReadings b
    let la := d.layerReadings b
    let hotT := (d.pwr.hotC : Int) * 4
    let cool := la.all fun x => decide (x.2 ≤ hotT - 12)
    let d := d.updBarn b fun x =>
      { x with warm := fl.any (fun y => decide (y.2 ≥ (d.pwr.warmC : Int) * 4)), hotCool := if x.hot && cool then x.hotCool + 1 else 0,
               resumeDue := x.tripped && x.clearBit && !fl.isEmpty && fl.all fun y => decide (y.2 < 400) }
    let d := match la.find? fun x => decide (x.2 > hotT) with
      | some (n, t) => if (d.barn b).hot then d else d.enterHot b n t
      | none => d
    if d.barnStopped b then d
    else if fl.isEmpty then (if (List.range 4).all fun q => d.sampled (36 * b + q) then d.trip b (36 * b) 0 else d)
    else
      match hottest fl with
      | some (n, t) => if t ≥ (d.pwr.tripC : Int) * 4 then d.trip b n t else d
      | none => d

/-- New readings; a sensor newly found failing records EV_PWR_SENSOR (R763, R842). -/
def Dev.takeReading (d : Dev) (n : Nat) (t : Option Int) : Dev :=
  let failed := t.isNone && (match d.pwr.sensors.find? fun x => x.1 == n with
    | some (_, none) => false
    | _ => true)
  let d : Dev := { d with pwr := { d.pwr with sensors := SMap.put d.pwr.sensors n t } }
  if failed then d.event Ev.pwrSensor.code (if n < 144 then 0x200 + n / 36 else 0x0003) n 0 0 else d

/-- A yard or gatehouse sensor among new readings is above 125 °C (R759). -/
def overLimit (rs : List (Nat × Option Int)) : Bool :=
  rs.any fun r => decide (144 ≤ r.1) && decide (r.1 < 152) && r.2.any fun t => decide (t > 500)

/-- SENSOR_SAMPLE: every sensor once per ms (R739, R740). -/
def Dev.sampleOp (d : Dev) (rs : List (Nat × Option Int)) : Dev :=
  let d := rs.foldl (fun d r => if r.1 < 152 then d.takeReading r.1 r.2 else d) { d with pwr := { d.pwr with sampledAt := d.now } }
  let d := (List.range 4).foldl Dev.sampleBarn d
  let warmT := (d.pwr.warmC : Int) * 4
  let all := ((List.range 4).flatMap d.floorReadings) ++ d.yardReadings
  let warm := (all.any fun x => decide (x.2 ≥ warmT)) || (d.pwr.warmLevel && all.any fun x => decide (x.2 > warmT - 12))
  { d with pwr := { d.pwr with warmLevel := warm, critYard := d.yardReadings.any fun x => decide (x.2 ≥ (d.pwr.tripC : Int) * 4) } }

/-- HOT_HOLD_EXIT (R744). -/
def Dev.hotExitOp (d : Dev) (b : Nat) : Dev :=
  if (d.barn b).hot && decide (10 ≤ (d.barn b).hotCool) then d.updBarn b fun x => { x with hot := false, hotCool := 0 } else d

/-- BAND_LOWER (R742). -/
def Dev.bandLowerOp (d : Dev) (b k : Nat) : Dev :=
  if 10 ≤ (d.barn b).bandCool.getD k 0 then
    d.updBarn b fun x => { x with bands := x.bands.set k (x.bands.getD k 0 - 1), bandCool := x.bandCool.set k 0 }
  else d

/-- The thermal side of a barn's resumption (R755): its clock restarts and hot hold is evaluated afresh. -/
def Dev.resumeBarn (d : Dev) (b : Nat) : Dev :=
  let d := d.event Ev.pwrResume.code (0x200 + b) ((d.now - (d.barn b).tripAt) / 1000000) 0 0
  let d := d.updBarn b fun x => { x with tripped := false, clearBit := false, resumeDue := false, wbKept := [] }
  match (d.layerReadings b).find? fun x => decide (x.2 > (d.pwr.hotC : Int) * 4) with
  | some (n, t) => if (d.barn b).hot then d else d.enterHot b n t
  | none => d.updBarn b fun x => { x with hot := false, hotCool := 0 }

/-- A write to PWR_BCTRL (R756). -/
def Dev.bctrlWrite (d : Dev) (v : Nat) : Dev :=
  (List.range 4).foldl (fun d b => if bit v b then d.updBarn b fun x => { x with clearBit := true } else d) d

/-! ### Clocks -/

/-- CLK_LOSS (R719–R721). -/
def Clk.loss (c : Clk) : Nat :=
  b2n c.lossPe * 2048 + b2n c.lossN * 1024 + ((List.range 4).map fun b => b2n (c.lossD.getD b false) * 2 ^ (6 + b)).sum +
    ((List.range 4).map fun b => b2n (c.lossS.getD b false) * 2 ^ (2 + b)).sum

/-- SCLK_DCLK_UNLOCK: a floor PLL of barn b loses lock (R719, R764). -/
def Dev.floorUnlock (d : Dev) (b : Nat) (dclk : Bool) : Dev :=
  if 4 ≤ b ∨ (if dclk then (d.barn b).dclkLost else (d.barn b).sclkLost) = true then d
  else
    let d : Dev := { d with clk :=
      if dclk then { d.clk with lossD := d.clk.lossD.set b true, dclk := d.clk.dclk.set b false }
      else { d.clk with lossS := d.clk.lossS.set b true, sclk := d.clk.sclk.set b false } }
    let was := d.barnStopped b
    let d := d.event Ev.clkUnlock.code 0x0004 d.clk.loss 0 0
    let d := d.updBarn b fun x => if dclk then { x with dclkLost := true } else { x with sclkLost := true }
    if was then d else d.stopCommands b

/-- The frequency in kHz of a domain over 100,000 REFCLK cycles; `seen` for the clocks not locked to REFCLK (R691, CLK_MEAS). -/
def Dev.domainKhz (d : Dev) (sel seen : Nat) : Nat :=
  match sel with
  | 0 => 100000
  | 1 => if d.clk.yclk then 2000000 else 0
  | 2 => if d.clk.fclk then 1600000 else 0
  | 11 => if d.clk.nclk then 1200000 else 0
  | 12 => if d.clk.peclk then seen % 2 ^ 31 else 0
  | 13 => 25000
  | n =>
    if 3 ≤ n ∧ n ≤ 6 then (if d.clk.sclk.getD (n - 3) false && !(d.barn (n - 3)).tripped then 1200000 else 0)
    else if 7 ≤ n ∧ n ≤ 10 then (if d.clk.dclk.getD (n - 7) false then 250000 else 0)
    else if 16 ≤ n ∧ ((d.link (n - 16)).st = .capx ∨ (d.link (n - 16)).st = .active) then seen % 2 ^ 31
    else 0

/-- A write to CLK_MEAS_SEL starts a measurement (R863). -/
def Dev.measSel (d : Dev) (v : Nat) : Dev :=
  { d with clk := { d.clk with sel := bits v 0 6, measuring := true, measAt := d.now, done := false } }

/-- CLK_MEAS_DONE: the 1 ms of a measurement is over (R863). -/
def Dev.measDone (d : Dev) (seen : Nat) : Dev :=
  if d.clk.measuring && decide (d.clk.measAt + 1000000 ≤ d.now) then
    { d with clk := { d.clk with measuring := false, done := true, khz := d.domainKhz d.clk.sel seen } }
  else d

/-! ### Meanings -/

/-- HOT_HOLD_EXIT (R744). -/
def execHotHoldExit (b : Nat) (s : State) : Host.Outcome State Fault Refusal := s.run fun d => d.hotExitOp b

/-- BAND_LOWER (R742). -/
def execBandLower (b k : Nat) (s : State) : Host.Outcome State Fault Refusal := s.run fun d => d.bandLowerOp b k

/-- POWER_ESTIMATE (R733). -/
def execPowerEstimate (s : State) : Host.Outcome State Fault Refusal := s.run Dev.estimateOp

/-- GOVERNOR_LOWER (R735). -/
def execGovernorLower (s : State) : Host.Outcome State Fault Refusal := s.run Dev.governorLowerOp

/-- SCLK_DCLK_UNLOCK (R719). -/
def execSclkDclkUnlock (b : Nat) (dclk : Bool) (s : State) : Host.Outcome State Fault Refusal := s.run fun d => d.floorUnlock b dclk

/-- CLK_MEAS_DONE (R863). -/
def execClkMeasDone (khz : Nat) (s : State) : Host.Outcome State Fault Refusal := s.run fun d => d.measDone khz

end Sys2Proof.Machine
end

