-- ==== Sys2Proof/Machine/Background.lean ====
section
/-! DEFINITION. Background work: the groomer (R672–R682), pending lists and leaky buckets (R656–R661), staging (R54, R567), reloads and
residency moves (R51, R340), and the entropy source (R633–R637). -/

namespace Sys2Proof.Machine

open Sys2Proof

/-! ### When groomer runs fall due (R672, R673) -/

/-- The multiplier of a layer's run rate (R673). -/
def Dev.boostOf (d : Dev) (b k : Nat) : Nat :=
  if !(d.barn b).boost then 1
  else
    match d.layerTemp b k with
    | some t => if t > 380 then 4 else if t > 340 then 2 else 1
    | none => 1

/-- 16,384 intervals between runs of a layer, in ns. -/
def Barn.passNs (b : Barn) : Nat := b.passH * 3600 * 1000000000

/-- Groomer debt of stall s (R675). -/
def Dev.debtOf (d : Dev) (s : Nat) : Nat :=
  (List.zip (d.barn (s / 64)).grmDue (d.stall s).grmDone).foldl (fun n e => n + (e.1 - e.2)) 0

/-- Stalls whose catch-up begins or ends (R676). -/
def Dev.catchupStall (d : Dev) (s : Nat) : Dev :=
  let debt := d.debtOf s
  let on := (d.stall s).catchup
  if !on && decide ((d.barn (s / 64)).debtLimit < debt) then d.updStall s fun x => { x with catchup := true }
  else if on && debt == 0 then d.updStall s fun x => { x with catchup := false }
  else d

/-- Runs of barn b fall due up to now, at the rates its layers had since the last reckoning. -/
def Dev.groomTick (d : Dev) (b : Nat) : Dev :=
  if (d.barn b).fillSt ≠ 2 then d
  else
    let dt := d.now - (d.barn b).grmAt
    let acc := (List.range 16).map fun k => (d.barn b).grmAcc.getD k 0 + dt * d.boostOf b k * 16384
    let p := (d.barn b).passNs
    let d := d.updBarn b fun x =>
      { x with grmAt := d.now, grmDue := (List.zip x.grmDue acc).map (fun e => e.1 + e.2 / p), grmAcc := acc.map (· % p) }
    (d.availStalls.filter fun s => s / 64 == b).foldl Dev.catchupStall d

/-- A write to BRN_GRM_CFG: runs due so far are counted, and the running intervals begin afresh. -/
def Dev.grmCfgWrite (d : Dev) (b v : Nat) : Dev :=
  (d.groomTick b).updBarn b fun x =>
    { x with boost := bit v 24, debtLimit := max 1 (bits v 8 16), passH := max 1 (min 168 (bits v 0 8)), grmAcc := List.replicate 16 0 }

/-! ### What a run finds -/

/-- The segment that holds a granule of stall s: entry, record and segment index. -/
def Dev.ownerOf (d : Dev) (s granule : Nat) : Option (Nat × Loc × Rec × Nat) :=
  d.allRecs.findSome? fun e =>
    let r := e.2.2
    ((List.range r.segs.length).find? fun i =>
      (r.segs[i]?).any fun g => g.stall == s && (g.st == 0 || g.st == 2) &&
        (let w := r.granulesOf g 0 (segLen r.len i)
         decide (w.1 ≤ granule) && decide (granule < w.1 + w.2))).map fun i => (e.1, e.2.1, r, i)

/-- The record whose extents hold a granule. -/
def Dev.extentOwner (d : Dev) (s granule : Nat) : Option (Nat × Loc) :=
  (d.allRecs.find? fun e => e.2.2.extSlots.any fun x =>
    let g := runGranules x (decide (32 < e.2.2.segs.length))
    x.stall == s && decide (g.1 ≤ granule) && decide (granule < g.1 + g.2)).map fun e => (e.1, e.2.1)

/-- The entry whose index record holds a granule of stall s. -/
def recordAt (st : Stall) (granule : Nat) : Option Loc :=
  ((stallRecs st).find? fun e => decide (recGranule st e.1 ≤ granule) && decide (granule < recGranule st e.1 + 8)).map Prod.fst

/-- An uncorrectable granule found without a waiting command (R662–R671, R674). -/
def Dev.groomUe (d : Dev) (f : LoftFault) : Dev :=
  let s := f.stall
  let kind := d.granuleKind s f.granule
  let d := d.uncorrectable s f.granule
  if kind = kindSegment then
    match d.ownerOf s f.granule with
    | none => d
    | some (home, loc, r, i) =>
      match d.recoverable r i with
      | some n => if d.shd.nclkLost then d.poison home loc i else (d.holdLsn n).issueRead n (segLen r.len i) (.groomer r.pad r.key i r.wseq)
      | none =>
        let d := d.poison home loc i
        if (d.pad r.pad).persist = 1 ∧ r.pinnedByFailure = false then d.abandonStaging home loc r else d
  else if kind = kindRecord then
    match recordAt (d.stall s) f.granule with
    | some loc => (d.updStall s fun x => quarantineLoc x loc).writeback f
    | none => d.writeback f
  else if kind = kindOverflow then
    let st := d.stall s
    match st.buckets.find? fun b => bucketGranule st b.1 == f.granule with
    | some b => (([0, 1, 2].filter fun p => (bucketGet b.2 p).isSome).foldl
        (fun (d : Dev) p => d.updStall s fun x => quarantineLoc x (.ovf b.1 p)) d).writeback f
    | none => d.writeback f
  else if kind = kindExtent then
    match d.extentOwner s f.granule with
    | some (home, loc) => d.updStall home fun x => quarantineLoc x loc
    | none => d
  else if kind = kindWriteBuffer then
    let lost := fun (c : Cmd) => (c.wb.filter fun e => e.2.1 == s && e.2.2 == f.granule / 1024).map Prod.fst
    { d with cmds := d.cmds.map fun c => { c with wbLost := c.wbLost ++ lost c } }
  else d.writeback f

/-- One granule read by the groomer: corrected and written back in either mode (R674, R688). -/
def Dev.groomGranule (d : Dev) (f : LoftFault) : Dev :=
  match eccDecode f.errs with
  | .clean => d
  | .corrected k _ => d.correction f k true
  | .uncorrectable => d.groomUe f

/-- The first granule of run r of layer k: the 4 KiB piece r of that layer (R651, R672). -/
def runGranule (r k : Nat) : Nat := r * 1024 + k * 64

/-- GROOMER_RUN: the next due run of a layer (R672, R675, R677). -/
def Dev.groomerRunOp (d : Dev) (s k : Nat) (fs : List Finding) : Dev :=
  let b := s / 64
  if !d.stallAvail s || d.barnStopped b || decide (16 ≤ k) then d
  else
    let d := d.groomTick b
    let done := (d.stall s).grmDone.getD k 0
    if (d.barn b).grmDue.getD k 0 ≤ done then d
    else
      let d := (faultsIn fs s (runGranule (done % 16384) k) 64).foldl Dev.groomGranule d
      (d.updStall s fun x => { x with grmDone := listUpd x.grmDone k (· + 1) }).catchupStall s

/-- PENDING_LIST_SERVICE: the oldest entry is read again, written back and removed (R657). -/
def Dev.pendingOp (d : Dev) (s : Nat) (fs : List Finding) : Dev :=
  match (d.stall s).pendList with
  | [] => d
  | (g, _) :: _ =>
    if d.barnStopped (s / 64) then d
    else
      let d := match (faultsIn fs s g 1).head? with
        | some f => d.groomGranule f
        | none => d
      d.updStall s fun x => { x with pendList := x.pendList.filter fun p => p.1 != g }

/-- BUCKET_LEAK: a count leaks every 1/LEAK s in BUCKET mode (R658, R661). -/
def Dev.bucketLeakOp (d : Dev) (b : Nat) : Dev :=
  let x := d.barn b
  if x.bucketMode && decide (0 < x.level) && decide (0 < x.leak) && decide (x.leakAt + 1000000000 / x.leak ≤ d.now) then
    d.updBarn b fun x => { x with level := x.level - 1, leakAt := x.leakAt + 1000000000 / x.leak }
  else d

/-! ### Staging -/

/-- STAGE_WRITE: the staged value or DELETE of a key goes to the shed; the moment is the KS-480's choice (R54, R567). -/
def Dev.stageWriteOp (d : Dev) (pad : Nat) (key : List Byte) : Dev :=
  match d.shd.delq.find? fun x => x.pad == pad && x.key == key with
  | some x => d.stageDel x
  | none =>
    match d.peek pad key with
    | some r => if r.staging.isSome then d.stageRec r else d
    | none => d

/-! ### Reloads and moves -/

/-- A segment that only the shed holds comes back into a loft, in free or evictable space, its quota permitting (R48, R51, R62,
R64). -/
def Dev.reloadSeg (d : Dev) (pad : Nat) (key : List Byte) (i wseq : Nat) (bytes : List Byte) : Dev :=
  match d.currentRec pad key wseq with
  | none => d
  | some (home, loc, r) =>
    if (r.segs[i]?).any (fun e => e.st == 1) then
      let p := d.pad pad
      let unit := if r.small then 64 * ceilDiv r.len 64 else 65536
      let all := fun (_ : Victim) => true
      let room := if p.residency = 1 then
          evictOwn pad p.qDram (d.padDram pad) (fun d => d.padDram pad + unit) all ((d.victims (d.padRecs pad)).length + 1) d
        else Tried.ok d
      match room with
      | .full d => d
      | .wait d => d
      | .ok d =>
        if r.small then
          match d.allocRun home .bin (ceilDiv r.len 64) bytes with
          | none => d
          | some (run, d) =>
            d.updRec home loc fun x =>
              { x with bin := some run, segs := listUpd x.segs i fun _ => { stall := home, slot := run.slot, st := 0 } }
        else
          let set := d.padSet pad
          match walkSlot (rotateSet set (homeIndex set (keyDigest key) + i)) d with
          | .full d => d
          | .wait d => d
          | .ok (s, slot, d) =>
            let d : Dev := { (d.setSlot s slot (.seg bytes d.useStamp)) with useStamp := d.useStamp + 1 }
            d.updRec home loc fun x => { x with segs := listUpd x.segs i fun _ => { stall := s, slot := slot, st := 0 } }
    else d

/-- A shed read for a reload of segment i is in flight. -/
def Dev.reloading (d : Dev) (pad : Nat) (key : List Byte) (i : Nat) : Bool :=
  d.shd.reads.any fun r => r.what == .reload pad key i

/-- A reload of segment i is asked of the shed. -/
def Dev.askReload (d : Dev) (r : Rec) (i : Nat) : Dev :=
  match r.lsns.getD i none with
  | none => d
  | some n =>
    if d.shd.nclkLost || d.reloading r.pad r.key i then d else (d.holdLsn n).issueRead n (segLen r.len i) (.reload r.pad r.key i)

/-- Every segment of a restored PINNED paddock is in its lofts: it is no longer reloading (R51, PDK_STATUS). -/
def Dev.reloadedPad (d : Dev) (pad : Nat) : Dev :=
  if (d.pad pad).st = 1 ∧ !((d.padRecs pad).any fun e => e.2.2.segs.any fun g => g.st == 1) then d.updPad pad fun p => { p with st := 0 } else d

/-- BACKGROUND_RELOAD (R51). -/
def Dev.reloadOp (d : Dev) (pad : Nat) (key : List Byte) (i : Nat) : Dev :=
  match d.peek pad key with
  | some r => if (d.pad pad).residency = 0 ∧ (r.segs[i]?).any (fun e => e.st == 1) = true then d.askReload r i else d
  | none => d

/-- RESIDENCY_MOVE: one existing segment moves to where the paddock's residency wants it (R48, R340). -/
def Dev.moveOp (d : Dev) (pad : Nat) (key : List Byte) (i : Nat) : Dev :=
  match d.peek pad key with
  | none => d
  | some r =>
    let p := d.pad pad
    match r.segs[i]? with
    | none => d
    | some e =>
      if e.st = 1 then (if p.residency = 0 then d.askReload r i else d)
      else if e.st = 2 ∧ p.residency ≠ 2 then d.updKey pad key fun x => { x with segs := setSeg x.segs i 0 }
      else if e.st = 0 ∧ p.residency = 2 then
        if (r.lsns.getD i none).isSome then d.dropTransit pad key
        else if p.persist = 0 ∧ !d.keyBusy pad key then
          (d.startJob r true false (some i)).2.updKey pad key fun x => { x with segs := setSeg x.segs i 2 }
        else d.updKey pad key fun x => { x with segs := setSeg x.segs i 2 }
      else if e.st = 0 ∧ p.residency = 0 ∧ p.persist = 0 then
        match r.lsns.getD i none with
        | some n => (d.updKey pad key fun x => { x with lsns := listUpd x.lsns i fun _ => none }).releaseLsn n
        | none => d
      else d

/-! ### The entropy source -/

/-- ENTROPY_HEALTH_FAIL (R636). -/
def Dev.healthFail (d : Dev) (proportion : Bool) : Dev :=
  let d : Dev := { d with chk := { d.chk with efail := true, estate := 2, eht := sat1 d.chk.eht } }
  d.event Ev.chkEntropy.code 0x0001 (b2n proportion) 0 0

/-- A non-zero 32-bit value of the entropy source. -/
def entropyWord (i : Nat) : Nat := (Config.entropy i).toNat % (2 ^ 32 - 1) + 1

/-- ENTROPY_STARTUP_PASS: output is available again, and the waiting request for LNKC_EPOCH is met (R176, R635, R637). -/
def Dev.startupPass (d : Dev) : Dev :=
  if d.chk.estate = 1 then d
  else
    let d : Dev := { d with chk := { d.chk with estate := 1 } }
    if d.chk.wantEpoch then
      let (i, d) := d.draw
      { d with lnkc := { d.lnkc with epoch := entropyWord i }, chk := { d.chk with wantEpoch := false } }
    else d

/-- MASK_RESEED: a new seed while output is available; otherwise the generator keeps its last one (R633, R637). -/
def Dev.maskReseed (d : Dev) : Dev :=
  if d.chk.estate = 1 then
    let (i, d) := d.draw
    { d with chk := { d.chk with maskSeed := Config.entropy i, maskCount := 0 } }
  else d

/-! ### Meanings -/

/-- SENSOR_SAMPLE (R740); behaviour is undefined above 125 °C on a yard or gatehouse sensor (R759). -/
def execSensorSample (rs : List (Nat × Option Int)) (s : State) : Host.Outcome State Fault Refusal :=
  if s.dev.glb.resetN && s.dev.ytRun && decide (s.dev.pwr.sampledAt + 1000000 ≤ s.dev.now) && overLimit rs then .fault .junctionAbove125
  else if s.dev.glb.resetN && (!s.dev.ytRun || decide (s.dev.now < s.dev.pwr.sampledAt + 1000000)) then .next s
  else s.run fun d => ((List.range 4).foldl Dev.groomTick d).sampleOp rs

/-- GROOMER_RUN (R672). -/
def execGroomerRun (st k : Nat) (fs : List Finding) (s : State) : Host.Outcome State Fault Refusal := s.run fun d => d.groomerRunOp st k fs

/-- PENDING_LIST_SERVICE (R657). -/
def execPendingListService (st : Nat) (fs : List Finding) (s : State) : Host.Outcome State Fault Refusal := s.run fun d => d.pendingOp st fs

/-- BUCKET_LEAK (R658). -/
def execBucketLeak (b : Nat) (s : State) : Host.Outcome State Fault Refusal := s.run fun d => d.bucketLeakOp b

/-- STAGE_WRITE (R54). -/
def execStageWrite (pad : Nat) (key : List Byte) (s : State) : Host.Outcome State Fault Refusal := s.run fun d => d.stageWriteOp pad key

/-- BACKGROUND_RELOAD (R51). -/
def execBackgroundReload (pad : Nat) (key : List Byte) (i : Nat) (s : State) : Host.Outcome State Fault Refusal :=
  s.run fun d => d.reloadOp pad key i

/-- RESIDENCY_MOVE (R340). -/
def execResidencyMove (pad : Nat) (key : List Byte) (i : Nat) (s : State) : Host.Outcome State Fault Refusal :=
  s.run fun d => d.moveOp pad key i

/-- ENTROPY_HEALTH_FAIL (R636). -/
def execEntropyHealthFail (proportion : Bool) (s : State) : Host.Outcome State Fault Refusal := s.run fun d => d.healthFail proportion

/-- ENTROPY_STARTUP_PASS (R635). -/
def execEntropyStartupPass (s : State) : Host.Outcome State Fault Refusal := s.run Dev.startupPass

/-- MASK_RESEED (R633). -/
def execMaskReseed (s : State) : Host.Outcome State Fault Refusal := s.run Dev.maskReseed

end Sys2Proof.Machine
end

