-- ==== Sys2Proof/Machine/Nand.lean ====
section
/-! DEFINITION. The NAND side of the shed: programs, erases and reads that report (R558–R573, R590, R591, R597–R601), merges
(R582–R585, R594, R600), checkpoints (R579–R581), formats (R602, R603), and the loss of NCLK (R720). Programs report stripe by
stripe, a journal unit, an identity page, a checkpoint or a merge copy each as a whole. -/

namespace Sys2Proof.Machine

open Sys2Proof

/-! ### Failing blocks -/

/-- The channel of a position of a superblock: superblocks below 8 are the checkpoint region (R553). -/
def sblkChannel (sb pos : Nat) : Nat := 4 * (if sb < 8 then sb / 2 else sb % 4) + pos % 4

/-- A BADBLK record, where records can be made. -/
def Dev.badBlkRec (d : Dev) (sb pos : Nat) (retired : Bool) : Dev :=
  if d.canJournal then (d.appendRec (.badBlk sb (pos % 4) retired)).2 else d

/-- A spare block of the failed block's channel takes its place (R590); `none` when the channel has none. -/
def Dev.takeSpare (d : Dev) (sb pos : Nat) : Option Dev :=
  let ch := sblkChannel sb pos
  if d.shd.spares.getD ch 0 = 0 then none
  else some (({ d with shd := { d.shd with spares := listUpd d.shd.spares ch (· - 1) } } : Dev).badBlkRec sb pos false)

/-- A block of a superblock in use has failed a program: a spare replaces it, or the superblock takes no more stripes and is
retired when nothing references it (R590). -/
def Dev.blockFailed (d : Dev) (sb pos : Nat) : Dev :=
  match d.takeSpare sb pos with
  | some d => d
  | none =>
    if sb < 8 ∨ (d.sblk sb).bad.isSome then d
    else
      let d := (d.updSblk sb fun b => { b with bad := some (pos % 4), closed := true }).badBlkRec sb pos true
      if d.shd.jhead = sb then { d with shd := { d.shd with jpages := 4 * d.stripesPerSblk } } else d

/-! ### Records that are lost -/

def Dev.endMerge (d : Dev) (lblk : Nat) : Dev :=
  { d with shd := { d.shd with merging := d.shd.merging.filter fun x => x != lblk } }

/-- The stripe at a page becomes a FILL stripe. -/
def Dev.fillStripe (d : Dev) (sb page : Nat) : Dev :=
  d.updSblk sb fun b => { b with stripes := listUpd b.stripes page fun s => { s with kind := kindFill, bytes := [], good := true } }

/-- A segment of a job has failed its program finally (R591). -/
def Dev.stripeLost (d : Dev) (sb page job : Nat) : Dev :=
  ((d.fillStripe sb page).updJob job fun j => { j with failed := true, left := j.left - 1 }).advanceJob job

/-- Takes the stripe programs of superblock `i` off the list. -/
def Dev.stripesOn (d : Dev) (i : Nat) : List (Nat × Nat) :=
  d.shd.progs.filterMap fun p => match p.what with
    | .stripe sb page job _ => if sb = i then some (page, job) else none
    | _ => none

def progOn (i : Nat) (p : Prog) : Bool :=
  match p.what with
  | .stripe sb _ _ _ => sb == i
  | _ => false

/-- A log block that cannot be opened: its stripes fail finally. -/
def Dev.logLost (d : Dev) (lblk i : Nat) : Dev :=
  let ps := d.stripesOn i
  let d : Dev := { d with shd := { d.shd with progs := d.shd.progs.filter fun p => !progOn i p } }
  let d := ps.foldl (fun d p => d.stripeLost i p.1 p.2) d
  (({ d with shd := { d.shd with logs := SMap.del d.shd.logs lblk } } : Dev).releaseSblk i)

/-- A record that can never be durable (R575, R597, R598). A copy that is lost leaves its journal superblock as it is (R581). -/
def Dev.recordLost (d : Dev) (r : JRec) : Dev :=
  let keeps := fun i => !(d.journalOn i).any fun x => x.seq == r.seq
  let d : Dev := { d with shd := { d.shd with jmerge := d.shd.jmerge.filter keeps } }
  match r.body with
  | .logOpen lblk i => if SMap.find d.shd.logs lblk = some i then d.logLost lblk i else d
  | .merge lblk typ new _ =>
    let d := d.endMerge lblk
    if typ = 3 ∨ typ = 4 then d.releaseSblk new else d
  | .unmap lblk _ => d.endMerge lblk
  | _ => d.recLost r

/-- Waiting CREATEs whose identity page will never be programmed end with ST_MEDIA_ERROR. -/
def Dev.createsLost (d : Dev) : Dev :=
  { d with cmds := d.cmds.map fun c =>
      if c.stage == .ended && c.body.opcode == Opcode.paddock.code && c.body.subop == 0 && c.status == Status.ok.code && !d.durableDone c then
        { c with status := Status.mediaError.code }
      else c }

/-- A final program failure (R591). -/
def Dev.progFinal (d : Dev) (w : ProgFor) : Dev :=
  match w with
  | .stripe sb page job _ => d.stripeLost sb page job
  | .unit u =>
    let recs := ((d.shd.units.find? fun x => x.id == u).map JUnit.recs).getD []
    let d : Dev := { d with shd := { d.shd with units := d.shd.units.filter fun x => x.id != u } }
    let d := recs.foldl Dev.recordLost d
    d.settleJournal (d.shd.units.length + 1)
  | .identity _ => d.createsLost
  | .checkpoint _ => d
  | .merge lblk typ target =>
    let d := d.endMerge lblk
    if typ = 2 then
      d.updSblk target fun b => { b with stripes := b.stripes.map fun s => if s.good then s else { s with kind := kindFill, bytes := [], good := true } }
    else d.releaseSblk target

/-! ### Programs -/

/-- The superblock of a journal unit. -/
def Dev.unitSblk (d : Dev) (u : Nat) : Nat :=
  match d.shd.units.find? fun x => x.id == u with
  | some x => (x.recs.head?.map JRec.sblk).getD 0
  | none => 0

def isIdentity (p : Prog) : Bool :=
  match p.what with
  | .identity _ => true
  | _ => false

def isCkpt (p : Prog) : Bool :=
  match p.what with
  | .checkpoint _ => true
  | _ => false

/-- The active identity superblock has room for another page; each takes a program unit (R558, R578). -/
def Dev.identRoom (d : Dev) : Bool := decide (d.shd.idUsed + d.progUnit ≤ 4 * d.stripesPerSblk)

/-- A full identity superblock has the other of the pair erased (R578). -/
def Dev.turnIdentity (d : Dev) : Dev := if d.identRoom || d.shd.idOther.isSome then d else d.queueErase (1 - d.shd.idAct)

/-- The slot after the newest valid checkpoint (R580). -/
def Dev.nextSlot (d : Dev) : Nat := 2 + (d.shd.ckptSlot - 1) % 6

/-- The slot of the checkpoint that is written next is erased first (R580). -/
def Dev.cleanSlot (d : Dev) : Dev :=
  if d.shd.progs.any isCkpt then ({ d with shd := { d.shd with ckptClean := false } } : Dev).queueErase d.nextSlot else d

/-- The program has been issued: its superblock is erased, its LOGOPEN durable, its program unit whole (R558, R571, R572), host
programs served (R586); identity pages follow each other, and so do checkpoints (R577, R578, R580). -/
def Dev.progIssued (d : Dev) (p : Prog) : Bool :=
  match p.what with
  | .stripe sb page _ _ =>
    (d.sblk sb).erased && (d.sblk sb).openDurable && decide (4 < d.freeSblks (sb % 4)) &&
      decide ((page / d.progUnit + 1) * d.progUnit ≤ (d.sblk sb).stripes.length)
  | .unit u => (d.sblk (d.unitSblk u)).erased
  | .identity _ => d.shd.progs.find? isIdentity == some p && (d.identRoom || d.shd.idOther.isSome)
  | .checkpoint _ => d.shd.progs.find? isCkpt == some p && d.shd.ckptClean
  | .merge _ _ target => (d.sblk target).erased

/-- READ_ONLY: what has not been issued fails finally, identity pages excepted (R600). -/
def Dev.enterReadOnly (d : Dev) : Dev :=
  if d.shd.st ≠ shdReady then d
  else
    let waits := d.shd.progs.filter fun p => !isIdentity p && !d.progIssued p
    let recs := d.shd.gather
    let d : Dev := { d with shd := { d.shd with
      st := shdReadOnly, readOnly := true, progs := d.shd.progs.filter (fun p => isIdentity p || d.progIssued p), gather := [] } }
    recs.foldl Dev.recordLost (waits.foldl (fun d p => d.progFinal p.what) d)

/-- The program added last counts as a further try. -/
def Dev.lastTry (d : Dev) (n : Nat) : Dev :=
  match d.shd.progs.getLast? with
  | none => d
  | some p => { d with shd := { d.shd with progs := d.shd.progs.dropLast ++ [{ p with tries := n }] } }

/-- A stripe is written again, to its own logical block or to an LSN of another (R590, R591). -/
def Dev.rewriteStripe (d : Dev) (kind : Nat) (bytes : List Byte) (job seg : Nat) : Option Dev :=
  match d.findJob job with
  | none => none
  | some j =>
    match j.lsns.getD seg none with
    | none => none
    | some n =>
      if d.logUsable (lsnBlock d.stripesPerSblk n) then d.writeStripe n kind bytes job seg
      else
        match d.nextLsn with
        | none => none
        | some m =>
          let d := (d.updJob job fun j => { j with lsns := listUpd j.lsns seg fun _ => some m }).holdLsn m
          (d.releaseLsn n).writeStripe m kind bytes job seg

/-- A journal unit is programmed again at the journal head (R590). -/
def Dev.rewriteUnit (d : Dev) (u tries : Nat) : Option Dev :=
  match d.shd.units.find? fun x => x.id == u with
  | none => none
  | some x =>
    let k := d.progUnit
    let f := fillUnit k (0, 0) x.recs
    let n := ceilDiv (pagesTo f.2.1) k * k
    match d.journalHead n with
    | none => none
    | some d =>
      let recs := f.1.map fun r => { r with sblk := d.shd.jhead, page := d.shd.jpages + r.page }
      let d : Dev := { d with shd := { d.shd with
        units := d.shd.units.map fun y => if y.id = u then { y with recs := recs } else y,
        jpages := d.shd.jpages + n, jsince := d.shd.jsince + n } }
      some ((d.addProg (.unit u)).lastTry tries)

/-! ### Merges -/

/-- The stripes of a log block are offsets 0, 1, 2, … in page order. -/
def inPageOrder (i : Nat) : List Stripe → Bool
  | [] => true
  | s :: r => s.off == i && s.kind != kindFill && inPageOrder (i + 1) r

/-- The copy of an offset that a merge writes: the newest of log and data, or FILL (R583). -/
def mergeStripe (log data : List Stripe) (now pseq off : Nat) : Stripe :=
  match (newestStripe log off).orElse fun _ => newestStripe data off with
  | some s => { s with good := false, since := now, pseq := pseq }
  | none => { kind := kindFill, off := off, bytes := [], good := false, since := now, pseq := pseq }

def Dev.stripesOf (d : Dev) (sb : Option Nat) : List Stripe := (sb.map fun i => (d.sblk i).stripes).getD []

/-- A merge by copy into a fresh superblock; without one the shed is READ_ONLY (R582, R600). -/
def Dev.mergeFresh (d : Dev) (lblk typ : Nat) (most : Bool) : Dev :=
  match d.allocSblk (lblk % 4) most (.dataBlk lblk) with
  | none => d.enterReadOnly
  | some (i, d) =>
    let log := d.stripesOf (SMap.find d.shd.logs lblk)
    let data := d.stripesOf (SMap.find d.shd.bmap lblk)
    let d := d.updSblk i fun b => { b with stripes := (List.range d.stripesPerSblk).map (mergeStripe log data d.now d.shd.pseq) }
    let d : Dev := { d with shd := { d.shd with merging := d.shd.merging ++ [lblk] } }
    d.addProg (.merge lblk typ i)

/-- What a merge of the type releases. -/
def Dev.mergeReleases (d : Dev) (lblk typ : Nat) : List Nat :=
  (SMap.find d.shd.bmap lblk).toList ++ (if typ = 3 then (SMap.find d.shd.logs lblk).toList else [])

/-- The MERGE record of a finished copy. -/
def Dev.mergeRecord (d : Dev) (lblk typ new : Nat) : Dev :=
  if d.canJournal then (d.appendRec (.merge lblk typ new (d.mergeReleases lblk typ))).2
  else
    let d := d.endMerge lblk
    if typ = 3 ∨ typ = 4 then d.releaseSblk new else d

/-- The log block of a logical block is merged: switch, partial or full (R582). -/
def Dev.mergeLog (d : Dev) (lblk : Nat) : Dev :=
  match SMap.find d.shd.logs lblk with
  | none => d
  | some i =>
    let ss := (d.sblk i).stripes
    let k := ss.length
    let s := d.stripesPerSblk
    if d.shd.merging.contains lblk || k == 0 || !ss.all Stripe.good then d
    else if inPageOrder 0 ss && k == s then
      ({ d with shd := { d.shd with merging := d.shd.merging ++ [lblk] } } : Dev).mergeRecord lblk 1 i
    else if inPageOrder 0 ss && !(d.sblk i).closed && !(SMap.find d.shd.bmap lblk).isNone then
      let data := d.stripesOf (SMap.find d.shd.bmap lblk)
      let d := d.updSblk i fun b =>
        { b with stripes := b.stripes ++ ((List.range s).drop k).map (mergeStripe [] data d.now d.shd.pseq) }
      ({ d with shd := { d.shd with merging := d.shd.merging ++ [lblk] } } : Dev).addProg (.merge lblk 2 i)
    else d.mergeFresh lblk 3 false

/-- A journal superblock that is being retired, or has a unit in flight. -/
def Dev.journalBusy (d : Dev) (i : Nat) : Bool :=
  i == d.shd.jhead || (d.sblk i).use != .journal || d.shd.jmerge.contains i ||
    (d.shd.units.any fun u => u.recs.any fun r => r.sblk == i) ||
    (d.shd.gather ++ d.shd.units.flatMap JUnit.recs).any fun r => r.body == .jretire i

/-- A copy of a record is appended with its own sequence number (R584). -/
def Dev.appendCopy (d : Dev) (r : JRec) : Dev :=
  let d : Dev := { d with shd := { d.shd with
    gather := d.shd.gather ++ [r], gatherAt := if d.shd.gather.isEmpty then d.now else d.shd.gatherAt } }
  if (fillUnit d.progUnit (0, 0) d.shd.gather).2.2.isEmpty then d else d.issueUnit

/-- A journal merge: the live records are copied to the head; JRETIRE follows once they are durable there and the identifiers of their
index records are updated (R582, R584). -/
def Dev.mergeJournal (d : Dev) (i : Nat) : Dev :=
  let rs := d.journalOn i
  let live := rs.filter (recIsLive d)
  if d.journalBusy i || decide (rs.length ≤ 4 * live.length) then d
  else (({ d with shd := { d.shd with jmerge := d.shd.jmerge ++ [i] } } : Dev).retireMoved |> fun d =>
    if d.shd.jmerge.contains i then live.foldl Dev.appendCopy d else d)

/-- Pairs (logical block, key) of the log blocks that satisfy `p`; the one with the least key, the lower number on a tie. -/
def Dev.pickLog (d : Dev) (p : Nat → Bool) (key : Sblk → Nat) (most : Bool) : Option Nat :=
  (pickErases most ((d.shd.logs.filter fun e => p e.1 && !d.shd.merging.contains e.1 && (d.sblk e.2).stripes.all Stripe.good).map
    fun e => (e.1, key (d.sblk e.2)))).map Prod.fst

/-- Erase counts of the superblocks of group g: the least and the greatest. -/
def Dev.eraseRange (d : Dev) (g : Nat) : Nat × Nat :=
  let known := (d.shd.sblks.filter fun e => e.1 % 4 == g && e.2.use != .retired).map fun e => e.2.erases
  let low := if known.length < d.formedAt g - 2 then 0 else known.foldl min (known.headD 0)
  (low, known.foldl max 0)

/-- The data superblock of group g with the lowest erase count, as its logical block: one with an empty log (R582, R589). -/
def Dev.wearBlock (d : Dev) (g : Nat) : Option Nat :=
  (pickErases false ((d.shd.bmap.filter fun e =>
    e.1 % 4 == g && (SMap.find d.shd.logs e.1).isNone && !d.shd.merging.contains e.1).map fun e =>
      (e.1, (d.sblk e.2).erases))).map Prod.fst

/-- MERGE_START (R585, R589, R594): a merge whose condition holds starts; otherwise nothing happens. -/
def Dev.mergeStartOp (d : Dev) (why : MergeCause) : Dev :=
  if d.shd.st ≠ shdReady ∨ d.shd.nclkLost = true then d
  else
    match why with
    | .logFull lblk =>
      match SMap.find d.shd.logs lblk with
      | some i => if d.stripesPerSblk ≤ (d.sblk i).stripes.length then d.mergeLog lblk else d
      | none => d
    | .closedLog lblk =>
      match SMap.find d.shd.logs lblk with
      | some i => if (d.sblk i).closed then d.mergeLog lblk else d
      | none => d
    | .tooManyLogs =>
      if d.shd.logs.length < 1024 then d
      else
        match d.pickLog (fun _ => true) Sblk.openSeq false with
        | some lblk => d.mergeLog lblk
        | none => d
    | .lowFree g =>
      if 4 ≤ g ∨ 64 < d.freeSblks g then d
      else
        match d.pickLog (fun l => l % 4 == g) (fun b => b.stripes.length) true with
        | some lblk => d.mergeLog lblk
        | none => d
    | .journal i => d.mergeJournal i
    | .wear g =>
      let r := d.eraseRange g
      if d.shd.wlEn = false ∨ 4 ≤ g ∨ r.2 - r.1 ≤ d.shd.gap then d
      else
        match d.wearBlock g with
        | some lblk => d.mergeFresh lblk 4 true
        | none => d

/-! ### Checkpoints -/

/-- The journal prefix that is durable. -/
def Dev.durablePrefix (d : Dev) : Nat :=
  ((d.shd.gather ++ d.shd.units.flatMap JUnit.recs).map JRec.seq).foldl min d.shd.jseq - 1

/-- Log blocks whose LOGOPEN record is durable. -/
def Dev.durableLogs (d : Dev) : SMap Nat := d.shd.logs.filter fun e => (d.sblk e.2).openDurable

/-- The newest PADDOCK record of an id: (subop, epoch, attributes) (R564). -/
def newestPad (j : List JRec) (pad : Nat) : Option (Nat × Nat × Paddock) :=
  (j.foldl (fun (a : Option (Nat × Nat × Nat × Paddock)) r =>
    match r.body with
    | .paddock sub p e x =>
      if p = pad ∧ a.all (fun y => decide (y.1 < r.seq)) = true then some (r.seq, sub, e, x) else a
    | _ => a) none).map fun y => y.2

/-- Ids that PADDOCK records name. -/
def padIds (j : List JRec) : List Nat :=
  (j.filterMap fun r => match r.body with
    | .paddock _ p _ _ => some p
    | _ => none).eraseDups

/-- Surviving paddocks: id, epoch, attributes, as the paddock table of the newest checkpoint gives them and the journal changes them
(R50, R564, R579). -/
def survivors (base : SMap (Nat × Paddock)) (j : List JRec) : SMap (Nat × Paddock) :=
  (padIds j).foldl (fun (m : SMap (Nat × Paddock)) p =>
    match newestPad j p with
    | some (sub, e, x) => if sub = subDelete ∨ x.persist = 0 then SMap.del m p else SMap.put m p (e, x)
    | none => m) base

/-- The paddock table. -/
def Dev.padTable (d : Dev) : SMap (Nat × Paddock) := survivors ((d.shd.ckpt.map Ckpt.pads).getD []) d.shd.journal

/-- The tables as a checkpoint holds them (R579). -/
def Dev.ckptOf (d : Dev) (n covers : Nat) : Ckpt :=
  { seq := n, covers := covers, bmap := d.shd.bmap,
    logs := d.durableLogs.map (fun e => (e.1, e.2, (d.sblk e.2).ptr)),
    sblks := d.shd.sblks.map (fun e => (e.1, e.2.use, e.2.erases)),
    journals := (d.shd.sblks.filter fun e => e.2.use == .journal).map
      (fun e => (e.1, ((d.journalOn e.1).filter (recIsLive d)).length)),
    refs := SMap.keys d.shd.refs, pads := d.padTable }

/-- A checkpoint is started (R580). -/
def Dev.startCheckpoint (d : Dev) : Dev :=
  if d.shd.st ≠ shdReady then d
  else
    let n := d.shd.ckptNum + 1
    let c := d.ckptOf n d.durablePrefix
    let first := !d.shd.progs.any isCkpt
    let d := ({ d with shd := { d.shd with ckptNum := n, ckptAt := d.now, jsince := 0 } } : Dev).addProg (.checkpoint c)
    if first then d.cleanSlot else d

/-- CHECKPOINT: one is due by its interval or by 65,536 JOURNAL pages (R580). -/
def Dev.checkpointOp (d : Dev) : Dev :=
  if d.shd.ckptAt + d.shd.ckptSec * 1000000000 ≤ d.now ∨ 65536 ≤ d.shd.jsince then d.startCheckpoint else d

/-- A valid checkpoint takes its slot; it retires the journal superblocks it covers that hold no live record (R580, R581). -/
def Dev.checkpointDone (d : Dev) (c : Ckpt) : Dev :=
  if (d.shd.ckpt.any fun x => decide (c.seq ≤ x.seq)) then d.cleanSlot
  else
    let d := ({ d with shd := { d.shd with ckpt := some c, ckptSlot := d.nextSlot } } : Dev).cleanSlot
    if !d.canJournal then d
    else
      let done := (d.shd.sblks.filter fun e => !d.journalBusy e.1 &&
        (d.journalOn e.1).all fun r => decide (r.seq ≤ c.covers) && !recIsLive d r).map Prod.fst
      done.foldl (fun d i => (d.appendRec (.jretire i)).2) d

/-! ### Reports of programs -/

/-- An IDENTITY page has been programmed, or has failed: it is used. The first page in the other superblock makes it the active one
(R578). -/
def Dev.identUsed (d : Dev) (ok : Bool) : Dev :=
  let u := d.progUnit
  let shd := d.shd
  let shd : Shed := match shd.idOther with
    | none => { shd with idUsed := shd.idUsed + u }
    | some n =>
      if ok then { shd with idAct := 1 - shd.idAct, idUsed := n + u, idOther := none }
      else { shd with idOther := if n + 2 * u ≤ 4 * d.stripesPerSblk then some (n + u) else none }
  ({ d with shd := shd } : Dev).turnIdentity

/-- A program that completed (R569, R570, R574, R577, R579, R582). -/
def Dev.progOk (d : Dev) (w : ProgFor) : Dev :=
  match w with
  | .stripe sb page job _ =>
    let d := d.updSblk sb fun b => { b with stripes := listUpd b.stripes page fun s => { s with good := true } }
    (d.updJob job fun j => { j with left := j.left - 1 }).advanceJob job
  | .unit u =>
    let d : Dev := { d with shd := { d.shd with
      units := d.shd.units.map fun x => if x.id = u then { x with complete := true } else x } }
    d.settleJournal d.shd.units.length
  | .identity i => ({ d with shd := { d.shd with ident := some i } } : Dev).identUsed true
  | .checkpoint c => d.checkpointDone c
  | .merge lblk typ target =>
    (d.updSblk target fun b => { b with stripes := b.stripes.map fun s => { s with good := true } }).mergeRecord lblk typ target

/-- An identity page is programmed again, ahead of later ones. -/
def Dev.addProgFirst (d : Dev) (p : Prog) : Dev :=
  { d with shd := { d.shd with progs := { p with tries := p.tries + 1 } :: d.shd.progs } }

/-- A program that failed at channel position `pos` is tried again, at most 3 times (R590, R591). -/
def Dev.progFail (d : Dev) (p : Prog) (pos : Nat) : Dev :=
  let d : Dev := { d with shd := { d.shd with cntPfail := sat1 d.shd.cntPfail } }
  let final := decide (3 ≤ p.tries) || d.shd.st == shdReadOnly
  match p.what with
  | .identity _ => ((d.blockFailed (if d.shd.idOther.isSome then 1 - d.shd.idAct else d.shd.idAct) pos).identUsed false).addProgFirst p
  | .checkpoint _ => if final then d.cleanSlot else ((d.blockFailed d.nextSlot pos).addProgFirst p).cleanSlot
  | .stripe sb page job seg =>
    let s := (d.sblk sb).stripes[page]?
    let d := d.blockFailed sb pos
    let again := if final then none else s.bind fun s => (d.fillStripe sb page).rewriteStripe s.kind s.bytes job seg
    match again with
    | some d => d.lastTry (p.tries + 1)
    | none => d.stripeLost sb page job
  | .unit u =>
    let d := d.blockFailed (d.unitSblk u) pos
    match (if final then none else d.rewriteUnit u (p.tries + 1)) with
    | some d => d
    | none => d.progFinal p.what
  | .merge lblk typ target =>
    let d := (d.blockFailed target pos).progFinal p.what
    if final then d
    else
      let n := d.nextId
      let d := d.mergeFresh lblk (if typ = 2 then 3 else typ) (typ == 4)
      if d.nextId = n then d else d.lastTry (p.tries + 1)

/-- NAND_PROGRAM_DONE. With NCLK lost every program fails finally (R720). -/
def Dev.programDone (d : Dev) (id : Nat) (failPos : Option Nat) : Dev :=
  match d.shd.progs.find? fun p => p.id == id with
  | none => d
  | some p =>
    let gone : Dev := { d with shd := { d.shd with progs := d.shd.progs.filter fun x => x.id != id } }
    if d.shd.nclkLost then gone.progFinal p.what
    else if !d.progIssued p then d
    else
      match failPos with
      | none => gone.progOk p.what
      | some pos => gone.progFail p pos

/-! ### Reports of erases -/

def renameProg (old new : Nat) (p : Prog) : Prog :=
  match p.what with
  | .stripe sb page job seg => if sb = old then { p with what := .stripe new page job seg } else p
  | .merge lblk typ t => if t = old then { p with what := .merge lblk typ new } else p
  | _ => p

/-- A superblock allocated and not yet erased gives its place to another of its group (R590). -/
def Dev.replaceSblk (d : Dev) (old : Nat) (b : Sblk) : Option Dev :=
  match d.allocSblk (old % 4) false b.use with
  | none => none
  | some (new, d) =>
    let d := d.updSblk new fun x => { x with stripes := b.stripes, openSeq := b.openSeq, closed := b.closed }
    let d : Dev := { d with shd := { d.shd with
      progs := d.shd.progs.map (renameProg old new), jhead := if d.shd.jhead = old then new else d.shd.jhead,
      units := d.shd.units.map fun u => { u with recs := u.recs.map fun r => if r.sblk = old then { r with sblk := new } else r } } }
    match b.use with
    | .log lblk => some ((({ d with shd := { d.shd with logs := SMap.put d.shd.logs lblk new } } : Dev).appendRec (.logOpen lblk new)).2)
    | _ => some d

/-- No superblock can take what the failed one was allocated for (R591, R600). -/
def Dev.sblkLost (d : Dev) (i : Nat) (b : Sblk) : Dev :=
  match b.use with
  | .log lblk => d.logLost lblk i
  | .dataBlk lblk =>
    let ps := d.shd.progs.filter fun p => match p.what with
      | .merge l _ t => l == lblk && t == i
      | _ => false
    let d : Dev := { d with shd := { d.shd with progs := d.shd.progs.filter fun p => !ps.contains p } }
    (ps.foldl (fun d p => d.progFinal p.what) d).enterReadOnly
  | .journal =>
    let us := (d.shd.units.filter fun u => u.recs.any fun r => r.sblk == i).map JUnit.id
    let d : Dev := { d with shd := { d.shd with
      jpages := if d.shd.jhead = i then 4 * d.stripesPerSblk else d.shd.jpages,
      progs := d.shd.progs.filter fun p => match p.what with
        | .unit u => !us.contains u
        | _ => true } }
    us.foldl (fun d u => d.progFinal (.unit u)) d
  | _ => d

/-- The superblock is retired; its other blocks become spares (R590). -/
def Dev.retireSblk (d : Dev) (i pos : Nat) : Dev :=
  let d := d.updSblk i fun b => { b with use := .retired, stripes := [], closed := true }
  { d with shd := { d.shd with
    retired := satAdd 16 d.shd.retired 1, spares := addSpares d.shd.spares (i % 4) (pos % 4),
    erasing := d.shd.erasing.filter fun x => x != i } }

/-- A block failed its erase (R590). -/
def Dev.eraseFail (d : Dev) (i pos : Nat) : Dev :=
  let d : Dev := { d with shd := { d.shd with cntEfail := sat1 d.shd.cntEfail } }
  match d.takeSpare i pos with
  | some d => d
  | none =>
    let b := d.sblk i
    if i < 8 then d
    else if b.use = .free then (d.retireSblk i pos).badBlkRec i pos true
    else
      match d.replaceSblk i b with
      | some d => (d.retireSblk i pos).badBlkRec i pos true
      | none => ((d.sblkLost i b).retireSblk i pos).badBlkRec i pos true

/-- NAND_ERASE_DONE: a superblock queued for erase with no read in flight to it (R572, R573). -/
def Dev.eraseDone (d : Dev) (i : Nat) (failPos : Option Nat) : Dev :=
  if !d.shd.erasing.contains i || d.shd.nclkLost || d.shd.reads.any (fun r => r.sblk == i) then d
  else
    match failPos with
    | some pos => d.eraseFail i pos
    | none =>
      let d := if i < 8 then
          { d with shd := { d.shd with
              ckErases := listUpd d.shd.ckErases i (· + 1), idOther := if i < 2 then some 0 else d.shd.idOther,
              ckptClean := d.shd.ckptClean || decide (2 ≤ i) } }
        else d.updSblk i fun b => { b with erased := true, erases := b.erases + 1 }
      { d with shd := { d.shd with erasing := d.shd.erasing.filter fun x => x != i } }

/-! ### Reports of reads -/

/-- The segment that command c waits for; of duplicate keys of a list the first that waits (R320). -/
def Dev.fetchOf (d : Dev) (c : Nat) (key : List Byte) (seg : Nat) : Option Fetch :=
  (d.findCmd c).bind fun x => x.fetches.find? fun f => f.key == key && f.seg == seg && !f.arrived

/-- A segment reaches the command that asked for it. -/
def Dev.deliverFetch (d : Dev) (c : Nat) (key : List Byte) (seg status : Nat) (bytes : List Byte) : Dev :=
  let at_ := (d.fetchOf c key seg).map Fetch.pos
  let take := fun (f : Fetch) =>
    if at_ = some f.pos ∧ f.key = key ∧ f.seg = seg ∧ f.arrived = false then
      { f with arrived := true, status := status, bytes := if status = 0 then bytes else [] }
    else f
  d.updCmd c fun x => { x with fetches := x.fetches.map take }

/-- The write sequence number of the value a command reads. -/
def Dev.fetchWseq (d : Dev) (c : Nat) (key : List Byte) (seg : Nat) : Option Nat := (d.fetchOf c key seg).map Fetch.wseq

/-- A segment comes back to a loft, as long as its record still names the LSN that was read (R48, R51). -/
def Dev.reloadFrom (d : Dev) (pad : Nat) (key : List Byte) (seg lsn : Nat) (bytes : List Byte) : Dev :=
  match d.peek pad key with
  | some r => if r.lsns.getD seg none = some lsn then d.reloadSeg pad key seg r.wseq bytes else d
  | none => d

/-- What a shed read that has ended delivers (R559, R601, R614, R638–R640). -/
def Dev.readArrived (d : Dev) (r : NRead) (ok : Bool) (bytes : List Byte) : Dev :=
  match r.what with
  | .cmd c pad key seg =>
    match d.fetchWseq c key seg with
    | none => d
    | some w =>
      let (st, d) := match (d.recOf pad key w).or (d.capturedRec c key w) with
        | some x => d.shedSegment x seg ok bytes
        | none => (if ok then 0 else Status.mediaError.code, d)
      let d := d.deliverFetch c key seg st bytes
      if st = 0 ∧ (d.pad pad).residency = 1 then d.reloadFrom pad key seg r.lsn bytes else d
  | .recovery c pad key seg w ue =>
    let (st, d) := d.recovered (d.capturedRec c key w) pad key seg w ue ok bytes
    d.deliverFetch c key seg st bytes
  | .groomer pad key seg w => (d.recovered none pad key seg w true ok bytes).2
  | .reload pad key seg => if ok then (d.reloadFrom pad key seg r.lsn bytes).reloadedPad pad else d

/-- NAND_READ_DONE: `ok` is false when a page stays uncorrectable (R549). -/
def Dev.nandReadDone (d : Dev) (id : Nat) (ok : Bool) : Dev :=
  match d.shd.reads.find? fun r => r.id == id with
  | none => d
  | some r =>
    let d : Dev := { d with shd := { d.shd with
      reads := d.shd.reads.filter (fun x => x.id != id),
      cntRdunc := if !ok && !d.shd.nclkLost then sat1 d.shd.cntRdunc else d.shd.cntRdunc } }
    let bytes := ((d.locateLsn r.lsn).map fun x => x.2.bytes).getD []
    (d.readArrived r (ok && !d.shd.nclkLost && (d.locateLsn r.lsn).isSome) bytes).releaseLsn r.lsn

/-! ### Small periodic steps -/

/-- PROGRAM_UNIT_FILL: the program unit of a log block is completed with FILL stripes 10 µs after its oldest stripe (R558). -/
def Dev.unitFillOp (d : Dev) (lblk : Nat) : Dev :=
  match SMap.find d.shd.logs lblk with
  | none => d
  | some i =>
    let ss := (d.sblk i).stripes
    let part := ss.length % d.progUnit
    let oldest := (ss.drop (ss.length - part)).head?
    match oldest with
    | none => d
    | some s =>
      if s.since + 10000 ≤ d.now then
        let fill : Stripe := { kind := kindFill, off := 0, bytes := [], good := true, since := d.now, pseq := d.shd.pseq }
        let d : Dev := { d with shd := { d.shd with pseq := d.shd.pseq + 1 } }
        d.updSblk i fun b => { b with stripes := b.stripes ++ List.replicate (d.progUnit - part) fill }
      else d

/-- PTR_RECORD: 32 further stripes of a log block have been programmed (R571). -/
def Dev.ptrRecordOp (d : Dev) (lblk : Nat) : Dev :=
  match SMap.find d.shd.logs lblk with
  | none => d
  | some i =>
    let b := d.sblk i
    if d.canJournal && decide (b.ptr + 32 ≤ (b.stripes.filter Stripe.good).length) then
      ((d.updSblk i fun b => { b with ptr := b.ptr + 32 }).appendRec (.ptr lblk (b.ptr + 32))).2
    else d

/-- PRATE_UPDATE (R587): the rate is a function of the four shares that the spec does not give (log 3). -/
def Dev.prateOp (d : Dev) : Dev :=
  if d.shd.st = shdReady then
    { d with shd := { d.shd with prate := Config.programRate ((List.range 4).map fun g => muckShare (d.freeSblks g)) % 2 ^ 32 } }
  else d

/-- JOURNAL_UNIT_PAD: 4 µs after its first record the unit is padded and programmed (R569). -/
def Dev.unitPadOp (d : Dev) : Dev := if d.shd.gatherAt + 4000 ≤ d.now then d.issueUnit else d

/-! ### Formats and the identity -/

/-- A STAGED, DURABLE or spill paddock is live or held (R602). -/
def Dev.shedPaddocks (d : Dev) : Bool :=
  d.paddocks.any fun p => (p.2.live || p.2.st == 4) && (p.2.persist != 0 || p.2.residency != 0)

/-- A write to SHD_FORMAT (R602). Without NAND there is nothing to format. -/
def Dev.formatWrite (d : Dev) (key : Nat) : Dev :=
  let st := d.shd.st
  if key ≠ 0x53484544 ∨ st = shdAbsent ∨ st = shdRecovering ∨ st = shdFormatting then d
  else if st = shdBlank ∨ st = shdForeign ∨ d.shedPaddocks = false then
    { d with
      shd := { d.shd with
        st := shdFormatting, ident := none, ckpt := none, ckptSlot := 7, ckptClean := false, idAct := 0, idUsed := 0, idOther := none,
        ckErases := List.replicate 8 0, sblks := [], bmap := [], logs := [], refs := [], journal := [],
        units := [], gather := [], jhead := 0, jpages := 0, jsince := 0, progs := [], reads := [], erasing := [], jobs := [],
        delq := [], merging := [], jmerge := [], spares := List.replicate 16 0, retired := 0, readOnly := false },
      chk := { d.chk with wantFormat := true } }
  else d

/-- FORMAT_COMPLETE: a new identity and a checkpoint, once the entropy source gives the format identifier (R552, R602, R603,
R637). DESIGN CHOICE: a format carries the epoch high-water marks of the ids into the new identity; the spec says only "on this
shed" (R46, log 75). -/
def Dev.formatDone (d : Dev) (formed spares : List Nat) : Dev :=
  match d.shd.pop with
  | none => d
  | some p =>
    if d.shd.st ≠ shdFormatting ∨ d.chk.estate ≠ 1 then d
    else
      let (i, d) := d.draw
      let ident : Identity :=
        { formatId := Config.entropy i, variant := d.fuses.variantWord, pop := p, wbufGib := d.arb.wbufCur,
          nextGib := d.arb.wbufNext, formed := (List.range 4).map (fun g => formed.getD g 0),
          epochs := d.paddocks.filterMap fun e => if e.2.mark = 0 then none else some (e.1, e.2.mark) }
      { d with
        shd := { d.shd with
          st := shdReady, ident := some ident, idUsed := d.progUnit, ckpt := some (d.ckptOf (d.shd.ckptNum + 1) (d.shd.jseq - 1)),
          ckptSlot := 2, ckptNum := d.shd.ckptNum + 1, ckptAt := d.now, spares := (List.range 16).map (fun c => spares.getD c 0) },
        chk := { d.chk with wantFormat := false } }

/-- A write of ARB_WBUF.NEXT_GIB (R360, R577, R603, R606). -/
def Dev.wbufNext (d : Dev) (v : Nat) : Dev :=
  let g := max 2 (min 32 v)
  let d : Dev := { d with arb := { d.arb with wbufNext := g } }
  if d.shd.st = shdAbsent ∨ d.shd.st = shdBlank ∨ d.shd.st = shdForeign then
    ({ d with bru := { d.bru with copyGib := g } } : Dev).storeSoon
  else d.writeIdentity fun i => { i with nextGib := g }

/-- NCLK_UNLOCK: the shed channels stop until the next bring-up (R720). -/
def Dev.nclkUnlock (d : Dev) : Dev :=
  if d.shd.nclkLost then d
  else
    let d : Dev := { d with clk := { d.clk with lossN := true, nclk := false }, shd := { d.shd with nclkLost := true } }
    d.event Ev.clkUnlock.code 0x0004 d.clk.loss 0 0

/-! ### Meanings -/

/-- NAND_PROGRAM_DONE (R570). -/
def execNandProgramDone (id : Nat) (failPos : Option Nat) (s : State) : Host.Outcome State Fault Refusal :=
  s.run fun d => d.programDone id failPos

/-- NAND_ERASE_DONE (R572). -/
def execNandEraseDone (i : Nat) (failPos : Option Nat) (s : State) : Host.Outcome State Fault Refusal := s.run fun d => d.eraseDone i failPos

/-- NAND_READ_DONE (R559). -/
def execNandReadDone (id : Nat) (ok : Bool) (s : State) : Host.Outcome State Fault Refusal := s.run fun d => d.nandReadDone id ok

/-- MERGE_START (R585). -/
def execMergeStart (why : MergeCause) (s : State) : Host.Outcome State Fault Refusal := s.run fun d => d.mergeStartOp why

/-- PROGRAM_UNIT_FILL (R558). -/
def execProgramUnitFill (lblk : Nat) (s : State) : Host.Outcome State Fault Refusal := s.run fun d => d.unitFillOp lblk

/-- PTR_RECORD (R571). -/
def execPtrRecord (lblk : Nat) (s : State) : Host.Outcome State Fault Refusal := s.run fun d => d.ptrRecordOp lblk

/-- CHECKPOINT (R580). -/
def execCheckpoint (s : State) : Host.Outcome State Fault Refusal := s.run Dev.checkpointOp

/-- PRATE_UPDATE (R587). -/
def execPrateUpdate (s : State) : Host.Outcome State Fault Refusal := s.run Dev.prateOp

/-- JOURNAL_UNIT_PAD (R569). -/
def execJournalUnitPad (s : State) : Host.Outcome State Fault Refusal := s.run Dev.unitPadOp

/-- FORMAT_COMPLETE (R602). -/
def execFormatComplete (formed spares : List Nat) (s : State) : Host.Outcome State Fault Refusal := s.run fun d => d.formatDone formed spares

/-- NCLK_UNLOCK (R720). -/
def execNclkUnlock (s : State) : Host.Outcome State Fault Refusal := s.run Dev.nclkUnlock

end Sys2Proof.Machine
end

