-- ==== Sys2Proof/Machine/Links.lean ====
section
/-! DEFINITION. Freac links: replay (R137–R143), the capability exchange (R173–R177), the link state machine (R180–R184), and what a
link's loss and return do to sessions (R185–R198, R213–R216, R229). -/

namespace Sys2Proof.Machine

open Sys2Proof

/-! ### Frames that change link -/

/-- A frame sent on link n and not acknowledged keeps the number of the link that first carried it (R157, R185). -/
def Pkt.resentFrom (n : Nat) (p : Pkt) : Pkt := if p.olink = 0x3F then { p with olink := n } else p

/-- The frames a link holds: unacknowledged first, then queued (R185). -/
def Link.frames (l : Link) (n : Nat) : List Pkt := l.unacked.map (fun f => f.pkt.resentFrom n) ++ l.queue

/-- A frame that belongs to session s: not a REJECT or CONFIG_RSP, which answer one link's packet. -/
def Pkt.ofSession (s : Nat) (p : Pkt) : Bool := p.ses == s && p.owner != .reject && p.owner != .configRsp

/-- A frame formed for URG goes on RSP where URG was not negotiated (R160). -/
def Dev.fitVc (d : Dev) (n : Nat) (p : Pkt) : Pkt := if p.vc = .urg ∧ (d.link n).urg = false then { p with vc := .rsp } else p

/-- Formed frames join the session's held frames, or its current link's queue (R185, R187). -/
def Dev.placeFrames (d : Dev) (s : Nat) (ps : List Pkt) : Dev :=
  match (d.ses s).hold with
  | some h => d.updSes s fun x => { x with hold := some { h with frames := h.frames ++ ps } }
  | none =>
    let d := d.refreshClink s
    if (d.ses s).clinkNone then d
    else ps.foldl (fun d p => d.enqueue (d.ses s).clink (d.fitVc (d.ses s).clink p)) d

/-- A READ as a packet, a first sending with its own TAG and ARG (R229). -/
def Dev.readPkt (d : Dev) (r : OutRead) : Pkt :=
  d.sesPkt 0x07 .req r.ses r.qp r.tag r.addr [] (natLe 8 r.len) (.read r.tag)

/-- READs of session s that `lost` picks and whose answer has not come are sent again, their timers restarted (R229, R267,
R295). -/
def Dev.resendReads (d : Dev) (s : Nat) (lost : OutRead → Bool) : Dev :=
  let rs := d.reads.filter fun r => r.ses == s && lost r
  let d : Dev := { d with reads := d.reads.map fun r => if r.ses = s ∧ lost r = true then { r with acked := false, due := none } else r }
  rs.foldl (fun d r => d.placeFrames s [d.readPkt r]) d

/-- Timers of the session's grants and READs move on by the time it was held (R295). -/
def Dev.shiftTimers (d : Dev) (s dt : Nat) : Dev :=
  { d with reads := d.reads.map (fun r => if r.ses = s then { r with due := r.due.map (· + dt) } else r),
           cmds := d.cmds.map fun c =>
             if c.ses = s then { c with grants := c.grants.map fun g => { g with due := g.due.map (· + dt) } } else c }

/-! ### How a hold or a fault ends commands (R191–R194, R216) -/

/-- A push-mode PUT whose data has fully arrived (R192), or a write past its commit point, which always reaches its effect (R363;
DEDUCED, log 43). -/
def Cmd.carriedOut (c : Cmd) : Bool :=
  (c.via == .push && c.body.opcode == Opcode.put.code && c.stage != .waiting && c.arrived) || c.commit.isSome

/-- A command's outcome becomes `status` unless it had failed before it was admitted: what it still did or sent is dropped. -/
def Dev.endWith (d : Dev) (c : Cmd) (status : Nat) : Dev :=
  if c.stage = .ended then (if c.slotHeld then d.updCmd c.id fun x => { x with status := status, outLeft := [] } else d)
  else d.abort c.id status

/-- One command of a session whose hold reached its deadline ends (R191–R194). A waiting command stays in its place; one whose
auxiliary block was lost cannot be submitted any more. -/
def Dev.loseCmd (d : Dev) (c : Cmd) : Dev :=
  if isPending c then
    if c.stage = .waiting then d
    else { d.dropCmd c.id with lnkc := { d.lnkc with lostCmd := sat1 d.lnkc.lostCmd } }
  else
    let d := d.updCmd c.id fun x => { x with linkLost := true }
    if c.carriedOut then d else d.endWith c Status.linkLost.code

/-- One command of a session that faulted ends at once: it is counted in SES_LOST and leaves the device, and nothing of it is
delivered (R216, R398). A push-mode PUT whose data has fully arrived is carried out, and counted when it completes (R192). -/
def Dev.faultCmd (d : Dev) (c : Cmd) : Dev :=
  if isPending c then (d.dropCmd c.id).leaveRound.countLost c.ses
  else if c.carriedOut then d.updCmd c.id fun x => { x with faulted := true }
  else
    let d := (d.endWith c Status.aborted.code).countLost c.ses
    match d.findCmd c.id with
    | some x => d.retireCmd x
    | none => d

/-- Every queue pair of session s enters ERROR (R216, R267). -/
def Dev.sesQpError (d : Dev) (s code : Nat) : Dev := ((List.range 64).map (dqp s)).foldl (fun d q => d.qpError q code) d

/-- Frames of session s that wait on a link or in its hold are discarded (R191, R216). -/
def Dev.dropFrames (d : Dev) (s : Nat) : Dev :=
  let d : Dev := { d with links := d.links.map fun l => (l.1, { l.2 with queue := l.2.queue.filter fun p => !p.ofSession s }) }
  d.updSes s fun x => { x with hold := x.hold.map fun h => { h with frames := [] } }

/-- The hold of session s ends at its deadline (R191–R194, R267). -/
def Dev.holdExpire (d : Dev) (s : Nat) : Dev :=
  let d := d.sesQpError s 4
  let d := d.updSes s fun x => { x with hold := none }
  let d : Dev := { d with reads := d.reads.filter fun r => r.ses != s }
  let d := (d.cmds.filter fun c => c.ses == s).foldl (fun d c => d.loseCmd c) d
  (d.refreshClink s).settleSession s

/-- Session s faults: its partner on a link returned with epoch `epoch` (R216, R398, R490). -/
def Dev.sesFault (d : Dev) (s epoch : Nat) : Dev :=
  let d := d.event Ev.sesFault.code 0 s epoch 0
  let d := d.sesQpError s 6
  let d := d.dropFrames s
  let d := d.updSes s fun x => { x with fault := true, pepoch := epoch }
  let d : Dev := { d with reads := d.reads.filter fun r => r.ses != s }
  let d := (d.cmds.filter fun c => c.ses == s).foldl (fun d c => d.faultCmd c) d
  d.settleSession s

/-! ### Loss -/

/-- Session s has no serving link left: its frames are held (R186, R195, R196). -/
def Dev.startHold (d : Dev) (s n : Nat) (ps : List Pkt) : Dev :=
  let h : Hold := { since := d.now, deadline := d.now + d.lnkc.holdMs * 1000000, epoch := (d.link n).pepoch, link := n, frames := ps }
  let d := d.updSes s fun x => { x with hold := some h, clinkNone := true }
  if d.lnkc.holdMs = 0 then d.holdExpire s else d

/-- What the loss of link n does to session s, whose frames on it are `ps` (R185, R186, R229). -/
def Dev.sesLoss (d : Dev) (n s : Nat) (ps : List Pkt) : Dev :=
  if (d.ses s).hold.isNone && (d.servingLinks s).isEmpty then d.startHold s n ps
  else (d.placeFrames s ps).resendReads s fun r => r.acked && r.link == n

/-- Sessions that link n serves or whose frames it holds. DESIGN CHOICE (log 69): a session that has become CLOSED is none of
them, so frames of it that still lie on a link that fails are dropped. -/
def Dev.sesOnLink (d : Dev) (n : Nat) : List Nat :=
  let fs := (d.link n).frames n
  (d.sessions.filter fun x => x.2.st != .closed && !x.2.pcie && (d.serves x.1 n || fs.any fun p => p.ofSession x.1)).map Prod.fst

/-- The part of its output that a command was sending on link n goes on over the session's current link (R224). -/
def Cmd.offLink (n : Nat) (c : Cmd) : Cmd :=
  { c with segLink := c.segLink.map fun x => if x.2 = n then (x.1, 64) else x }

/-- A command whose frame or data went down with a gatehouse ends with ST_LINK_LOST (R198). -/
def Dev.ownerLost (d : Dev) (o : Owner) : Dev :=
  let one := fun (c : Nat) =>
    match d.findCmd c with
    | some x => if x.stage = .ended then d.updCmd c fun x => { x with status := Status.linkLost.code, outLeft := [] } else d.abort c Status.linkLost.code
    | none => d
  match o with
  | .output c => one c
  | .grant c => one c
  | .read t =>
    match d.reads.find? fun r => r.tag == t with
    | some r =>
      match r.what with
      | .aux _ c => one c
      | .value c _ => one c
      | .input c _ => one c
      | _ => { d with reads := d.reads.map fun x => if x.tag = t then { x with acked := true } else x }
    | none => d
  | _ => d

/-- A RESPONSE or completion entry with the status of a lost link and no INFO (R198, R342). -/
def Pkt.linkLost (p : Pkt) : Pkt :=
  { p with olink := 0x3F, payload := splice (splice p.payload 4 (natLe 1 Status.linkLost.code)) 16 (zeros 8) }

/-- A completion that went down with a gatehouse: its command ends with ST_LINK_LOST, and the completion that says so goes where
the session has a path, or is counted (R194, R198). -/
def Dev.relayLost (d : Dev) (p : Pkt) : Dev :=
  let again := if (d.ses p.ses).st = .closed ∨ ((d.ses p.ses).hold.isNone && (d.servingLinks p.ses).isEmpty) = true then
      { d with lnkc := { d.lnkc with lostCmd := sat1 d.lnkc.lostCmd } }
    else d.placeFrames p.ses [p.linkLost]
  match p.owner with
  | .response _ => again
  | .entry _ _ => again
  | _ => d

/-- Link n leaves ACTIVE (R181, R182, R185–R187, R198): `st` is where it goes, `noPath` whether its gatehouse was lost. -/
def Dev.leaveActive (d : Dev) (n : Nat) (lock noPath : Bool) (st : LinkSt) : Dev :=
  let ss := d.sesOnLink n
  let fs := (d.link n).frames n
  let d := d.updLink n fun l =>
    { l with st := st, since := d.now, queue := [], unacked := [], nakOut := false, cnt := { l.cnt with down := sat1 l.cnt.down } }
  let d : Dev := { d with cmds := d.cmds.map (Cmd.offLink n) }
  let d := if lock then d else d.emit (.control n (downBlock (d.link n).ctl))
  let d := if noPath then fs.foldl (fun d p => d.ownerLost p.owner) d else d
  let d := ss.foldl (fun d s => d.sesLoss n s (if noPath then [] else fs.filter fun p => p.ofSession s)) d
  if noPath then fs.foldl Dev.relayLost d else d

/-- Why a link was last DOWN (LNK_STATUS.REASON). -/
inductive DownReason where
  | train
  | align
  | capx
  | version
  | role
  | cap
  | lock
  | replay
  | partner
  | retrain
  | noPath
deriving DecidableEq, Repr

/-- The REASON code. -/
def DownReason.code : DownReason → Nat
  | .train => 1
  | .align => 2
  | .capx => 3
  | .version => 4
  | .role => 5
  | .cap => 6
  | .lock => 7
  | .replay => 8
  | .partner => 9
  | .retrain => 10
  | .noPath => 11

/-- Link n enters DOWN for a reason, from any state but DISABLED; EV_LINK_DOWN is recorded (R180, R842). -/
def Dev.linkDown (d : Dev) (n reason : Nat) : Dev :=
  let was := (d.link n).st
  let d := d.updLink n fun l => { l with reason := reason }
  let d := d.event Ev.linkDown.code (0x300 + n) reason 0 0
  if was = .active then d.leaveActive n (reason == DownReason.lock.code) (reason == DownReason.noPath.code) .down
  else d.updLink n fun l => { l with st := .down, since := d.now }

/-! ### Replay and link control -/

/-- Frames from sequence number `seq` on are resent in order, or the link leaves ACTIVE when one of them has been resent eight
times (R139, R140, R143). A replayed frame consumes no credit (R145). DESIGN CHOICE (log 69): any resend, one caused by a NAK too,
starts the 2 µs count of R140 again, and a resent frame is laid out with the coordinate in force when it is resent. -/
def Dev.resendFrom (d : Dev) (n : Nat) (old new : List TxFrame) : Dev :=
  if new.any fun f => decide (8 ≤ f.tries) then d.linkDown n DownReason.replay.code
  else
    let d := d.updLink n fun l =>
      { l with unacked := old ++ new.map (fun f => { f with tries := f.tries + 1 }), ackAt := d.now, ctlDirty := false, ctlAt := d.now,
               cnt := { l.cnt with replay := min (l.cnt.replay + new.length) (2 ^ 32 - 1) } }
    let l := d.link n
    new.foldl (fun d f =>
      let bytes := encodePkt f.pkt (d.srcOf n) l.pexts
      d.emit (.frame n (frameBlocks f.pkt.vc f.seq bytes l.ctl))) d

/-- The unacknowledged frames before and from sequence number `seq`. -/
def splitSeq (seq : Nat) : List TxFrame → List TxFrame × List TxFrame
  | [] => ([], [])
  | f :: r => if f.seq = seq then ([], f :: r) else (f :: (splitSeq seq r).1, (splitSeq seq r).2)

/-- NAK (R139). -/
def Dev.nakIn (d : Dev) (n seq : Nat) : Dev :=
  let x := splitSeq seq (d.link n).unacked
  if (d.link n).st ≠ .active ∨ x.2.isEmpty then d else d.resendFrom n x.1 x.2

/-- REPLAY_TIMEOUT (R140). -/
def Dev.replayTimeout (d : Dev) (n : Nat) : Dev :=
  let l := d.link n
  if l.st ≠ .active ∨ l.unacked.isEmpty ∨ d.now < l.ackAt + 2000 then d else d.resendFrom n [] l.unacked

/-- ACK: frames up to `seq` are acknowledged, credits come back, and what was waiting is sent (R139, R141, R147). -/
def Dev.ackIn (d : Dev) (n seq : Nat) (freed : Cred) : Dev :=
  let l := d.link n
  if l.st ≠ .active then d
  else
    let x := splitSeq seq l.unacked
    let gone := match x.2 with
      | f :: _ => x.1 ++ [f]
      | [] => []
    let left := if gone.isEmpty then l.unacked else x.2.drop 1
    let tags := gone.filterMap fun f => match f.pkt.owner with
      | .read t => some t
      | _ => none
    let d := d.updLink n fun l =>
      { l with unacked := left, partnerFreed := freed, ackAt := if gone.isEmpty then l.ackAt else d.now }
    let d : Dev := { d with reads := d.reads.map fun r => if tags.contains r.tag then { r with acked := true } else r }
    d.pump n

/-- FRAME_DISCARD: one NAK names the number expected, and no further one before that frame has arrived (R134, R138, R199). -/
def Dev.frameDiscard (d : Dev) (n : Nat) (why : Discard) : Dev :=
  let l := d.link n
  let bad := match why with
    | .badSeq s => s % 65536 != l.rxSeq
    | _ => true
  if l.st ≠ .active ∨ !bad then d
  else
    let d := if why = .badBlock then d.updLink n fun l => { l with cnt := { l.cnt with fecUnc := sat1 l.cnt.fecUnc } } else d
    if l.nakOut then d
    else (d.updLink n fun l => { l with nakOut := true, ctlDirty := false, ctlAt := d.now }).emit (.control n (nakBlock l.rxSeq l.ctl))

/-- LINK_CONTROL_SEND: when the fields have changed, or 1 µs has passed (R136, R142). -/
def Dev.controlSend (d : Dev) (n : Nat) : Dev :=
  let l := d.link n
  if l.st = .active ∧ (l.ctlDirty = true ∨ l.ctlAt + 1000 ≤ d.now) then
    (d.updLink n fun l => { l with ctlDirty := false, ctlAt := d.now }).emit (.control n (idleBlock l.ctl))
  else d

/-! ### Entering ACTIVE -/

/-- The held session s resumes on link n (R189, R295). -/
def Dev.sesResume (d : Dev) (s n : Nat) (h : Hold) : Dev :=
  let d := d.updSes s fun x => { x with hold := none, clink := n, clinkNone := false }
  let d := d.shiftTimers s (d.now - h.since)
  let d := (d.placeFrames s h.frames).resendReads s fun r => r.acked
  let d := ((d.cmds.filter fun c => c.ses == s && c.stage == .admitted).map Cmd.id).foldl Dev.askInput d
  d.wakeFetch s

/-- What link n's entry to ACTIVE does to session s (R188, R214, R215, R222). -/
def Dev.sesGain (d : Dev) (n s : Nat) : Dev :=
  let x := d.ses s
  let e := (d.link n).pepoch
  let d := if x.pepoch = 0 then d.updSes s fun x => { x with pepoch := e } else d
  match x.hold with
  | some h => if d.now ≤ h.deadline ∧ e = h.epoch then d.sesResume s n h else d
  | none => if x.pepoch ≠ 0 ∧ x.pepoch ≠ e then (d.sesFault s e).refreshClink s else d.refreshClink s

/-- Link n enters ACTIVE with the partner's CAP block (R177, R182). -/
def Dev.enterActive (d : Dev) (n : Nat) (c : CapBlock) : Dev :=
  let d := d.updLink n fun l =>
    { l with st := .active, since := d.now, minor := min 0 c.minor, urg := c.urg, pcoord := c.coord, pepoch := c.epoch, pcred := c.cred,
             pexts := c.exts, txSeq := 0, rxSeq := 0, nakOut := false, unacked := [], queue := [], used := Cred.zero,
             partnerFreed := Cred.zero, freed := Cred.zero, ctlDirty := false, ctlAt := d.now, ackAt := d.now,
             rxHold := l.rxHold.map fun h => { h with counts := false } }
  let ss := (d.sessions.filter fun x => x.2.st != .closed && d.serves x.1 n).map Prod.fst
  ss.foldl (fun d s => d.sesGain n s) d

/-! ### Capability exchange -/

/-- Whether an offer on link n takes the place of the coordinate: there is none, or it was adopted in the same cycle from a
higher-numbered link (R152; a cycle is one nanosecond of yard time, log 68). -/
def Dev.offerWins (d : Dev) (n : Nat) : Bool :=
  !d.lnkc.valid || (d.lnkc.adopted && d.lnkc.offerAt == d.now && decide (n < d.lnkc.offerLink))

/-- A coordinate offer (R152, R153). -/
def Dev.takeOffer (d : Dev) (n offer : Nat) : Dev :=
  if offer = 0xFFFFFFFF then d
  else if d.offerWins n then
    { d with lnkc := { d.lnkc with
        coord := xyz offer, valid := true, adopted := true, offerLink := n, offerAt := d.now,
        mismatch := d.lnkc.mismatch || (d.lnkc.valid && xyz offer != d.lnkc.coord) } }
  else if xyz offer ≠ d.lnkc.coord then { d with lnkc := { d.lnkc with mismatch := true } }
  else d

/-- The exchange completes once a CAP with ACK = 1 has arrived and one has been sent, and the coordinate is valid (R174, R177,
R203). -/
def Dev.capComplete (d : Dev) (n : Nat) : Dev :=
  let l := d.link n
  if l.st = .capx ∧ l.capSentAck = true ∧ l.capBlk ≠ [] ∧ d.lnkc.valid = true then d.enterActive n (parseCap l.capBlk) else d

/-- CAP (R177): rows of the capability resolution in order. -/
def Dev.capIn (d : Dev) (n : Nat) (block : List Byte) : Dev :=
  let c := parseCap block
  if (d.link n).st ≠ .capx ∨ c.crcOk = false then d
  else
    let d := (d.takeOffer n c.offer).updLink n fun l => { l with capGot := true }
    if c.major ≠ 1 then d.linkDown n DownReason.version.code
    else if !c.role then d.linkDown n DownReason.role.code
    else if !capCreditsOk c.cred || c.maxLen != 8448 then d.linkDown n DownReason.cap.code
    else (d.updLink n fun l => { l with capBlk := if c.ack then block else l.capBlk }).capComplete n

/-- The coordinate a CAP block gives (R154, R175). -/
def Dev.capCoord (d : Dev) (n : Nat) : Nat := if d.lnkc.valid then d.srcOf n else 0xFFFFFFFF

/-- CAP_SEND: every 1 µs in CAPX, once there is an epoch to send (R174, R175, R637). -/
def Dev.capSend (d : Dev) (n : Nat) : Dev :=
  let l := d.link n
  if l.st ≠ .capx ∨ d.now < l.capAt ∨ d.lnkc.epoch = 0 then d
  else
    let d := d.emit (.control n (capBlock (ownCap l.capGot (d.capCoord n) d.lnkc.epoch)))
    (d.updLink n fun l => { l with capAt := d.now + 1000, capSentAck := l.capSentAck || l.capGot }).capComplete n

/-! ### The state machine (R180) -/

/-- Training of links has begun: bring-up step 6 has been reached and bring-up has not failed (R788). -/
def Dev.linksOn (d : Dev) : Bool := decide (6 ≤ d.bru.st) && decide (d.bru.st ≤ 11)

def Dev.toTrain (d : Dev) (n : Nat) : Dev := d.updLink n fun l => { l with st := .train, since := d.now }

/-- Every enabled present link that is DISABLED begins to train (R788). -/
def Dev.startLinks (d : Dev) : Dev :=
  d.presentLinks.foldl (fun d n =>
    if (d.link n).st = .disabled ∧ (d.link n).enable = true ∧ (d.link n).pattern = 0 then d.toTrain n else d) d

def Dev.trainingComplete (d : Dev) (n : Nat) : Dev :=
  if (d.link n).st = .train then d.updLink n fun l => { l with st := .align, since := d.now } else d

def Dev.alignLocked (d : Dev) (n : Nat) : Dev :=
  if (d.link n).st = .align then
    d.updLink n fun l => { l with st := .capx, since := d.now, capGot := false, capSentAck := false, capBlk := [], capAt := d.now }
  else d

/-- A state left for DOWN `ms` after its entry. -/
def Dev.stateTimeout (d : Dev) (n : Nat) (st : LinkSt) (ms reason : Nat) : Dev :=
  if (d.link n).st = st ∧ (d.link n).since + ms * 1000000 ≤ d.now then d.linkDown n reason else d

/-- LINK_RESTART: 1 ms after entry to DOWN (R180, R183). -/
def Dev.linkRestart (d : Dev) (n : Nat) : Dev :=
  let l := d.link n
  if l.st = .down ∧ l.enable = true ∧ l.reason ≠ DownReason.noPath.code ∧ d.linksOn = true ∧ l.since + 1000000 ≤ d.now then d.toTrain n else d

/-- An ACTIVE link goes DOWN. -/
def Dev.dropActive (d : Dev) (n reason : Nat) : Dev := if (d.link n).st = .active then d.linkDown n reason else d

/-- A write to LNK_CTRL (R180, R205): ENABLE, EMODE, RETRAIN, TESTPAT. -/
def Dev.linkCtrl (d : Dev) (n v : Nat) : Dev :=
  if !linkPresent d.variant n then d
  else
    let d := d.updLink n fun l => { l with enable := bit v 0, emode := bit v 1, pattern := bits v 4 3 }
    let l := d.link n
    if l.enable = false ∨ l.pattern ≠ 0 then
      if l.st = .active then d.leaveActive n false false .disabled
      else d.updLink n fun l => { l with st := .disabled, since := if l.st = .disabled then l.since else d.now }
    else if l.st = .disabled then
      (if !d.linksOn then d else if d.gatehousePath (n / 24) then d.toTrain n else d.linkDown n DownReason.noPath.code)
    else if bit v 2 then d.dropActive n DownReason.retrain.code
    else d

/-! ### Bundles (R106–R108, R125–R127, R198) -/

/-- The bundle of gatehouse bundles: gatehouse number. -/
def gateOfBundle (b : Nat) : Option Nat := if 64 ≤ b ∧ b < 88 then some ((b - 64) / 12) else none

/-- A gatehouse without any path: its links leave their state for DOWN with reason NOPATH, and what it held is lost (R127, R198). -/
def Dev.gateLost (d : Dev) (g : Nat) : Dev :=
  let held := d.sessions.flatMap fun x => match x.2.hold with
    | some h => if h.link / 24 = g then h.frames else []
    | none => []
  let d : Dev := { d with sessions := d.sessions.map fun x => (x.1, { x.2 with
    hold := x.2.hold.map fun h => if h.link / 24 = g then { h with frames := [] } else h }) }
  let d := held.foldl (fun d p => d.ownerLost p.owner) d
  let d := (d.presentLinks.filter fun n => n / 24 == g && (d.link n).st != .disabled).foldl (fun d n => d.linkDown n DownReason.noPath.code) d
  held.foldl Dev.relayLost d

/-- FLIT_NAK: what precedes the failed flit has arrived, and the sender resends from it in order; eight failures in a row take the bundle
out of service, and the unacknowledged flits move (R106, R108, R126). -/
def Dev.flitNak (d : Dev) (b : Nat) (dieBound : Bool) (seq : Nat) : Dev :=
  let k := 2 * b + b2n dieBound
  let x := SMap.get d.bundles k BundleTx.reset
  let fails := if x.seq = seq then x.fails + 1 else 1
  let again := x.kept.filter fun f => decide ((f.2.seq + 65536 - seq % 65536) % 65536 < 32768)
  if !d.bundleIn b || decide (88 ≤ b) then d
  else if fails < 8 then
    { d with bundles := SMap.put d.bundles k { x with fails := fails, seq := seq, kept := again.map fun (f : Nat × Flit) => (d.now, f.2) } }.emit
      (.flitReplay b dieBound seq (again.map fun (f : Nat × Flit) => f.2.bytes))
  else
    let d : Dev := { d with bundles := SMap.put d.bundles k { x with kept := again }
                            bru := { d.bru with bundles := d.bru.bundles.modify b fun x => (false, x.2) } }
    let d := ((d.event Ev.bndOut.code (0x380 + b) seq (b2n dieBound) 0).moveFlits b dieBound).moveFlits b (!dieBound)
    match gateOfBundle b with
    | some g => if d.gatehousePath g then d else d.gateLost g
    | none => d

/-! ### Meanings -/

/-- FRAME_DISCARD (R138). -/
def execFrameDiscard (n : Nat) (why : Discard) (s : State) : Host.Outcome State Fault Refusal := s.run fun d => d.frameDiscard n why

/-- LINK_CONTROL_SEND (R142). -/
def execLinkControlSend (n : Nat) (s : State) : Host.Outcome State Fault Refusal := s.run fun d => d.controlSend n

/-- PMD_TRAINING_COMPLETE (R180). -/
def execPmdTrainingComplete (n : Nat) (s : State) : Host.Outcome State Fault Refusal := s.run fun d => d.trainingComplete n

/-- ALIGN_LOCK (R180). -/
def execAlignLock (n : Nat) (s : State) : Host.Outcome State Fault Refusal := s.run fun d => d.alignLocked n

/-- TRAIN_TO (R180). -/
def execTrainTo (n : Nat) (s : State) : Host.Outcome State Fault Refusal := s.run fun d => d.stateTimeout n .train 500 DownReason.train.code

/-- ALIGN_TO (R180). -/
def execAlignTo (n : Nat) (s : State) : Host.Outcome State Fault Refusal := s.run fun d => d.stateTimeout n .align 10 DownReason.align.code

/-- CAPX_TO (R180, R203). -/
def execCapxTo (n : Nat) (s : State) : Host.Outcome State Fault Refusal := s.run fun d => d.stateTimeout n .capx 10 DownReason.capx.code

/-- LINK_RESTART (R180). -/
def execLinkRestart (n : Nat) (s : State) : Host.Outcome State Fault Refusal := s.run fun d => d.linkRestart n

end Sys2Proof.Machine
end

