-- ==== Sys2Proof/Machine/Sessions.lean ====
section
/-! DEFINITION. Sessions (R209–R229), queue pairs (R230–R236), rings (R237–R260), and what an answered READ does (R228, R234, R240, R245,
R249, R291–R293). -/

namespace Sys2Proof.Machine

open Sys2Proof

/-! ### Opening and closing -/

/-- OPEN = 1 on a CLOSED session (R211, R214, R222, R380). -/
def Dev.sesOpen (d : Dev) (s : Nat) : Dev :=
  let d : Dev := { d with qps := d.qps.filter fun q => q.1 / 64 != s }
  let d := d.updSes s fun x =>
    { x with st := .opened, epoch := if x.epoch = 0xFFFF then 1 else x.epoch + 1, hold := none, clinkNone := true,
             bal := x.burstKib * 1024 * 1000, balAt := d.now }
  let e := match d.servingLinks s with
    | n :: _ => (d.link n).pepoch
    | [] => 0
  (d.updSes s fun x => { x with pepoch := e }).refreshClink s

/-- A command of a session closed with ABORT (R219, R397, R491). -/
def Dev.closeCmd (d : Dev) (c : Cmd) : Dev :=
  if isPending c then d.finish c.id Status.aborted.code 0 0
  else if c.stage = .ended || c.begun || (c.body.opcode == Opcode.put.code && c.arrived) || d.tth.ready.any (fun w => w.1 == c.id) then d
  else d.abort c.id Status.aborted.code

/-- A CLOSING session with the CLOSE_MODE that holds now (R218–R220). -/
def Dev.closeRun (d : Dev) (s : Nat) : Dev :=
  let d := if (d.ses s).abort then (d.cmds.filter fun c => c.ses == s).foldl (fun d c => d.closeCmd c) d else d
  d.settleSession s

/-- OPEN = 0 on an OPEN or HELD session (R217–R220). -/
def Dev.sesClose (d : Dev) (s : Nat) : Dev := (d.updSes s fun x => { x with st := .closing }).closeRun s

/-- A write to SES_CTRL (R209, R211, R212, R217, R773). -/
def Dev.sesCtrlWrite (d : Dev) (s v : Nat) : Dev :=
  let d := d.updSes s fun x => { x with abort := bit v 1, pcie := if x.st = .closed then bit v 2 else x.pcie }
  match (d.ses s).st with
  | .closed => if bit v 0 && d.bru.st == 11 then d.sesOpen s else d
  | .opened => if bit v 0 then d else d.sesClose s
  | .closing => d.closeRun s

/-- A write to a half of SES_LSET (R197, R210, R222, R229, R265). -/
def Dev.lsetWrite (d : Dev) (s lset : Nat) : Dev :=
  let old := d.ses s
  let d := d.updSes s fun x => { x with lset := lset }
  if old.st = .closed ∨ old.pcie = true then d
  else
    match old.hold with
    | some h =>
      match d.servingLinks s with
      | n :: _ => d.sesResume s n h
      | [] => d
    | none =>
      let d := d.refreshClink s
      if old.clinkNone then d
      else if (d.ses s).clinkNone then d.startHold s old.clink []
      else if (d.ses s).clink = old.clink then d
      else d.resendReads s fun r => r.acked && r.link == old.clink

/-- A hold has reached its deadline (R191). -/
def Dev.holdDeadlineOp (d : Dev) (s : Nat) : Dev :=
  match (d.ses s).hold with
  | some h => if h.deadline ≤ d.now then d.holdExpire s else d
  | none => d

/-! ### Queue pairs -/

/-- A queue pair outside IDLE, or on its way out of it (R231). -/
def Qp.inUse (x : Qp) : Bool := x.st != .idle || x.enable

/-- ENABLE = 1 in IDLE (R230, R231, R234). -/
def Dev.qpEnableOp (d : Dev) (q : Nat) : Dev :=
  let s := q / 64
  if (d.qp q).inUse then d
  else if 4096 ≤ (d.qps.filter fun x => x.2.inUse).length then { d with arb := { d.arb with qpRefused := true } }
  else
    let d := d.updQp q fun x => { x with enable := true, err := 0 }
    let d := d.refreshClink s
    if (d.ses s).st ≠ .opened ∨ ((d.ses s).pcie = false ∧ (d.ses s).clinkNone = true ∧ d.held s = false) then d.qpError q 1
    else d.sendRead s (q % 64) ((d.ses s).qpt / 4096 * 4096 + 64 * (q % 64)) 64 [] (.context q)

/-- ENABLE = 0 (R235, R236). DESIGN CHOICE (log 69): written while the context READ is in flight, the state still IDLE, it forgets
the READ and frees the queue pair at once, and the READ_DATA that comes is stray. -/
def Dev.qpDisableOp (d : Dev) (q : Nat) : Dev :=
  let x := d.qp q
  if x.st = .idle then (if x.enable then d.qpIdle q else d)
  else if x.st = .stopping then d
  else
    (d.updQp q fun x =>
      { x with enable := false, st := .stopping, sqAsked := x.sqCi, dbAgain := false, dbUrg := false, heldBack := false,
               early := [] }).settleSession (q / 64)

/-- A write to QP_CTRL. -/
def Dev.qpCtrlWrite (d : Dev) (q v : Nat) : Dev := if bit v 0 then d.qpEnableOp q else d.qpDisableOp q

/-- The context block (R232). -/
def parseCtx (b : List Byte) : QpCtx :=
  { sqBase := fieldAt b 0 8, cqBase := fieldAt b 8 8, dbAddr := fieldAt b 16 8, push := bit (fieldAt b 24 1) 0,
    strict := bit (fieldAt b 24 1) 1, sweepEn := bit (fieldAt b 24 1) 2, sqLog := fieldAt b 25 1, cqLog := fieldAt b 26 1,
    notify := fieldAt b 27 1, ncount := fieldAt b 28 1, vector := fieldAt b 29 1, ntime := fieldAt b 30 2 }

/-- A context block that R234 admits; in push mode only MODE and the reserved bytes count (R233). -/
def ctxOk (b : List Byte) (pcie : Bool) : Bool :=
  let c := parseCtx b
  decide (fieldAt b 24 1 < 8) && fieldAt b 32 32 == 0 &&
    if c.push then !pcie
    else
      c.sqBase % 64 == 0 && c.cqBase % 64 == 0 && c.dbAddr % 8 == 0 && decide (4 ≤ c.sqLog) && decide (c.sqLog ≤ 16) &&
        decide (4 ≤ c.cqLog) && decide (c.cqLog ≤ 16) && decide (c.notify ≤ 2) && decide (1 ≤ c.ncount) &&
        decide (c.ntime ≤ 1000) && (!pcie || (decide (4 ≤ c.vector) && decide (c.vector ≤ 63)))

/-- The context of a queue pair has arrived (R233, R234). -/
def Dev.contextIn (d : Dev) (q : Nat) (b : List Byte) : Dev :=
  let x := d.qp q
  if x.st ≠ .idle ∨ x.enable = false then d
  else if !ctxOk b (d.ses (q / 64)).pcie then d.qpError q 2
  else
    let c := parseCtx b
    let c := if c.push then { QpCtx.none with push := true, strict := c.strict } else c
    d.updQp q fun _ => { Qp.reset with st := .active, enable := true, ctx := c, sweptAt := d.now }

/-! ### Doorbells and entries -/

/-- A frame that carries a doorbell READ of session s. -/
def Dev.isDoorbell (d : Dev) (s : Nat) (p : Pkt) : Bool :=
  match p.owner with
  | .read t => d.reads.any fun r => r.tag == t && r.ses == s && match r.what with
    | .doorbell _ => true
    | _ => false
  | _ => false

/-- The frame that `mine` names moves ahead of every doorbell READ of the session not yet sent (R244). -/
def hoist (mine isDb : Pkt → Bool) (ps : List Pkt) : List Pkt :=
  match ps.find? mine with
  | none => ps
  | some p =>
    let r := ps.filter fun x => !mine x
    r.takeWhile (fun x => !isDb x) ++ [p] ++ r.dropWhile fun x => !isDb x

/-- The frame of the doorbell READ of queue pair q. -/
def Dev.ownDoorbell (d : Dev) (q : Nat) (p : Pkt) : Bool :=
  match p.owner with
  | .read t => d.reads.any fun r => r.tag == t && match r.what with
    | .doorbell k => k == q
    | _ => false
  | _ => false

/-- A doorbell READ of queue pair q that has not been sent moves ahead of the session's others (R244). -/
def Dev.hoistDoorbell (d : Dev) (q : Nat) : Dev :=
  let fix := hoist (d.ownDoorbell q) (d.isDoorbell (q / 64))
  match (d.ses (q / 64)).hold with
  | some h => d.updSes (q / 64) fun x => { x with hold := some { h with frames := fix h.frames } }
  | none => d.updLink (d.ses (q / 64)).clink fun l => { l with queue := fix l.queue }

/-- The doorbell READ that a NUDGE on URG asks for, ahead of the session's others not yet sent; while one is in flight the further
read will be (R242, R244). -/
def Dev.urgentDoorbell (d : Dev) (q : Nat) : Dev :=
  let d := if (d.qp q).dbBusy then d.updQp q fun x => { x with dbUrg := true } else d
  (d.doorbell q).hoistDoorbell q

/-- A doorbell word has arrived (R237, R240, R242, R245). -/
def Dev.doorbellIn (d : Dev) (q : Nat) (b : List Byte) : Dev :=
  let d := d.updQp q fun x => { x with dbBusy := false }
  if !d.fetching q then d
  else
    let x := d.qp q
    let pi := fieldAt b 0 4
    let ci := fieldAt b 4 4
    let ahead := (ci + 2 ^ 32 - x.cqPi) % 2 ^ 32
    if 2 ^ x.ctx.sqLog < (pi + 2 ^ 32 - x.sqCi) % 2 ^ 32 ∨ (0 < ahead ∧ ahead < 2 ^ 31) then d.qpError q 3
    else
      let d := (d.updQp q fun x => { x with sqPi := pi, cqCi := ci, dbAgain := false, dbUrg := false }).fetchEntries q
      if x.dbAgain then (if x.dbUrg then d.urgentDoorbell q else d.doorbell q) else d

/-- The status that the checks of the envelope give (R923). -/
def envelopeStatus (e : List Byte) : Option Nat :=
  let next := fieldAt e 4 1
  let len := fieldAt e 6 2
  if fieldAt e 5 1 ≠ 0 then some Status.badDescriptor.code
  else if 280 < len ∨ len % 8 ≠ 0 ∨ (next = 0 ∧ len ≠ 0) ∨ (next ≠ 0 ∧ len = 0) then some Status.badLength.code
  else if next ≠ 0 ∧ fieldAt e 8 8 % 8 ≠ 0 then some Status.badAlign.code
  else none

/-- One submission entry has arrived: its command takes its pending place, and its auxiliary block is asked for (R245, R248, R249,
R923, R924). -/
def Dev.entryIn (d : Dev) (q : Nat) (e : List Byte) : Dev :=
  let d := d.updQp q fun x => { x with sqCi := (x.sqCi + 1) % 2 ^ 32 }
  let s := q / 64
  let (id, d) := d.fresh
  let pre := envelopeStatus e
  let aux := pre.isNone && fieldAt e 4 1 != 0
  let via := if (d.ses s).pcie then Via.pcie else Via.ring
  let c := d.mkCmd id s (q % 64) via false (fieldAt e 0 4) (parseBody (slice 16 48 e)) [] (if aux then .fetching else .waiting) pre
  let d := d.submit { c with auxNext := fieldAt e 4 1, auxLen := fieldAt e 6 2 }
  if aux then d.sendRead s (q % 64) (fieldAt e 8 8) (fieldAt e 6 2) [] (.aux q id) else d

/-- Entries are taken in the order of their indices (R245). -/
def Dev.takeEntries (d : Dev) (q : Nat) : Nat → Dev
  | 0 => d
  | k + 1 =>
    match (d.qp q).early.find? fun e => e.1 == (d.qp q).sqCi with
    | none => d
    | some e =>
      ((d.updQp q fun x => { x with early := x.early.filter fun y => y.1 != e.1 }).entryIn q e.2).takeEntries q k

/-- The entries of one READ have arrived (R245, R268). -/
def Dev.entriesIn (d : Dev) (q first count : Nat) (b : List Byte) : Dev :=
  if !d.fetching q then d
  else
    let es := (List.range count).map fun i => ((first + i) % 2 ^ 32, slice (64 * i) 64 b)
    let d := d.updQp q fun x => { x with early := x.early ++ es }
    d.takeEntries q (d.qp q).early.length

/-- The auxiliary block of a command has arrived (R250, R251). -/
def Dev.auxIn (d : Dev) (cid : Nat) (b : List Byte) : Dev :=
  match d.findCmd cid with
  | none => d
  | some c =>
    if c.stage ≠ .fetching then d
    else
      let fail := fun (st : Nat) => d.updCmd cid fun x => { x with stage := .waiting, pre := some st }
      match walkHdrs b c.auxLen 6 0 c.auxNext [] with
      | .depth => fail Status.depth.code
      | .length => fail Status.badLength.code
      | .typ => fail Status.badDescriptor.code
      | .ok pos hdrs =>
        if pos ≠ c.auxLen then fail Status.badLength.code
        else
          d.updCmd cid fun x =>
            { x with stage := .waiting, key := (findHdr 3 hdrs).map (fun h => keyOfBody h.body),
                     shapeHdr := (findHdr 4 hdrs).map ExtHdr.body }

/-- Bytes a READ pulled for a command have arrived (R291, R292). -/
def Dev.pullIn (d : Dev) (cid off : Nat) (b : List Byte) : Dev :=
  let d := d.updCmd cid fun x =>
    if x.stage = .admitted then { x with got := x.got ++ [{ off := off, bytes := b }], gotBytes := x.gotBytes + b.length } else x
  (((d.makeTags cid).askInput cid).checkList cid).commitWrite cid

/-- An outstanding READ is answered (R228). -/
def Dev.answerRead (d : Dev) (r : OutRead) (b : List Byte) : Dev :=
  let d : Dev := { d with reads := d.reads.filter fun x => x.tag != r.tag }
  match r.what with
  | .context q => d.contextIn q b
  | .doorbell q => d.doorbellIn q b
  | .entries q first count => d.entriesIn q first count b
  | .aux _ c => d.auxIn c b
  | .value c off => d.pullIn c off b
  | .input c off => d.pullIn c off b

/-- A doorbell, entry or auxiliary READ of a queue pair that is ACTIVE or STOPPING has failed (R266). -/
def Dev.ringFailed (d : Dev) (q : Nat) : Dev := if (d.qp q).st = .active ∨ (d.qp q).st = .stopping then d.qpError q 4 else d

/-- A READ is refused, or cannot complete (R163, R234, R266, R293, R831). -/
def Dev.failRead (d : Dev) (r : OutRead) : Dev :=
  let d : Dev := { d with reads := d.reads.filter fun x => x.tag != r.tag }
  match r.what with
  | .context q => if (d.qp q).st = .idle ∧ (d.qp q).enable = true then d.qpError q 1 else d
  | .doorbell q => d.ringFailed q
  | .entries q _ _ => d.ringFailed q
  | .aux q c => (d.ringFailed q).abort c Status.aborted.code
  | .value c _ => d.abort c Status.aborted.code
  | .input c _ => d.abort c Status.aborted.code

/-! ### NUDGE and the sweep -/

/-- A NUDGE for queue pair q (R241–R244); without effect elsewhere (R243, R264). -/
def Dev.nudgeQp (d : Dev) (q : Nat) (urg : Bool) : Dev :=
  if (d.qp q).st = .active ∧ (d.qp q).ctx.push = false then (if urg then d.urgentDoorbell q else d.doorbell q)
  else d.updSes (q / 64) fun x => { x with nudge := satAdd 16 x.nudge 1 }

/-- A write to SES_NUDGE (R260). -/
def Dev.sesNudgeWrite (d : Dev) (v : Nat) : Dev :=
  let s := bits v 0 9
  if (d.ses s).pcie ∧ (d.ses s).st = .opened then d.nudgeQp (dqp s (bits v 9 6)) false else d

/-- Queue pairs the sweep visits (R247). -/
def Dev.swept (d : Dev) : List (Nat × Qp) := d.qps.filter fun q => d.fetching q.1 && q.2.ctx.sweepEn

/-- SES_SWEEP.EFFECTIVE_US (R247). -/
def Dev.sweepEffective (d : Dev) : Nat := if d.arb.sweepUs = 0 then 0 else max d.arb.sweepUs (ceilDiv d.swept.length 64)

/-- Sweep reads in one µs: the visits of an interval spread evenly over it, and at most 64 (R247). -/
def Dev.sweepRate (d : Dev) : Nat := min 64 (ceilDiv d.swept.length d.sweepEffective)

/-- SWEEP: the visit of queue pair q, once per interval (R247). A read in flight is followed by one more. -/
def Dev.sweepOp (d : Dev) (q : Nat) : Dev :=
  let n := if d.arb.sweepUsAt = d.now / 1000 then d.arb.sweptInUs else 0
  if (d.swept.any fun x => x.1 == q) && d.arb.sweepUs != 0 && decide ((d.qp q).sweptAt + d.sweepEffective * 1000 ≤ d.now) &&
      decide (n < d.sweepRate) then
    let d := d.updQp q fun x => { x with sweptAt := d.now }
    ({ d with arb := { d.arb with sweptInUs := n + 1, sweepUsAt := d.now / 1000 } } : Dev).doorbell q
  else d

/-! ### NOTIFY -/

/-- The unannounced entries whose WRITEs are acknowledged, oldest first (R226). -/
def Dev.announceable (d : Dev) (q : Nat) : List (Nat × Nat × Bool) :=
  (d.qp q).unann.takeWhile fun e => d.allAcked fun o => o == .entry q e.1

/-- A NOTIFY, or the MSI-X message of a PCIe session, for the `n` oldest unannounced entries (R257–R259). DESIGN CHOICE (log 69): a
NOTIFY, which belongs to no command, carries TAG 0. -/
def Dev.announce (d : Dev) (q n : Nat) : Dev :=
  let s := q / 64
  let x := d.qp q
  let es := x.unann.take n
  match es.getLast? with
  | none => d
  | some last =>
    let d := d.updQp q fun x => { x with unann := x.unann.drop n }
    if (d.ses s).pcie then d.msix x.ctx.vector
    else
      let d := d.refreshClink s
      let vc := d.rspVc (d.ses s).clink (es.any fun e => e.2.2)
      d.sendSes s (d.sesPkt 0x05 vc s (q % 64) 0 ((last.1 + 1) % 2 ^ 32) [] [] (.notice q))

/-- A NOTIFY or MSI-X message has a path: as a completion has (R221), and also once its queue pair is IDLE or its session CLOSED. -/
def Dev.noticePath (d : Dev) (s q : Nat) : Bool :=
  !(d.ses s).fault && (d.qp (dqp s q)).st != .error && !d.held s &&
    (if (d.ses s).pcie then d.pcie.up else !(d.servingLinks s).isEmpty)

/-- NOTIFY = 1 announces each entry, NOTIFY = 2 when NCOUNT are unannounced (R257). -/
def Dev.notifyOp (d : Dev) (q : Nat) : Dev :=
  let x := d.qp q
  let n := (d.announceable q).length
  if !d.noticePath (q / 64) (q % 64) then d
  else if x.ctx.notify = 1 ∧ 0 < n then d.announce q 1
  else if x.ctx.notify = 2 ∧ 0 < n ∧ x.ctx.ncount ≤ n then d.announce q n
  else d

/-- NTIME µs have passed since the oldest unannounced entry was written (R257). -/
def Dev.ntimeOp (d : Dev) (q : Nat) : Dev :=
  let x := d.qp q
  let n := (d.announceable q).length
  let old := x.unann.head?.any fun e => decide (e.2.1 + x.ctx.ntime * 1000 ≤ d.now)
  if d.noticePath (q / 64) (q % 64) && x.ctx.notify == 2 && x.ctx.ntime != 0 && old && decide (0 < n) then
    d.announce q n
  else d

/-! ### Meanings -/

/-- NOTIFY (R226, R257). -/
def execNotify (q : Nat) (s : State) : Host.Outcome State Fault Refusal := s.run fun d => d.notifyOp q

/-- NTIME_EXPIRY (R257). -/
def execNtimeExpiry (q : Nat) (s : State) : Host.Outcome State Fault Refusal := s.run fun d => d.ntimeOp q

/-- SWEEP (R247). -/
def execSweep (q : Nat) (s : State) : Host.Outcome State Fault Refusal := s.run fun d => d.sweepOp q

/-- A PCIe read completes, or fails (R228, R293). -/
def Dev.pcieReadIn (d : Dev) (tag : Nat) (ok : Bool) (b : List Byte) : Dev :=
  match d.reads.find? fun r => r.tag == tag && (d.ses r.ses).pcie with
  | none => d
  | some r => if !ok then d.failRead r else if b.length = r.len then d.answerRead r b else d

/-- PCIE_READ_COMPLETION (R293). -/
def execPcieReadCompletion (tag : Nat) (ok : Bool) (b : List Byte) (s : State) : Host.Outcome State Fault Refusal :=
  s.run fun d => d.pcieReadIn tag ok b

end Sys2Proof.Machine
end

