-- ==== Sys2Proof/Machine/RegRead.lean ====
section
/-! DEFINITION. Register reads (R860–R882 and the field tables of the owning chapters): each block gives the word at an offset, and
what the read does (RC counters clear, R710; pairs and latch groups latch, R869, R870). -/

namespace Sys2Proof.Machine

open Sys2Proof

/-! ### Access -/

/-- What a register read gives: the word, and the device after it. -/
abbrev RegOut := Nat × Dev

/-- The latch of a path for the register at `off` (R869, R870). -/
def Dev.latched (d : Dev) (p : Path) (off : Nat) : RegOut := ((SMap.get (d.path p).latches off 0).toNat, d)

def Dev.latch (d : Dev) (p : Path) (off v : Nat) : Dev :=
  d.updPath p fun x => { x with latches := SMap.put x.latches off (BitVec.ofNat 32 v) }

/-- A _LO read of a pair at `off` whose value is `v` (R869). -/
def Dev.pairLo (d : Dev) (p : Path) (off v : Nat) : RegOut := (v % 2 ^ 32, d.latch p (off + 4) (v / 2 ^ 32))

/-- The blocks that can be reached before step 3 completes and in FAILED: GLB, CLK, PWR, PLP, BRU (R771, R805). -/
def earlyBlock (off : Nat) : Bool := decide (off < 0x40000) || decide (off / 0x10000 = 0xA)

/-- The two's complement of an integer in 64 bits. -/
def int64 (v : Int) : Nat := (v % 2 ^ 64).toNat

/-! ### GLB, CLK, PWR, PLP -/

def Dev.readGlb (d : Dev) (o : Nat) : RegOut :=
  let fused := decide (3 ≤ d.bru.st)
  match o with
  | 0x000 => ((if d.bru.failcode = 1 then 0x0120 else if fused then deviceIdOf d.variant else 0) * 65536 + 0x2F3A, d)
  | 0x004 => (d.bru.fw.1.toNat * 2 ^ 24 + d.bru.fw.2.toNat * 2 ^ 16 + (if fused then d.fuses.stepping % 256 else 0), d)
  | 0x008 => (d.glb.variantRead.toNat, d)
  | 0x00C =>
    (16 * b2n d.glb.blocks + 8 * b2n (d.barns.any fun b => b.2.tripped) + 4 * b2n d.glb.failed + 2 * b2n d.glb.degraded + b2n d.glb.ready, d)
  | 0x010 => (d.glb.cfgGen, d)
  | 0x020 => (d.glb.scratch0.toNat, d)
  | 0x024 => (d.glb.scratch1.toNat, d)
  | _ => (0, d)

/-- CLK_STATUS. -/
def Dev.clkStatus (d : Dev) : Nat :=
  let on := fun (l : List Bool) b => l.getD b false
  b2n d.ytRun * 4096 + b2n d.clk.peclk * 2048 + b2n d.clk.nclk * 1024 +
    ((List.range 4).map fun b => b2n (on d.clk.dclk b) * 2 ^ (6 + b)).sum +
    ((List.range 4).map fun b => b2n (on d.clk.sclk b && !(d.barn b).tripped) * 2 ^ (2 + b)).sum +
    2 * b2n d.clk.fclk + b2n d.clk.yclk

def Dev.readClk (d : Dev) (p : Path) (o : Nat) : RegOut :=
  match o with
  | 0x000 => (d.clkStatus, d)
  | 0x004 => (d.clk.loss, d)
  | 0x008 => d.pairLo p 0x10008 (d.now % 2 ^ 64)
  | 0x00C => d.latched p 0x1000C
  | 0x010 => (d.clk.sel, d)
  | 0x014 => (b2n d.clk.done * 2 ^ 31 + d.clk.khz % 2 ^ 31, d)
  | 0x018 =>
    let queued := (d.barns.map fun b => b.2.writes.length).foldl max 0
    (b2n d.clk.wqLost * 2 ^ 31 + queued * 2 ^ 16 + d.clk.wqDrop, { d with clk := { d.clk with wqDrop := 0 } })
  | _ => (0, d)

/-- A temperature in whole °C, 0 below 0 °C. -/
def wholeC (t : Option (Nat × Int)) : Nat := min 255 (t.elim 0 fun x => (x.2 / 4).toNat)

/-- PWR_BSTATb. -/
def Dev.bstat (d : Dev) (b : Nat) : Nat :=
  let floor := hottest (d.floorReadings b)
  let layer := hottest (d.layerReadings b)
  let warm := (d.floorReadings b).any fun x => decide (x.2 ≥ (d.pwr.warmC : Int) * 4)
  wholeC floor * 2 ^ 24 + wholeC layer * 2 ^ 16 + layer.elim 0 (fun x => (x.1 - 36 * b - 4) / 2) * 4096 +
    4 * b2n (d.barn b).tripped + 2 * b2n (d.barn b).hot + b2n warm

def Dev.readPwr (d : Dev) (p : Path) (o : Nat) : RegOut :=
  match o with
  | 0x000 => (d.pwr.cap, d)
  | 0x004 => (d.pwr.avg % 1024 * 2 ^ 16 + d.pwr.inst % 1024, d)
  | 0x008 => (d.pwr.level, d)
  | 0x00C => (d.pwr.tripC * 2 ^ 16 + d.pwr.hotC * 256 + d.pwr.warmC, d)
  | 0x010 => ((d.path p).pwrSsel, d)
  | 0x014 =>
    match (if (d.path p).pwrSsel < 152 then d.sensor (d.path p).pwrSsel else none) with
    | some t => (2 ^ 31 + (t % 2 ^ 16).toNat, d)
    | none => (0, d)
  | 0x018 => (((List.range 4).map fun b => b2n (d.barn b).clearBit * 2 ^ b).sum, d)
  | 0x040 => (d.pwr.cntHot, { d with pwr := { d.pwr with cntHot := 0 } })
  | 0x044 => (d.pwr.cntTrip, { d with pwr := { d.pwr with cntTrip := 0 } })
  | 0x048 => (d.pwr.cntGov, { d with pwr := { d.pwr with cntGov := 0 } })
  | o =>
    if 0x020 ≤ o ∧ o < 0x030 then (d.bstat ((o - 0x020) / 4), d)
    else if 0x030 ≤ o ∧ o < 0x040 then
      (((List.range 16).map fun k => (d.barn ((o - 0x030) / 4)).bands.getD k 0 % 4 * 4 ^ k).sum, d)
    else (0, d)

def Dev.readPlp (d : Dev) (o : Nat) : RegOut :=
  match o with
  | 0x000 => (d.plp.addr, d)
  | 0x004 =>
    ((d.plp.upNotices.length + d.plp.downNotices.length) * 256 + b2n (d.plp.lastRx.any fun t => decide (d.now ≤ t + 1000000)), d)
  | 0x008 => (d.plp.cntRx, { d with plp := { d.plp with cntRx := 0 } })
  | 0x00C => (d.plp.cntCrc, { d with plp := { d.plp with cntCrc := 0 } })
  | 0x010 => (d.plp.cntAcc, { d with plp := { d.plp with cntAcc := 0 } })
  | 0x014 => (d.plp.cntNotice, { d with plp := { d.plp with cntNotice := 0 } })
  | _ => (0, d)

/-! ### SES, ARB, TTH -/

/-- SES_STATUS.STATE. -/
def Session.stateCode (x : Session) : Nat :=
  match x.st with
  | .closed => 0
  | .opened => if x.hold.isSome then 2 else 1
  | .closing => 3

/-- A session's registers (offset within its 64 bytes). -/
def Dev.readSession (d : Dev) (p : Path) (s o : Nat) : RegOut :=
  let x := d.ses s
  let base := 0x41000 + s * 0x40
  match o with
  | 0x00 => (4 * b2n x.pcie + 2 * b2n x.abort + b2n (x.st == .opened), d)
  | 0x04 => (x.coord, d)
  | 0x08 => d.pairLo p (base + 0x08) x.lset
  | 0x0C => d.latched p (base + 0x0C)
  | 0x10 => (x.maxOut, d)
  | 0x14 => (x.epoch * 2 ^ 16 + 8 * b2n x.fault + x.stateCode, d)
  | 0x18 => (d.sesOut s, d)
  | 0x1C => (x.pepoch, d)
  | 0x20 => d.pairLo p (base + 0x20) x.qpt
  | 0x24 => d.latched p (base + 0x24)
  | 0x28 =>
    let y := (d.refreshClink s).ses s
    (if y.st = .closed then 64 + x.clink else 64 * b2n y.clinkNone + y.clink, d)
  | 0x2C => (x.lost, d.updSes s fun x => { x with lost := 0 })
  | 0x30 => (x.stray * 2 ^ 16 + x.nudge, d.updSes s fun x => { x with stray := 0, nudge := 0 })
  | _ => (0, d)

def Dev.readSes (d : Dev) (p : Path) (o : Nat) : RegOut :=
  match o with
  | 0x0000 => (d.sweepEffective * 2 ^ 16 + d.arb.sweepUs, d)
  | 0x0008 => (d.slotsUsed, d)
  | 0x000C => (d.arb.dataTo, d)
  | 0x0010 => (d.arb.dstray, { d with arb := { d.arb with dstray := 0 } })
  | 0x0014 => (b2n d.arb.qpRefused * 2 ^ 31 + (d.qps.filter fun q => q.2.st != .idle).length, d)
  | o => if 0x1000 ≤ o ∧ o < 0x9000 then d.readSession p ((o - 0x1000) / 0x40) (o % 0x40) else (0, d)

/-- QP_CTRL of device queue pair q. -/
def Dev.readQp (d : Dev) (q : Nat) : Nat :=
  let x := d.qp q
  let st := match x.st with
    | .idle => 0
    | .active => 1
    | .stopping => 2
    | .error => 3
  x.sqCi % 2 ^ 16 * 2 ^ 16 + x.err * 256 + 4 * st + b2n x.enable

/-- A session's arbitration registers (offset within its 32 bytes). -/
def Dev.readArbSes (d : Dev) (p : Path) (s o : Nat) : RegOut :=
  let x := d.ses s
  let base := 0x51000 + s * 0x20
  match o with
  | 0x00 => (x.rate, d)
  | 0x04 => (x.burstKib, d)
  | 0x08 => d.pairLo p (base + 0x08) (int64 ((x.refill d.now).bal / 1000))
  | 0x0C => d.latched p (base + 0x0C)
  | 0x10 => (x.wBulk * 2 ^ 16 + x.wNormal * 256 + x.wHigh, d)
  | 0x14 => (min (2 ^ 24 - 1) (d.held_ s / 1024) * 256 + d.pendUsed s, d)
  | _ => (0, d)

def Dev.readArb (d : Dev) (p : Path) (o : Nat) : RegOut :=
  match o with
  | 0x0000 => (d.arb.ucapPct, d)
  | 0x0004 => (urefOf d.variant, d)
  | 0x0008 => (min (2 ^ 32 - 1) d.rollWindow.arb.urgentUsed, d)
  | 0x000C => (d.arb.inflShared, d)
  | 0x0010 => (d.arb.capMib * 2 ^ 16 + d.arb.resvKib, d)
  | 0x0014 => (d.sharedUsed 0 0 / 1024, d)
  | 0x0018 => (d.arb.wbufNext * 256 + d.arb.wbufCur, d)
  | 0x001C => (d.wbUsed, d)
  | 0x0020 => d.pairLo p 0x50020 d.stagedTotal
  | 0x0024 => d.latched p 0x50024
  | o => if 0x1000 ≤ o ∧ o < 0x5000 then d.readArbSes p ((o - 0x1000) / 0x20) (o % 0x20) else (0, d)

def Dev.readTth (d : Dev) (p : Path) (o : Nat) : RegOut :=
  let x := d.path p
  match o with
  | 0x000 => (x.tthSel, d)
  | 0x004 => d.pairLo p 0x60004 (d.tether x.tthSel).toNat
  | 0x008 => d.latched p 0x60008
  | 0x00C => ((d.tth.waiters.filter fun w => w.tether == x.tthSel).length, d)
  | 0x010 => (d.tth.perSes, d)
  | 0x014 => (d.tth.waiters.length, d)
  | 0x018 => (d.tth.cntFull, { d with tth := { d.tth with cntFull := 0 } })
  | 0x01C => (d.tth.cntTimeout, { d with tth := { d.tth with cntTimeout := 0 } })
  | 0x020 => (x.tthSsel, d)
  | 0x024 => (d.waitSlots x.tthSsel, d)
  | _ => (0, d)

/-! ### CHK, SHD, FAB -/

/-- CHK_KCV (R625). -/
def Chk.kcv (c : Chk) : Nat :=
  match c.root with
  | some k => ((aes256 (k.map BitVec.toNat) (List.replicate 16 0)).take 3).foldr (fun b n => b + 256 * n) 0
  | none => 0

def Dev.readChk (d : Dev) (o : Nat) : RegOut :=
  let c := d.chk
  match o with
  | 0x004 => (16 * c.estate + 4 * b2n c.efail + 2 * b2n c.crej + b2n c.root.isSome, d)
  | 0x008 => (c.kcv, d)
  | 0x040 => (c.make, { d with chk := { c with make := 0 } })
  | 0x044 => (c.check, { d with chk := { c with check := 0 } })
  | 0x048 => (c.fail, { d with chk := { c with fail := 0 } })
  | 0x04C => (c.recov, { d with chk := { c with recov := 0 } })
  | 0x050 => (c.noKey, { d with chk := { c with noKey := 0 } })
  | 0x054 => (c.eht, { d with chk := { c with eht := 0 } })
  | 0x058 => (800 * 2 ^ 16 + 41, d)
  | _ => (0, d)

/-- The shed holds an identity of this device: its sizes mean something. -/
def Dev.formatted (d : Dev) : Bool := d.shd.st == shdReady || d.shd.st == shdReadOnly

/-- Highest and lowest erase counts of any superblock. -/
def Dev.wearWord (d : Dev) : Nat :=
  if !d.formatted then 0
  else
    let rs := (List.range 4).map d.eraseRange
    let most := (rs.map Prod.snd ++ d.shd.ckErases).foldl max 0
    let least := (rs.map Prod.fst ++ d.shd.ckErases).foldl min ((rs.map Prod.fst).headD 0)
    min 65535 most * 2 ^ 16 + min 65535 least

def Dev.readShd (d : Dev) (p : Path) (o : Nat) : RegOut :=
  let s := d.shd
  match o with
  | 0x000 => (2 * b2n s.wlEn, d)
  | 0x004 => (s.pop.elim 0 (fun x => x.targets % 16 * 4096 + x.rate % 16 * 256) + s.st, d)
  | 0x008 => (s.pop.elim 0 (fun x => x.luns % 4 * 2 ^ 18 + x.planes % 4 * 2 ^ 16 + x.unit % 8 * 2 ^ 13 + x.pages % 2 ^ 13), d)
  | 0x00C => (if d.formatted then d.lblkCount else 0, d)
  | 0x020 => (s.logs.length, d)
  | 0x024 => (s.prate, d)
  | 0x028 => (s.ckptSec, d)
  | 0x02C => d.pairLo p 0x8002C (s.ckpt.elim 0 Ckpt.seq)
  | 0x030 => d.latched p 0x80030
  | 0x034 => (d.wearWord, d)
  | 0x038 => (s.gap, d)
  | 0x03C => (min 65535 s.retired * 2 ^ 16 + min 65535 (s.spares.foldl min (s.spares.headD 0)), d)
  | 0x040 => (min 65535 s.replayLogs * 2 ^ 16 + min 65535 s.replayMs, d)
  | 0x044 => (s.cntSwitch, { d with shd := { s with cntSwitch := 0 } })
  | 0x048 => (s.cntPartial, { d with shd := { s with cntPartial := 0 } })
  | 0x04C => (s.cntFull, { d with shd := { s with cntFull := 0 } })
  | 0x050 => (s.cntPfail, { d with shd := { s with cntPfail := 0 } })
  | 0x054 => (s.cntEfail, { d with shd := { s with cntEfail := 0 } })
  | 0x058 => (s.cntRdunc, { d with shd := { s with cntRdunc := 0 } })
  | o =>
    if 0x010 ≤ o ∧ o < 0x020 then
      let f := d.freeSblks ((o - 0x010) / 4)
      (if d.formatted then muckShare f * 2 ^ 20 + f % 2 ^ 20 else 10 * 2 ^ 20, d)
    else (0, d)

def Dev.readFab (d : Dev) (p : Path) (o : Nat) : RegOut :=
  match o with
  | 0x000 => (b2n d.fab.enable * 2 ^ 31 + d.fab.nextPeriodUs, d)
  | 0x004 => (d.fab.map.headD 0 |>.toNat, d)
  | 0x008 => ((d.path p).mapSel, d)
  | 0x00C => ((d.fab.map.getD (d.path p).mapSel 0).toNat, d)
  | _ => (0, d)

/-! ### BRU, WMK, SHP -/

def Dev.readBru (d : Dev) (p : Path) (o : Nat) : RegOut :=
  let b := d.bru
  match o with
  | 0x000 =>
    (b.failcode * 2 ^ 24 + ((List.range 4).map fun i => b2n (b.warm.getD i false) * 2 ^ (16 + i)).sum + 256 * b2n b.image +
      16 * b2n b.storeBusy + b.st, d)
  | 0x004 => (b2n b.clrRemap, d)
  | 0x00C => (8 * b2n b.straps.pexEn + 4 * b2n b.straps.nowarm + b.straps.boot % 4, d)
  | 0x010 => d.pairLo p 0xA0010 b.uid.toNat
  | 0x014 => d.latched p 0xA0014
  | 0x018 => (((List.zip (List.range 6) b.dies).map fun e => if e.2 = 0 then 2 ^ e.1 else 0).sum, d)
  | 0x01C => ((b.items.filter fun w => w.getLsbD 0).length * 2 ^ 16 + b.items.length, d)
  | 0x020 => ((d.path p).topoSel, d)
  | 0x024 => ((b.items.getD (d.path p).topoSel 0).toNat, d)
  | 0x028 => ((d.path p).bndSel, d)
  | 0x02C =>
    match b.bundles[(d.path p).bndSel]? with
    | some (serv, fin, fout, new) => (b2n serv * 2 ^ 31 + min 255 new * 2 ^ 16 + min 255 fin * 256 + min 255 fout, d)
    | none => (0, d)
  | 0x030 => (b2n b.flBusy * 2 ^ 31 + b2n b.flErr * 2 ^ 30, d)
  | 0x034 => (b.flAddr, d)
  | o =>
    if 0x040 ≤ o ∧ o < 0x068 then (b.steps.getD ((o - 0x040) / 4) 0, d)
    else if 0x100 ≤ o ∧ o < 0x200 then (leNat (slice (o - 0x100) 4 b.flData), d)
    else (0, d)

/-- The 32 bytes of an event record (R837). -/
def Event.bytes (e : Event) : List Byte :=
  natLe 8 e.stamp ++ natLe 2 e.code ++ natLe 2 e.source ++ natLe 4 e.seq ++ natLe 4 e.d0 ++ natLe 4 e.d1 ++ natLe 4 e.d2 ++ zeros 4

/-- The 32 bytes that WMK_EQ_REC0–7 show (R840). -/
def Evq.front (q : Evq) : List Byte :=
  match q.records with
  | e :: _ => e.bytes
  | [] => zeros 32

/-- A read of the first register of a latch group at `base`: its word, the others latched (R870). -/
def Dev.groupRead (d : Dev) (p : Path) (base : Nat) (bytes : List Byte) : RegOut :=
  (leNat (bytes.take 4), (List.range 7).foldl (fun d k => d.latch p (base + 4 * (k + 1)) (leNat (slice (4 * (k + 1)) 4 bytes))) d)

/-- Watermarks whose condition is numeric: they have thresholds (R843). -/
def wmkNumeric (n : Nat) : Bool := decide (6 ≤ n) && decide (n ≤ 15) && n != 7

def Dev.readWmkN (d : Dev) (n o : Nat) : Nat :=
  let w := d.wmk n
  match o with
  | 0x0 => 8 * b2n w.alert + 4 * b2n w.msix + 2 * b2n w.noticeDown + b2n w.noticeUp
  | 0x4 => if wmkNumeric n then w.clearT * 2 ^ 16 + w.setT else 0
  | 0x8 => b2n w.level * 2 ^ 31 + b2n w.crossed * 2 ^ 30 + b2n w.dcrossed * 2 ^ 29 + w.up
  | _ => w.down

def Dev.readWmk (d : Dev) (p : Path) (o : Nat) : RegOut :=
  match o with
  | 0x000 => (b2n d.evq.lost * 2 ^ 31 + d.evq.records.length, d)
  | 0x008 => (d.evq.dropped, { d with evq := { d.evq with dropped := 0 } })
  | 0x00C => (d.evq.seq, d)
  | 0x020 => d.groupRead p 0xB0020 d.evq.front
  | o =>
    if 0x020 < o ∧ o < 0x040 then d.latched p (0xB0000 + o)
    else if 0x100 ≤ o ∧ o < 0x210 then (d.readWmkN ((o - 0x100) / 16) (o % 16), d)
    else (0, d)

/-- Entry k of the shape table; entry 0 reads zero (R876). -/
def Dev.readShp (d : Dev) (o : Nat) : Nat :=
  let k := o / 0x40
  let w := o % 0x40 / 4
  let e := d.shape k
  if k = 0 then 0 else if w < 15 then (e.words.getD w 0).toNat else b2n e.valid * 2 ^ 31 + e.err % 16

/-! ### LNK, LNKC -/

def linkStCode : LinkSt → Nat
  | .disabled => 0
  | .train => 1
  | .align => 2
  | .capx => 3
  | .active => 4
  | .down => 5

def Dev.readLnk (d : Dev) (p : Path) (n o : Nat) : RegOut :=
  let l := d.link n
  let base := 0x100000 + n * 0x1000
  let rc := fun (v : Nat) (f : LinkCnt → LinkCnt) => (v, d.updLink n fun l => { l with cnt := f l.cnt })
  if !linkPresent d.variant n then (0, d)
  else if !d.gatehousePath (n / 24) then (if o = 0x004 then 11 * 16 + 5 else 0, d)
  else
    match o with
    | 0x000 => (16 * l.pattern + 2 * b2n l.emode + b2n l.enable, d)
    | 0x004 => (l.minor % 16 * 256 + l.reason * 16 + 8 * b2n l.urg + linkStCode l.st, d)
    | 0x008 => (l.pcoord, d)
    | 0x00C => (l.pepoch, d)
    | 0x010 => d.pairLo p (base + 0x010) (l.pcred.req + l.pcred.data * 2 ^ 16 + l.pcred.rsp * 2 ^ 32 + l.pcred.urg * 2 ^ 48)
    | 0x014 => d.latched p (base + 0x014)
    | 0x020 => rc l.cnt.fecCor fun c => { c with fecCor := 0 }
    | 0x024 => rc l.cnt.fecUnc fun c => { c with fecUnc := 0 }
    | 0x028 => rc l.cnt.replay fun c => { c with replay := 0 }
    | 0x02C => rc l.cnt.drop fun c => { c with drop := 0 }
    | 0x030 => rc l.cnt.reject fun c => { c with reject := 0 }
    | 0x034 => rc l.cnt.rejSup fun c => { c with rejSup := 0 }
    | 0x038 => rc l.cnt.dup fun c => { c with dup := 0 }
    | 0x03C => rc l.cnt.down fun c => { c with down := 0 }
    | 0x040 => rc l.cnt.inRej fun c => { c with inRej := 0 }
    | 0x044 => (l.lastRejType * 256 + l.lastRejCode, d)
    | _ => (0, d)

def Dev.holding (d : Dev) : Nat := (d.sessions.filter fun s => s.2.hold.isSome).length

def Dev.readLnkc (d : Dev) (o : Nat) : RegOut :=
  let l := d.lnkc
  match o with
  | 0x000 => (l.coord, d)
  | 0x004 => (256 * b2n l.mismatch + 4 * l.offerLink + 2 * b2n l.adopted + b2n l.valid, d)
  | 0x008 => (l.holdMs, d)
  | 0x00C => (l.epoch, d)
  | 0x010 => (if d.dieOk 4 then l.ghcapW.toNat % 65536 else 0, d)
  | 0x014 => (if d.dieOk 5 then l.ghcapE.toNat % 65536 else 0, d)
  | 0x018 => (l.lostCmd, { d with lnkc := { l with lostCmd := 0 } })
  | 0x01C => (d.holding, d)
  | _ => (0, d)

/-! ### BRN, STL, SLM -/

/-- BRN_GRM_STAT.PASSES: completed passes of the slowest layer (R672). -/
def Dev.passes (d : Dev) (b : Nat) : Nat :=
  let done := (d.availStalls.filter fun s => s / 64 == b).flatMap fun s => (d.stall s).grmDone
  min 65535 (done.foldl min (done.headD 0) / 16384)

/-- Degraded lofts of barn b, as the mask of BRN_DEGR. -/
def Dev.degrMask (d : Dev) (b : Nat) : Nat := ((List.range 64).map fun j => b2n (d.stall (64 * b + j)).degraded * 2 ^ j).sum

def Dev.readBrn (d : Dev) (p : Path) (b o : Nat) : RegOut :=
  let x := d.barn b
  let base := 0x400000 + b * 0x100000
  let rc := fun (v : Nat) (f : Barn → Barn) => (v, d.updBarn b f)
  if !d.dieOk b then (0, d)
  else
    match o with
    | 0x000 => (x.evlim * 2 ^ 16 + b2n x.bucketMode, d)
    | 0x004 => (x.leak * 2 ^ 16 + x.size, d)
    | 0x008 => (b2n x.ovf * 2 ^ 16 + x.level, d)
    | 0x00C => rc x.ovfCnt fun x => { x with ovfCnt := 0 }
    | 0x010 => (b2n x.boost * 2 ^ 24 + x.debtLimit * 256 + x.passH, d)
    | 0x014 => (d.passes b * 2 ^ 16 + ((List.range 64).filter fun j => (d.stall (64 * b + j)).catchup).length, d)
    | 0x018 => rc x.corr fun x => { x with corr := 0 }
    | 0x01C => rc x.ue fun x => { x with ue := 0 }
    | 0x020 => rc x.recov fun x => { x with recov := 0 }
    | 0x024 => rc x.remap fun x => { x with remap := 0 }
    | 0x028 => (x.fillMs % 65536 * 2 ^ 16 + x.fillSt, d)
    | 0x02C => d.pairLo p (base + 0x02C) (d.degrMask b)
    | 0x030 => d.latched p (base + 0x030)
    | _ => (0, d)

def Remap.word (r : Remap) : Nat := 2 ^ 31 + r.spare % 2 * 2 ^ 24 + r.layer % 16 * 2 ^ 20 + r.row % 65536

/-- Poisoned segments in the loft of stall s (R664). -/
def Dev.poisonedIn (d : Dev) (s : Nat) : Nat :=
  (d.allRecs.map fun e => (e.2.2.segs.filter fun g => g.st == 3 && g.stall == s).length).sum

def Dev.readStl (d : Dev) (p : Path) (s o : Nat) : RegOut :=
  let x := d.stall s
  let base := 0x400000 + s / 64 * 0x100000 + 0x10000 + s % 64 * 0x1000
  let rc := fun (v : Nat) (f : StallCnt → StallCnt) => (v, d.updStall s fun x => { x with cnt := f x.cnt })
  if !d.stallAvail s then (0, d)
  else
    match o with
    | 0x000 =>
      (min 48 (d.ctxUsed s) * 2 ^ 16 + x.updq.length % 16 * 2 ^ 12 + 4 * b2n (d.barn (s / 64)).tripped + 2 * b2n x.degraded + 1, d)
    | 0x004 => (x.cam.length, d)
    | 0x008 => ((ovfSlots x).length * 2 ^ 21 + ovfKeys x, d)
    | 0x00C => (d.poolFree s, d)
    | 0x010 => rc x.cnt.search fun c => { c with search := 0 }
    | 0x014 => rc x.cnt.update fun c => { c with update := 0 }
    | 0x018 => rc x.cnt.delay fun c => { c with delay := 0 }
    | 0x01C => rc x.cnt.multi fun c => { c with multi := 0 }
    | 0x020 => rc x.cnt.ovfRead fun c => { c with ovfRead := 0 }
    | 0x024 => rc x.cnt.parity fun c => { c with parity := 0 }
    | 0x028 => rc (x.cnt.towLost * 2 ^ 16 + x.cnt.seqWon) fun c => { c with seqWon := 0, towLost := 0 }
    | 0x02C => rc x.cnt.tow fun c => { c with tow := 0 }
    | 0x040 => d.groupRead p (base + 0x040) (x.towLast.flatMap fun w => natLe 4 w.toNat)
    | 0x080 => (x.pendList.length * 256 + x.remaps.length, d)
    | 0x084 => rc x.cnt.corr fun c => { c with corr := 0 }
    | 0x088 => rc x.cnt.ue fun c => { c with ue := 0 }
    | 0x08C => (d.poisonedIn s, d)
    | 0x090 => (x.lastErr.toNat, d)
    | 0x094 => ((d.groomTick (s / 64)).debtOf s, d)
    | o =>
      if 0x040 < o ∧ o < 0x060 then d.latched p (base + o)
      else if 0x0C0 ≤ o ∧ o < 0x100 then ((x.remaps[(o - 0x0C0) / 4]?).elim 0 Remap.word, d)
      else (0, d)

def Dev.readSlm (d : Dev) (b u o : Nat) : RegOut :=
  let x := d.barn b
  if !d.dieOk b then (0, d)
  else
    match o with
    | 0x000 => (b2n (x.slmEnable.getD u true), d)
    | 0x004 => (6, d)
    | 0x008 => (x.slmBlocks.getD u 0, d.updBarn b fun x => { x with slmBlocks := x.slmBlocks.set u 0 })
    | 0x00C => (x.slmFallback.getD u 0, d.updBarn b fun x => { x with slmFallback := x.slmFallback.set u 0 })
    | _ => (0, d)

/-! ### The paddock table -/

def Dev.readPdk (d : Dev) (p : Path) (id o : Nat) : RegOut :=
  let x := d.pad id
  let base := 0x1000000 + id * 0x1000
  if o = 0x00C then (if x.live then x.epoch else x.mark, d)
  else if o = 0x018 then (d.padStatus id, d)
  else if 0x040 ≤ o ∧ o < 0x058 ∧ o % 8 = 4 then d.latched p (base + o)
  else if o = 0x040 then d.pairLo p (base + o) (if x.live then d.padKeys id else 0)
  else if o = 0x048 then d.pairLo p (base + o) (if x.live then d.padDram id else 0)
  else if o = 0x050 then d.pairLo p (base + o) (if x.live then d.padShed id else 0)
  else if !x.live then (0, d)
  else
    match o with
    | 0x000 => (x.ctrl, d)
    | 0x004 => (x.stage, d)
    | 0x008 => (x.shape, d)
    | 0x010 => (x.qDram, d)
    | 0x014 => (x.qShed, d)
    | o => if 0x020 ≤ o ∧ o < 0x040 then (leNat (slice (o - 0x020) 4 x.bitmap), d) else (0, d)

/-! ### The map (R860) -/

/-- The word at an offset whose block can be reached. -/
def Dev.readBlock (d : Dev) (p : Path) (off : Nat) : RegOut :=
  let o := off % 0x10000
  let page := off % 0x1000
  if off < 0x10000 then d.readGlb o
  else if off < 0x20000 then d.readClk p o
  else if off < 0x30000 then d.readPwr p o
  else if off < 0x40000 then d.readPlp o
  else if off < 0x50000 then d.readSes p o
  else if off < 0x60000 then d.readArb p o
  else if off < 0x70000 then d.readTth p o
  else if off < 0x80000 then d.readChk o
  else if off < 0x90000 then d.readShd p o
  else if off < 0xA0000 then d.readFab p o
  else if off < 0xB0000 then d.readBru p o
  else if off < 0xC0000 then d.readWmk p o
  else if off < 0xD0000 then (d.readShp o, d)
  else if off < 0xF0000 then (d.readQp ((off - 0xD0000) / 4), d)
  else if off < 0x100000 then (0, d)
  else if off < 0x130000 then d.readLnk p ((off - 0x100000) / 0x1000) page
  else if off < 0x131000 then d.readLnkc page
  else if off < 0x400000 then (0, d)
  else if off < 0x800000 then
    let b := (off - 0x400000) / 0x100000
    let r := off % 0x100000
    if r < 0x1000 then d.readBrn p b page
    else if 0x10000 ≤ r ∧ r < 0x50000 then d.readStl p (64 * b + (r - 0x10000) / 0x1000) page
    else if 0x80000 ≤ r ∧ r < 0x84000 then d.readSlm b ((r - 0x80000) / 0x1000) page
    else (0, d)
  else if off < 0x1000000 then (0, d)
  else if off < 0x2000000 then d.readPdk p ((off - 0x1000000) / 0x1000) page
  else (0, d)

/-- A register read on an access path (R771, R865–R870, R876). -/
def Dev.regRead (d : Dev) (p : Path) (off : Nat) : Word × Dev :=
  if !d.glb.blocks && !earlyBlock off then (0, d)
  else
    let (v, d) := d.readBlock p off
    (BitVec.ofNat 32 v, d)

end Sys2Proof.Machine
end

