-- ==== Sys2Proof/Machine/RegWrite.lean ====
section
/-! DEFINITION. Register writes (R700, R706–R708, R771, R835, R862–R871, R875, R876 and the field tables of the owning chapters).
A write is in force at its acceptance (log 24). -/

namespace Sys2Proof.Machine

open Sys2Proof

/-! ### Stored copies and the mailbox -/

/-- The results as a stored copy carries them (R792, R795); its sequence number is given when it is written. -/
def Dev.resultsCopy (d : Dev) : StoredCopy :=
  { seq := 0, uid := d.bru.uid, dieIds := d.bru.dieIds.take 4, temps := d.bru.temps, clrRemap := d.bru.clrRemap,
    nextGib := d.bru.copyGib, remaps := d.stalls.filterMap fun x =>
      if x.2.remaps.isEmpty && !x.2.degraded then none else some (x.1, (x.2.remaps, x.2.degraded)) }

/-- A stored copy is asked of the xSPI port (R777, R795). -/
def Dev.storeNow (d : Dev) : Dev :=
  { d with bru := { d.bru with xspi := d.bru.xspi ++ [.store d.resultsCopy], storeBusy := true } }

/-- A mailbox operation is asked of the xSPI port; a write while BUSY has no effect (R777, BRU_FL_CTRL). -/
def Dev.mailboxOp (d : Dev) (op : Nat) : Dev :=
  let a := d.bru.flAddr / 256 * 256
  if d.bru.flBusy || op == 0 then d
  else
    let x := if op = 1 then FlashOp.read a else if op = 2 then FlashOp.program a d.bru.flData else FlashOp.erase (a / 65536 * 65536)
    { d with bru := { d.bru with xspi := d.bru.xspi ++ [x], flBusy := true } }

/-- Entry into READY (R804, R829, R883). -/
def Dev.enterReady (d : Dev) : Dev :=
  let degr := (d.bru.items.filter fun w => w.getLsbD 0).length
  let d : Dev := { d with bru := { d.bru with st := 11 }, glb := { d.glb with ready := true, degraded := false } }
  ((d.event Ev.bruReady.code 0x0000 d.bru.items.length degr 0).msix 2).storeSoon

/-! ### Blocks -/

def fit (lo hi v : Nat) : Nat := max lo (min hi v)

def Dev.writeGlb (d : Dev) (o : Nat) (v : Word) : Dev :=
  match o with
  | 0x020 => { d with glb := { d.glb with scratch0 := v } }
  | 0x024 => { d with glb := { d.glb with scratch1 := v } }
  | _ => d

/-- W1C bits of CLK_LOSS. -/
def Clk.clearLoss (c : Clk) (v : Nat) : Clk :=
  let clr := fun (l : List Bool) lo => (List.zip (List.range 4) l).map fun e => e.2 && !bit v (lo + e.1)
  { c with lossPe := c.lossPe && !bit v 11, lossN := c.lossN && !bit v 10, lossD := clr c.lossD 6, lossS := clr c.lossS 2 }

def Dev.writeClk (d : Dev) (o v : Nat) : Dev :=
  match o with
  | 0x004 => { d with clk := d.clk.clearLoss v }
  | 0x010 => d.measSel v
  | 0x018 => if bit v 31 then { d with clk := { d.clk with wqLost := false } } else d
  | _ => d

def Dev.writePwr (d : Dev) (p : Path) (o v : Nat) : Dev :=
  match o with
  | 0x000 => d.capWrite v
  | 0x00C => d.thrWrite v
  | 0x010 => d.updPath p fun x => { x with pwrSsel := v % 256 }
  | 0x018 => d.bctrlWrite v
  | _ => d

/-- Writable only while the session is CLOSED. -/
def Dev.updClosed (d : Dev) (s : Nat) (f : Session → Session) : Dev :=
  d.updSes s fun x => if x.st = .closed then f x else x

def Dev.writeSession (d : Dev) (s o v : Nat) : Dev :=
  let x := d.ses s
  match o with
  | 0x00 => d.sesCtrlWrite s v
  | 0x04 => d.updClosed s fun x => { x with coord := v % 2 ^ 24 }
  | 0x08 => d.lsetWrite s (x.lset / 2 ^ 32 * 2 ^ 32 + v)
  | 0x0C => d.lsetWrite s (x.lset % 2 ^ 32 + v % 2 ^ 16 * 2 ^ 32)
  | 0x10 => d.updSes s fun x => { x with maxOut := fit 1 4096 (v % 8192) }
  | 0x14 => if bit v 3 then d.updSes s fun x => { x with fault := false } else d
  | 0x20 => d.updClosed s fun x => { x with qpt := x.qpt / 2 ^ 32 * 2 ^ 32 + v }
  | 0x24 => d.updClosed s fun x => { x with qpt := x.qpt % 2 ^ 32 + v * 2 ^ 32 }
  | _ => d

def Dev.writeSes (d : Dev) (o v : Nat) : Dev :=
  match o with
  | 0x0000 => { d with arb := { d.arb with sweepUs := min 1000 (v % 1024) } }
  | 0x0004 => d.sesNudgeWrite v
  | 0x000C => { d with arb := { d.arb with dataTo := fit 1 1000 (v % 1024) } }
  | 0x0014 => if bit v 31 then { d with arb := { d.arb with qpRefused := false } } else d
  | o => if 0x1000 ≤ o ∧ o < 0x9000 then d.writeSession ((o - 0x1000) / 0x40) (o % 0x40) v else d

/-- ARB_RATE and ARB_BURST (R380, R382, R384). -/
def Session.setRate (x : Session) (now r : Nat) : Session := { (x.refill now) with rate := r }

def Session.setBurst (x : Session) (now b : Nat) : Session :=
  let y := x.refill now
  { y with burstKib := b, bal := if 0 < y.bal then min y.bal (b * 1024 * 1000) else y.bal }

def Dev.writeArbSes (d : Dev) (s o v : Nat) : Dev :=
  match o with
  | 0x00 => d.updSes s fun x => x.setRate d.now (v % 2 ^ 23)
  | 0x04 => d.updSes s fun x => x.setBurst d.now (fit 1 1048576 (v % 2 ^ 21))
  | 0x10 => d.updSes s fun x => { x with wHigh := max 1 (bits v 0 8), wNormal := max 1 (bits v 8 8), wBulk := max 1 (bits v 16 8) }
  | _ => d

def Dev.writeArb (d : Dev) (o v : Nat) : Dev :=
  match o with
  | 0x0000 => let d := d.rollWindow; { d with arb := { d.arb with ucapPct := min 75 (v % 128) } }
  | 0x000C => { d with arb := { d.arb with inflShared := fit 16 4096 (v % 8192) } }
  | 0x0010 => { d with arb := { d.arb with capMib := fit 1 4096 (bits v 16 16), resvKib := fit 64 16384 (bits v 0 16) } }
  | 0x0018 => d.wbufNext (bits v 8 6)
  | o => if 0x1000 ≤ o ∧ o < 0x5000 then d.writeArbSes ((o - 0x1000) / 0x20) (o % 0x20) v else d

def Dev.writeTth (d : Dev) (p : Path) (o : Nat) (v : Word) : Dev :=
  let x := d.path p
  match o with
  | 0x000 => d.updPath p fun x => { x with tthSel := v.toNat % 16384 }
  | 0x004 => d.updPath p fun x => { x with tthLo := v }
  | 0x008 => d.tetherSetTo x.tthSel (v ++ x.tthLo)
  | 0x010 => { d with tth := { d.tth with perSes := fit 1 65536 (v.toNat % 2 ^ 17) } }
  | 0x020 => d.updPath p fun x => { x with tthSsel := v.toNat % 512 }
  | _ => d

/-- A write to CHK_CTRL (R623, R624). -/
def Chk.ctrl (c : Chk) (v : Nat) : Chk :=
  if bit v 1 then { c with root := none, staged := List.replicate 8 0 }
  else if bit v 0 then
    if c.root.isSome then { c with crej := true }
    else { c with root := some (c.staged.flatMap fun w => natLe 4 w.toNat), staged := List.replicate 8 0 }
  else c

def Dev.writeChk (d : Dev) (o : Nat) (v : Word) : Dev :=
  let c := d.chk
  match o with
  | 0x000 =>
    let d : Dev := { d with chk := c.ctrl v.toNat }
    if c.root.isNone && d.chk.root.isSome then (d.cmds.map Cmd.id).foldl (fun d i => (d.makeTags i).commitWrite i) d else d
  | 0x004 => { d with chk := { c with efail := c.efail && !v.getLsbD 2, crej := c.crej && !v.getLsbD 1 } }
  | o => if 0x020 ≤ o ∧ o < 0x040 then { d with chk := { c with staged := c.staged.set ((o - 0x020) / 4) v } } else d

def Dev.writeShd (d : Dev) (o v : Nat) : Dev :=
  match o with
  | 0x000 =>
    let d : Dev := { d with shd := { d.shd with wlEn := bit v 1 } }
    if bit v 0 then d.startCheckpoint else d
  | 0x028 => { d with shd := { d.shd with ckptSec := fit 1 600 (v % 1024) } }
  | 0x038 => { d with shd := { d.shd with gap := max 16 (v % 65536) } }
  | 0x05C => d.formatWrite v
  | _ => d

def Dev.writeFab (d : Dev) (p : Path) (o v : Nat) : Dev :=
  match o with
  | 0x000 =>
    let f : Fab := { d.fab with enable := bit v 31, nextPeriodUs := fit 10 10000 (v % 2 ^ 14) }
    { d with fab := if !d.fab.enable && f.enable then { f with startAt := d.now, periodUs := f.nextPeriodUs } else f }
  | 0x008 => d.updPath p fun x => { x with mapSel := v % 512 }
  | _ => d

/-- The firmware-applied fields of BRU (R873). -/
def Dev.writeBruFw (d : Dev) (o v : Nat) : Dev :=
  match o with
  | 0x004 =>
    let d : Dev := { d with bru := { d.bru with clrRemap := bit v 0 } }
    if bit v 0 || bit v 1 then d.storeNow else d
  | 0x008 => if d.bru.st = 10 ∧ v % 65536 = d.bru.items.length then d.enterReady else d
  | 0x030 => d.mailboxOp (v % 4)
  | 0x034 => { d with bru := { d.bru with flAddr := v % 2 ^ 26 } }
  | o =>
    if 0x100 ≤ o ∧ o < 0x200 then { d with bru := { d.bru with flData := splice d.bru.flData (o - 0x100) (natLe 4 v) } } else d

/-- A write to BRU: firmware-applied fields are held until step 3 completes (R875). -/
def Dev.writeBru (d : Dev) (p : Path) (o v : Nat) : Dev :=
  match o with
  | 0x020 => d.updPath p fun x => { x with topoSel := v % 65536 }
  | 0x028 => d.updPath p fun x => { x with bndSel := v % 128 }
  | o =>
    let d : Dev := if o = 0x030 ∧ bit v 30 = true then { d with bru := { d.bru with flErr := false } } else d
    if d.bru.st ≤ 3 then
      { d with bru := { d.bru with heldWrites := d.bru.heldWrites ++ [{ path := p, off := o, val := BitVec.ofNat 32 v }] } }
    else d.writeBruFw o v

/-- Writes held before step 3 are applied in acceptance order (R875). -/
def Dev.applyHeld (d : Dev) : Dev :=
  let ws := d.bru.heldWrites
  ws.foldl (fun d w => d.writeBruFw w.off w.val.toNat) { d with bru := { d.bru with heldWrites := [] } }

/-- WMK_THRn as stored (R844). -/
def wmkThr (n v : Nat) : Nat × Nat :=
  let set := max 1 (v % 65536)
  let clr := v / 65536
  if n = 6 then (set, if clr ≤ set then set + 1 else clr) else (set, if set ≤ clr then set - 1 else clr)

def Dev.writeWmkN (d : Dev) (n o v : Nat) : Dev :=
  match o with
  | 0x0 => d.updWmk n fun w => { w with alert := bit v 3, msix := bit v 2, noticeDown := bit v 1, noticeUp := bit v 0 }
  | 0x4 => if wmkNumeric n then d.updWmk n fun w => { w with setT := (wmkThr n v).1, clearT := (wmkThr n v).2 } else d
  | 0x8 => d.updWmk n fun w =>
    let w : Wmk := if bit v 30 then { w with crossed := false, up := 0 } else w
    if bit v 29 then { w with dcrossed := false, down := 0 } else w
  | _ => d

def Dev.writeWmk (d : Dev) (o v : Nat) : Dev :=
  match o with
  | 0x000 => if bit v 31 then { d with evq := { d.evq with lost := false } } else d
  | 0x004 => if bit v 0 then { d with evq := { d.evq with records := d.evq.records.tail } } else d
  | o => if 0x100 ≤ o ∧ o < 0x210 then d.writeWmkN ((o - 0x100) / 16) (o % 16) v else d

/-- A write to SHP_CTL (R405). -/
def ShapeEnt.ctl (e : ShapeEnt) (v : Word) : ShapeEnt :=
  if v.getLsbD 31 then
    let err := descErr (e.words.flatMap fun w => natLe 4 w.toNat)
    { e with valid := err == 0, err := err }
  else { e with valid := false }

/-- A write to the shape table (R405–R407, R876). -/
def Dev.writeShp (d : Dev) (o : Nat) (v : Word) : Dev :=
  let k := o / 0x40
  let w := o % 0x40 / 4
  if k = 0 then d
  else d.updShape k fun e => if w = 15 then e.ctl v else if e.valid then e else { e with words := e.words.set w v }

/-- A write to LNKC_COORD (R151, R156). -/
def Dev.coordWrite (d : Dev) (v : Nat) : Dev :=
  { d with lnkc := { d.lnkc with coord := v % 2 ^ 24, valid := true, adopted := false } }

def Dev.writeLnkc (d : Dev) (o v : Nat) : Dev :=
  match o with
  | 0x000 => d.coordWrite v
  | 0x004 => if bit v 8 then { d with lnkc := { d.lnkc with mismatch := false } } else d
  | 0x008 => { d with lnkc := { d.lnkc with holdMs := min 2000 (v % 4096) } }
  | _ => d

/-- A write to a BRN page (R655–R661, R672). -/
def Dev.writeBrn (d : Dev) (b o v : Nat) : Dev :=
  match o with
  | 0x000 => d.updBarn b fun x =>
    { x with bucketMode := bit v 0, evlim := min 1000 (bits v 16 10), leakAt := if x.bucketMode = bit v 0 then x.leakAt else d.now }
  | 0x004 => d.updBarn b fun x =>
    { x with leak := bits v 16 16, size := max 1 (bits v 0 16), leakAt := if x.leak = bits v 16 16 then x.leakAt else d.now }
  | 0x008 => if bit v 16 then d.updBarn b fun x => { x with ovf := false } else d
  | 0x010 => d.grmCfgWrite b v
  | _ => d

def Dev.writeSlm (d : Dev) (b u o v : Nat) : Dev :=
  if o = 0x000 then d.updBarn b fun x => { x with slmEnable := x.slmEnable.set u (bit v 0) } else d

/-! ### The map -/

/-- The barn whose SCLK domain holds a register: a BRN, STL or SLM page that answers (R708, R876). -/
def Dev.sclkBarn (d : Dev) (off : Nat) : Option Nat :=
  if off < 0x400000 ∨ 0x800000 ≤ off then none
  else
    let b := (off - 0x400000) / 0x100000
    let r := off % 0x100000
    if !d.dieOk b then none
    else if r < 0x1000 ∨ (0x80000 ≤ r ∧ r < 0x84000) then some b
    else if 0x10000 ≤ r ∧ r < 0x50000 ∧ d.stallAvail (64 * b + (r - 0x10000) / 0x1000) = true then some b
    else none

/-- The effect of a write in the SCLK domain of a barn. -/
def Dev.writeBarnBlock (d : Dev) (off v : Nat) : Dev :=
  let b := (off - 0x400000) / 0x100000
  let r := off % 0x100000
  if r < 0x1000 then d.writeBrn b r v
  else if 0x80000 ≤ r ∧ r < 0x84000 then d.writeSlm b ((r - 0x80000) / 0x1000) (r % 0x1000) v
  else d

/-- A write for a tripped barn: queued, or dropped when 256 wait (R708). -/
def Dev.queueWrite (d : Dev) (b : Nat) (w : QueuedWrite) : Dev :=
  if (d.barn b).writes.length < 256 then d.updBarn b fun x => { x with writes := x.writes ++ [w] }
  else { d with clk := { d.clk with wqLost := true, wqDrop := satAdd 16 d.clk.wqDrop 1 } }

/-- The effect of an accepted write to a block that can be reached. -/
def Dev.writeBlock (d : Dev) (p : Path) (off : Nat) (w : Word) : Dev :=
  let o := off % 0x10000
  let page := off % 0x1000
  let v := w.toNat
  if off < 0x10000 then d.writeGlb o w
  else if off < 0x20000 then d.writeClk o v
  else if off < 0x30000 then d.writePwr p o v
  else if off < 0x40000 then d
  else if off < 0x50000 then d.writeSes o v
  else if off < 0x60000 then d.writeArb o v
  else if off < 0x70000 then d.writeTth p o w
  else if off < 0x80000 then d.writeChk o w
  else if off < 0x90000 then d.writeShd o v
  else if off < 0xA0000 then d.writeFab p o v
  else if off < 0xB0000 then d.writeBru p o v
  else if off < 0xC0000 then d.writeWmk o v
  else if off < 0xD0000 then d.writeShp o w
  else if off < 0xF0000 then d.qpCtrlWrite ((off - 0xD0000) / 4) v
  else if off < 0x100000 then d
  else if off < 0x130000 then
    let n := (off - 0x100000) / 0x1000
    if page = 0 ∧ linkPresent d.variant n = true ∧ d.gatehousePath (n / 24) = true then d.linkCtrl n v else d
  else if off < 0x131000 then d.writeLnkc page v
  else
    match d.sclkBarn off with
    | none => d
    | some b => if d.barnStopped b then d.queueWrite b { path := p, off := off, val := w } else d.writeBarnBlock off v

/-- A write that GLB_CFG_GEN does not count (R835). -/
def notSetUp (off : Nat) : Bool :=
  [0x60004, 0x60008, 0xB0004, 0x60000, 0x60020, 0x20010, 0xA0020, 0xA0028, 0x10010, 0x90008].contains off ||
    (decide (0x1000000 ≤ off) && decide (off < 0x2000000)) ||
    (decide (0xB0100 ≤ off) && decide (off < 0xB0210) && decide (8 ≤ off % 16))

/-- An accepted register write on an access path (R700, R771, R835, R865). -/
def Dev.regWrite (d : Dev) (p : Path) (off : Nat) (w : Word) : Dev :=
  if !d.glb.blocks && !earlyBlock off then d
  else
    let d : Dev := if notSetUp off then d else { d with glb := { d.glb with cfgGen := (d.glb.cfgGen + 1) % 2 ^ 32 } }
    d.writeBlock p off w

/-- The writes queued for a barn are applied when it resumes (R708). -/
def Dev.applyQueued (d : Dev) (b : Nat) : Dev :=
  let ws := (d.barn b).writes
  ws.foldl (fun d w => d.writeBarnBlock w.off w.val.toNat) (d.updBarn b fun x => { x with writes := [] })

end Sys2Proof.Machine
end

