-- ==== Sys2Proof/Machine/Packets.lean ====
section
/-! DEFINITION. Received frames: the receive buffer (R146, R367, R834), the parser (R169, R921), REJECTs (R158, R162, R163, R170), and
what each packet type does (R159, R228, R243, R261–R264, R287, R288, R832–R834); and the link steps that let waiting frames go on. -/

namespace Sys2Proof.Machine

open Sys2Proof

/-! ### The parser -/

/-- What the parser makes of a frame. -/
inductive Parsed where
  | drop
  | reject (code : Nat)
  | dup
  | ok
deriving DecidableEq, Repr

/-- The outstanding READ a READ_DATA names (R921). -/
def Dev.matchRead (d : Dev) (f : List Byte) : Option OutRead :=
  d.reads.find? fun r => r.tag == frameTag f && r.ses == frameSes f && !(d.ses r.ses).pcie

/-- DLEN is allowed for the TYPE (R158, R921). -/
def Dev.dlenOk (d : Dev) (f : List Byte) : Bool :=
  let n := fieldAt f 8 2
  if frameTyp f = 0x08 then
    match d.matchRead f with
    | some r => n == r.len
    | none => dlenAllowed 0x08 n false
  else dlenAllowed (frameTyp f) n (bit (frameArg f) 32)

/-- The session check of R169; a PCIe session takes no frames. -/
def Dev.sessionOk (d : Dev) (n : Nat) (f : List Byte) : Bool :=
  let x := d.ses (frameSes f)
  !frameNoses f && x.st == .opened && !x.pcie && xyz (frameSrc f) == x.coord && bit x.lset n

/-- OLINK names a present link whose history holds the frame's identity (R169). -/
def Dev.isDup (d : Dev) (f : List Byte) : Bool :=
  linkPresent d.variant (frameOlink f) && (d.link (frameOlink f)).history.contains (frameIdent f)

/-- The checks of R169 after the header walk. -/
def Dev.parseTail (d : Dev) (n : Nat) (f : List Byte) (pos : Nat) : Parsed :=
  if fieldAt f 6 2 ≠ pos ∨ fieldAt f 8 2 + pos ≠ f.length ∨ d.dlenOk f = false then .reject fxLength
  else if needsSession (frameTyp f) && !d.sessionOk n f then .reject fxNoSession
  else if d.isDup f then .dup
  else .ok

/-- The parser (R169): the first check that fails decides. -/
def Dev.parse (d : Dev) (n : Nat) (vc : Vc) (f : List Byte) : Parsed :=
  if f.length < 32 ∨ hcrcOk f = false then .drop
  else if fieldAt f 4 2 ≠ f.length then .reject fxLength
  else if receivedType (frameTyp f) = false then .reject fxBadType
  else if frameVc f ≠ vcCode vc ∨ vcAllowed (frameTyp f) (frameVc f) = false then .reject fxBadVc
  else if (d.link n).urg = false ∧ frameVc f = 3 then .reject fxBadVc
  else if d.lnkc.valid = false ∨ xyz (frameDst f) ≠ d.lnkc.coord then .reject fxNotMine
  else
    match frameWalk f with
    | .depth => .reject fxDepth
    | .length => .reject fxLength
    | .typ => .reject fxBadType
    | .ok pos _ => d.parseTail n f pos

/-- The extension headers of a frame that parses. -/
def frameHdrs (f : List Byte) : List ExtHdr :=
  match frameWalk f with
  | .ok _ hs => hs
  | _ => []

/-- A packet that answers a frame on its own link, with the fields R158 and R166 copy. -/
def answerPkt (f : List Byte) (typ arg : Nat) (payload : List Byte) (o : Owner) : Pkt :=
  let hs := framedHdrs f f.length 6 32 (fieldAt f 2 1)
  { typ := typ, vc := .rsp, olink := 0x3F, noses := frameNoses f, ses := frameSes f, qp := frameQp f, dst := frameSrc f, src := 0,
    tag := frameTag f, arg := arg, hdrs := echoHdrs ((findHdr 1 hs).map ExtHdr.body) ((findHdr 2 hs).map ExtHdr.body),
    payload := payload, owner := o }

/-- A packet that belongs to one link: it is lost when the link is not live. -/
def Dev.sendOn (d : Dev) (n : Nat) (p : Pkt) : Dev := if (d.link n).st = .active then d.enqueue n p else d

/-- REJECTs of a link that wait. -/
def Link.rejectsWaiting (l : Link) : Nat := (l.queue.filter fun p => p.owner == .reject).length

/-- A frame is rejected (R162, R170). DESIGN CHOICE (log 69): LNK_CNT_REJECT counts a REJECT when it is queued, also one of a
link that is no longer ACTIVE, whose REJECT is never sent. -/
def Dev.rejectFrame (d : Dev) (n : Nat) (f : List Byte) (code : Nat) : Dev :=
  let d := d.updLink n fun l => { l with lastRejType := frameTyp f, lastRejCode := code }
  if frameTyp f = 0x0C then d
  else if 16 ≤ (d.link n).rejectsWaiting then d.updLink n fun l => { l with cnt := { l.cnt with rejSup := sat1 l.cnt.rejSup } }
  else
    (d.updLink n fun l => { l with cnt := { l.cnt with reject := sat1 l.cnt.reject } }).sendOn n
      (answerPkt f 0x0C (code + 256 * frameTyp f) [] .reject)

/-! ### COMMAND -/

/-- The RESPONSE to a COMMAND that is not taken (R262, R264). -/
def Dev.turnAway (d : Dev) (c : Cmd) (flags : Nat) : Dev :=
  d.sendRsp c 0x02 0 (c.echo ++ d.tetherHdr c.body) (completionEntry c.tag Status.badDescriptor.code flags 0 0 0 d.now) .none

/-- The push-mode command of a queue pair with a tag. -/
def Dev.pushCmd (d : Dev) (s q tag : Nat) : Option Cmd :=
  d.cmds.find? fun c => c.ses == s && c.qp == q && c.tag == tag && c.via == .push

/-- An ACTIVE queue pair in push mode (R261, R264). -/
def Qp.takesPackets (x : Qp) : Bool := x.st == .active && x.ctx.push

/-- A COMMAND is delivered; `none` when it finds no free pending place (R261, R262, R264, R367, R924). -/
def Dev.commandIn (d : Dev) (vc : Vc) (f : List Byte) : Option Dev :=
  let s := frameSes f
  let q := frameQp f
  let (id, d') := d.fresh
  let c := d'.mkCmd id s q .push (vc == .urg) (frameTag f) (parseBody (framePayload f)) (frameHdrs f) .waiting none
  if !(d.qp (dqp s q)).takesPackets then some (d.turnAway c 0)
  else if (d.pushCmd s q (frameTag f)).isSome then some (d.turnAway c 2)
  else if 64 ≤ d.pendUsed s then none
  else some (d'.submit c)

/-! ### DATA -/

def Dev.strayData (d : Dev) : Dev := { d with arb := { d.arb with dstray := sat1 d.arb.dstray } }

/-- [off, off + n) lies in the outstanding grants: each part of it inside one. -/
def inGrants (gs : List Grant) : Nat → Nat → Nat → Bool
  | 0, _, n => n == 0
  | k + 1, off, n =>
    n == 0 ||
      match gs.find? fun g => decide (g.off ≤ off) && decide (off < g.off + g.len) with
      | none => false
      | some g => inGrants gs k (g.off + g.len) (off + n - (g.off + g.len))

/-- No byte of [off, off + n) has been received. -/
def notGot (got : List Piece) (off n : Nat) : Bool :=
  got.all fun p => decide (p.off + p.bytes.length ≤ off) || decide (off + n ≤ p.off)

/-- Bytes of [off, off + n) that lie in a grant. -/
def Grant.overlap (g : Grant) (off n : Nat) : Nat := min (g.off + g.len) (off + n) - max g.off off

/-- The grants after [off, off + n) has arrived: those complete are gone (R284). -/
def takeGrants (gs : List Grant) (off n : Nat) : List Grant :=
  (gs.map fun g => { g with got := g.got + g.overlap off n }).filter fun g => decide (g.got < g.len)

/-- Inbound bytes of a command arrive (R284–R287). -/
def Dev.dataFor (d : Dev) (c : Cmd) (off : Nat) (b : List Byte) : Dev :=
  if !(inGrants c.grants 5 off b.length && notGot c.got off b.length) then d.abort c.id Status.badLength.code
  else
    let d := d.updCmd c.id fun x =>
      { x with got := x.got ++ [{ off := off, bytes := b }], gotBytes := x.gotBytes + b.length, grants := takeGrants x.grants off b.length }
    (((d.makeTags c.id).askInput c.id).checkList c.id).commitWrite c.id

/-- A packet without effect is counted (R243, R264). -/
def Dev.noEffect (d : Dev) (s : Nat) : Dev := d.updSes s fun x => { x with nudge := satAdd 16 x.nudge 1 }

/-- A DATA packet is delivered (R264, R286–R289). -/
def Dev.dataIn (d : Dev) (f : List Byte) : Dev :=
  let s := frameSes f
  let q := frameQp f
  if !(d.qp (dqp s q)).takesPackets then d.noEffect s
  else
    match d.pushCmd s q (frameTag f) with
    | none => d.strayData
    | some c => if c.stage ≠ .admitted ∨ c.arrived = true then d.strayData else d.dataFor c (frameArg f % 2 ^ 37) (framePayload f)

/-! ### NUDGE, READ_DATA, CONFIG, REJECT -/

def Dev.nudgeIn (d : Dev) (vc : Vc) (f : List Byte) : Dev := d.nudgeQp (dqp (frameSes f) (frameQp f)) (vc == .urg)

def Dev.readDataIn (d : Dev) (f : List Byte) : Dev :=
  match d.matchRead f with
  | some r => d.answerRead r (framePayload f)
  | none => d.updSes (frameSes f) fun x => { x with stray := satAdd 16 x.stray 1 }

/-- Sessions with fetching that was held back. -/
def Dev.heldBackSes (d : Dev) : List Nat := ((d.qps.filter fun q => q.2.heldBack).map fun q => q.1 / 64).eraseDups

/-- Fetching that was held back goes on where it has become possible (R241). -/
def Dev.wakeHeld (d : Dev) : Dev := d.heldBackSes.foldl Dev.wakeFetch d

/-- The access of a CONFIG (R832, R833), and the fetching a write lets go on. -/
def Dev.configAccess (d : Dev) (n : Nat) (f : List Byte) : Word × Dev :=
  let off := frameArg f % 2 ^ 32
  if off % 4 ≠ 0 ∨ 0x400_0000 ≤ off then (0, d)
  else if bit (frameArg f) 32 then (0, (d.regWrite (.link n) off (BitVec.ofNat 32 (leNat (framePayload f)))).wakeHeld)
  else d.regRead (.link n) off

/-- A CONFIG is performed and answered; `none` while a CONFIG_RSP of its link waits (R834). -/
def Dev.configIn (d : Dev) (n : Nat) (f : List Byte) : Option Dev :=
  if (d.link n).queue.any fun p => p.owner == .configRsp then none
  else
    let (w, d) := d.configAccess n f
    some (d.sendOn n (answerPkt f 0x0B (frameArg f) (natLe 4 w.toNat) .configRsp))

def Dev.countInRej (d : Dev) (n : Nat) : Dev := d.updLink n fun l => { l with cnt := { l.cnt with inRej := sat1 l.cnt.inRej } }

/-- The command a READ was sent for. -/
def ReadFor.cmd : ReadFor → Option Nat
  | .aux _ c => some c
  | .value c _ => some c
  | .input c _ => some c
  | _ => none

/-- A REJECT of an output WRITE of `len` bytes ends its command with ST_ABORTED; of a command that has failed already, or is gone,
it is counted (R163). The refused bytes were not delivered (R281). -/
def Dev.rejectedOutput (d : Dev) (n c len : Nat) : Dev :=
  let d := d.updCmd c fun x => { x with sent := x.sent - len }
  match d.findCmd c with
  | some x => if x.stage = .ended ∧ addsTether x.status = false then d.countInRej n else d.abort c Status.aborted.code
  | none => d.countInRej n

/-- A REJECT is delivered (R163, R266). -/
def Dev.rejectIn (d : Dev) (n : Nat) (f : List Byte) : Dev :=
  let t := bits (frameArg f) 8 8
  let tag := frameTag f
  if t = 0x07 then
    match d.reads.find? fun r => r.tag == tag && !(d.ses r.ses).pcie with
    | none => d.countInRej n
    | some r => if r.what.cmd.isSome then d.failRead r else (d.failRead r).countInRej n
  else if t = 0x09 then
    match d.writes.find? fun w => w.tag == tag with
    | none => d.countInRej n
    | some w =>
      let d : Dev := { d with writes := d.writes.filter fun w => w.tag != tag }
      match w.cmd with
      | some c => d.rejectedOutput n c w.len
      | none => (if (d.qp w.d).st = .active ∨ (d.qp w.d).st = .stopping then d.qpError w.d 5 else d).countInRej n
  else d.countInRej n

/-! ### The receive buffer -/

/-- A frame that parses is delivered: its effect, or `none` while it must wait in the buffer (R367, R834). -/
def Dev.deliverFrame (d : Dev) (n : Nat) (vc : Vc) (f : List Byte) : Option Dev :=
  match frameTyp f with
  | 0x01 => d.commandIn vc f
  | 0x04 => some (d.dataIn f)
  | 0x06 => some (d.nudgeIn vc f)
  | 0x08 => some (d.readDataIn f)
  | 0x0A => d.configIn n f
  | 0x0C => some (d.rejectIn n f)
  | _ => some d

/-- The newest 1,024 identities (R169). -/
def Link.remember (l : Link) (i : Ident) : Link := { l with history := (i :: l.history).take 1024 }

/-- A held COMMAND blocks its channel; a held CONFIG only the CONFIGs behind it, which find its CONFIG_RSP waiting (R367, R834). -/
def RxHeld.blocks (h : RxHeld) : Bool := frameTyp h.frame != 0x0A

/-- One frame at the head of its channel's buffer: the device after it, and the frame itself where it stays. A COMMAND that must
wait keeps its credits (R367); a CONFIG that must wait is set aside and its credits are freed, since no credit may wait for the
partner's RSP credit (R150, R834; log 70). DESIGN CHOICE (log 69): a COMMAND that was parsed while its session was OPEN is
delivered without a new check of the session. -/
def Dev.takeFrame (d : Dev) (n : Nat) (h : RxHeld) : Dev × Option RxHeld :=
  let gone := fun (d : Dev) => if h.counts then d.freeCredits n h.vc h.frame.length else d
  let go := fun (d : Dev) =>
    match d.deliverFrame n h.vc h.frame with
    | some d => (gone d, none)
    | none =>
      if h.blocks then (d, some { h with parsed := true }) else (gone d, some { h with parsed := true, counts := false })
  if h.parsed then go d
  else
    match d.parse n h.vc h.frame with
    | .drop => (gone (d.updLink n fun l => { l with cnt := { l.cnt with drop := sat1 l.cnt.drop } }), none)
    | .reject c => (gone (d.rejectFrame n h.frame c), none)
    | .dup => (gone (d.updLink n fun l => { l with cnt := { l.cnt with dup := sat1 l.cnt.dup } }), none)
    | .ok => go (d.updLink n fun l => l.remember (frameIdent h.frame))

/-- The frames of a link's buffer in order: what leaves it takes effect, the rest stays. -/
def Dev.drainList (d : Dev) (n : Nat) : List Vc → List RxHeld → List RxHeld → Dev × List RxHeld
  | _, [], kept => (d, kept.reverse)
  | blocked, h :: r, kept =>
    if blocked.contains h.vc then d.drainList n blocked r (h :: kept)
    else
      match d.takeFrame n h with
      | (d, none) => d.drainList n blocked r kept
      | (d, some h) => d.drainList n (if h.blocks then h.vc :: blocked else blocked) r (h :: kept)

def Dev.drainLink (d : Dev) (n : Nat) : Dev :=
  let (d, kept) := d.drainList n [] (d.link n).rxHold []
  d.updLink n fun l => { l with rxHold := kept }

/-- Frames that wait in receive buffers. -/
def Dev.rxWaiting (d : Dev) : Nat := (d.links.map fun l => l.2.rxHold.length).sum

/-- Receive buffers drain until nothing more leaves them. -/
def drainLoop : Nat → Dev → Dev
  | 0, d => d
  | k + 1, d =>
    let d' := ((d.links.filter fun l => !l.2.rxHold.isEmpty).map Prod.fst).foldl Dev.drainLink d
    if d'.rxWaiting < d.rxWaiting then drainLoop k d' else d'

def Dev.drainRx (d : Dev) : Dev := drainLoop d.rxWaiting d

/-- What a step may have let go on: held-back fetching (R241) and frames that wait in receive buffers (R367, R834). -/
def Dev.letGo (d : Dev) : Dev := d.wakeHeld.drainRx

/-- An accepted frame arrives (R138, R139, R146). -/
def Dev.receive (d : Dev) (n : Nat) (vc : Vc) (f : List Byte) : Dev :=
  if (d.link n).st ≠ .active then d
  else
    let h : RxHeld := { vc := vc, frame := f, counts := true, parsed := false }
    let t : Transit := { toLink := false, ch := vcCode vc, bytes := f }
    (d.updLink n fun l =>
      { l with rxSeq := (l.rxSeq + 1) % 65536, nakOut := false, rxHold := l.rxHold ++ [h], transit := l.transit ++ [t] }.touch d.now).drainRx

/-- A frame of one packet type arrives. -/
def Dev.receiveType (d : Dev) (t n : Nat) (vc : Vc) (f : List Byte) : Dev := if frameTyp f = t then d.receive n vc f else d

/-- A frame that the parser drops or rejects arrives (R169–R171). -/
def Dev.receiveBad (d : Dev) (n : Nat) (vc : Vc) (f : List Byte) : Dev :=
  match d.parse n vc f with
  | .drop => d.receive n vc f
  | .reject _ => d.receive n vc f
  | _ => d

/-! ### Meanings -/

/-- COMMAND (R159, R261, R262, R264, R367). -/
def execCommand (n : Nat) (vc : Vc) (f : List Byte) (s : State) : Host.Outcome State Fault Refusal := s.run fun d => d.receiveType 0x01 n vc f

/-- DATA (R286–R289). -/
def execData (n : Nat) (vc : Vc) (f : List Byte) (s : State) : Host.Outcome State Fault Refusal := s.run fun d => d.receiveType 0x04 n vc f

/-- NUDGE (R241–R244, R264). -/
def execNudge (n : Nat) (vc : Vc) (f : List Byte) (s : State) : Host.Outcome State Fault Refusal := s.run fun d => d.receiveType 0x06 n vc f

/-- READ_DATA (R161, R228, R921). -/
def execReadData (n : Nat) (vc : Vc) (f : List Byte) (s : State) : Host.Outcome State Fault Refusal := s.run fun d => d.receiveType 0x08 n vc f

/-- CONFIG (R832–R834). -/
def execConfig (n : Nat) (vc : Vc) (f : List Byte) (s : State) : Host.Outcome State Fault Refusal := s.run fun d => d.receiveType 0x0A n vc f

/-- REJECT (R162, R163, R266). -/
def execReject (n : Nat) (vc : Vc) (f : List Byte) (s : State) : Host.Outcome State Fault Refusal := s.run fun d => d.receiveType 0x0C n vc f

/-- REJECTED_PACKET (R169–R171). -/
def execRejectedPacket (n : Nat) (vc : Vc) (f : List Byte) (s : State) : Host.Outcome State Fault Refusal := s.run fun d => d.receiveBad n vc f

/-- ADMIT: the arbiter selects a waiting command and admits it (R379). -/
def execAdmitNext (s : State) : Host.Outcome State Fault Refusal := s.run fun d => d.admitNext.letGo

/-- COMPLETE: the completion is written, sent or counted once the conditions of R387 hold. -/
def execComplete (c : Nat) (s : State) : Host.Outcome State Fault Refusal := s.run fun d => (d.completeOp c).letGo

/-- NAK (R139). -/
def execNak (n seq : Nat) (s : State) : Host.Outcome State Fault Refusal := s.run fun d => (d.nakIn n seq).letGo

/-- ACK with the FREED counts (R139, R141, R147). -/
def execAck (n seq : Nat) (freed : Cred) (s : State) : Host.Outcome State Fault Refusal := s.run fun d => (d.ackIn n seq freed).letGo

/-- DOWN: the partner leaves ACTIVE (R180). -/
def execDown (n : Nat) (s : State) : Host.Outcome State Fault Refusal := s.run fun d => (d.dropActive n DownReason.partner.code).letGo

/-- CAP (R177). -/
def execCap (n : Nat) (block : List Byte) (s : State) : Host.Outcome State Fault Refusal := s.run fun d => (d.capIn n block).letGo

/-- CAP_SEND (R174). -/
def execCapSend (n : Nat) (s : State) : Host.Outcome State Fault Refusal := s.run fun d => (d.capSend n).letGo

/-- REPLAY_TIMEOUT (R140). -/
def execReplayTimeout (n : Nat) (s : State) : Host.Outcome State Fault Refusal := s.run fun d => (d.replayTimeout n).letGo

/-- LOCK_LOST (R180). -/
def execLockLost (n : Nat) (s : State) : Host.Outcome State Fault Refusal := s.run fun d => (d.dropActive n DownReason.lock.code).letGo

/-- HOLD_DEADLINE (R191–R194). -/
def execHoldDeadline (x : Nat) (s : State) : Host.Outcome State Fault Refusal := s.run fun d => (d.holdDeadlineOp x).letGo

/-- FLIT_NAK (R106, R108). -/
def execFlitNak (b : Nat) (dieBound : Bool) (seq : Nat) (s : State) : Host.Outcome State Fault Refusal :=
  s.run fun d => (d.flitNak b dieBound seq).letGo

end Sys2Proof.Machine
end

