-- ==== Sys2Proof/Machine/Telemetry.lean ====
section
/-! DEFINITION. The event queue (R837–R840), watermarks and notices (R843–R851), congestion maps (R852–R854), the PCIe endpoint's link
(R721, R827–R831, R906), the test access port (R908, R910) and the pins that follow the state (R851, R904, R905). -/

namespace Sys2Proof.Machine

open Sys2Proof

/-! ### The event queue -/

/-- Whether event a goes before event b (R716). -/
def Event.before (a b : Event) : Bool := decide (a.stamp < b.stamp) || (a.stamp == b.stamp && decide (a.source < b.source))

/-- The staged record that is next; records of one source keep their order. -/
def nextEvent : List Event → Option Event
  | [] => none
  | e :: r =>
    match nextEvent r with
    | none => some e
    | some x => if x.before e then some x else some e

/-- EVENT_ENQUEUE: 1 µs after its stamp (R838, R839, R829). -/
def Dev.eventEnqueue (d : Dev) : Dev :=
  match nextEvent d.evq.staged with
  | none => d
  | some e =>
    if d.now < e.stamp + 1000 then d
    else
      let q : Evq := { d.evq with staged := d.evq.staged.filter fun x => x.seq != e.seq }
      if 4096 ≤ q.records.length then { d with evq := { q with lost := true, dropped := sat1 q.dropped } }
      else
        let d' : Dev := { d with evq := { q with records := q.records ++ [e] } }
        if q.records.isEmpty then d'.msix 1 else d'

/-- EVENT_ENQUEUE (R838). -/
def execEventEnqueue (s : State) : Host.Outcome State Fault Refusal := s.run Dev.eventEnqueue

/-! ### Watermarks -/

/-- Write-buffer slots in force. -/
def Dev.wbSize (d : Dev) : Nat := d.arb.wbufCur * 16384

/-- The free superblocks of the group that has fewest (R843). -/
def Dev.fewestFree (d : Dev) : Nat := ((List.range 4).map d.freeSblks).foldl min (d.freeSblks 0)

def Dev.linksDown (d : Dev) : Nat := (d.presentLinks.filter fun n => (d.link n).st != .active).length

/-- LEVEL of watermark n becomes 1 (table *Watermarks*). -/
def Dev.wmkRises (d : Dev) (n : Nat) : Bool :=
  let w := d.wmk n
  match n with
  | 0 => d.pwr.warmLevel
  | 1 => d.barns.any fun b => b.2.hot
  | 2 => d.pwr.critYard || d.barns.any fun b => b.2.tripped
  | 3 => d.barns.any fun b => b.2.ovf
  | 4 => d.stalls.any fun x => x.2.degraded
  | 5 => d.clk.loss != 0
  | 6 => d.formatted && decide (d.fewestFree ≤ w.setT)
  | 7 => d.shd.st == shdReadOnly
  | 8 => decide (0 < d.wbSize) && decide (w.setT * d.wbSize ≤ d.wbUsed * 100)
  | 9 => decide (w.setT * 2 ^ 30 ≤ d.stagedTotal)
  | 10 => decide (w.setT ≤ d.slotsUsed)
  | 11 => decide (w.setT ≤ d.tth.waiters.length)
  | 12 => decide (w.setT ≤ d.holding)
  | 13 => decide (w.setT ≤ d.linksDown)
  | 14 => decide (w.setT ≤ d.pwr.level)
  | 15 => decide (w.setT ≤ d.evq.records.length)
  | 16 => d.chk.efail
  | _ => false

/-- LEVEL of watermark n becomes 0 (table *Watermarks*). -/
def Dev.wmkFalls (d : Dev) (n : Nat) : Bool :=
  let w := d.wmk n
  match n with
  | 6 => d.formatted && decide (w.clearT ≤ d.fewestFree)
  | 8 => decide (d.wbUsed * 100 ≤ w.clearT * d.wbSize)
  | 9 => decide (d.stagedTotal ≤ w.clearT * 2 ^ 30)
  | 10 => decide (d.slotsUsed ≤ w.clearT)
  | 11 => decide (d.tth.waiters.length ≤ w.clearT)
  | 12 => decide (d.holding ≤ w.clearT)
  | 13 => decide (d.linksDown ≤ w.clearT)
  | 14 => decide (d.pwr.level ≤ w.clearT)
  | 15 => decide (d.evq.records.length ≤ w.clearT)
  | n => decide (n < 17) && !d.wmkRises n

def addNotice (l : List Nat) (n : Nat) : List Nat := if l.contains n then l else l ++ [n]

/-- A notice of watermark n (R826, R850). -/
def Dev.notice (d : Dev) (n : Nat) (down : Bool) : Dev :=
  let w := d.wmk n
  let d := d.event Ev.wmk.code 0x0005 n (b2n down + 2 ^ 31 * b2n w.level) (if down then w.down else w.up)
  let d : Dev := { d with plp :=
    if down then { d.plp with downNotices := addNotice d.plp.downNotices n } else { d.plp with upNotices := addNotice d.plp.upNotices n } }
  if w.msix then d.msix 0 else d

/-- WATERMARK_UP (R846). -/
def Dev.watermarkUp (d : Dev) (n : Nat) : Dev :=
  let w := d.wmk n
  if !d.ytRun || w.level || !d.wmkRises n then d
  else
    let d := d.updWmk n fun w => { w with level := true, crossed := true, up := satAdd 16 w.up 1 }
    if !w.crossed && w.noticeUp then d.notice n false else d

/-- WATERMARK_DOWN (R847). -/
def Dev.watermarkDown (d : Dev) (n : Nat) : Dev :=
  let w := d.wmk n
  if !d.ytRun || !w.level || !d.wmkFalls n then d
  else
    let d := d.updWmk n fun w => { w with level := false, dcrossed := true, down := satAdd 16 w.down 1 }
    if !w.dcrossed && w.noticeDown then d.notice n true else d

/-- WATERMARK_UP (R846). -/
def execWatermarkUp (n : Nat) (s : State) : Host.Outcome State Fault Refusal := s.run fun d => d.watermarkUp n

/-- WATERMARK_DOWN (R847). -/
def execWatermarkDown (n : Nat) (s : State) : Host.Outcome State Fault Refusal := s.run fun d => d.watermarkDown n

/-! ### Congestion maps -/

/-- `left` samples over the bins that remain, each a free share; the last bin has the rest (R852, R853, log 3). -/
def cmapBins (i left : Nat) : Nat → List Nat
  | 0 => [left]
  | k + 1 =>
    let n := Config.cmapSample i % (left + 1)
    n :: cmapBins (i + 1) (left - n) k

def pairWords : List Nat → List Word
  | a :: b :: r => BitVec.ofNat 32 (a + 65536 * b) :: pairWords r
  | [a] => [BitVec.ofNat 32 a]
  | [] => []

/-- The die that a port of the crossbar leads to (R110). -/
def portDie (p : Nat) : Option Nat := if p < 16 then some (p / 4) else if p < 22 then some 4 else if p < 28 then some 5 else none

/-- A port whose die failed discovery: no flit is ever in its queue (R110, R779, R853). -/
def idlePort : List Word := BitVec.ofNat 32 2048 :: List.replicate 7 0

/-- The eight words of one port (R853). -/
def cmapPort (i : Nat) : List Word :=
  pairWords (cmapBins i 2048 7) ++
    [BitVec.ofNat 32 (Config.cmapSample (i + 7)), BitVec.ofNat 32 (Config.cmapSample (i + 8)), BitVec.ofNat 32 (Config.cmapSample (i + 9)), 0]

/-- CMAP_PERIOD: the period is over (R852–R854). -/
def Dev.cmapPeriod (d : Dev) : Dev :=
  let f := d.fab
  let t := f.startAt + f.periodUs * 1000
  if !d.ytRun || !f.enable || decide (d.now < t) then d
  else
    let seq := (f.seq + 1) % 2 ^ 32
    let head := [BitVec.ofNat 32 seq, BitVec.ofNat 32 f.periodUs, BitVec.ofNat 32 t, BitVec.ofNat 32 (t / 2 ^ 32)]
    let map := head ++ (List.range 32).flatMap fun p =>
      if (portDie p).all d.dieOk then cmapPort (d.free + 10 * p) else idlePort
    { d with free := d.free + 320, fab := { f with seq := seq, map := map, startAt := t, periodUs := f.nextPeriodUs } }

/-- CMAP_PERIOD (R852). -/
def execCmapPeriod (s : State) : Host.Outcome State Fault Refusal := s.run Dev.cmapPeriod

/-! ### The PCIe endpoint -/

/-- The session whose completion ring a PCIe write goes to. -/
def Dev.entrySes (d : Dev) (o : PcieOut) : Option Nat :=
  match o with
  | .write a b =>
    if b.length ≠ 32 then none
    else (d.qps.find? fun q => (d.ses (q.1 / 64)).pcie && !q.2.ctx.push && decide (q.2.ctx.cqBase ≤ a) &&
      decide (a < q.2.ctx.cqBase + 32 * 2 ^ q.2.ctx.cqLog)).map fun q => q.1 / 64
  | _ => none

/-- The PCIe link goes down (R830, R831, R293): waiting completion entries count as lost, reads that cannot complete fail. -/
def Dev.pcieDown (d : Dev) : Dev :=
  if !d.pcie.up then d
  else
    let lost := d.pcie.waiting.filterMap d.entrySes
    let d : Dev := { d with pcie := { d.pcie with up := false, busMaster := false, waiting := [], pendingVec := [] } }
    let d := lost.foldl Dev.countLost d
    (d.reads.filter fun r => (d.ses r.ses).pcie).foldl Dev.failRead d

/-- The PCIe link comes up (R772, R827, R831). -/
def Dev.pcieUp (d : Dev) : Dev :=
  if d.pcie.up || !d.bru.straps.pexEn || decide (d.bru.st < 3) || d.pcie.perst then d
  else { d with pcie := { d.pcie with up := true, busMaster := false }, clk := { d.clk with peclk := true } }

/-- Bus Master Enable is set and the function is in D0: what waited is sent (R830). -/
def Dev.busOn (d : Dev) : Dev :=
  if !d.pcie.up || d.pcie.busMaster then d
  else
    let d' : Dev := { d with pcie := { d.pcie with busMaster := true, waiting := [], pendingVec := [] } }
    d.pcie.pendingVec.foldl (fun d v => d.emit (.pcie (.msix v))) (d.pcie.waiting.foldl (fun d o => d.emit (.pcie o)) d')

/-- PCIE_LINK_UP (R831). -/
def execPcieLinkUp (s : State) : Host.Outcome State Fault Refusal := s.run Dev.pcieUp

/-- PCIE_LINK_DOWN (R831). -/
def execPcieLinkDown (s : State) : Host.Outcome State Fault Refusal := s.run fun d => d.pcieDown.letGo

/-- BUS_MASTER_ENABLE (R830). -/
def execBusMasterEnable (s : State) : Host.Outcome State Fault Refusal := s.run Dev.busOn

/-- BUS_MASTER_DISABLE (R830). -/
def execBusMasterDisable (s : State) : Host.Outcome State Fault Refusal :=
  s.run fun d => { d with pcie := { d.pcie with busMaster := false } }

/-- PE_PERST: the level of PE_PERST_N (R906). -/
def execPePerst (low : Bool) (s : State) : Host.Outcome State Fault Refusal :=
  s.run fun d =>
    let d : Dev := { d with pcie := { d.pcie with perst := low } }
    if low then d.pcieDown.letGo else d

/-- PECLK_UNLOCK (R721). -/
def execPeclkUnlock (s : State) : Host.Outcome State Fault Refusal :=
  s.run fun d =>
    if !d.clk.peclk then d
    else ({ d with clk := { d.clk with peclk := false, lossPe := true } } : Dev).pcieDown.letGo

/-! ### The test access port -/

/-- The IDCODE value the TAP shifts out while its instruction is 0x01 (R908): stepping, device ID (0x0120 after a FAILCODE 1
failure, R805), 0x2F3, 1. -/
def Dev.idcode (d : Dev) : Nat :=
  (d.fuses.stepping % 16) * 2 ^ 28 + (if d.bru.failcode = 1 then 0x0120 else deviceIdOf d.variant) * 2 ^ 12 + 0x2F3 * 2 + 1

/-! ### Pins -/

/-- DEV_READY (R905). -/
def Dev.pinDevReady (d : Dev) : Bool := d.glb.resetN && d.glb.ready

/-- CRIT_N (R903, R905). -/
def Dev.pinCritN (d : Dev) : Bool := !(d.glb.resetN && (d.wmk 2).level)

/-- NAND_WP_N: high from the start of step 6 (R903, R904). -/
def Dev.pinNandWpN (d : Dev) : Bool :=
  d.glb.resetN && decide (6 ≤ d.bru.st) && (d.bru.st != 12 || decide (6 ≤ d.bru.steps.length))

/-- PLP_ALERT_N (R814, R851). -/
def Dev.pinAlertN (d : Dev) : Bool :=
  !(d.glb.resetN && d.plp.released && (List.range 17).any fun n => (d.wmk n).alert && (d.wmk n).crossed)

def levelOf (high : Bool) : PinLevel := if high then .high else .low

/-- An open-drain output that the device drives low or releases (R896). -/
def openDrain (high : Bool) : PinLevel := if high then .released else .low

/-- The pins while RESET_N is low (R903). -/
def pinInReset : Pin → PinLevel
  | .resetN => .low
  | .perstN => .released
  | .nandCe _ _ => .high
  | .nandWp => .low
  | .nandOther _ => .released
  | .xspiResetN => .low
  | .xspiOther => .released
  | .pliopOut => .released
  | .alertN => .released
  | .critN => .released
  | .devReady => .low
  | .linkTx _ => .idle
  | .pcieTx => .idle

/-- The NAND has something to do (R895, R915: the chip enables of targets that are not fitted stay high). -/
def Dev.nandSelects (d : Dev) (target : Nat) : Bool :=
  d.shd.pop.any (fun p => decide (target < p.targets)) && !(d.shd.progs.isEmpty && d.shd.reads.isEmpty && d.shd.erasing.isEmpty)

/-- The pins while the device runs (R814, R827, R851, R904, R905, R906, R915). -/
def Dev.pinRuns (d : Dev) : Pin → PinLevel
  | .resetN => .high
  | .perstN => levelOf !d.pcie.perst
  | .nandCe _ t => if d.nandSelects t then .active else .high
  | .nandWp => levelOf d.pinNandWpN
  | .nandOther _ => .active
  | .xspiResetN => .high
  | .xspiOther => .active
  | .pliopOut => if d.plp.released then .active else .released
  | .alertN => openDrain d.pinAlertN
  | .critN => openDrain d.pinCritN
  | .devReady => levelOf d.pinDevReady
  | .linkTx n => if linkPresent d.variant n && (d.link n).st != .disabled && (d.link n).st != .down then .active else .idle
  | .pcieTx => if d.bru.straps.pexEn && decide (3 ≤ d.bru.st) && !d.pcie.perst then .active else .idle

/-- The boundary-scan register: every 1.8 V and 3.3 V pin and every NAND ball; the link transmitters under EXTEST_PULSE and EXTEST_TRAIN
(R909). -/
def scanCovers : ScanOp → Pin → Bool
  | _, .pcieTx => false
  | op, .linkTx _ => op == .extestPulse || op == .extestTrain
  | _, _ => true

/-- An instruction that gives the boundary-scan register control of the pins (R910). -/
def scanDrives (op : ScanOp) : Bool := op == .extest || op == .extestPulse || op == .extestTrain

/-- The inputs are not driven by it. -/
def pinOutput : Pin → Bool
  | .resetN => false
  | .perstN => false
  | _ => true

/-- What a pin shows. A rail that is absent while RESET_N is high leaves every pin undefined (R914). -/
def Dev.pin (d : Dev) (p : Pin) : PinLevel :=
  if d.glb.railOut then .undefined
  else if scanDrives d.tap.op && scanCovers d.tap.op p && pinOutput p then ((d.tap.cells.find? fun c => c.1 == p).map Prod.snd).getD .released
  else if d.glb.resetN then d.pinRuns p
  else pinInReset p

/-- The cells of the boundary-scan register but for the links' (R909). Their order along the register is not given. -/
def scanPins : List Pin :=
  [.resetN, .perstN, .nandWp, .xspiResetN, .xspiOther, .pliopOut, .alertN, .critN, .devReady] ++
    (List.range 16).flatMap fun c => .nandOther c :: (List.range 8).map fun t => .nandCe c t

/-- What an instruction selects: BYPASS is all ones and IDCODE is 0x01 (R908); the other codes are not given (log 67). -/
def scanOf (ir : Byte) (op : ScanOp) : ScanOp := if ir = 0xFF then .bypass else if ir = 0x01 then .idcode else op

/-- An instruction takes effect: one that selects the boundary-scan register captures the pins, and its update stage holds what has
been shifted in (R908, R909). -/
def Dev.tapLoad (d : Dev) (ir : Byte) (scan : ScanLoad) : Dev :=
  let op := scanOf ir scan.op
  if op = .bypass ∨ op = .idcode then { d with tap := { d.tap with ir := ir, op := op } }
  else { d with tap := { ir := ir, op := op, cells := scan.cells, captured := scanPins.map fun p => (p, d.pin p) } }

/-- TAP_INSTRUCTION: one that gives the boundary-scan register the pins leaves behaviour undefined while RESET_N is high (R908, R910). -/
def execTapInstruction (ir : Byte) (scan : ScanLoad) (s : State) : Host.Outcome State Fault Refusal :=
  if s.dev.glb.railOut then .fault .railAbsent
  else if s.dev.glb.resetN && scanDrives (scanOf ir scan.op) then .fault .tapPinsWhileRunning
  else .next { s with dev := s.dev.tapLoad ir scan }

end Sys2Proof.Machine
end

