-- ==== Sys2Proof/Machine/Recovery.lean ====
section
/-! DEFINITION. What outlives a reset in the NAND (R592, R732), and the recovery of the shed in bring-up step 8 (R592–R594, R605, R606,
R918). -/

namespace Sys2Proof.Machine

open Sys2Proof

/-! ### What outlives a reset -/

/-- The shed controller after reset over its NAND contents: programs, reads, erases, jobs and records not yet durable are gone; units
that were being programmed are looked at in recovery (log 31). The tables are lost; recovery takes them from the checkpoint and the
journal. -/
def Shed.persist (s : Shed) : Shed :=
  { Shed.reset with
    ident := s.ident, ckpt := s.ckpt, ckptSlot := s.ckptSlot, idAct := s.idAct, idUsed := s.idUsed + (if s.progs.any isIdentity && s.idOther.isNone then (s.pop.map Population.unit).getD 1 else 0), ckErases := s.ckErases, sblks := s.sblks, journal := s.journal, units := s.units,
    spares := s.spares, retired := s.retired, wseq := s.wseq, pseq := s.pseq, openSeq := s.openSeq, jseq := s.jseq, ckptNum := s.ckptNum,
    readOnly := s.readOnly }

/-! ### The tables -/

/-- A journal record read at recovery changes the tables (R592). -/
def Dev.replayRec (d : Dev) (r : JRec) : Dev :=
  let d : Dev := { d with shd := { d.shd with journal := putRec d.shd.journal r } }
  match r.body with
  | .logOpen lblk i =>
    ({ d with shd := { d.shd with logs := SMap.put d.shd.logs lblk i } } : Dev).updSblk i fun b => { b with use := .log lblk, openDurable := true }
  | .merge lblk typ new _ =>
    let d := d.updSblk new fun b => { b with use := .dataBlk lblk, closed := true }
    { d with shd := { d.shd with
        bmap := SMap.put d.shd.bmap lblk new, logs := if typ = 4 then d.shd.logs else SMap.del d.shd.logs lblk } }
  | .unmap lblk _ => { d with shd := { d.shd with bmap := SMap.del d.shd.bmap lblk, logs := SMap.del d.shd.logs lblk } }
  | .jretire i => { d with shd := { d.shd with journal := d.shd.journal.filter fun x => x.sblk != i } }
  | _ => d

/-- The units that are found whole: the first `n`, and those that had completed (R592). -/
def wholeUnits (n : Nat) (us : List JUnit) : List JUnit := us.take (max n (us.takeWhile fun u => u.complete).length)

/-- The scan of a log block keeps the stripes up to the first that is erased or torn (R592, R594). -/
def Sblk.scan (b : Sblk) (torn : Bool) : Sblk :=
  { b with stripes := b.stripes.takeWhile fun s => s.good, closed := b.closed || torn }

def Dev.scanLog (d : Dev) (torn : List Nat) (e : Nat × Nat) : Dev := d.updSblk e.2 fun b => b.scan (torn.contains e.1)

/-- A table references superblock i. -/
def Dev.referenced (d : Dev) (i : Nat) : Bool :=
  d.shd.bmap.any (fun e => e.2 == i) || d.shd.logs.any (fun e => e.2 == i) || d.shd.journal.any fun r => r.sblk == i

/-- A superblock that no table references is freed and queued for erase (R592). -/
def Dev.freeUnreferenced (d : Dev) (i : Nat) : Dev :=
  if d.referenced i || (d.sblk i).use == .retired then d else d.releaseSblk i

/-- A superblock with the use and the erase count that the checkpoint gives it; one that holds journal records is the journal's. -/
def Dev.loadSblk (d : Dev) (c : Ckpt) (e : Nat × Sblk) : Nat × Sblk :=
  let x := SMap.get c.sblks e.1 (.free, 0)
  let use := if (d.shd.journal ++ d.shd.units.flatMap JUnit.recs).any fun r => r.sblk == e.1 then .journal
    else if e.2.use == .retired then .retired else x.1
  (e.1, { e.2 with use := use, erases := x.2, openDurable := false })

/-- The tables of the checkpoint (R579, R592). -/
def Dev.loadTables (d : Dev) (c : Ckpt) : Dev :=
  let d : Dev := { d with shd := { d.shd with
    bmap := c.bmap, logs := c.logs.map (fun e => (e.1, e.2.1)), sblks := d.shd.sblks.map (d.loadSblk c) } }
  d.shd.logs.foldl (fun d e => d.updSblk e.2 fun b => { b with openDurable := true }) d

/-! ### Paddocks and keys -/

/-- SPILL records, and VALUE and DELETE records of paddocks whose definition has ended, are discarded (R592). -/
def keepRec (alive : SMap (Nat × Paddock)) (r : JRec) : Bool :=
  match r.body with
  | .value p e _ _ _ _ _ spill => !spill && alive.any fun x => x.1 == p && x.2.1 == e
  | .delete p e _ _ => alive.any fun x => x.1 == p && x.2.1 == e
  | _ => true

/-- An index record as a VALUE record gives it: every segment in the shed only (R51, R592). -/
def Dev.restoredRec (d : Dev) (r : JRec) (pad epoch wseq : Nat) (key : List Byte) (len : Nat) (lsns : List (Option Nat))
    (tags : List (List Byte)) : Rec :=
  let set := d.padSet pad
  let home := homeIndex set (keyDigest key)
  { digest := keyDigest key, pad := pad, key := key, st := 1, quarantined := false, epoch := epoch, len := len,
    shedId := shedIdOf r wseq, wseq := wseq, small := decide (1 ≤ len) && decide (len ≤ 4096), bin := none,
    segs := (List.range (segCount len)).map fun i => { stall := targetStall set home i, slot := 0, st := 1 },
    tags := tags, extSlots := [], lsns := lsns, staging := none, pinnedByFailure := false }

/-- One key is restored into its home stall; it stays in the shed alone where the stall has no room for it (log 32). -/
def Dev.restoreKey (d : Dev) (r : JRec) : Dev :=
  match r.body with
  | .value p e w k len lsns tags _ =>
    let x := d.restoredRec r p e w k len lsns tags
    let home := homeStall (d.padSet p) x.digest
    match d.allocExtent home x.segs.length (!tags.isEmpty) with
    | none => d
    | some (runs, d') =>
      match d'.insertRec home { x with extSlots := runs } with
      | none => d
      | some d' => d'.holdLsns (lsns.filterMap id)
  | _ => d

/-- A surviving paddock is restored, or held when its stall set holds no available stall (R50, R51, R918). -/
def Dev.restorePad (d : Dev) (e : Nat × Nat × Paddock) : Dev :=
  let vs := liveValues d.shd.journal e.1 e.2.1
  let d := d.holdLsns (vs.flatMap fun r => recLsns r.body)
  let mark := max (d.pad e.1).mark e.2.1
  if (d.setOf e.2.2).isEmpty then
    d.updPad e.1 fun _ => { e.2.2 with live := false, st := 4, epoch := e.2.1, mark := mark, heldKeys := vs.length }
  else
    let d := d.updPad e.1 fun _ => { e.2.2 with live := true, st := 0, epoch := e.2.1, mark := mark, heldKeys := 0 }
    let d := vs.foldl Dev.restoreKey d
    if e.2.2.residency = 0 ∧ (d.padRecs e.1).any (fun x => !x.2.2.segs.isEmpty) = true then d.updPad e.1 fun p => { p with st := 1 } else d

/-! ### The write buffer and the epochs -/

/-- CUR_GIB and NEXT_GIB without an identity: from a stored copy, else 8 GiB (R360, R606). -/
def Dev.defaultGib (d : Dev) (copyGib : Nat) : Dev :=
  let g := if copyGib = 0 then 8 else copyGib
  { d with arb := { d.arb with wbufCur := g, wbufNext := g } }

/-- The epoch high-water marks of the identity (R47, R605). -/
def Dev.loadEpochs (d : Dev) (es : SMap Nat) : Dev := es.foldl (fun d e => d.updPad e.1 fun p => { p with epoch := e.2, mark := e.2 }) d

/-- The write-buffer size in force joins the identity (R576). -/
def Dev.noteGib (d : Dev) (i : Identity) : Dev :=
  if i.wbufGib = d.arb.wbufCur then d else d.writeIdentity fun x => { x with wbufGib := d.arb.wbufCur }

/-! ### Recovery (R592) -/

/-- The highest sequence number of a journal record. -/
def lastSeq (j : List JRec) : Nat := j.foldl (fun n r => max n r.seq) 0

/-- The highest write sequence number of a VALUE or DELETE record. -/
def lastWseq (j : List JRec) : Nat :=
  j.foldl (fun n r => match r.body with
    | .value _ _ w _ _ _ _ _ => max n w
    | .delete _ _ w _ => max n w
    | _ => n) 0

/-- The tables as the checkpoint, the journal after its position and the log scan give them. -/
def Dev.recoverTables (d : Dev) (torn : List Nat) (units : Nat) : Dev :=
  let us := wholeUnits units d.shd.units
  let covers := (d.shd.ckpt.map Ckpt.covers).getD 0
  let later := d.shd.journal.filter fun r => decide (covers < r.seq)
  let d := match d.shd.ckpt with
    | some c => d.loadTables c
    | none => d
  let d : Dev := { d with shd := { d.shd with units := [], refs := [] } }
  let d := (later ++ us.flatMap JUnit.recs).foldl Dev.replayRec d
  let d := d.shd.logs.foldl (fun d e => d.scanLog torn e) d
  let d := (SMap.keys d.shd.sblks).foldl Dev.freeUnreferenced d
  { d with shd := { d.shd with
      replayLogs := d.shd.logs.length, jhead := 0, jpages := 0, jsince := 0, jseq := max covers (lastSeq d.shd.journal) + 1,
      wseq := max d.shd.wseq (lastWseq d.shd.journal + 1), pseq := d.shd.pseq + 2 ^ 20,
      journal := d.shd.journal.filter (keepRec d.padTable) } }

/-- The checkpoint that ends recovery, in the slot after the one it was read from. -/
def Dev.recoveryCkpt (d : Dev) : Dev :=
  let n := d.shd.ckptNum + 1
  { d with shd := { d.shd with
      ckpt := some (d.ckptOf n (d.shd.jseq - 1)), ckptSlot := d.nextSlot, ckErases := listUpd d.shd.ckErases d.nextSlot (· + 1),
      ckptNum := n, ckptAt := d.now } }

/-- Recovery of a shed that carries this device's identity. -/
def Dev.recoverReady (d : Dev) (i : Identity) (torn : List Nat) (units ms : Nat) : Dev :=
  let d : Dev := { d with arb := { d.arb with wbufCur := i.nextGib, wbufNext := i.nextGib } }
  let d := (d.loadEpochs i.epochs).recoverTables torn units
  let d := d.padTable.foldl Dev.restorePad d
  let st := if d.shd.readOnly then shdReadOnly else shdReady
  let d : Dev := { d with shd := { d.shd with st := st, replayMs := min 65535 ms } }
  let d := (d.noteGib i).turnIdentity
  if st = shdReadOnly then d
  else
    let d := d.recoveryCkpt
    (SMap.keys d.shd.bmap ++ SMap.keys d.shd.logs).eraseDups.foldl Dev.unmapIfEmpty d

/-- Step 8: no NAND, a blank or foreign shed, or recovery (R592, R605, R606, R791). -/
def Dev.recoverShed (d : Dev) (torn : List Nat) (units ms : Nat) : Dev :=
  match d.shd.pop, d.shd.ident with
  | none, _ => ({ d with shd := { d.shd with st := shdAbsent } } : Dev).defaultGib d.bru.copyGib
  | some _, none => ({ d with shd := { d.shd with st := shdBlank } } : Dev).defaultGib d.bru.copyGib
  | some p, some i =>
    if i.variant ≠ d.fuses.variantWord ∨ i.pop ≠ p then ({ d with shd := { d.shd with st := shdForeign } } : Dev).defaultGib d.bru.copyGib
    else d.recoverReady i torn units ms

end Sys2Proof.Machine
end

