-- ==== Sys2Proof/Machine/Bringup.lean ====
section
/-! DEFINITION. Reset and bring-up (R729, R732, R765–R810): the ten steps, the expected-topology record and the report, stored copies of
training results and the boot-flash mailbox (R775, R777, R792–R796). -/

namespace Sys2Proof.Machine

open Sys2Proof

/-! ### Stored copies (R792, R795) -/

/-- The newest valid stored copy. -/
def newestCopy (uid : DWord) : List (Option StoredCopy) → Option StoredCopy
  | [] => none
  | none :: r => newestCopy uid r
  | some c :: r =>
    match newestCopy uid r with
    | none => if c.uid = uid then some c else none
    | some b => if c.uid = uid ∧ b.seq < c.seq then some c else some b

/-- The copy that is written next: one that is not there, else the older (R795). -/
def olderCopy (cs : List (Option StoredCopy)) : Nat :=
  match cs.getD 0 none, cs.getD 1 none with
  | none, _ => 0
  | _, none => 1
  | some a, some b => if a.seq ≤ b.seq then 0 else 1

def copySeq (cs : List (Option StoredCopy)) : Nat := (cs.map fun c => (c.map StoredCopy.seq).getD 0).foldl max 0

/-- The copy that a boot-flash address lies in (R775). -/
def copyAt (a : Nat) : Option Nat :=
  if a < 0x3000000 ∨ 0x3FF0000 ≤ a then none else if a < 0x3800000 then some 0 else some 1

/-- A copy whose bytes are no longer its own fails its CRC. -/
def loseCopy (cs : List (Option StoredCopy)) (k : Option Nat) : List (Option StoredCopy) :=
  match k with
  | some k => cs.set k none
  | none => cs

/-! ### The xSPI port (R777) -/

/-- Bytes of the boot flash; what the regions of the stored copies hold is opaque (R775, log 33). -/
def State.flashBytes (s : State) (a n : Nat) : List Byte :=
  if (copyAt a).isSome then (List.range n).map fun i => Config.trainingByte (s.dev.free + i) else Memory.readBytes s.flash a n

/-- What an operation that failed leaves in the flash it touched (log 33). -/
def freeBytes (i n : Nat) : List Byte := (List.range n).map fun k => Config.trainingByte (i + k)

/-- The operation at the head of the port is over. -/
def State.popFlash (s : State) : State :=
  { s with dev := { s.dev with bru := { s.dev.bru with xspi := s.dev.bru.xspi.drop 1 } } }

/-- A mailbox operation is over: BUSY clears, ERR sets on failure (R777). -/
def State.mailboxOver (s : State) (ok : Bool) (free : Nat) : State :=
  let s := s.popFlash
  { s with dev := { s.dev with free := s.dev.free + free, bru := { s.dev.bru with flBusy := false, flErr := s.dev.bru.flErr || !ok } } }

/-- The flash after a program or an erase of `n` bytes at `a` (R775, R777). -/
def State.setFlash (s : State) (a : Nat) (m : List Host.Cell) : State :=
  if (copyAt a).isSome then { s with copies := loseCopy s.copies (copyAt a) } else { s with flash := m }

/-- MAILBOX_DONE: the mailbox operation at the head of the port ends (R777). -/
def State.mailboxEnd (s : State) (ok : Bool) : State :=
  let i := s.dev.free
  match s.dev.bru.xspi with
  | .read a :: _ =>
    let bytes := if ok then s.flashBytes a 256 else freeBytes i 256
    let s := s.mailboxOver ok 256
    { s with dev := { s.dev with bru := { s.dev.bru with flData := bytes } } }
  | .program a bytes :: _ =>
    (s.setFlash a (if ok then Memory.program s.flash a bytes else Memory.writeBytes s.flash a (freeBytes i 256))).mailboxOver ok 256
  | .erase a :: _ =>
    (s.setFlash a (if ok then Memory.erase s.flash a (a + 65536) else Memory.writeBytes s.flash a (freeBytes i 65536))).mailboxOver ok 65536
  | _ => s

/-- MAILBOX_DONE (R777). -/
def execMailboxDone (ok : Bool) (s : State) : Host.Outcome State Fault Refusal :=
  s.runAll fun s => s.mailboxEnd ok

/-- STORED_COPY_WRITE: a copy that is due is asked of the port (R795). -/
def execStoredCopyWrite (s : State) : Host.Outcome State Fault Refusal :=
  s.run fun d => if d.bru.storeDue.isSome then ({ d with bru := { d.bru with storeDue := none } } : Dev).storeNow else d

def isStore : FlashOp → Bool
  | .store _ => true
  | _ => false

/-- STORED_COPY_WRITTEN: the older copy has been erased and written (R795). -/
def State.copyWritten (s : State) (ok : Bool) : State :=
  match s.dev.bru.xspi with
  | .store c :: r =>
    let k := olderCopy s.copies
    let new := if ok then some { c with seq := copySeq s.copies + 1 } else none
    let s := s.popFlash
    { s with copies := s.copies.set k new, dev := { s.dev with bru := { s.dev.bru with storeBusy := r.any isStore } } }
  | _ => s

/-- STORED_COPY_WRITTEN (R795). -/
def execStoredCopyWritten (ok : Bool) (s : State) : Host.Outcome State Fault Refusal :=
  s.runAll fun s => s.copyWritten ok

/-! ### Reset and supply loss -/

/-- What the loss of RESET_N or of supply does to an xSPI operation under way: a copy being written is torn, a mailbox operation leaves
what a failed one leaves (R806). -/
def State.tearFlash (s : State) : State :=
  let i := s.dev.free
  match s.dev.bru.xspi with
  | .store _ :: _ => { s with copies := s.copies.set (olderCopy s.copies) none }
  | .program a _ :: _ => s.setFlash a (Memory.writeBytes s.flash a (freeBytes i 256))
  | .erase a :: _ => s.setFlash a (Memory.writeBytes s.flash a (freeBytes i 65536))
  | _ => s

/-- The device held in reset: everything but the fuses, the NAND, the level of PE_PERST_N and the test port is lost (R729, R732, R766). -/
def Dev.intoReset (d : Dev) (straps : Straps) (resetN : Bool) : Dev :=
  let e := Dev.afterReset straps d.fuses d.shd.persist
  { e with
    out := d.out, free := d.free + 65536, nextId := d.nextId, tap := d.tap, glb := { e.glb with resetN := resetN },
    pcie := { e.pcie with perst := d.pcie.perst } }

def State.stop (s : State) : State :=
  let s := s.tearFlash
  { s with dev := s.dev.intoReset s.dev.bru.straps false }

/-- RESET_ASSERT: RESET_N goes low (R729, R903). -/
def execResetAssert (s : State) : Host.Outcome State Fault Refusal :=
  .next (if s.dev.glb.resetN || s.dev.glb.railOut then s.stop else s)

/-- RESET_RELEASE: a rising edge of RESET_N, every rail in range by then (R727), samples the straps and starts bring-up at step 1
(R766, R768). -/
def execResetRelease (straps : Straps) (s : State) : Host.Outcome State Fault Refusal :=
  if s.dev.glb.resetN then .next s
  else if s.dev.glb.railOut then .fault .railAbsent
  else .next { s with dev := s.dev.intoReset straps true }

/-- SUPPLY_LOSS: what R732 lists is lost. With RESET_N low it is a controlled stop (R728, R731); with RESET_N still high, behaviour
and pins are undefined until it is asserted (R730, R914). -/
def execSupplyLoss (s : State) : Host.Outcome State Fault Refusal :=
  .next (let t := s.stop
         { t with dev := { t.dev with
             tap := Tap.reset, glb := { t.dev.glb with railOut := s.dev.glb.resetN || s.dev.glb.railOut } } })

/-! ### The expected-topology record (R798, R799) -/

def recordOk (b : List Byte) : Bool :=
  fieldAt b 0 4 == 0x5054534B && fieldAt b 4 2 == 1 && fieldAt b 124 4 == crc32c (b.take 124)

/-- A bit of a mask that starts at byte `off` of the record. -/
def maskBit (b : List Byte) (off i : Nat) : Bool := bit (fieldAt b (off + i / 8) 1) (i % 8)

def Dev.expectStall (d : Dev) (s : Nat) : Bool := d.bru.record.all fun b => maskBit b 16 s

def Dev.expectBundle (d : Dev) (i : Nat) : Bool := d.bru.record.all fun b => maskBit b 56 i

def Dev.expectLink (d : Dev) (n : Nat) : Bool := d.bru.record.any fun b => maskBit b 48 n

def Dev.checkShed (d : Dev) : Bool := d.bru.record.any fun b => maskBit b 7 1

/-! ### Steps -/

/-- Step k is over: its duration is recorded and the next one begins (R765, R767). -/
def Dev.stepOver (d : Dev) (ms : Nat) : Dev :=
  { d with bru := { d.bru with st := d.bru.st + 1, steps := d.bru.steps ++ [ms % 2 ^ 32] } }

/-- Bring-up stops in FAILED; register writes that waited are performed (R769, R776, R780, R805, R875). -/
def Dev.failed (d : Dev) (code : Nat) : Dev :=
  ({ d with bru := { d.bru with st := 12, failcode := code }, glb := { d.glb with failed := true, blocks := false } } : Dev).applyHeld

/-- Step 1: PLLs lock and yard time starts (R712, R765). -/
def Dev.stepStraps (d : Dev) (ms : Nat) : Dev :=
  let on := List.replicate 4 true
  ({ d with ytRun := true, clk := { d.clk with yclk := true, fclk := true, sclk := on, dclk := on, nclk := true } } : Dev).stepOver ms

/-- Step 2: the fuse words (R769, R770). -/
def Dev.stepFuses (d : Dev) (ms : Nat) (uncorrectable : Bool) : Dev :=
  if uncorrectable then d.failed 1
  else
    ({ d with glb := { d.glb with variantRead := d.fuses.variantWord }, bru := { d.bru with uid := d.fuses.uid },
              pwr := { d.pwr with cap := capOf d.variant } } : Dev).stepOver ms

/-- The image that boots: `some true` is B (R768, R776). -/
def bootImage (boot : Nat) (goodA goodB : Bool) : Option Bool :=
  if boot = 2 then (if goodB then some true else if goodA then some false else none)
  else if goodA then some false
  else if goodB then some true
  else none

/-- XSPI_CLK in MHz: YCLK ÷ 10, divided by 4 in 1S-1S-1S mode (R774, R901). -/
def XspiMode.mhz : XspiMode → Nat
  | .s1 => 2000 / 10 / 4
  | .d8 => 2000 / 10

/-- The mode that the SFDP table, read in 1S-1S-1S, selects for every later access (R774). -/
def sfdpMode (octal : Bool) : XspiMode := if octal then .d8 else .s1

/-- Step 3: the image, the record, and what waited for it (R771, R774, R776, R790, R875); STRAP_BOOT = 1 holds in BOOT (R768). -/
def Dev.stepBoot (d : Dev) (ms : Nat) (octal goodA goodB : Bool) (major minor : Byte) (rec : List Byte) : Dev :=
  let d : Dev := { d with bru := { d.bru with xspiMode := sfdpMode octal } }
  if d.bru.straps.boot = 1 then d
  else
    match bootImage d.bru.straps.boot goodA goodB with
    | none => d.failed 2
    | some b =>
      let r := if recordOk rec then some rec else none
      let d := ({ d with glb := { d.glb with blocks := true }, bru := { d.bru with image := b, fw := (major, minor), record := r } } : Dev).stepOver ms
      let d := if r.any fun x => maskBit x 7 0 then d.coordWrite (fieldAt rec 8 3) else d
      d.applyHeld

/-- The die that bundle i belongs to. -/
def bundleDie (i : Nat) : Nat := if i < 64 then i / 16 else 4 + (i - 64) / 12

/-- The die type and the site code of a site: barns 0 to 3, west and east gatehouse (R81, R912). -/
def dieSite (i : Nat) : DieType × Nat := if i < 4 then (.barn, i) else (.gatehouse, if i = 4 then 0xA else 0xB)

/-- Why the die at site i fails discovery, 0 where it passes: the first cause in the order of R778 (DESIGN CHOICE, log 76). -/
def dieReason (i : Nat) (r : DieReport) : Nat :=
  if !r.answers then 1
  else if r.dieType ≠ (dieSite i).1 then 2
  else if r.site ≠ (dieSite i).2 then 3
  else if 4 ≤ i ∧ bits r.ghcap.toNat 0 4 ≠ 1 then 4
  else if i < 4 ∧ r.locks = false then 5
  else 0

/-- Step 4: the dies (R778–R780). A site without a report has answered as it should. -/
def Dev.stepDiscover (d : Dev) (ms : Nat) (rs : List DieReport) : Dev :=
  let why := (List.range 6).map fun i => (rs[i]?).elim 0 (dieReason i)
  let lock := fun (l : List Bool) => (List.zip (List.range 4) l).map fun e => e.2 && why.getD e.1 0 != 5
  let d : Dev := { d with
    bru := { d.bru with dies := why, dieIds := (List.range 6).map (fun i => (rs[i]?).elim 0 DieReport.dieId),
                        bundles := (List.range 88).map (fun i => (why.getD (bundleDie i) 0 == 0, 0, 0, 0)) },
    clk := { d.clk with sclk := lock d.clk.sclk, dclk := lock d.clk.dclk },
    lnkc := { d.lnkc with ghcapW := (rs[4]?).elim 0 DieReport.ghcap, ghcapE := (rs[5]?).elim 0 DieReport.ghcap } }
  if (List.range 4).any fun b => d.dieOk b then d.stepOver ms else d.failed 3

/-- Failing lanes of a direction. -/
def lanesOf (l : List Nat) : List Nat := (List.range 68).filter fun n => l.contains n

/-- The lanes of a direction that its four spares replace: the failing ones, then lanes of the fuse choice in ascending order (R782). -/
def spareLanes (fail fuse : List Nat) : List Nat := (fail ++ (lanesOf fuse).filter fun n => !fail.contains n).take 4

/-- What step 5 finds on one bundle (R781–R783). -/
def Dev.repairBundle (d : Dev) (r : LaneReport) : Dev :=
  let fin := lanesOf r.failIn
  let fout := lanesOf r.failOut
  let fuse := SMap.get d.fuses.lanes r.bundle ([], [])
  let new := (fin.filter fun n => !fuse.1.contains n) ++ fout.filter fun n => !fuse.2.contains n
  let ok := decide (fin.length ≤ 4) && decide (fout.length ≤ 4)
  if 88 ≤ r.bundle ∨ d.dieOk (bundleDie r.bundle) = false then d
  else
    { d with bru := { d.bru with
        bundles := listUpd d.bru.bundles r.bundle fun x => (x.1 && ok, fin.length, fout.length, new.length),
        newLanes := d.bru.newLanes ++ new.map fun n => (r.bundle, n),
        lanes := SMap.put d.bru.lanes r.bundle (spareLanes fin fuse.1, spareLanes fout fuse.2) } }

/-- The mean of a barn's floor sensors, in sixteenths of a degree (R792). -/
def Dev.floorMean (d : Dev) (b : Nat) : Option Int :=
  let fl := d.floorReadings b
  if fl.isEmpty then none else some ((fl.map Prod.snd).sum * 4 / fl.length)

/-- Barn b reuses the stored results of a copy (R792). -/
def Dev.warmBarn (d : Dev) (c : StoredCopy) (b : Nat) : Bool :=
  !d.bru.straps.nowarm && d.dieOk b && d.bru.dieIds.getD b 0 == c.dieIds.getD b 0 &&
    match d.floorMean b, c.temps.getD b none with
    | some t, some u => decide (t - u ≤ 160) && decide (u - t ≤ 160)
    | _, _ => false

/-- Links of a gatehouse that has no path are in DOWN with reason NOPATH (R127, R183, R779). -/
def Dev.noPathLinks (d : Dev) : Dev :=
  (d.presentLinks.filter fun n => !d.gatehousePath (n / 24) && (d.link n).enable && (d.link n).pattern == 0).foldl
    (fun d n => d.linkDown n DownReason.noPath.code) d

/-- Step 5: lane repair; then the barns that start warm are known and the links begin to train (R781–R784, R788, R792). -/
def Dev.stepRepair (d : Dev) (ms : Nat) (lanes : List LaneReport) (copy : Option StoredCopy) : Dev :=
  let d := (lanes.foldl Dev.repairBundle d).stepOver ms
  let d : Dev := { d with bru := { d.bru with
    noCopy := copy.isNone, warm := (List.range 4).map (fun b => copy.any fun c => d.warmBarn c b),
    temps := (copy.map StoredCopy.temps).getD (List.replicate 4 none), copyGib := (copy.map StoredCopy.nextGib).getD 0 } }
  d.noPathLinks.startLinks

/-- The link part of step 6 is complete (R789). -/
def Dev.linksSettled (d : Dev) : Bool :=
  d.presentLinks.all fun n =>
    !(d.link n).enable || (d.link n).pattern != 0 || !d.gatehousePath (n / 24) || (d.link n).reason != 0 ||
      ((d.link n).st != .train && (d.link n).st != .align)

/-- The remap tables and degraded marks of a copy (R794). -/
def Dev.loadRemaps (d : Dev) (c : StoredCopy) : Dev :=
  if c.clrRemap then d
  else
    (c.remaps.filter fun e => decide (e.1 < 256) && d.bru.dieIds.getD (e.1 / 64) 0 == c.dieIds.getD (e.1 / 64) 0).foldl
      (fun d e => d.updStall e.1 fun x => { x with remaps := e.2.1, degraded := e.2.2 }) d

/-- Stalls that cannot be used: their training failed, or their barn has no bundle in service (R124, R785). -/
def Dev.lostStalls (d : Dev) (failed : List (Nat × Nat)) : List (Nat × Nat) :=
  (failed.filter fun f => stallPresent d.variant f.1 && d.barnReached (f.1 / 64)) ++
    ((List.range 256).filter fun s => stallPresent d.variant s && d.dieOk (s / 64) && !d.barnReached (s / 64)).map fun s => (s, 0)

/-- Expected links that are not in CAPX or ACTIVE (R800, R807). -/
def Dev.untrainedLinks (d : Dev) : List (Nat × Nat) :=
  ((List.range 48).filter fun n => d.expectLink n && d.gatehousePath (n / 24) && (d.link n).st != .capx && (d.link n).st != .active).map
    fun n => (n, linkStCode (d.link n).st)

/-- Step 6: DRAM training, links, shed channels (R780, R785, R786, R789, R791–R795). -/
def Dev.stepTrain (d : Dev) (ms : Nat) (failed : List (Nat × Nat)) (retrained : List Nat) (nand : Option Population) (fitted : Bool)
    (copy : Option StoredCopy) : Dev :=
  if !d.linksSettled then d
  else
    let means := (List.range 4).map fun b => if d.bru.warm.getD b false then d.bru.temps.getD b none else d.floorMean b
    let d : Dev := { d with
      bru := { d.bru with
        unavailable := d.lostStalls failed, untrained := d.untrainedLinks, temps := means, badPop := fitted && nand.isNone,
        retrained := (List.range 256).filter fun s => retrained.contains s && d.bru.warm.getD (s / 64) false },
      shd := { d.shd with pop := if fitted then nand else none } }
    let d := match copy with
      | some c => d.loadRemaps c
      | none => d
    if d.availStalls.isEmpty then ({ d with bru := { d.bru with steps := d.bru.steps ++ [ms % 2 ^ 32] } } : Dev).failed 3
    else
      ((List.range 4).foldl (fun d b => if d.dieOk b then d.updBarn b fun x => { x with fillSt := 1 } else d) d).stepOver ms

/-- Step 7: the fill (R683–R685); recovery begins. -/
def Dev.stepFill (d : Dev) (ms : Nat) : Dev :=
  let zero := List.replicate 16 0
  let fill := fun (d : Dev) b =>
    if d.dieOk b then d.updBarn b fun x => { x with fillSt := 2, fillMs := min 65535 ms, grmDue := zero, grmAcc := zero, grmAt := d.now } else d
  let d := (List.range 4).foldl fill d
  let d : Dev := { d with stalls := d.stalls.map (fun x => (x.1, { x.2 with grmDone := zero, pendList := [], catchup := false, manger := [] })),
                          shd := { d.shd with st := if d.shd.pop.isSome then shdRecovering else shdAbsent } }
  d.stepOver ms

/-- Step 8: shed map recovery (R592, R797). -/
def Dev.stepShed (d : Dev) (ms : Nat) (torn : List Nat) (units : Nat) : Dev := (d.recoverShed torn units ms).stepOver ms

/-! ### The topology check (R800–R802) -/

/-- A report item (R801). -/
def topoItem (kind unit reason detail : Nat) (degr : Bool) : Word :=
  BitVec.ofNat 32 (kind % 16 * 2 ^ 28 + unit % 4096 * 2 ^ 16 + reason % 256 * 2 ^ 8 + detail % 128 * 2 + b2n degr)

def Dev.dieItems (d : Dev) : List Word :=
  ((List.range 6).filter fun i => !d.dieOk i).map fun i => topoItem 1 i (d.bru.dies.getD i 0) 0 true

def Dev.bundleItems (d : Dev) : List Word :=
  (List.range 88).flatMap fun i =>
    match d.bru.bundles[i]? with
    | none => []
    | some (ok, fin, fout, _) =>
      (if !ok && d.dieOk (bundleDie i) then [topoItem 2 i 1 (max fin fout) (d.expectBundle i)] else []) ++
        (lanesOf ((d.bru.newLanes.filter fun x => x.1 == i).map Prod.snd)).map fun n => topoItem 2 i 2 n false

def Dev.stallItems (d : Dev) : List Word :=
  (List.range 256).flatMap fun s =>
    (match d.bru.unavailable.find? fun u => u.1 == s with
     | some u => if d.barnReached (s / 64) then [topoItem 3 s 1 u.2 (d.expectStall s)] else []
     | none => []) ++
    (if d.stallAvail s && (d.stall s).degraded then [topoItem 3 s 2 (d.stall s).remaps.length false] else []) ++
    if d.bru.retrained.contains s then [topoItem 3 s 3 0 false] else []

def Dev.shedItems (d : Dev) : List Word :=
  let n := (d.shd.pop.map Population.targets).getD 0
  (if d.shd.st = shdForeign then [topoItem 5 0xFFF 1 0 true] else []) ++
    (if d.bru.badPop then [topoItem 5 0xFFF 2 0 true] else []) ++
    (if d.shd.st = shdReadOnly then [topoItem 5 0xFFF 3 0 true] else []) ++
    (match d.bru.record with
     | some b => if n ≠ fieldAt b 72 1 then [topoItem 5 0xFFF 4 n d.checkShed] else []
     | none => []) ++
    if d.shd.st = shdBlank then [topoItem 5 0xFFF 5 0 (d.checkShed && d.bru.record.any fun b => fieldAt b 72 1 != 0)] else []

def Dev.recordItems (d : Dev) : List Word :=
  match d.bru.record with
  | none => [topoItem 6 0 1 0 false]
  | some b => if fieldAt b 6 1 ≠ d.variant then [topoItem 6 0 2 d.variant true] else []

def Dev.topoItems (d : Dev) : List Word :=
  d.dieItems ++ d.bundleItems ++ d.stallItems ++ d.bru.untrained.map (fun x => topoItem 4 x.1 1 x.2 true) ++ d.shedItems ++
    d.recordItems ++ (if d.bru.noCopy then [topoItem 7 0 1 0 false] else []) ++
    ((List.range 4096).filter fun p => (d.pad p).st == 4 && !(d.pad p).live).map fun p => topoItem 8 p 1 0 true

/-- Step 9: the report, then READY or DEGRADED (R800–R804, R829). -/
def Dev.stepCheck (d : Dev) (ms : Nat) : Dev :=
  let items := d.topoItems
  let d := ({ d with bru := { d.bru with items := items } } : Dev).stepOver ms
  if items.any fun w => w.getLsbD 0 then ({ d with glb := { d.glb with degraded := true } } : Dev).msix 2 else d.enterReady

/-! ### BRINGUP_STEP_DONE -/

/-- The report of the step under way takes effect, unless a barn is tripped (R765, R809). -/
def State.stepReport (s : State) (r : StepReport) : Dev :=
  let d := s.dev
  let copy := newestCopy d.fuses.uid s.copies
  if d.barns.any fun b => b.2.tripped then d
  else
    match r, d.bru.st with
    | .straps ms, 1 => d.stepStraps ms
    | .fuses ms u, 2 => d.stepFuses ms u
    | .boot ms o a b x y, 3 => d.stepBoot ms o a b x y (Memory.readBytes s.flash 0x3FF0000 128)
    | .discover ms dies, 4 => d.stepDiscover ms dies
    | .repair ms lanes, 5 => d.stepRepair ms lanes copy
    | .train ms failed re nand fitted, 6 => d.stepTrain ms failed re nand fitted copy
    | .fill ms, 7 => d.stepFill ms
    | .shed ms torn units, 8 => d.stepShed ms torn units
    | .check ms, 9 => d.stepCheck ms
    | _, _ => d

/-- BRINGUP_STEP_DONE (R765). -/
def execBringupStepDone (r : StepReport) (s : State) : Host.Outcome State Fault Refusal :=
  s.runAll fun s => { s with dev := s.stepReport r }

end Sys2Proof.Machine
end

