-- ==== Sys2Proof/Machine/Rows.lean ====
section
/-! DEFINITION. Register accesses as commands (R5, R700, R861): each names the register the spec's text names, and is a write or a read
at its offset on an access path. The Pliop chain (R811–R826). The resumption of a tripped barn (R755). -/

namespace Sys2Proof.Machine

open Sys2Proof

/-! ### Writes -/

/-- A register access is aligned and within the map (R822, R833, R860). -/
def offsetOk (off : Nat) : Bool := off % 4 == 0 && decide (off < 0x400_0000)

/-- An accepted write, and what it lets go on. -/
def Dev.writeRow (d : Dev) (p : Path) (off : Nat) (w : Word) : Dev := if offsetOk off then (d.regWrite p off w).letGo else d

/-- A write command of the register at `off`. -/
def State.writeReg (s : State) (p : Path) (off v : Nat) : Host.Outcome State Fault Refusal :=
  s.run fun d => d.writeRow p off (BitVec.ofNat 32 v)

/-- SES_CTRL of session n (table *SES registers*). -/
def sesCtrlOff (n : Nat) : Nat := 0x41000 + n % 512 * 0x40

/-- QP_CTRL of device queue pair q. -/
def qpCtrlOff (q : Nat) : Nat := 0xD0000 + q % 32768 * 4

/-- LNK_CTRL of link n. -/
def lnkCtrlOff (n : Nat) : Nat := 0x100000 + n % 48 * 0x1000

/-- SHP_CTL of descriptor k. -/
def shpCtlOff (k : Nat) : Nat := 0xC003C + k % 1024 * 0x40

/-- WMK_STATn. -/
def wmkStatOff (n : Nat) : Nat := 0xB0108 + n % 17 * 16

/-- SESSION_OPEN: SES_CTRL written with OPEN = 1 (R211). -/
def execSessionOpen (p : Path) (ses : Nat) (pcie abort : Bool) (s : State) : Host.Outcome State Fault Refusal :=
  s.writeReg p (sesCtrlOff ses) (1 + 2 * b2n abort + 4 * b2n pcie)

/-- SESSION_CLOSE: SES_CTRL written with OPEN = 0 (R217). -/
def execSessionClose (p : Path) (ses : Nat) (pcie abort : Bool) (s : State) : Host.Outcome State Fault Refusal :=
  s.writeReg p (sesCtrlOff ses) (2 * b2n abort + 4 * b2n pcie)

/-- QP_ENABLE (R230, R231, R234). -/
def execQpEnable (p : Path) (q : Nat) (s : State) : Host.Outcome State Fault Refusal := s.writeReg p (qpCtrlOff q) 1

/-- QP_DISABLE (R235, R236). -/
def execQpDisable (p : Path) (q : Nat) (s : State) : Host.Outcome State Fault Refusal := s.writeReg p (qpCtrlOff q) 0

/-- SES_NUDGE (R260). -/
def execSesNudge (p : Path) (ses qp : Nat) (s : State) : Host.Outcome State Fault Refusal :=
  s.writeReg p 0x40004 (ses % 512 + 512 * (qp % 64))

/-- LNK_CTRL as a word. -/
def lnkCtrlWord (enable emode retrain : Bool) (pattern : Nat) : Nat := b2n enable + 2 * b2n emode + 4 * b2n retrain + 16 * (pattern % 8)

/-- RETRAIN (R180). -/
def execRetrain (p : Path) (n : Nat) (enable emode : Bool) (pattern : Nat) (s : State) : Host.Outcome State Fault Refusal :=
  s.writeReg p (lnkCtrlOff n) (lnkCtrlWord enable emode true pattern)

/-- LINK_ENABLE: LNK_CTRL.ENABLE written with no test pattern (R180). -/
def execLinkEnable (p : Path) (n : Nat) (enable emode : Bool) (s : State) : Host.Outcome State Fault Refusal :=
  s.writeReg p (lnkCtrlOff n) (lnkCtrlWord enable emode false 0)

/-- TESTPAT (R180, R205). -/
def execTestpat (p : Path) (n : Nat) (enable emode : Bool) (pattern : Nat) (s : State) : Host.Outcome State Fault Refusal :=
  s.writeReg p (lnkCtrlOff n) (lnkCtrlWord enable emode false pattern)

/-- COORD_WRITE: LNKC_COORD (R151, R156). -/
def execCoordWrite (p : Path) (w : Word) (s : State) : Host.Outcome State Fault Refusal := s.run fun d => d.writeRow p 0x130000 w

/-- TETHER_REG_SET: TTH_VAL_HI written (R493, R494). -/
def execTetherRegSet (p : Path) (hi : Word) (s : State) : Host.Outcome State Fault Refusal := s.run fun d => d.writeRow p 0x60008 hi

/-- SHAPE_VALIDATE: SHP_CTL written with VALID = 1 (R405). -/
def execShapeValidate (p : Path) (k : Nat) (s : State) : Host.Outcome State Fault Refusal := s.writeReg p (shpCtlOff k) (2 ^ 31)

/-- SHAPE_WITHDRAW: SHP_CTL written with VALID = 0 (R407). -/
def execShapeWithdraw (p : Path) (k : Nat) (s : State) : Host.Outcome State Fault Refusal := s.writeReg p (shpCtlOff k) 0

/-- COMMIT: CHK_CTRL (R623). -/
def execCommit (p : Path) (s : State) : Host.Outcome State Fault Refusal := s.writeReg p 0x70000 1

/-- ZEROISE: CHK_CTRL (R624). -/
def execZeroise (p : Path) (andCommit : Bool) (s : State) : Host.Outcome State Fault Refusal := s.writeReg p 0x70000 (2 + b2n andCommit)

/-- SHED_FORMAT: SHD_FORMAT (R602). -/
def execShedFormat (p : Path) (key : Word) (s : State) : Host.Outcome State Fault Refusal := s.run fun d => d.writeRow p 0x8005C key

/-- CKPT_NOW: SHD_CTRL (R580). -/
def execCkptNow (p : Path) (wlEn : Bool) (s : State) : Host.Outcome State Fault Refusal := s.writeReg p 0x80000 (1 + 2 * b2n wlEn)

/-- WBUF_NEXT_WRITE: ARB_WBUF.NEXT_GIB (R577, R606). -/
def execWbufNextWrite (p : Path) (gib : Nat) (s : State) : Host.Outcome State Fault Refusal := s.writeReg p 0x50018 (gib % 64 * 256)

/-- BRU_ACCEPT (R803, R804). -/
def execBruAccept (p : Path) (items : Nat) (s : State) : Host.Outcome State Fault Refusal := s.writeReg p 0xA0008 (items % 65536)

/-- STORE_NOW: BRU_CTRL (R795). -/
def execStoreNow (p : Path) (s : State) : Host.Outcome State Fault Refusal := s.writeReg p 0xA0004 2

/-- CLR_REMAP: BRU_CTRL (R796). -/
def execClrRemap (p : Path) (storeToo : Bool) (s : State) : Host.Outcome State Fault Refusal := s.writeReg p 0xA0004 (1 + 2 * b2n storeToo)

/-- MAILBOX_READ: BRU_FL_CTRL.OP = 1 (R777). -/
def execMailboxRead (p : Path) (s : State) : Host.Outcome State Fault Refusal := s.writeReg p 0xA0030 1

/-- MAILBOX_PROGRAM: OP = 2 (R777). -/
def execMailboxProgram (p : Path) (s : State) : Host.Outcome State Fault Refusal := s.writeReg p 0xA0030 2

/-- MAILBOX_ERASE: OP = 3 (R777). -/
def execMailboxErase (p : Path) (s : State) : Host.Outcome State Fault Refusal := s.writeReg p 0xA0030 3

/-- WMK_EQ_POP (R840). -/
def execWmkEqPop (p : Path) (s : State) : Host.Outcome State Fault Refusal := s.writeReg p 0xB0004 1

/-- WMK_CLEAR: CROSSED and DCROSSED of WMK_STATn (R848). -/
def execWmkClear (p : Path) (n : Nat) (up down : Bool) (s : State) : Host.Outcome State Fault Refusal :=
  s.writeReg p (wmkStatOff n) (2 ^ 30 * b2n up + 2 ^ 29 * b2n down)

/-- CLEAR: PWR_BCTRL (R756). -/
def execClear (p : Path) (barns : Nat) (s : State) : Host.Outcome State Fault Refusal := s.writeReg p 0x20018 (barns % 16)

/-- CLK_MEAS_SEL (R863). -/
def execClkMeasSel (p : Path) (sel : Nat) (s : State) : Host.Outcome State Fault Refusal := s.writeReg p 0x10010 (sel % 64)

/-- REGISTER_WRITE: any register (R5, R865). -/
def execRegisterWrite (p : Path) (off : Nat) (w : Word) (s : State) : Host.Outcome State Fault Refusal := s.run fun d => d.writeRow p off w

/-! ### Reads -/

/-- A register read; its answer leaves on the path. -/
def Dev.readRow (d : Dev) (p : Path) (off : Nat) : Dev :=
  if offsetOk off then
    let (v, d) := d.regRead p off
    d.emit (.readValue p off v)
  else d

/-- RC_READ (R710). -/
def execRcRead (p : Path) (off : Nat) (s : State) : Host.Outcome State Fault Refusal := s.run fun d => d.readRow p off

/-- LO_READ (R869). -/
def execLoRead (p : Path) (off : Nat) (s : State) : Host.Outcome State Fault Refusal := s.run fun d => d.readRow p off

/-- LATCH_GROUP_READ (R870). -/
def execLatchGroupRead (p : Path) (off : Nat) (s : State) : Host.Outcome State Fault Refusal := s.run fun d => d.readRow p off

/-! ### The Pliop chain -/

/-- What a unit does with a frame (R818, R820–R823). -/
inductive PliopKind where
  | bad
  | enum
  | read
  | write
  | broadcast
  | pass
deriving DecidableEq, Repr

def pliopCrcOk (f : List Byte) : Bool := crc16 (f.take 14) == fieldAt f 14 2

/-- The frame with its CRC (R817, R920). -/
def pliopSeal (b : List Byte) : List Byte := b.take 14 ++ natLe 2 (crc16 (b.take 14))

def Plp.kind (x : Plp) (f : List Byte) : PliopKind :=
  let t := fieldAt f 0 1
  let dst := fieldAt f 1 1
  if f.length ≠ 16 ∨ pliopCrcOk f = false ∨ t = 0 ∨ 6 < t then .bad
  else if t = 1 then .enum
  else if x.addr = 0 then .pass
  else if t = 2 ∧ dst = x.addr then .read
  else if t = 3 ∧ dst = x.addr then .write
  else if t = 3 ∧ dst = 255 then .broadcast
  else .pass

/-- HOPS one up (R819). -/
def hopUp (f : List Byte) : List Byte := splice f 13 [BitVec.ofNat 8 (min 255 (fieldAt f 13 1 + 1))]

/-- A frame is sent on: it starts 3 µs from now and lasts 5.16 µs (R816, R819). -/
def Dev.pliopSend (d : Dev) (f : List Byte) : Dev :=
  ({ d with plp := { d.plp with lastOut := d.now + 8160 } } : Dev).emit (.pliop (pliopSeal (hopUp f)))

def Dev.countAcc (d : Dev) : Dev := { d with plp := { d.plp with cntAcc := sat1 d.plp.cntAcc } }

/-- RDRSP or WRRSP (R822). -/
def pliopRsp (f : List Byte) (typ addr data status : Nat) : List Byte :=
  natLe 1 typ ++ natLe 1 0 ++ natLe 1 addr ++ slice 3 1 f ++ slice 4 4 f ++ natLe 4 data ++ natLe 1 status ++ slice 13 3 f

/-- ENUM (R820). -/
def Dev.pliopEnum (d : Dev) (f : List Byte) : Dev :=
  let a := fieldAt f 4 1
  if 1 ≤ a ∧ a ≤ 254 then
    ({ d with plp := { d.plp with addr := a } } : Dev).pliopSend (splice f 4 [BitVec.ofNat 8 (a + 1)])
  else ({ d with plp := { d.plp with addr := 0 } } : Dev).pliopSend f

/-- READ to this unit (R822, R824). -/
def Dev.pliopRead (d : Dev) (f : List Byte) : Dev :=
  let off := fieldAt f 4 4
  if offsetOk off then
    let (v, e) := d.regRead .pliop off
    e.countAcc.pliopSend (pliopRsp f 4 d.plp.addr v.toNat 0)
  else d.pliopSend (pliopRsp f 4 d.plp.addr 0 1)

/-- WRITE to this unit (R822, R824). -/
def Dev.pliopWrite (d : Dev) (f : List Byte) : Dev :=
  let off := fieldAt f 4 4
  if offsetOk off then
    ((d.writeRow .pliop off (BitVec.ofNat 32 (fieldAt f 8 4))).countAcc).pliopSend (pliopRsp f 5 d.plp.addr 0 0)
  else d.pliopSend (pliopRsp f 5 d.plp.addr 0 1)

/-- WRITE with DST 255 (R823). -/
def Dev.pliopBroadcast (d : Dev) (f : List Byte) : Dev :=
  let off := fieldAt f 4 4
  (if offsetOk off then (d.writeRow .pliop off (BitVec.ofNat 32 (fieldAt f 8 4))).countAcc else d).pliopSend f

/-- The counters of a received frame (PLP_CNT_RX, PLP_CNT_CRC, PLP_STATUS.RXACT). -/
def Dev.pliopCount (d : Dev) (f : List Byte) (k : PliopKind) : Dev :=
  let x := d.plp
  { d with plp := { x with
      lastIn := some d.now, lastRx := if k = .bad then x.lastRx else some d.now,
      cntRx := if pliopCrcOk f then sat1 x.cntRx else x.cntRx, cntCrc := if k = .bad then sat1 x.cntCrc else x.cntCrc } }

/-- A frame whose kind is one of `ks` has been received (R814, R818–R823). -/
def Dev.pliopIn (d : Dev) (ks : List PliopKind) (f : List Byte) : Dev :=
  let k := d.plp.kind f
  if !d.plp.released || !ks.contains k then d
  else
    let d := d.pliopCount f k
    match k with
    | .bad => d
    | .enum => d.pliopEnum f
    | .read => d.pliopRead f
    | .write => d.pliopWrite f
    | .broadcast => d.pliopBroadcast f
    | .pass => d.pliopSend f

/-- PLIOP_ENUM (R820). -/
def execPliopEnum (f : List Byte) (s : State) : Host.Outcome State Fault Refusal := s.run fun d => d.pliopIn [.enum] f

/-- PLIOP_READ (R822). -/
def execPliopRead (f : List Byte) (s : State) : Host.Outcome State Fault Refusal := s.run fun d => d.pliopIn [.read] f

/-- PLIOP_WRITE (R822). -/
def execPliopWrite (f : List Byte) (s : State) : Host.Outcome State Fault Refusal := s.run fun d => d.pliopIn [.write] f

/-- PLIOP_BROADCAST_WRITE (R823). -/
def execPliopBroadcastWrite (f : List Byte) (s : State) : Host.Outcome State Fault Refusal := s.run fun d => d.pliopIn [.broadcast] f

/-- PLIOP_FORWARD: forwarded, or discarded (R818, R819, R821). -/
def execPliopForward (f : List Byte) (s : State) : Host.Outcome State Fault Refusal := s.run fun d => d.pliopIn [.pass, .bad] f

/-- Watermarks of CRITICAL severity (R843). -/
def wmkCritical (n : Nat) : Bool := n == 2 || n == 5 || n == 7

/-- A NOTICE frame (R817). -/
def noticeFrame (addr n : Nat) (down : Bool) (count : Nat) (level : Bool) : List Byte :=
  natLe 1 6 ++ natLe 1 0 ++ natLe 1 addr ++ natLe 1 0 ++ natLe 1 n ++ natLe 1 (b2n down + 2 * b2n (wmkCritical n)) ++ natLe 2 0 ++
    natLe 4 (count % 65536 + 2 ^ 31 * b2n level) ++ natLe 2 0 ++ natLe 2 0

/-- The notice whose turn it is: the lowest watermark, upward first (R826). -/
def Plp.nextNotice (x : Plp) : Option (Nat × Bool) :=
  (List.range 17).findSome? fun n =>
    if x.upNotices.contains n then some (n, false) else if x.downNotices.contains n then some (n, true) else none

/-- The chain is idle long enough for a NOTICE (R825). -/
def Dev.pliopIdle (d : Dev) : Bool :=
  decide (d.plp.lastOut + 320 ≤ d.now) && d.plp.lastIn.all fun t => decide (t + 3040 ≤ d.now)

/-- PLIOP_NOTICE (R825, R826). -/
def Dev.pliopNotice (d : Dev) : Dev :=
  let x := d.plp
  match x.nextNotice with
  | none => d
  | some (n, down) =>
    if !x.released || x.addr == 0 || !d.pliopIdle then d
    else
      let w := d.wmk n
      let d : Dev := { d with plp := { x with
        upNotices := if down then x.upNotices else x.upNotices.filter (fun k => k != n)
        downNotices := if down then x.downNotices.filter (fun k => k != n) else x.downNotices
        cntNotice := sat1 x.cntNotice
        lastOut := d.now + 5160 } }
      d.emit (.pliop (pliopSeal (noticeFrame x.addr n down (if down then w.down else w.up) w.level)))

def execPliopNotice (s : State) : Host.Outcome State Fault Refusal := s.run Dev.pliopNotice

/-- PLIOP_RELEASE: 1 ms after RESET_N rose (R814). -/
def execPliopRelease (s : State) : Host.Outcome State Fault Refusal :=
  s.run fun d => { d with plp := { d.plp with released := true } }

/-! ### A tripped barn resumes -/

/-- BARN_RESUME (R708, R755): its floor below 100 °C with CLEAR set, its PLLs locked. -/
def Dev.barnResume (d : Dev) (b : Nat) : Dev :=
  let x := d.barn b
  if x.tripped && x.resumeDue && !x.sclkLost && !x.dclkLost then ((d.resumeBarn b).applyQueued b).letGo else d

/-- BARN_RESUME (R755). -/
def execBarnResume (b : Nat) (s : State) : Host.Outcome State Fault Refusal := s.run fun d => d.barnResume b

end Sys2Proof.Machine
end

