-- ==== Sys2Proof/Machine/Dispatch.lean ====
section
/-! DEFINITION. The dispatch: one arm per row of spec/opcode_table.json, each one call of that row's meaning. -/

namespace Sys2Proof.Machine

open Sys2Proof

/-- The effect of a command on everything but the queue. -/
def exec (i : Instr) (s : State) : Host.Outcome State Fault Refusal :=
  match i with
  | .nop c => Sys2Proof.Machine.execNop c s
  | .get c f => Sys2Proof.Machine.execGet c f s
  | .getRange c f => Sys2Proof.Machine.execGetRange c f s
  | .shapeGet c f => Sys2Proof.Machine.execShapeGet c f s
  | .existsKey c f => Sys2Proof.Machine.execExistsKey c f s
  | .scanPfx c f => Sys2Proof.Machine.execScanPfx c f s
  | .scanDigest c f => Sys2Proof.Machine.execScanDigest c f s
  | .gather c f => Sys2Proof.Machine.execGather c f s
  | .scoreTopk c f => Sys2Proof.Machine.execScoreTopk c f s
  | .scoreTokens c f => Sys2Proof.Machine.execScoreTokens c f s
  | .put c f => Sys2Proof.Machine.execPut c f s
  | .putRange c f => Sys2Proof.Machine.execPutRange c f s
  | .append c f => Sys2Proof.Machine.execAppend c f s
  | .delete c f => Sys2Proof.Machine.execDelete c f s
  | .flushSession c => Sys2Proof.Machine.execFlushSession c s
  | .flushQueue c => Sys2Proof.Machine.execFlushQueue c s
  | .flushDevice c => Sys2Proof.Machine.execFlushDevice c s
  | .tetherSet c => Sys2Proof.Machine.execTetherSet c s
  | .tetherAdd c => Sys2Proof.Machine.execTetherAdd c s
  | .tetherWaitGe c => Sys2Proof.Machine.execTetherWaitGe c s
  | .tetherRead c => Sys2Proof.Machine.execTetherRead c s
  | .paddockCreate c => Sys2Proof.Machine.execPaddockCreate c s
  | .paddockDelete c => Sys2Proof.Machine.execPaddockDelete c s
  | .paddockAlter c => Sys2Proof.Machine.execPaddockAlter c s
  | .paddockStat c => Sys2Proof.Machine.execPaddockStat c s
  | .admitNext => Sys2Proof.Machine.execAdmitNext s
  | .complete c => Sys2Proof.Machine.execComplete c s
  | .waiterRelease => Sys2Proof.Machine.execWaiterRelease s
  | .waitGeTimeout c => Sys2Proof.Machine.execWaitGeTimeout c s
  | .dataTimeout c => Sys2Proof.Machine.execDataTimeout c s
  | .wbufAllocate => Sys2Proof.Machine.execWbufAllocate s
  | .getOutputResume c => Sys2Proof.Machine.execGetOutputResume c s
  | .storageRelease v => Sys2Proof.Machine.execStorageRelease v s
  | .urgentWindow => Sys2Proof.Machine.execUrgentWindow s
  | .command link vc frame => Sys2Proof.Machine.execCommand link vc frame s
  | .data link vc frame => Sys2Proof.Machine.execData link vc frame s
  | .nudge link vc frame => Sys2Proof.Machine.execNudge link vc frame s
  | .readData link vc frame => Sys2Proof.Machine.execReadData link vc frame s
  | .config link vc frame => Sys2Proof.Machine.execConfig link vc frame s
  | .reject link vc frame => Sys2Proof.Machine.execReject link vc frame s
  | .frameDiscard link why => Sys2Proof.Machine.execFrameDiscard link why s
  | .nak link seq => Sys2Proof.Machine.execNak link seq s
  | .ack link seq freed => Sys2Proof.Machine.execAck link seq freed s
  | .down link => Sys2Proof.Machine.execDown link s
  | .cap link block => Sys2Proof.Machine.execCap link block s
  | .replayTimeout link => Sys2Proof.Machine.execReplayTimeout link s
  | .linkControlSend link => Sys2Proof.Machine.execLinkControlSend link s
  | .capSend link => Sys2Proof.Machine.execCapSend link s
  | .pmdTrainingComplete link => Sys2Proof.Machine.execPmdTrainingComplete link s
  | .alignLock link => Sys2Proof.Machine.execAlignLock link s
  | .trainTo link => Sys2Proof.Machine.execTrainTo link s
  | .alignTo link => Sys2Proof.Machine.execAlignTo link s
  | .capxTo link => Sys2Proof.Machine.execCapxTo link s
  | .linkRestart link => Sys2Proof.Machine.execLinkRestart link s
  | .lockLost link => Sys2Proof.Machine.execLockLost link s
  | .holdDeadline ses => Sys2Proof.Machine.execHoldDeadline ses s
  | .flitNak bundle dieBound seq => Sys2Proof.Machine.execFlitNak bundle dieBound seq s
  | .notify d => Sys2Proof.Machine.execNotify d s
  | .ntimeExpiry d => Sys2Proof.Machine.execNtimeExpiry d s
  | .sweep d => Sys2Proof.Machine.execSweep d s
  | .sessionOpen p ses pcie abort => Sys2Proof.Machine.execSessionOpen p ses pcie abort s
  | .sessionClose p ses pcie abort => Sys2Proof.Machine.execSessionClose p ses pcie abort s
  | .qpEnable p d => Sys2Proof.Machine.execQpEnable p d s
  | .qpDisable p d => Sys2Proof.Machine.execQpDisable p d s
  | .sesNudge p ses qp => Sys2Proof.Machine.execSesNudge p ses qp s
  | .retrain p link enable emode pattern => Sys2Proof.Machine.execRetrain p link enable emode pattern s
  | .linkEnable p link enable emode => Sys2Proof.Machine.execLinkEnable p link enable emode s
  | .testpat p link enable emode pattern => Sys2Proof.Machine.execTestpat p link enable emode pattern s
  | .coordWrite p xyz => Sys2Proof.Machine.execCoordWrite p xyz s
  | .tetherRegSet p hi => Sys2Proof.Machine.execTetherRegSet p hi s
  | .shapeValidate p k => Sys2Proof.Machine.execShapeValidate p k s
  | .shapeWithdraw p k => Sys2Proof.Machine.execShapeWithdraw p k s
  | .commit p => Sys2Proof.Machine.execCommit p s
  | .zeroise p andCommit => Sys2Proof.Machine.execZeroise p andCommit s
  | .shedFormat p key => Sys2Proof.Machine.execShedFormat p key s
  | .formatComplete formed spares => Sys2Proof.Machine.execFormatComplete formed spares s
  | .ckptNow p wlEn => Sys2Proof.Machine.execCkptNow p wlEn s
  | .wbufNextWrite p gib => Sys2Proof.Machine.execWbufNextWrite p gib s
  | .bruAccept p items => Sys2Proof.Machine.execBruAccept p items s
  | .storeNow p => Sys2Proof.Machine.execStoreNow p s
  | .clrRemap p storeToo => Sys2Proof.Machine.execClrRemap p storeToo s
  | .storedCopyWrite => Sys2Proof.Machine.execStoredCopyWrite s
  | .mailboxRead p => Sys2Proof.Machine.execMailboxRead p s
  | .mailboxProgram p => Sys2Proof.Machine.execMailboxProgram p s
  | .mailboxErase p => Sys2Proof.Machine.execMailboxErase p s
  | .mailboxDone ok => Sys2Proof.Machine.execMailboxDone ok s
  | .wmkEqPop p => Sys2Proof.Machine.execWmkEqPop p s
  | .wmkClear p n up down => Sys2Proof.Machine.execWmkClear p n up down s
  | .clear p barns => Sys2Proof.Machine.execClear p barns s
  | .clkMeasSel p sel => Sys2Proof.Machine.execClkMeasSel p sel s
  | .clkMeasDone khz => Sys2Proof.Machine.execClkMeasDone khz s
  | .rcRead p off => Sys2Proof.Machine.execRcRead p off s
  | .loRead p off => Sys2Proof.Machine.execLoRead p off s
  | .latchGroupRead p off => Sys2Proof.Machine.execLatchGroupRead p off s
  | .registerWrite p off v => Sys2Proof.Machine.execRegisterWrite p off v s
  | .pliopEnum frame => Sys2Proof.Machine.execPliopEnum frame s
  | .pliopRead frame => Sys2Proof.Machine.execPliopRead frame s
  | .pliopWrite frame => Sys2Proof.Machine.execPliopWrite frame s
  | .pliopBroadcastWrite frame => Sys2Proof.Machine.execPliopBroadcastWrite frame s
  | .pliopForward frame => Sys2Proof.Machine.execPliopForward frame s
  | .pliopNotice => Sys2Proof.Machine.execPliopNotice s
  | .pliopRelease => Sys2Proof.Machine.execPliopRelease s
  | .pcieReadCompletion tag ok bytes => Sys2Proof.Machine.execPcieReadCompletion tag ok bytes s
  | .pcieLinkDown => Sys2Proof.Machine.execPcieLinkDown s
  | .busMasterEnable => Sys2Proof.Machine.execBusMasterEnable s
  | .pePerst low => Sys2Proof.Machine.execPePerst low s
  | .resetAssert => Sys2Proof.Machine.execResetAssert s
  | .resetRelease straps => Sys2Proof.Machine.execResetRelease straps s
  | .bringupStepDone r => Sys2Proof.Machine.execBringupStepDone r s
  | .supplyLoss => Sys2Proof.Machine.execSupplyLoss s
  | .sensorSample readings => Sys2Proof.Machine.execSensorSample readings s
  | .hotHoldExit barn => Sys2Proof.Machine.execHotHoldExit barn s
  | .barnResume barn => Sys2Proof.Machine.execBarnResume barn s
  | .bandLower barn layer => Sys2Proof.Machine.execBandLower barn layer s
  | .powerEstimate => Sys2Proof.Machine.execPowerEstimate s
  | .governorLower => Sys2Proof.Machine.execGovernorLower s
  | .sclkDclkUnlock barn dclk => Sys2Proof.Machine.execSclkDclkUnlock barn dclk s
  | .nclkUnlock => Sys2Proof.Machine.execNclkUnlock s
  | .peclkUnlock => Sys2Proof.Machine.execPeclkUnlock s
  | .groomerRun stall layer f => Sys2Proof.Machine.execGroomerRun stall layer f s
  | .pendingListService stall f => Sys2Proof.Machine.execPendingListService stall f s
  | .bucketLeak barn => Sys2Proof.Machine.execBucketLeak barn s
  | .nandProgramDone id failPos => Sys2Proof.Machine.execNandProgramDone id failPos s
  | .nandEraseDone sblk failPos => Sys2Proof.Machine.execNandEraseDone sblk failPos s
  | .nandReadDone id ok => Sys2Proof.Machine.execNandReadDone id ok s
  | .mergeStart why => Sys2Proof.Machine.execMergeStart why s
  | .programUnitFill lblk => Sys2Proof.Machine.execProgramUnitFill lblk s
  | .ptrRecord lblk => Sys2Proof.Machine.execPtrRecord lblk s
  | .checkpoint => Sys2Proof.Machine.execCheckpoint s
  | .stageWrite pad key => Sys2Proof.Machine.execStageWrite pad key s
  | .prateUpdate => Sys2Proof.Machine.execPrateUpdate s
  | .backgroundReload pad key seg => Sys2Proof.Machine.execBackgroundReload pad key seg s
  | .residencyMove pad key seg => Sys2Proof.Machine.execResidencyMove pad key seg s
  | .entropyHealthFail proportion => Sys2Proof.Machine.execEntropyHealthFail proportion s
  | .entropyStartupPass => Sys2Proof.Machine.execEntropyStartupPass s
  | .maskReseed => Sys2Proof.Machine.execMaskReseed s
  | .eventEnqueue => Sys2Proof.Machine.execEventEnqueue s
  | .watermarkUp n => Sys2Proof.Machine.execWatermarkUp n s
  | .watermarkDown n => Sys2Proof.Machine.execWatermarkDown n s
  | .cmapPeriod => Sys2Proof.Machine.execCmapPeriod s
  | .journalUnitPad => Sys2Proof.Machine.execJournalUnitPad s
  | .pcieLinkUp => Sys2Proof.Machine.execPcieLinkUp s
  | .busMasterDisable => Sys2Proof.Machine.execBusMasterDisable s
  | .storedCopyWritten ok => Sys2Proof.Machine.execStoredCopyWritten ok s
  | .rejectedPacket link vc frame => Sys2Proof.Machine.execRejectedPacket link vc frame s
  | .tapInstruction ir scan => Sys2Proof.Machine.execTapInstruction ir scan s

end Sys2Proof.Machine
end

