-- ==== Sys2Proof/Machine/Step.lean ====
section
/-! DEFINITION. One step of the block: the command at the front of the queue is executed on the state with the queue's rest;
with an empty queue one tick of yard time passes (assumption log 6). -/

namespace Sys2Proof.Machine

open Sys2Proof

/-- A tick: yard time advances by 1 ns while it runs (R712), and each stall whose clock runs has one cycle (log 6). -/
def tick (s : State) : State :=
  if s.dev.ytRun then { s with dev := { s.dev with now := s.dev.now + 1 }.cycles } else s

/-- One step. -/
def step (s : State) : Host.Outcome State Fault Refusal :=
  match s.pending with
  | [] => .next (tick s)
  | c :: rest => exec c { s with pending := rest }

/-- The state with the command that a word spells put at the front of its queue; unchanged where the word spells none. -/
def State.withFetchWord (s : State) (nbits w : Nat) : State :=
  match decodeTableWord nbits w with
  | some c => { s with pending := c :: s.pending }
  | none => s

end Sys2Proof.Machine
end

