-- ==== Sys2Proof/Safety.lean ====
section
/-! DEFINITION. What counts as a safe step: the device goes on, neither stopped by a fault nor refused. -/

namespace Sys2Proof.Machine

open Sys2Proof

/-- A step that answers a next state. -/
def Safe (o : Host.Outcome State Fault Refusal) : Prop := ∃ s, o = .next s

/-- `k` steps from `s` are all safe. -/
def SafeFor : Nat → State → Prop
  | 0, _ => True
  | k + 1, s => ∃ t, step s = .next t ∧ SafeFor k t

/-! ### What statements about commands say -/

/-- RESET_N is high (R729). -/
abbrev State.Up (s : State) : Prop := s.dev.glb.resetN = true

def State.withDev (s : State) (d : Dev) : State := { s with dev := d }

/-- Command `c` answers a next state that differs from `s` in the device alone, and the device then is as `P` says. -/
def Does (c : Instr) (s : State) (P : Dev → Prop) : Prop := ∃ e, exec c s = .next (s.withDev e) ∧ P e

/-- As `Does`, before what waited is let go on (`Dev.letGo`: held-back fetching, R241, and frames kept in receive buffers,
R367, R834). -/
def DoesThen (c : Instr) (s : State) (P : Dev → Prop) : Prop := ∃ e, exec c s = .next (s.withDev e.letGo) ∧ P e

/-- Nothing waits to be let go on: no fetching is held back, and every receive buffer is empty. -/
abbrev Dev.Quiet (d : Dev) : Prop := (∀ q ∈ d.qps, q.2.heldBack = false) ∧ ∀ l ∈ d.links, l.2.rxHold = []

/-- The outcome of command `c` is fixed: its status, BYTES and INFO (R342). -/
def Dev.Ended (d : Dev) (c status bytes info : Nat) : Prop :=
  ∃ x, d.findCmd c = some x ∧ x.stage = .ended ∧ x.status = status ∧ x.bytes = bytes ∧ x.info = info

/-- Every command but `c` is as it was. -/
def OtherCmds (c : Nat) (d e : Dev) : Prop := ∀ k, k ≠ c → e.findCmd k = d.findCmd k

/-- Every field of every barn but the write-buffer slots that a stopped barn keeps (R750) is as it was. -/
def BarnsButWb (d e : Dev) : Prop := ∀ b, e.barn b = { d.barn b with wbKept := (e.barn b).wbKept }

/-- The end of command `c` changes its own record, and takes exactly its READs, its wait slot, its turns and its write-buffer slots
away: nothing else. -/
def EndFrame (c : Nat) (d e : Dev) : Prop :=
  e = { d with cmds := e.cmds, reads := d.reads.filter fun r => !readOfCmd c r, barns := e.barns,
               tth := { d.tth with waiters := d.tth.waiters.filter fun w => w.cmd != c, ready := d.tth.ready.filter fun w => w.1 != c },
               arb := { d.arb with wbRound := d.arb.wbRound.filter fun w => w != c, round := e.arb.round } } ∧
    e.arb.round = (d.arb.round.filter fun f => e.cmds.any fun k => k.stage == .waiting && k.ses == f.1 && k.cls == f.2.1) ∧
    OtherCmds c d e ∧ BarnsButWb d e

/-- The device after a register write that GLB_CFG_GEN counts (R835). -/
def Dev.counted (d : Dev) : Dev := { d with glb := { d.glb with cfgGen := (d.glb.cfgGen + 1) % 2 ^ 32 } }

/-- What a command that reads or writes values may change besides its own record: the media and what storing counts, the shed, events
and stored copies that are due; READs, WRITEs and frames that are sent; the command's wait slots and turns. Everything else is as it was:
the paddocks, tether counters, shape descriptors, queue pairs, and every register group not named here; and no command joins or leaves. -/
def DataPlane (d e : Dev) : Prop :=
  e = { d with
    shd := e.shd, nextId := e.nextId, stalls := e.stalls, evq := e.evq, cmds := e.cmds, barns := e.barns, bru := { d.bru with storeDue := e.bru.storeDue },
    chk := { d.chk with
      maskCount := e.chk.maskCount, make := e.chk.make, check := e.chk.check, fail := e.chk.fail, noKey := e.chk.noKey },
    useStamp := e.useStamp, old := e.old, links := e.links, sessions := e.sessions, reads := e.reads, out := e.out, writes := e.writes,
    nextTag := e.nextTag, pcie := e.pcie, free := e.free,
    tth := { d.tth with waiters := e.tth.waiters, ready := e.tth.ready }, arb := { d.arb with wbRound := e.arb.wbRound, round := e.arb.round } } ∧
  e.cmds.map Cmd.id = d.cmds.map Cmd.id

/-- Every receive buffer is empty. -/
abbrev State.RxEmpty (s : State) : Prop := ∀ l ∈ s.dev.links, l.2.rxHold = []

/-- The credits of a frame of `len` bytes on channel `vc` of link n have come back (R146). -/
def Freed (d e : Dev) (n : Nat) (vc : Vc) (len : Nat) : Prop :=
  credGet (e.link n).freed vc = (credGet (d.link n).freed vc + creditCost len) % 65536

end Sys2Proof.Machine
end

