-- ==== Sys2Proof/Certificates/Slice0/Obligations.lean ====
section
/-! DEFINITION. The statements for the provers, in the order of the block's parts: the step itself, commands, the tether unit,
links, sessions, registers, management, power, the shed. Each docstring names the rules it rests on, and says where a clause is the
model's choice. -/

open Sys2Proof Sys2Proof.Machine

/-! ### The step -/

/-- A step takes the command at the front of the queue and answers what its meaning answers on the state with the queue's rest; with
an empty queue yard time, where it runs, advances by 1 ns, and the stalls and the package have a cycle (R712; that an empty queue ticks
is the model's choice, log 6). -/
def Obligations.StepTakesFront : Prop :=
  (∀ (c : Instr) (rest : List Instr) (s : State), s.pending = c :: rest → step s = exec c { s with pending := rest }) ∧
  ∀ s : State, s.pending = [] →
    step s = .next (if s.dev.ytRun then s.withDev ({ s.dev with now := s.dev.now + 1 } : Dev).cycles else s)

/-- What reset leaves, where the register tables give a reset value. -/
def Obligations.ResetState : Prop :=
  State.reset.pending = [] ∧ Memory.wf State.reset.flash = true ∧ State.reset.dev.cmds = [] ∧ State.reset.dev.bru.st = 1 ∧
  State.reset.dev.glb.ready = false ∧ State.reset.dev.glb.cfgGen = 0 ∧ State.reset.dev.ytRun = false ∧
  (∀ n, (State.reset.dev.link n).st = .disabled ∧ (State.reset.dev.link n).enable = true ∧ (State.reset.dev.link n).cnt = LinkCnt.zero) ∧
  (∀ n, (State.reset.dev.ses n).st = .closed ∧ (State.reset.dev.ses n).maxOut = 256 ∧ (State.reset.dev.ses n).rate = 0x7FFFFF) ∧
  (∀ q, (State.reset.dev.qp q).st = .idle) ∧ (∀ t, State.reset.dev.tether t = 0) ∧ (∀ p, (State.reset.dev.pad p).live = false) ∧
  (∀ k, (State.reset.dev.shape k).valid = false) ∧ State.reset.dev.chk.root = none ∧ State.reset.dev.lnkc.holdMs = 50 ∧
  State.reset.dev.tth.perSes = 128 ∧ State.reset.dev.arb.ucapPct = 25 ∧ State.reset.dev.arb.dataTo = 20 ∧
  State.reset.dev.arb.sweepUs = 100 ∧ State.reset.dev.pwr.tripC = 115 ∧ State.reset.dev.pwr.hotC = 105 ∧
  State.reset.dev.pwr.warmC = 90 ∧ State.reset.dev.plp.addr = 0 ∧ State.reset.dev.shd.ckptSec = 10 ∧
  State.reset.dev.evq.records = [] ∧ (∀ b, (State.reset.dev.barn b).passH = 8)

/-- A device in which nothing waits has nothing to let go on (R241, R367, R834): the statements that speak of the device before
`letGo` then speak of the next state itself. -/
def Obligations.QuietLetsNothingGo : Prop := ∀ d : Dev, d.Quiet → d.letGo = d

/-- No command touches the queue of waiting commands. The boot flash changes only at the end of a mailbox operation and where an operation
is torn by reset or supply loss; a stored copy of training results only there and where a copy has been written (R777, R795, R806). -/
def Obligations.QueueFlashAndCopiesKept : Prop :=
  (∀ (c : Instr) (s t : State), exec c s = .next t → t.pending = s.pending) ∧
  (∀ (c : Instr) (s t : State), exec c s = .next t →
    (∀ ok, c ≠ .mailboxDone ok) → c ≠ .resetAssert → c ≠ .supplyLoss →
    t.flash = s.flash ∧ ((∀ ok, c ≠ .storedCopyWritten ok) → t.copies = s.copies))

/-- Every step keeps the boot flash in its canonical form: cells in strictly rising order of their addresses, none of them erased. -/
def Obligations.StepKeepsFlashForm : Prop :=
  ∀ s t : State, Memory.wf s.flash = true → step s = .next t → Memory.wf t.flash = true

/-- While RESET_N is low, with every rail within range, only its rising edge, the loss of supply and the test access port change anything
(R729, R766). A step stops only where the spec calls behaviour undefined: an instruction that gives the boundary-scan register the pins
while RESET_N is high (R910), a sample of a yard or gatehouse sensor above 125 °C (R759), and whatever is asked of a device that has lost
its supply with RESET_N high, until RESET_N falls (R914; that every command then stops is the model's choice, log 67). Nothing is refused. -/
def Obligations.StopsAndReset : Prop :=
  (∀ (c : Instr) (s : State), s.dev.glb.resetN = false → (∀ x, c ≠ .resetRelease x) → c ≠ .supplyLoss →
    (∀ ir p, c ≠ .tapInstruction ir p) →
    (s.dev.glb.railOut = false → exec c s = .next s) ∧
    (s.dev.glb.railOut = true → c ≠ .resetAssert → exec c s = .fault .railAbsent)) ∧
  (∀ (c : Instr) (s : State),
    (∀ r, exec c s ≠ .refused r) ∧
    ∀ f, exec c s = .fault f →
      (f = .tapPinsWhileRunning ∧ s.Up ∧ ∃ ir sc, c = .tapInstruction ir sc ∧ scanDrives (scanOf ir sc.op) = true) ∨
      (f = .junctionAbove125 ∧ s.Up ∧ ∃ rs, c = .sensorSample rs ∧ overLimit rs = true) ∨
      (f = .railAbsent ∧ s.dev.glb.railOut = true))

/-- A command row does nothing before its command's turn: while the command is not admitted, has taken effect, is held, or is ordered
behind another one (R353, R358, R359). -/
def Obligations.CommandsAwaitTheirTurn : Prop :=
  ∀ (s : State) (c : Nat) (f : List Finding), (∀ x op, s.dev.findCmd c = some x → s.dev.runnable x op = false) →
    ∀ i ∈ [Instr.nop c, .get c f, .getRange c f, .shapeGet c f, .existsKey c f, .scanPfx c f, .scanDigest c f, .gather c f,
      .scoreTopk c f, .scoreTokens c f, .put c f, .putRange c f, .append c f, .delete c f, .flushSession c, .flushQueue c,
      .flushDevice c, .tetherSet c, .tetherAdd c, .tetherWaitGe c, .tetherRead c, .paddockCreate c, .paddockDelete c,
      .paddockAlter c, .paddockStat c], exec i s = .next s

/-! ### NOP, FLUSH, TETHER -/

/-- NOP has no effect and completes with ST_OK; with TETH = 1 its completion adds TADD to its tether like that of any other command, and
changes no other counter (R334). -/
def Obligations.NopEnds : Prop :=
  ∀ (s : State) (c : Nat) (x : Cmd), s.Up → s.dev.findCmd c = some x → x.body.opcode = Opcode.nop.code →
    (s.dev.runnable x Opcode.nop.code = true → Does (.nop c) s fun e => e.Ended c Status.ok.code 0 0 ∧ EndFrame c s.dev e) ∧
    (x.status = Status.ok.code → s.dev.completable x = true → DoesThen (.complete c) s fun e =>
      e.findCmd c = none ∧ ∀ t, e.tether t =
        if x.body.teth = true ∧ t = x.body.teth14 then s.dev.tether t + BitVec.ofNat 64 x.body.tadd else s.dev.tether t)

/-- A FLUSH of each scope completes with ST_OK once no staged work and no command of its scope is left (R389, R390), and not before. -/
def Obligations.FlushEnds : Prop :=
  ∀ (s : State) (c : Nat) (x : Cmd), s.Up → s.dev.findCmd c = some x → s.dev.runnable x Opcode.flush.code = true →
    ∀ i ∈ [(0, Instr.flushSession c), (1, .flushQueue c), (2, .flushDevice c)], x.body.subop = i.1 →
      s.dev.flushRecs x = [] → s.dev.flushDels x = [] →
      (s.dev.flushCmds x = [] → Does i.2 s fun e => e.Ended c Status.ok.code 0 0 ∧ EndFrame c s.dev e) ∧
      (s.dev.flushCmds x ≠ [] → exec i.2 s = .next s)

/-- SET leaves the counter at ARG, ADD at the sum modulo 2^64, READ as it was; each completes with ST_OK and the counter value in INFO,
other counters stay, and every waiter whose target the counter has reached awaits its release (R468, R469, R481). -/
def Obligations.TetherSetAddRead : Prop :=
  ∀ (s : State) (c : Nat) (x : Cmd), s.Up →
    ∀ i ∈ [(0, Instr.tetherSet c, BitVec.ofNat 64 x.body.arg),
           (1, .tetherAdd c, s.dev.tether x.body.teth14 + BitVec.ofNat 64 x.body.arg),
           (3, .tetherRead c, s.dev.tether x.body.teth14)], s.dev.tetherCmd c i.1 = some x →
      Does i.2.1 s fun e =>
        e.Ended c Status.ok.code 0 i.2.2.toNat ∧ e.tether x.body.teth14 = i.2.2 ∧ (∀ u, u ≠ x.body.teth14 → e.tether u = s.dev.tether u) ∧
        (i.1 ≠ 3 → ∀ w ∈ s.dev.tth.waiters, w.tether = x.body.teth14 → w.target ≤ i.2.2 → w.cmd ≠ c → (w.cmd, i.2.2) ∈ e.tth.ready) ∧
        OtherCmds c s.dev e ∧ BarnsButWb s.dev e ∧
        e = { s.dev with cmds := e.cmds, reads := e.reads, barns := e.barns,
                         tth := { s.dev.tth with counters := e.tth.counters, waiters := e.tth.waiters, ready := e.tth.ready },
                         arb := { s.dev.arb with wbRound := e.arb.wbRound, round := e.arb.round } }

/-- WAIT_GE completes at once when the counter has reached ARG; it ends with ST_TETHER_FULL, and is counted, when its session or the
device has no wait slot left; else it waits until LENGTH µs from now (R479, R480). -/
def Obligations.WaitGe : Prop :=
  ∀ (s : State) (c : Nat) (x : Cmd), s.Up → s.dev.tetherCmd c 2 = some x →
    let v := s.dev.tether x.body.teth14
    let target := BitVec.ofNat 64 x.body.arg
    let full := s.dev.tth.perSes ≤ s.dev.waitSlots x.ses ∨ 65536 ≤ s.dev.tth.waiters.length
    (target ≤ v → Does (.tetherWaitGe c) s fun e => e.Ended c Status.ok.code 0 v.toNat ∧ EndFrame c s.dev e) ∧
    (¬ target ≤ v → full → Does (.tetherWaitGe c) s fun e =>
      e.Ended c Status.tetherFull.code 0 v.toNat ∧ e.tth.cntFull = sat1 s.dev.tth.cntFull ∧ e.tth.counters = s.dev.tth.counters ∧ OtherCmds c s.dev e) ∧
    (¬ target ≤ v → ¬ full → Does (.tetherWaitGe c) s fun e =>
      e.findCmd c = some { x with isWaiter := true } ∧ OtherCmds c s.dev e ∧
      e = { s.dev with cmds := e.cmds, tth := { s.dev.tth with waiters := s.dev.tth.waiters ++
        [{ cmd := c, ses := x.ses, tether := x.body.teth14, target := target, deadline := s.dev.now + x.body.length * 1000 }] } })

/-- The tether unit releases the first four satisfied waiters in their order, each with ST_OK and the counter value in INFO; the others stay
(R481, R482). At its deadline a waiter ends with ST_TETHER_TIMEOUT and the counter value in INFO, is counted and leaves the list; before
it nothing happens (R483). A command whose grant or READ is overdue ends with ST_TIMEOUT, BYTES the bytes it has received or delivered, and none of its READs is left
(R281, R294, R297). -/
def Obligations.WaitersAndTimeouts : Prop :=
  (∀ s : State, s.Up → Does .waiterRelease s fun e =>
    (∀ k, k ∈ (s.dev.tth.ready.take 4).map Prod.fst → (s.dev.findCmd k).isSome = true →
      ∃ v, (k, v) ∈ s.dev.tth.ready.take 4 ∧ e.Ended k Status.ok.code 0 v.toNat) ∧
    (∀ k, k ∉ (s.dev.tth.ready.take 4).map Prod.fst → e.findCmd k = s.dev.findCmd k) ∧
    e.tth.ready = (s.dev.tth.ready.drop 4).filter (fun w => !((s.dev.tth.ready.take 4).map Prod.fst).contains w.1) ∧
    e.tth.counters = s.dev.tth.counters) ∧
  ((∀ (s : State) (c : Nat) (w : Waiter), s.Up → s.dev.tth.waiters.find? (fun w => w.cmd == c) = some w →
    (s.dev.now < w.deadline → exec (.waitGeTimeout c) s = .next s) ∧
    (w.deadline ≤ s.dev.now → (s.dev.findCmd c).isSome = true → Does (.waitGeTimeout c) s fun e =>
      e.Ended c Status.tetherTimeout.code 0 (s.dev.tether w.tether).toNat ∧ e.tth.cntTimeout = sat1 s.dev.tth.cntTimeout ∧
      (∀ y ∈ e.tth.waiters, y.cmd ≠ c) ∧ e.tth.counters = s.dev.tth.counters ∧ OtherCmds c s.dev e)) ∧
  ∀ (s : State) (c : Nat) (x : Cmd), s.Up → s.dev.findCmd c = some x → s.dev.overdue x = true → x.effected = false →
    x.stage ≠ .ended → s.dev.held x.ses = false → Does (.dataTimeout c) s fun e =>
      e.Ended c Status.timeout.code (if x.body.isWrite then x.gotBytes else x.sent) (s.dev.infoNow x) ∧
      (∀ r ∈ e.reads, readOfCmd c r = false) ∧
      OtherCmds c s.dev e ∧ e.tth.counters = s.dev.tth.counters ∧ e.stalls = s.dev.stalls ∧ e.shd = s.dev.shd)

/-! ### PADDOCK -/

/-- CREATE makes the id live with the descriptor's attributes and the epoch after the highest the id has had; ALTER changes the attributes
its mask selects; each completes with the epoch in INFO, at once for a VOLATILE paddock and after its record otherwise; the first check
that fails gives the status and leaves every paddock as it was, INFO the epoch of the paddock found (R46, R276, R336, R340, R575, R917). -/
def Obligations.PaddockCreateAlter : Prop :=
  ∀ (s : State) (c : Nat) (x : Cmd), s.Up →
    let pad := x.body.pad
    let old := s.dev.pad pad
    let y := parseDesc x.input
    let done := fun (new : Paddock) (shed : Bool) (e : Dev) =>
      e.pad pad = new ∧ (∀ p, p ≠ pad → e.pad p = s.dev.pad p) ∧ e.stalls = s.dev.stalls ∧
      ∃ z, e.findCmd c = some z ∧ z.stage = .ended ∧ z.bytes = 0 ∧ z.info = new.epoch ∧
        (if shed then z.job.isSome = true ∧ (z.status = Status.ok.code ∨ z.status = Status.mediaError.code) else z.status = Status.ok.code)
    let refused := fun (st info : Nat) (e : Dev) =>
      e.Ended c st (if x.body.isWrite then x.gotBytes else x.sent) info ∧ e.paddocks = s.dev.paddocks ∧ OtherCmds c s.dev e
    (s.dev.padCmd c 0 = some x →
      let new := y.apply (fun _ => true) { Paddock.reset with live := true, epoch := old.mark + 1, mark := old.mark + 1 }
      (s.dev.createFails pad y new = 0 → Does (.paddockCreate c) s (done new (decide (new.persist ≠ 0)))) ∧
      (s.dev.createFails pad y new ≠ 0 → Does (.paddockCreate c) s
        (refused (s.dev.createFails pad y new) (if s.dev.createFails pad y new = Status.keyExists.code then old.epoch else 0)))) ∧
    (s.dev.padCmd c 2 = some x →
      let new := y.apply (bit y.mask) old
      (s.dev.alterFails pad y new = 0 → Does (.paddockAlter c) s (done new (decide (old.persist ≠ 0 ∨ new.persist ≠ 0)))) ∧
      (s.dev.alterFails pad y new ≠ 0 → Does (.paddockAlter c) s (refused (s.dev.alterFails pad y new) old.epoch)))

/-- DELETE waits for the commands admitted before it on the paddock; then the id is free, the highest epoch it has had kept, every CAM entry
of the paddock left is one whose storage awaits its release, and INFO is the number of keys (R42, R46, R339, R525). STAT delivers a 128-byte record, with the number of keys in INFO (R341). -/
def Obligations.PaddockDeleteStat : Prop :=
  ∀ (s : State) (c : Nat) (x : Cmd), s.Up →
    let pad := x.body.pad
    let p := s.dev.pad pad
    (s.dev.padCmd c 1 = some x →
      (s.dev.padBefore x = true → exec (.paddockDelete c) s = .next s) ∧
      (s.dev.padBefore x = false → ((s.dev.padSet pad).any fun k => s.dev.barnStopped (k / 64)) = false →
        Does (.paddockDelete c) s fun e =>
          e.pad pad = { Paddock.reset with epoch := p.mark, mark := p.mark } ∧ (∀ q, q ≠ pad → e.pad q = s.dev.pad q) ∧
          (∀ k i r, SMap.find (e.stall k).cam i = some r → r.pad = pad → r.st = 3) ∧
          ∃ z, e.findCmd c = some z ∧ z.stage = .ended ∧ z.bytes = 0 ∧
            z.info = (if p.live then s.dev.padKeys pad else p.heldKeys))) ∧
    (s.dev.padCmd c 3 = some x → Does (.paddockStat c) s fun e =>
      e.Ended c Status.ok.code 128 (s.dev.padKeys pad) ∧ e.paddocks = s.dev.paddocks ∧ e.stalls = s.dev.stalls ∧
      (s.dev.statRecord pad).length = 128)


/-! ### Reads -/

/-- Output pieces carry exactly the bytes in order, none longer than 8,192, and each ends at a multiple of 8,192 of the output or at its end
(R279). A write plan stores what the command says: a PUT exactly its bytes, a write into a range its bytes there and every byte of the old
value outside it, over the segments it writes (R303, R305–R307). -/
def Obligations.PiecesAndPlans : Prop :=
  (∀ (off : Nat) (b : List Byte),
    ((cutPieces off b).flatMap Piece.bytes = b) ∧
    ∀ p ∈ cutPieces off b, p.bytes ≠ [] ∧ p.bytes.length ≤ 8192 ∧ off ≤ p.off ∧
      ((p.off + p.bytes.length) % 8192 = 0 ∨ p.off + p.bytes.length = off + b.length) ∧
      p.bytes = slice (p.off - off) p.bytes.length b) ∧
  ((∀ b : List Byte, (wholePlan b).len = b.length ∧ ((wholePlan b).written.flatMap Prod.snd) = b) ∧
  ∀ (old data : List Byte) (lo i : Nat) (seg : List Byte), lo ≤ old.length → 4096 < old.length →
    let hi := lo + data.length
    let parts := oldSegs old.length lo hi
    (i, seg) ∈ (rangePlan old.length lo data parts (parts.map fun p => slice (65536 * p.1) 65536 old)).written →
    seg = slice (65536 * i) 65536 (splice old lo data))

/-- GET, GET_RANGE and SHAPE_GET of a key that the lookup finds, in its stored record or in the data of writes past their commit point, once
the segments they need are there: they complete with ST_OK, or ST_TRUNCATED where the range reaches past the value, BYTES the bytes read or
shaped and INFO the value's length; their output is the bytes of the range, or its shape; a shape waits only for its own barns. A key that
neither holds ends them with ST_NOT_FOUND (R279, R298–R302, R364, R365, R423, R459). -/
def Obligations.ReadsDeliver : Prop :=
  ∀ (s : State) (c : Nat) (f : List Finding) (x : Cmd) (op : Nat) (i : Instr), s.Up →
    (op, i) ∈ [(Opcode.get.code, Instr.get c f), (Opcode.getRange.code, .getRange c f), (Opcode.shapeGet.code, .shapeGet c f)] →
    s.dev.findCmd c = some x → s.dev.runnable x op = true → x.looked = false →
    let key := x.key.getD []
    (∀ d1, s.dev.see x f 0 key = (.value none [], d1) →
      Does i s fun e => e.Ended c Status.notFound.code 0 0 ∧ EndFrame c d1 e ∧ DataPlane s.dev e) ∧
    (∀ (base : Option (Nat × Loc × Rec)) ls d1 len fet (d2 : Dev) bs (v : View), s.dev.see x f 0 key = (.value base ls, d1) → viewLen (base.map fun b => b.2.2) ls = some len →
      let lo := (x.readRange len).1
      let hi := (x.readRange len).2.1
      let st := if (x.readRange len).2.2 then Status.truncated.code else Status.ok.code
      (match base with
        | none => (fet, d2) = ([], d1)
        | some (h, loc, r) => d1.fetchSegs c f h loc r (viewParts (some r) ls lo hi) [] = (fet, d2)) →
      d2.viewed x.body.pad key (base.map fun b => b.2.2) ls fet len lo hi = (.done bs, v) →
      let sends := fun (outs : List OutPiece) (e : Dev) =>
        ∃ d3 : Dev, e = d3.sendOutput c ∧ ∃ y, d3.findCmd c = some y ∧ y.outLeft = outs
      (x.shape = none → Does i s fun e =>
        e.Ended c st (hi - lo) len ∧ DataPlane s.dev e ∧ sends (rawPieces v.r 0 lo (segsOfRange len lo hi) v.segs) e) ∧
      (∀ sh, x.shape = some sh → hi - lo = 0 → Does i s fun e => e.Ended c st 0 len ∧ DataPlane s.dev e) ∧
      (∀ sh, x.shape = some sh → hi - lo ≠ 0 →
        let rows := sh.rowsOf (cutRange len lo hi v.segs)
        let stalls := (List.range rows.length).map fun k => viewStall (base.map fun b => b.2.2) ls (lo + k * sh.rowLen)
        d2.macWaits sh.usesMac (sh.workBarns stalls (sh.bagStalls stalls)) = false → Does i s fun e =>
          e.Ended c st (sh.outBytes (sh.outRows rows.length)) len ∧ DataPlane s.dev e ∧
          sends (shapedPieces sh d2.free (hi - lo) (rows.map some)) e))

/-- EXISTS completes with ST_OK and the length of the value in INFO, or with ST_NOT_FOUND (R312, R364). A SCAN of either kind whose barns can
all be reached delivers the records of keys it selects, whole and at most LENGTH bytes of them: ST_OK and an all-ones cursor when its walk
came to its end, else ST_TRUNCATED and the cursor of the record that did not fit; INFO carries the number of records above the cursor
(R313–R318). -/
def Obligations.ExistsScanEnd : Prop :=
  (∀ (s : State) (c : Nat) (f : List Finding) (x : Cmd) (d1 : Dev) (base : Option (Nat × Loc × Rec)) (ls : List Layer), s.Up →
    s.dev.findCmd c = some x → s.dev.runnable x Opcode.existsKey.code = true → s.dev.see x f 0 (x.key.getD []) = (.value base ls, d1) →
    (∀ len, viewLen (base.map fun b => b.2.2) ls = some len →
      Does (.existsKey c f) s fun e => e.Ended c Status.ok.code 0 len ∧ EndFrame c d1 e ∧ DataPlane s.dev e) ∧
    (viewLen (base.map fun b => b.2.2) ls = none →
      Does (.existsKey c f) s fun e => e.Ended c Status.notFound.code 0 0 ∧ EndFrame c d1 e ∧ DataPlane s.dev e)) ∧
  (∀ (s : State) (c : Nat) (f : List Finding) (x : Cmd) (a : ScanAt) (d1 : Dev) (sub : Nat) (i : Instr), s.Up →
    (sub, i) ∈ [(0, Instr.scanPfx c f), (1, .scanDigest c f)] →
    s.dev.findCmd c = some x → s.dev.runnable x Opcode.scan.code = true → x.body.subop = sub →
    ((s.dev.padSet x.body.pad).all fun k => s.dev.barnReached (k / 64)) = true →
    s.dev.scanStalls f x (x.body.ilen / 2 ^ 24) (x.body.ilen % 2 ^ 24) ((s.dev.padSet x.body.pad).drop (x.body.ilen / 2 ^ 24))
      { bytes := [], count := 0, stop := none } = (some a, d1) →
    (∃ recs : List Rec, a.bytes = recs.flatMap scanRecord ∧ a.count = recs.length ∧ ∀ r ∈ recs, x.selects r = true) ∧
    a.bytes.length ≤ x.body.length ∧
    Does i s fun e => DataPlane s.dev e ∧
      (∃ d2 : Dev, e = d2.sendOutput c ∧ ∃ y, d2.findCmd c = some y ∧ y.outLeft.flatMap OutPiece.bytes = a.bytes) ∧
      match a.stop with
      | none => e.Ended c Status.ok.code a.bytes.length (0xFFFFFFFF + 2 ^ 32 * a.count)
      | some cur => e.Ended c Status.truncated.code a.bytes.length (cur + 2 ^ 32 * a.count))

/-- GATHER, once its list has arrived, is well formed, and each of its keys has been looked up and its bytes are there, completes with
ST_NOT_FOUND where a key is absent, else ST_TRUNCATED where a value is too short, else ST_OK; BYTES counts the bytes read, or the shape's,
and the presence bitmap, and INFO the keys found and those too short (R319–R324, R424). -/
def Obligations.GatherEnds : Prop :=
  ∀ (s : State) (c : Nat) (f : List Finding) (x y : Cmd) (d1 : Dev) (bs : List (List Byte)) (ss : List (Option Seat)), s.Up →
    s.dev.findCmd c = some x → s.dev.ready x Opcode.gather.code = true → x.arrived = true → x.listBad = false →
    let ks := x.listed.getD []
    let idx := List.zip (List.range ks.length) ks
    let range := fun len => (x.body.offset, min len (x.body.offset + x.body.length))
    let d0 := if x.keyRecs.isEmpty then s.dev.updCmd c fun z => { z with keyRecs := ks.map fun _ => none } else s.dev
    d0.lookKeys c f range idx = (none, d1) → d1.findCmd c = some y → y.keyRecs.any Option.isNone = false →
    d1.seats y range idx = (.done bs, ss) →
    let found := (ss.filter Option.isSome).length
    let short := (ss.filter fun z => z.any fun v => decide (v.r.len < x.body.offset + x.body.length)).length
    let st := if found < ss.length then Status.notFound.code else if short ≠ 0 then Status.truncated.code else Status.ok.code
    (x.shape = none → Does (.gather c f) s fun e =>
      e.Ended c st ((ss.map fun z => ((z.map Seat.bytes).getD []).length).sum + 32) (found + 2 ^ 16 * short) ∧ DataPlane s.dev e) ∧
    (∀ sh, x.shape = some sh → d1.macWaits sh.usesMac (sh.workBarns (ss.map fun z => z.bind Seat.stall) (d1.gatherBags x sh)) = false →
      Does (.gather c f) s fun e => e.Ended c st (sh.outBytes (sh.outRows ss.length) + 32) (found + 2 ^ 16 * short) ∧
        DataPlane s.dev e)

/-- SCORE of either kind, once its list has arrived, is well formed, and each of its pages has been looked up, is there and has the right
length, completes with ST_OK, or ST_NOT_FOUND where a key is absent; BYTES is the length of its output and INFO counts the keys found and
absent (R325–R330). A page of another length ends it with ST_BAD_SHAPE. -/
def Obligations.ScoreEnds : Prop :=
  ∀ (s : State) (c : Nat) (f : List Finding) (x y : Cmd) (sh : Shape) (d1 : Dev) (got : Fetched) (ss : List (Option Seat)) (sub : Nat)
    (i : Instr), s.Up → (sub, i) ∈ [(0, Instr.scoreTopk c f), (1, .scoreTokens c f)] →
    s.dev.findCmd c = some x → s.dev.ready x Opcode.score.code = true → x.body.subop = sub → x.arrived = true →
    x.listBad = false → x.shape = some sh →
    let ks := x.listed.getD []
    let idx := List.zip (List.range ks.length) ks
    let range := fun len => (0, len)
    let d0 := if x.keyRecs.isEmpty then s.dev.updCmd c fun z => { z with keyRecs := ks.map fun _ => none } else s.dev
    d0.lookKeys c f range idx = (none, d1) → d1.findCmd c = some y → y.keyRecs.any Option.isNone = false →
    d1.seats y range idx = (got, ss) →
    let absent := (ss.filter Option.isNone).length
    let wrong := ss.any fun z => z.any fun v => v.r.len != sh.pageLen
    (wrong = true → Does i s fun e =>
      e.Ended c Status.badShape.code (if y.body.isWrite then y.gotBytes else y.sent) (d1.infoNow y) ∧ DataPlane s.dev e) ∧
    (wrong = false → ∀ bs, got = .done bs →
      d1.macWaits true (ss.flatMap fun z => (z.map fun v => v.r.barns (d1.homeOf x.body.pad v.r.key)).getD []) = false →
      Does i s fun e => e.Ended c (if absent = 0 then Status.ok.code else Status.notFound.code) (scoreOutput x sh ss).length
        (ss.length - absent + 2 ^ 16 * absent) ∧ DataPlane s.dev e)

/-! ### Writes -/

/-- PUT, PUT_RANGE and APPEND, once their bytes have arrived and there is room, complete with BYTES the bytes received and INFO as
R303–R306 say: a PUT the length replaced (all ones for a new key), a PUT_RANGE the new length, an APPEND the offset it wrote at. The
status is ST_OK; a write to a DURABLE paddock first waits for its shed work (R386), and fails with ST_MEDIA_ERROR where that can never
be done. A PUT with IF_ABSENT of a live key ends with ST_EXISTS and a PUT_RANGE beyond the value with ST_BAD_LENGTH, INFO the value's
length; a PUT_RANGE of an absent key with ST_NOT_FOUND. A write whose write-buffer data cannot be read (R669) is not among these. -/
def Obligations.WritesStore : Prop :=
  ∀ (s : State) (c : Nat) (f : List Finding) (x : Cmd), s.Up → s.dev.findCmd c = some x → x.arrived = true → s.dev.mayStore x = true →
    let pad := x.body.pad
    let key := x.key.getD []
    let home := homeStall (s.dev.padSet pad) (keyDigest key)
    s.dev.barnStopped (home / 64) = false →
    let stores := fun (d1 d2 : Dev) (loc : Option Loc) (w : WritePlan) (base : Nat) (r : Rec) =>
      d1.store pad home key loc none x.made x.commit w = .ok r d2 ∧
        poisonedSegs w.len base x.wbBase x.need ((d2.towCommit x r w base).readWb f x).1 = []
    let done := fun (d2 : Dev) (r : Rec) (info : Nat) (e : Dev) =>
      DataPlane s.dev e ∧
      ∃ y, e.findCmd c = some y ∧ y.stage = .ended ∧ y.bytes = x.gotBytes ∧ y.info = info ∧
        ((d2.pad r.pad).persist ≠ persistDurable → x.job = none → y.status = Status.ok.code) ∧
        ((d2.pad r.pad).persist = persistDurable → y.job.isSome = true ∧ (y.status = Status.ok.code ∨ y.status = Status.mediaError.code))
    (s.dev.runnable x Opcode.put.code = true →
      (∀ h d1 r d2, s.dev.findFor x f = (.absent h, d1) → stores d1 d2 none (wholePlan x.input) 0 r →
        Does (.put c f) s (done d2 r infoAbsent)) ∧
      (∀ h loc o d1 r d2, s.dev.findFor x f = (.hit h loc o, d1) → x.body.ifAbsent = false →
        stores d1 d2 (some loc) (wholePlan x.input) 0 r → Does (.put c f) s (done d2 r o.len)) ∧
      (∀ h loc o d1, s.dev.findFor x f = (.hit h loc o, d1) → x.body.ifAbsent = true →
        Does (.put c f) s fun e => e.Ended c Status.keyExists.code x.gotBytes o.len ∧ e.stalls = d1.stalls ∧ DataPlane s.dev e)) ∧
    (s.dev.runnable x Opcode.putRange.code = true → x.awaits = false →
      (∀ h d1, s.dev.findFor x f = (.absent h, d1) → Does (.putRange c f) s fun e => e.Ended c Status.notFound.code x.gotBytes 0 ∧
        DataPlane s.dev e) ∧
      (∀ h loc o d1, s.dev.findFor x f = (.hit h loc o, d1) →
        (o.len < x.body.offset ∨ maxValue < x.body.offset + x.body.length →
          Does (.putRange c f) s fun e => e.Ended c Status.badLength.code x.gotBytes o.len ∧ e.stalls = d1.stalls ∧ DataPlane s.dev e) ∧
        (¬ (o.len < x.body.offset ∨ maxValue < x.body.offset + x.body.length) → x.plan = none → ∀ fet d2 bs r d3,
          let parts := oldSegs o.len x.body.offset (x.body.offset + x.body.length)
          d1.fetchSegs c f home loc o parts [] = (fet, d2) → fetchedOf fet o parts = .done bs →
          stores (d2.updCmd c fun v => { v with plan := some o, fetches := fet, searching := true }) d3 (some loc)
            (rangePlan o.len x.body.offset x.input parts bs) x.body.offset r →
          Does (.putRange c f) s (done d3 r (max o.len (x.body.offset + x.body.length)))))) ∧
    (s.dev.runnable x Opcode.append.code = true → x.awaits = false →
      (∀ h d1 r d2, s.dev.findFor x f = (.absent h, d1) → stores d1 d2 none (wholePlan x.input) 0 r →
        Does (.append c f) s (done d2 r 0)) ∧
      (∀ h loc o d1, s.dev.findFor x f = (.hit h loc o, d1) → x.plan = none → ¬ maxValue < o.len + x.body.length → ∀ fet d2 bs r d3,
        let parts := oldSegs o.len o.len (o.len + x.body.length)
        d1.fetchSegs c f home loc o parts [] = (fet, d2) → fetchedOf fet o parts = .done bs →
        stores (d2.updCmd c fun v => { v with plan := some o, fetches := fet, searching := true }) d3 (some loc)
          (rangePlan o.len o.len x.input parts bs) o.len r →
        Does (.append c f) s (done d3 r o.len)))

/-- DELETE of a live key completes with ST_OK and the length deleted in INFO, after its record where the paddock is DURABLE, and fails with
ST_MEDIA_ERROR where that can never be written; the key's entry is left, if at all, only as one whose storage awaits its release; an
absent key gives ST_NOT_FOUND (R42, R310, R386, R525). -/
def Obligations.DeleteEnds : Prop :=
  ∀ (s : State) (c : Nat) (f : List Finding) (x : Cmd), s.Up → s.dev.findCmd c = some x → s.dev.runnable x Opcode.delete.code = true →
    let pad := x.body.pad
    let home := homeStall (s.dev.padSet pad) (keyDigest (x.key.getD []))
    s.dev.barnStopped (home / 64) = false →
    (∀ h d1, s.dev.find f pad (x.key.getD []) = (.absent h, d1) →
      Does (.delete c f) s fun e => e.Ended c Status.notFound.code 0 0 ∧ EndFrame c d1 e ∧ DataPlane s.dev e) ∧
    (∀ h loc r d1, s.dev.find f pad (x.key.getD []) = (.hit h loc r, d1) →
      Does (.delete c f) s fun e =>
        (∀ y, entryRec (e.stall home) loc = some y → y.st = 3) ∧ DataPlane s.dev e ∧
        ∃ y, e.findCmd c = some y ∧ y.stage = .ended ∧ y.bytes = 0 ∧ y.info = r.len ∧
          ((s.dev.pad pad).persist ≠ persistDurable → y.status = Status.ok.code) ∧
          ((s.dev.pad pad).persist = persistDurable → y.job.isSome = true ∧ (y.status = Status.ok.code ∨ y.status = Status.mediaError.code)))

/-! ### Admission and completion -/

/-- ADMIT_NEXT: the command the arbiter chooses, first the URGENT round robin under its cap, then the weighted round, takes the next
admission number, a command slot and its cost of the budget, and an URGENT one is charged to its window; a failed check ends the
command with the check's status; a flow left without a waiting command leaves the round, and with nothing to choose only the round is put
in order (R348, R369, R374–R379). -/
def Obligations.AdmitNextChooses : Prop :=
  ∀ s : State, s.Up →
    let d : Dev := { s.dev.rollWindow with arb := { s.dev.rollWindow.arb with round := s.dev.rollWindow.roundNow } }
    let pick := if d.arb.urgentUsed < d.urgentCap then d.pickUrgent else none
    let loop := d.weightedLoop (d.loopFuel d.arb.round) 0 d.arb.round
    let taken := fun (x : Cmd) (e : Dev) => e.admSeq = d.admSeq + 1 ∧
      ∃ y, e.findCmd x.id = some y ∧ y.slotHeld = true ∧ y.admSeq = d.admSeq ∧ y.cost = x.admitCost ∧ y.need = x.body.inbound
    let round := fun (x : Cmd) (n : Nat) (e : Dev) =>
      let paid := loop.2.map fun w => if w.1 = x.ses ∧ w.2.1 = x.cls then (w.1, w.2.1, w.2.2 - n) else w
      e.arb.round = paid.filter fun w => e.cmds.any fun k => k.stage == .waiting && k.ses == w.1 && k.cls == w.2.1
    (∀ x, pick = some x → (∀ sh, d.admitCheck x = .inr sh → DoesThen .admitNext s fun e =>
        taken x e ∧ e.arb.urgRr = x.ses ∧ e.arb.urgentUsed = d.arb.urgentUsed + x.admitCost) ∧
      ∀ st, d.admitCheck x = .inl st → DoesThen .admitNext s fun e =>
        e.Ended x.id st 0 0 ∧ e.arb.urgRr = x.ses ∧ e.arb.urgentUsed = d.arb.urgentUsed ∧ e.admSeq = d.admSeq) ∧
    (pick = none → ∀ x, loop.1 = some x →
      (∀ sh, d.admitCheck x = .inr sh → DoesThen .admitNext s fun e =>
        taken x e ∧ round x x.admitCost e ∧ e.arb.urgentUsed = d.arb.urgentUsed) ∧
      ∀ st, d.admitCheck x = .inl st → DoesThen .admitNext s fun e => e.Ended x.id st 0 0 ∧ round x 0 e ∧ e.admSeq = d.admSeq) ∧
    (pick = none → loop.1 = none →
      DoesThen .admitNext s fun e => e = ({ d with arb := { d.arb with round := loop.2 } } : Dev).leaveRound)

/-- COMPLETE: a command that may complete leaves the device; with TETH = 1 and a status that adds, its tether first gains TADD modulo
2^64, and no other counter changes; a completion without a path is counted in SES_LOST, and so is that of a command its session's fault lost (R194,
R216, R221, R387, R473–R476). Until it may complete nothing happens. -/
def Obligations.CompleteRetires : Prop :=
  ∀ (s : State) (c : Nat) (x : Cmd), s.Up → s.dev.findCmd c = some x →
    let adds := x.body.teth = true ∧ addsTether x.status = true
    (s.dev.completable x = true → DoesThen (.complete c) s fun e =>
      e.findCmd c = none ∧
      (adds → e.tether x.body.teth14 = s.dev.tether x.body.teth14 + BitVec.ofNat 64 x.body.tadd) ∧
      (∀ t, ¬ (adds ∧ t = x.body.teth14) → e.tether t = s.dev.tether t) ∧
      (x.faulted = true ∨ (s.dev.hasPath x.ses x.qp = false ∧ x.linkLost = false) → (s.dev.ses x.ses).st ≠ .closing →
        (e.ses x.ses).lost = sat1 (s.dev.ses x.ses).lost)) ∧
    (s.dev.completable x = false → exec (.complete c) s = .next (s.withDev s.dev.letGo))

/-- WBUF_ALLOCATE gives the command whose turn it is space for its next 1 MiB, and its turn passes; STORAGE_RELEASE takes a replaced
value off the list once none of its readers runs, and not before (R42, R361). GET_OUTPUT_RESUME charges the next 1 MiB of paused
output, which may then leave (R370). -/
def Obligations.SpaceAndOutputGoOn : Prop :=
  (∀ (s : State) (x : Cmd) (d1 : Dev), s.Up →
    ((s.dev.wbWaiting.findSome? fun i => (s.dev.findCmd i).bind fun c => if s.dev.stageHeld c then none else some c) = some x) →
    (({ s.dev with arb := { s.dev.arb with wbRound := s.dev.wbWaiting.filter (fun i => i != x.id) ++ [x.id] } } : Dev).wbGive x = some d1) →
    Does .wbufAllocate s fun e =>
      e.arb = { s.dev.arb with wbRound := s.dev.wbWaiting.filter (fun i => i != x.id) ++ [x.id] } ∧
      DataPlane s.dev e ∧ ∃ y, e.findCmd x.id = some y ∧ y.wbGiven = min x.need (x.wbGiven + 1048576)) ∧
  (∀ (s : State) (c : Nat) (x : Cmd), s.Up → s.dev.findCmd c = some x → x.outLeft ≠ [] → s.dev.held x.ses = false →
    (s.dev.ses x.ses).mayCharge s.dev.now = true → x.releasedTo < x.storedRead →
    Does (.getOutputResume c) s fun e => DataPlane s.dev e ∧ ∃ y, e.findCmd c = some y ∧
      y.releasedTo = x.releasedTo + min 1048576 (x.storedRead - x.releasedTo) ∧
      y.charged = x.charged + (if (s.dev.ses x.ses).rate = unshapedRate then 0 else min 1048576 (x.storedRead - x.releasedTo)) ∧
      (e.ses x.ses).bal = ((s.dev.ses x.ses).charge s.dev.now (min 1048576 (x.storedRead - x.releasedTo))).bal) ∧
  ∀ (s : State) (v : Nat) (o : OldVal), s.Up → s.dev.old.find? (fun o => o.id == v) = some o →
    let runs := o.readers.any fun i => (s.dev.findCmd i).any fun c => !(c.stage == .ended && c.status == Status.thermalHold.code)
    (runs = true → exec (.storageRelease v) s = .next s) ∧
    (runs = false → Does (.storageRelease v) s fun e =>
      e = { s.dev with old := s.dev.old.filter (fun y => y.id != v), stalls := e.stalls, shd := e.shd, nextId := e.nextId })

/-- Windows of the URGENT cap are consecutive 10,000 ns intervals of yard time, aligned to multiples of 10,000 ns: at the first moment
of a new one the use counted is 0 and ARB_UCAP applies (R377, R395). -/
def Obligations.UrgentWindowAligned : Prop :=
  ∀ s : State, s.Up →
    (s.dev.now < s.dev.arb.windowStart + 10000 → exec .urgentWindow s = .next s) ∧
    (s.dev.arb.windowStart + 10000 ≤ s.dev.now → ∃ w, w % 10000 = 0 ∧ w ≤ s.dev.now ∧ s.dev.now < w + 10000 ∧
      exec .urgentWindow s = .next (s.withDev { s.dev with arb := { s.dev.arb with
        windowStart := w, urgentUsed := 0, ucapNow := s.dev.arb.ucapPct } }))


/-! ### Packets -/

/-- A COMMAND that parses, on an ACTIVE push-mode queue pair, becomes the newest waiting command with the fields of its body and headers,
and its credits come back; with 64 pending places in use it stays in the receive buffer and keeps its credits; a second one with an
outstanding TAG, or one for another kind of queue pair, adds no command (R146, R261, R262, R264, R367, R924). -/
def Obligations.CommandPacket : Prop :=
  ∀ (s : State) (n : Nat) (vc : Vc) (f : List Byte), s.Up → s.RxEmpty → (s.dev.link n).st = .active → frameTyp f = 0x01 →
    s.dev.parse n vc f = .ok →
    let q := dqp (frameSes f) (frameQp f)
    let take := (s.dev.qp q).takesPackets
    let dup := (s.dev.pushCmd (frameSes f) (frameQp f) (frameTag f)).isSome
    let full := 64 ≤ s.dev.pendUsed (frameSes f)
    (take = true → dup = false → ¬ full → Does (.command n vc f) s fun e =>
      e.cmds = s.dev.cmds ++ [s.dev.mkCmd s.dev.nextId (frameSes f) (frameQp f) .push (vc == .urg) (frameTag f)
        (parseBody (framePayload f)) (frameHdrs f) .waiting none] ∧
      (e.link n).rxSeq = ((s.dev.link n).rxSeq + 1) % 65536 ∧ (e.link n).rxHold = [] ∧ Freed s.dev e n vc f.length ∧
      e = { s.dev with cmds := e.cmds, links := e.links, nextId := s.dev.nextId + 1, subSeq := s.dev.subSeq + 1 }) ∧
    (take = true → dup = false → full → Does (.command n vc f) s fun e =>
      (e.link n).rxHold = [{ vc := vc, frame := f, counts := true, parsed := true }] ∧
      credGet (e.link n).freed vc = credGet (s.dev.link n).freed vc ∧ e = { s.dev with links := e.links }) ∧
    (take = false ∨ dup = true → Does (.command n vc f) s fun e => e.cmds.length = s.dev.cmds.length ∧ e.subSeq = s.dev.subSeq)

/-- DATA for an admitted push-mode command whose bytes have not all arrived is taken when it lies in its grants and repeats no byte, and
ends the command with ST_BAD_LENGTH otherwise; DATA for no such command is counted as stray (R284–R289). -/
def Obligations.DataPacket : Prop :=
  ∀ (s : State) (n : Nat) (vc : Vc) (f : List Byte), s.Up → s.RxEmpty → (s.dev.link n).st = .active → frameTyp f = 0x04 →
    s.dev.parse n vc f = .ok → (s.dev.qp (dqp (frameSes f) (frameQp f))).takesPackets = true →
    let found := s.dev.pushCmd (frameSes f) (frameQp f) (frameTag f)
    let off := frameArg f % 2 ^ 37
    let b := framePayload f
    (∀ x, found = some x → s.dev.findCmd x.id = some x → x.stage = .admitted → x.arrived = false →
      (inGrants x.grants 5 off b.length = true → notGot x.got off b.length = true → Does (.data n vc f) s fun e =>
        ∃ y, e.findCmd x.id = some y ∧ y.got = x.got ++ [{ off := off, bytes := b }] ∧ y.gotBytes = x.gotBytes + b.length ∧ DataPlane s.dev e) ∧
      ((inGrants x.grants 5 off b.length && notGot x.got off b.length) = false → Does (.data n vc f) s fun e =>
        e.Ended x.id Status.badLength.code (if x.body.isWrite then x.gotBytes else x.sent) (s.dev.infoNow x) ∧ OtherCmds x.id s.dev e ∧
        e.stalls = s.dev.stalls)) ∧
    ((∀ x, found = some x → x.stage ≠ .admitted ∨ x.arrived = true) → Does (.data n vc f) s fun e =>
      e = { s.dev with arb := { s.dev.arb with dstray := sat1 s.dev.arb.dstray }, links := e.links })

/-- A NUDGE on an ACTIVE ring-mode queue pair reads its doorbell words, or asks for one more read after the one in flight; elsewhere it
is counted (R241–R243, R264). -/
def Obligations.NudgePacket : Prop :=
  ∀ (s : State) (n : Nat) (vc : Vc) (f : List Byte), s.Up → s.RxEmpty → (s.dev.link n).st = .active → frameTyp f = 0x06 →
    s.dev.parse n vc f = .ok →
    let q := dqp (frameSes f) (frameQp f)
    let ring := (s.dev.qp q).st = .active ∧ (s.dev.qp q).ctx.push = false
    (ring → (s.dev.qp q).dbBusy = false → Does (.nudge n vc f) s fun e =>
      (e.qp q).dbBusy = true ∧ (∀ k, k ≠ q → e.qp k = s.dev.qp k) ∧ e.stalls = s.dev.stalls ∧
      ∃ r ∈ e.reads, r.what = .doorbell q ∧ r.addr = (s.dev.qp q).ctx.dbAddr ∧ r.len = 8) ∧
    (ring → (s.dev.qp q).dbBusy = true → Does (.nudge n vc f) s fun e => (e.qp q).dbAgain = true ∧
      (∀ k, k ≠ q → e.qp k = s.dev.qp k) ∧ e = { s.dev with qps := e.qps, links := e.links, sessions := e.sessions }) ∧
    (¬ ring → Does (.nudge n vc f) s fun e => (e.ses (q / 64)).nudge = satAdd 16 (s.dev.ses (q / 64)).nudge 1 ∧
      e = { s.dev with sessions := e.sessions, links := e.links })

/-- READ_DATA for an outstanding READ answers it: a context block that R234 admits makes its queue pair ACTIVE, another puts it in ERROR
with code 2; bytes pulled for an admitted command join its input. READ_DATA for none is counted (R228, R232–R234, R291, R921). -/
def Obligations.ReadDataPacket : Prop :=
  ∀ (s : State) (n : Nat) (vc : Vc) (f : List Byte), s.Up → s.RxEmpty → (s.dev.link n).st = .active → frameTyp f = 0x08 →
    s.dev.parse n vc f = .ok →
    let b := framePayload f
    (∀ r q, s.dev.matchRead f = some r → r.what = .context q → (s.dev.qp q).st = .idle → (s.dev.qp q).enable = true →
      Does (.readData n vc f) s fun e => e.reads = s.dev.reads.filter (fun x => x.tag != r.tag) ∧
        e = { s.dev with reads := e.reads, qps := e.qps, links := e.links } ∧ (∀ k, k ≠ q → e.qp k = s.dev.qp k) ∧
        (ctxOk b (s.dev.ses (q / 64)).pcie = true → (e.qp q).st = .active ∧ (e.qp q).enable = true ∧
          ((parseCtx b).push = false → (e.qp q).ctx = parseCtx b)) ∧
        (ctxOk b (s.dev.ses (q / 64)).pcie = false → (e.qp q).st = .error ∧ (e.qp q).err = 2)) ∧
    (∀ r c off x, s.dev.matchRead f = some r → r.what = .value c off → s.dev.findCmd c = some x → x.stage = .admitted →
      Does (.readData n vc f) s fun e => ∃ y, e.findCmd c = some y ∧ y.got = x.got ++ [{ off := off, bytes := b }] ∧
        y.gotBytes = x.gotBytes + b.length ∧ e.qps = s.dev.qps ∧ e.tth.counters = s.dev.tth.counters) ∧
    (s.dev.matchRead f = none → Does (.readData n vc f) s fun e =>
      (e.ses (frameSes f)).stray = satAdd 16 (s.dev.ses (frameSes f)).stray 1 ∧
      e = { s.dev with sessions := e.sessions, links := e.links })

/-- A CONFIG reads or writes the register its ARG names, on its link's own path, and is answered on that link with a CONFIG_RSP of the
same TAG that carries the word; an offset that is not a register's reads 0 and writes nothing; while one answer waits the next CONFIG
is set aside and its credits come back (R150, R832–R834; that it gives its place in the receive buffer up is the model's choice, log 70). -/
def Obligations.ConfigPacket : Prop :=
  ∀ (s : State) (n : Nat) (vc : Vc) (f : List Byte), s.Up → s.RxEmpty → (s.dev.link n).st = .active → frameTyp f = 0x0A →
    s.dev.parse n vc f = .ok →
    ((s.dev.link n).queue.any (fun p => p.owner == .configRsp) = true → Does (.config n vc f) s fun e =>
      (e.link n).rxHold = [{ vc := vc, frame := f, counts := false, parsed := true }] ∧ Freed s.dev e n vc f.length ∧
      e = { s.dev with links := e.links }) ∧
    ((s.dev.link n).queue.any (fun p => p.owner == .configRsp) = false → Does (.config n vc f) s fun e =>
      ∃ d1 : Dev, d1 = { s.dev with links := d1.links } ∧
        let off := frameArg f % 2 ^ 32
        let w := if offsetOk off && !bit (frameArg f) 32 then (d1.regRead (.link n) off).1 else 0
        let d2 := if !offsetOk off then d1
          else if bit (frameArg f) 32 then (d1.regWrite (.link n) off (BitVec.ofNat 32 (leNat (framePayload f)))).wakeHeld
          else (d1.regRead (.link n) off).2
        e = { d2 with links := e.links, out := e.out, reads := e.reads, cmds := e.cmds } ∧
        ((d2.link n).st = .active → ∃ p : Pkt, p.typ = 0x0B ∧ p.tag = frameTag f ∧ p.arg = frameArg f ∧ p.payload = natLe 4 w.toNat ∧
          (p ∈ (e.link n).queue ∨ p ∈ (e.link n).unacked.map TxFrame.pkt)))

/-- A REJECT of a READ that pulled for a command, or of a WRITE that carried a command's output, ends the command with ST_ABORTED; one that
names neither a READ nor a WRITE is counted (R163). A packet that the parser rejects is answered with a REJECT that names its type and the
FX code, is kept in LNK_LASTREJ and counted; one that it drops is counted; either gives its credits back, and no register changes (R146,
R162, R169–R171). -/
def Obligations.RejectPackets : Prop :=
  (∀ (s : State) (n : Nat) (vc : Vc) (f : List Byte), s.Up → s.RxEmpty → (s.dev.link n).st = .active → frameTyp f = 0x0C →
    s.dev.parse n vc f = .ok →
    let t := bits (frameArg f) 8 8
    (∀ r c off x, t = 0x07 → s.dev.reads.find? (fun r => r.tag == frameTag f && !(s.dev.ses r.ses).pcie) = some r → r.what = .value c off →
      s.dev.findCmd c = some x → Does (.reject n vc f) s fun e =>
        e.Ended c Status.aborted.code (if x.body.isWrite then x.gotBytes else x.sent) (s.dev.infoNow x)) ∧
    (∀ w c x, t = 0x09 → s.dev.writes.find? (fun w => w.tag == frameTag f) = some w → w.cmd = some c → s.dev.findCmd c = some x →
      ¬ (x.stage = .ended ∧ addsTether x.status = false) → Does (.reject n vc f) s fun e =>
        e.Ended c Status.aborted.code (if x.body.isWrite then x.gotBytes else x.sent - w.len) (s.dev.infoNow x)) ∧
    (t ≠ 0x07 → t ≠ 0x09 → Does (.reject n vc f) s fun e =>
      (e.link n).cnt.inRej = sat1 (s.dev.link n).cnt.inRej ∧ e = { s.dev with links := e.links })) ∧
  (∀ (s : State) (n : Nat) (vc : Vc) (f : List Byte), s.Up → s.RxEmpty → (s.dev.link n).st = .active →
    (s.dev.parse n vc f = .drop → Does (.rejectedPacket n vc f) s fun e =>
      (e.link n).cnt.drop = sat1 (s.dev.link n).cnt.drop ∧ Freed s.dev e n vc f.length ∧ e = { s.dev with links := e.links }) ∧
    (∀ code, s.dev.parse n vc f = .reject code → Does (.rejectedPacket n vc f) s fun e =>
      (e.link n).lastRejType = frameTyp f ∧ (e.link n).lastRejCode = code ∧ Freed s.dev e n vc f.length ∧
      e.glb = s.dev.glb ∧ e.sessions = s.dev.sessions ∧ e.qps = s.dev.qps ∧ e.cmds.length = s.dev.cmds.length ∧
      (frameTyp f ≠ 0x0C → (s.dev.link n).rejectsWaiting < 16 →
        (e.link n).cnt.reject = sat1 (s.dev.link n).cnt.reject ∧
        ∃ p : Pkt, p.typ = 0x0C ∧ p.tag = frameTag f ∧ p.arg = code + 256 * frameTyp f ∧
          (p ∈ (e.link n).queue ∨ p ∈ (e.link n).unacked.map TxFrame.pkt)) ∧
      (frameTyp f ≠ 0x0C → 16 ≤ (s.dev.link n).rejectsWaiting →
        (e.link n).cnt.rejSup = sat1 (s.dev.link n).cnt.rejSup ∧ (e.link n).cnt.reject = (s.dev.link n).cnt.reject)))

/-! ### Links -/

/-- Each virtual channel sends its packets in order, and none without credit or replay room: the packet picked is the first of its
channel, the others stay in order, its cost fits the credit of its channel, and 1,024 frames or 131,072 bytes are never exceeded
(R141, R144, R145, R147). -/
def Obligations.PacketsKeepOrderAndCredit : Prop :=
  ∀ (l : Link) (q : List Pkt) (p : Pkt) (rest : List Pkt), pickPkt l [] q = some (p, rest) →
    ∃ pre post, q = pre ++ p :: post ∧ rest = pre ++ post ∧ (∀ x ∈ pre, x.vc ≠ p.vc) ∧
      creditCost (pktLen p l.pexts) ≤ l.credit p.vc ∧ l.unacked.length < 1024 ∧ l.unackedBytes + pktLen p l.pexts ≤ 131072

/-- FRAME_DISCARD on an ACTIVE link sends one NAK that names the number expected, and no second one before that frame arrives; a failed
block is counted (R134, R138). LINK_CONTROL_SEND sends the link-control fields when they have changed or 1 µs has passed (R136, R142). -/
def Obligations.LinkControl : Prop :=
  (∀ (s : State) (n : Nat) (why : Discard), s.Up → (s.dev.link n).st = .active → (∀ q, why = .badSeq q → q % 65536 ≠ (s.dev.link n).rxSeq) →
    Does (.frameDiscard n why) s fun e =>
      (e.link n).nakOut = true ∧ (e.link n).rxSeq = (s.dev.link n).rxSeq ∧
      (e.link n).cnt = (if why = .badBlock then { (s.dev.link n).cnt with fecUnc := sat1 (s.dev.link n).cnt.fecUnc } else (s.dev.link n).cnt) ∧
      e.out = s.dev.out ++ (if (s.dev.link n).nakOut then [] else [.control n (nakBlock (s.dev.link n).rxSeq (s.dev.link n).ctl)]) ∧
      (∀ m, m ≠ n → e.link m = s.dev.link m) ∧ e = { s.dev with links := e.links, out := e.out }) ∧
  ∀ (s : State) (n : Nat), s.Up →
    let l := s.dev.link n
    let due := l.st = .active ∧ (l.ctlDirty = true ∨ l.ctlAt + 1000 ≤ s.dev.now)
    (due → exec (.linkControlSend n) s = .next (s.withDev
      { s.dev with links := SMap.put s.dev.links n { l with ctlDirty := false, ctlAt := s.dev.now }, out := s.dev.out ++ [.control n (idleBlock l.ctl)] })) ∧
    (¬ due → exec (.linkControlSend n) s = .next s)

/-- The link state machine's steps that need no partner: TRAIN to ALIGN when training completes, ALIGN to CAPX at block lock, DOWN to TRAIN 1 ms
after entry while ENABLE is 1 and a path is there (R180, R183). TRAIN lasts at most 500 ms, ALIGN and CAPX at most 10 ms each: the link then
goes DOWN with reason 1, 2 or 3 and EV_LINK_DOWN is recorded; before that nothing happens (R180, R837, R842). -/
def Obligations.LinkStateSteps : Prop :=
  (∀ (s : State) (n : Nat), s.Up →
    let l := s.dev.link n
    let put := fun (x : Link) => s.withDev { s.dev with links := SMap.put s.dev.links n x }
    exec (.pmdTrainingComplete n) s = .next (if l.st = .train then put { l with st := .align, since := s.dev.now } else s) ∧
    exec (.alignLock n) s = .next (if l.st = .align then
      put { l with st := .capx, since := s.dev.now, capGot := false, capSentAck := false, capBlk := [], capAt := s.dev.now } else s) ∧
    exec (.linkRestart n) s = .next (if l.st = .down ∧ l.enable = true ∧ l.reason ≠ DownReason.noPath.code ∧ s.dev.linksOn = true ∧
      l.since + 1000000 ≤ s.dev.now then put { l with st := .train, since := s.dev.now } else s)) ∧
  (∀ (s : State) (n : Nat), s.Up →
    ∀ i ∈ [(Instr.trainTo n, LinkSt.train, 500, 1), (.alignTo n, .align, 10, 2), (.capxTo n, .capx, 10, 3)],
      let l := s.dev.link n
      let due := l.st = i.2.1 ∧ l.since + i.2.2.1 * 1000000 ≤ s.dev.now
      (¬ due → exec i.1 s = .next s) ∧
      (due → Does i.1 s fun e =>
        e.link n = { l with st := .down, reason := i.2.2.2, since := s.dev.now } ∧ (∀ m, m ≠ n → e.link m = s.dev.link m) ∧
        e.evq.staged = s.dev.evq.staged ++
          [{ stamp := s.dev.now % 2 ^ 64, code := 0x0012, source := 0x300 + n, seq := s.dev.evq.seq, d0 := i.2.2.2, d1 := 0, d2 := 0 }] ∧
        e = { s.dev with links := e.links, evq := e.evq }))

/-- A NAK, or 2 µs without progress, sends the unacknowledged frames again from the one named, in order and at no cost in credit; a frame
that has been sent again eight times takes the link DOWN with reason 8 (R139, R140, R143, R145). -/
def Obligations.ReplayOrDown : Prop :=
  ∀ (s : State) (n seq : Nat), s.Up →
    let l := s.dev.link n
    l.st = .active →
    ∀ i ∈ [(Instr.nak n seq, splitSeq seq l.unacked), (.replayTimeout n, ([], l.unacked))],
      i.2.2 ≠ [] → (i.1 = .replayTimeout n → l.ackAt + 2000 ≤ s.dev.now) →
      ((∀ f ∈ i.2.2, f.tries < 8) → DoesThen i.1 s fun e =>
        (e.link n).unacked = i.2.1 ++ i.2.2.map (fun f => { f with tries := f.tries + 1 }) ∧ (e.link n).used = l.used ∧
        (e.link n).st = .active ∧ (e.link n).cnt.replay = min (l.cnt.replay + i.2.2.length) (2 ^ 32 - 1) ∧
        e.out = s.dev.out ++ i.2.2.map (fun f =>
          .frame n (frameBlocks f.pkt.vc f.seq (encodePkt f.pkt (s.dev.srcOf n) l.pexts) l.ctl)) ∧
        e = { s.dev with links := e.links, out := e.out }) ∧
      ((∃ f ∈ i.2.2, 8 ≤ f.tries) → DoesThen i.1 s fun e => (e.link n).st = .down ∧ (e.link n).reason = 8)

/-- An ACK takes the frames up to the one named off the replay list, gives back the credits its FREED counts name, and marks the READs
among them as acknowledged; what waited may then be sent (R139, R141, R147, R229). -/
def Obligations.AckFrees : Prop :=
  ∀ (s : State) (n seq : Nat) (freed : Cred), s.Up → (s.dev.link n).st = .active →
    let x := splitSeq seq (s.dev.link n).unacked
    let left := if x.2 = [] then (s.dev.link n).unacked else x.2.drop 1
    DoesThen (.ack n seq freed) s fun e =>
      (e.link n).partnerFreed = freed ∧ (e.link n).st = .active ∧ (∃ more, (e.link n).unacked = left ++ more) ∧
      (x.2 ≠ [] → ∀ f ∈ x.1 ++ x.2.take 1, ∀ t, f.pkt.owner = .read t → ∀ r ∈ e.reads, r.tag = t → r.acked = true)

/-- A DOWN block from the partner, or the loss of lock, takes an ACTIVE link DOWN with reason 9 or 7: it is counted, and what it held goes
to other links, into holds, or back to its sessions (R180, R181, R185, R186). -/
def Obligations.ActiveLinkLost : Prop :=
  ∀ (s : State) (n : Nat), s.Up → (s.dev.link n).st = .active →
    ∀ i ∈ [(Instr.down n, 9), (.lockLost n, 7)], DoesThen i.1 s fun e =>
      (e.link n).st = .down ∧ (e.link n).reason = i.2 ∧ (e.link n).since = s.dev.now ∧
      (e.link n).cnt.down = sat1 (s.dev.link n).cnt.down ∧ (e.link n).queue = [] ∧ (e.link n).unacked = [] ∧
      ∃ v ∈ e.evq.staged, v.code = 0x0012 ∧ v.source = 0x300 + n ∧ v.d0 = i.2

/-- CAP: a block in CAPX with a right CRC and another major version, the wrong role or credits outside the limits takes the link DOWN with
reason 4, 5 or 6; an acceptable one with ACK = 1, once one with ACK = 1 was sent and the coordinate is valid, makes it ACTIVE with the
partner's values and fresh sequence numbers (R152, R174, R177, R182). CAP_SEND sends the KS-480's own block every 1 µs once it has an
epoch (R174, R175, R637). -/
def Obligations.CapabilityExchange : Prop :=
  (∀ (s : State) (n : Nat) (block : List Byte), s.Up → (s.dev.link n).st = .capx → (parseCap block).crcOk = true →
    let c := parseCap block
    let bad := if c.major ≠ 1 then 4 else if c.role = false then 5 else if !capCreditsOk c.cred || c.maxLen != 8448 then 6 else 0
    (bad ≠ 0 → DoesThen (.cap n block) s fun e => (e.link n).st = .down ∧ (e.link n).reason = bad) ∧
    (bad = 0 → c.ack = true → (s.dev.link n).capSentAck = true → (s.dev.lnkc.valid = true ∨ c.offer ≠ 0xFFFFFFFF) → block ≠ [] →
      DoesThen (.cap n block) s fun e =>
        (e.link n).st = .active ∧ (e.link n).pcoord = c.coord ∧ (e.link n).pepoch = c.epoch ∧ (e.link n).pcred = c.cred ∧
        (e.link n).urg = c.urg ∧ (e.link n).rxSeq = 0 ∧ (e.link n).since = s.dev.now)) ∧
  ∀ (s : State) (n : Nat), s.Up → (s.dev.link n).st = .capx → s.dev.lnkc.epoch ≠ 0 →
    (s.dev.now < (s.dev.link n).capAt → exec (.capSend n) s = .next (s.withDev s.dev.letGo)) ∧
    ((s.dev.link n).capAt ≤ s.dev.now → DoesThen (.capSend n) s fun e =>
      (e.link n).capAt = s.dev.now + 1000 ∧ ∃ more, e.out = s.dev.out ++
        .control n (capBlock (ownCap (s.dev.link n).capGot (s.dev.capCoord n) s.dev.lnkc.epoch)) :: more)

/-- At its deadline a hold ends: the session holds nothing, none of its READs is left, and every queue pair of it is in ERROR with code 4;
before it nothing happens (R191, R267). -/
def Obligations.HoldDeadline : Prop :=
  ∀ (s : State) (x : Nat) (h : Hold), s.Up → (s.dev.ses x).hold = some h →
    (s.dev.now < h.deadline → exec (.holdDeadline x) s = .next (s.withDev s.dev.letGo)) ∧
    (h.deadline ≤ s.dev.now → (s.dev.ses x).st = .opened → DoesThen (.holdDeadline x) s fun e =>
      (e.ses x).hold = none ∧ (e.ses x).st = .opened ∧ (∀ r ∈ e.reads, r.ses ≠ x) ∧
      ∀ q, q / 64 = x → (e.qp q).st = .error ∧ (e.qp q).err = 4)

/-- FLIT_NAK: the flits that the sender has kept, from the failed one on, are sent again in order; the eighth failure in a row of one flit
takes its bundle out of service and records EV_BND_OUT (R106, R108, R842). -/
def Obligations.FlitReplay : Prop :=
  ∀ (s : State) (b : Nat) (toDie : Bool) (seq : Nat), s.Up → b < 88 → s.dev.bundleIn b = true →
    let x := SMap.get s.dev.bundles (2 * b + b2n toDie) BundleTx.reset
    let fails := if x.seq = seq then x.fails + 1 else 1
    let again := x.kept.filter fun f => decide ((f.2.seq + 65536 - seq % 65536) % 65536 < 32768)
    (fails < 8 → DoesThen (.flitNak b toDie seq) s fun e =>
      e = { s.dev with
        bundles := SMap.put s.dev.bundles (2 * b + b2n toDie) { x with fails := fails, seq := seq, kept := again.map fun f => (s.dev.now, f.2) },
        out := s.dev.out ++ [.flitReplay b toDie seq (again.map fun f => f.2.bytes)] }) ∧
    (8 ≤ fails → (b < 64 ∨ ((List.range 12).any fun i => 64 + (b - 64) / 12 * 12 + i != b && s.dev.bundleIn (64 + (b - 64) / 12 * 12 + i)) = true) →
      s.dev.dieOk (bundleDie b) = true →
      DoesThen (.flitNak b toDie seq) s fun e => (b < s.dev.bru.bundles.length → e.bundleIn b = false) ∧
        ∃ v ∈ e.evq.staged, v.code = 0x0010 ∧ v.source = 0x380 + b ∧ v.d0 = seq)

/-! ### Sessions and queue pairs -/

/-- NOTIFY announces the entries whose WRITEs are acknowledged: one at a time with NOTIFY = 1, NCOUNT or more together with NOTIFY = 2, and
with NOTIFY = 2 whatever has waited NTIME (R226, R257); what it announces is no longer unannounced. SWEEP visits a queue pair once per
interval and reads its doorbell (R247). -/
def Obligations.NotifyAndSweep : Prop :=
  (∀ (s : State) (q : Nat), s.Up → s.dev.noticePath (q / 64) (q % 64) = true →
    let x := s.dev.qp q
    let n := (s.dev.announceable q).length
    0 < n →
    (x.ctx.notify = 1 → Does (.notify q) s fun e => (e.qp q).unann = x.unann.drop 1) ∧
    (x.ctx.notify = 2 → x.ctx.ncount ≤ n → Does (.notify q) s fun e => (e.qp q).unann = x.unann.drop n) ∧
    (x.ctx.notify = 2 → n < x.ctx.ncount → exec (.notify q) s = .next s) ∧
    (x.ctx.notify = 2 → x.ctx.ntime ≠ 0 → (∀ v ∈ x.unann.head?, v.2.1 + x.ctx.ntime * 1000 ≤ s.dev.now) →
      Does (.ntimeExpiry q) s fun e => (e.qp q).unann = x.unann.drop n)) ∧
  ∀ (s : State) (q : Nat), s.Up → (s.dev.swept.any fun x => x.1 == q) = true → s.dev.arb.sweepUs ≠ 0 →
    (s.dev.now < (s.dev.qp q).sweptAt + s.dev.sweepEffective * 1000 → exec (.sweep q) s = .next s) ∧
    ((s.dev.qp q).sweptAt + s.dev.sweepEffective * 1000 ≤ s.dev.now →
      (if s.dev.arb.sweepUsAt = s.dev.now / 1000 then s.dev.arb.sweptInUs else 0) < s.dev.sweepRate →
      Does (.sweep q) s fun e => (e.qp q).sweptAt = s.dev.now ∧ (e.qp q).dbBusy = true ∧
        ((s.dev.qp q).dbBusy = false → ∃ r ∈ e.reads, r.what = .doorbell q ∧ r.addr = (s.dev.qp q).ctx.dbAddr))


/-! ### Register rows -/

/-- SESSION_OPEN on a CLOSED session in READY opens it with the next epoch, every queue pair IDLE; before READY nothing opens (R209, R211,
R773). SESSION_CLOSE closes an OPEN session, at once where no command of it is left that will still be admitted or complete (a waiting one
of a queue pair in ERROR will not, and goes, R220, R236), after them otherwise; with ABORT its commands not yet admitted end with
ST_ABORTED (R217–R220); queue pairs keep only entries still to be announced. Other sessions keep every field. -/
def Obligations.SessionOpenClose : Prop :=
  ∀ (s : State) (p : Path) (n : Nat) (pcie abort : Bool), s.Up → s.dev.glb.blocks = true → n < 512 →
    let x := s.dev.ses n
    (x.st = .closed → s.dev.bru.st = 11 → DoesThen (.sessionOpen p n pcie abort) s fun e =>
      (e.ses n).st = .opened ∧ (e.ses n).pcie = pcie ∧ (e.ses n).abort = abort ∧ (e.ses n).hold = none ∧
      (e.ses n).epoch = (if x.epoch = 0xFFFF then 1 else x.epoch + 1) ∧ (∀ q, q / 64 = n → e.qp q = Qp.reset) ∧
      (∀ m, m ≠ n → e.ses m = s.dev.ses m) ∧
      e = { s.dev.counted with sessions := e.sessions, qps := s.dev.qps.filter fun q => q.1 / 64 != n }) ∧
    (x.st = .closed → s.dev.bru.st ≠ 11 → DoesThen (.sessionOpen p n pcie abort) s fun e =>
      (e.ses n).st = .closed ∧ e = { s.dev.counted with sessions := e.sessions }) ∧
    (x.st = .opened → (∀ c ∈ s.dev.cmds, c.ses = n → abort = false ∧ isPending c = true ∧ (s.dev.qp (dqp c.ses c.qp)).st = .error) →
      DoesThen (.sessionClose p n pcie abort) s fun e =>
        (e.ses n).st = .closed ∧ (e.ses n).hold = none ∧ (∀ q, q / 64 = n → e.qp q = (s.dev.qp q).idle) ∧
        (∀ c ∈ e.cmds, c.ses ≠ n) ∧ (∀ m, m ≠ n → e.ses m = s.dev.ses m)) ∧
    (x.st = .opened → (∃ c ∈ s.dev.cmds, c.ses = n ∧ (abort = true ∨ isPending c = false ∨ (s.dev.qp (dqp c.ses c.qp)).st ≠ .error)) →
      DoesThen (.sessionClose p n pcie abort) s fun e =>
      (e.ses n).st = .closing ∧ (abort = false → e.cmds = s.dev.cmds) ∧ (∀ m, m ≠ n → e.ses m = s.dev.ses m) ∧
      (abort = true → ∀ c y, s.dev.findCmd c = some y → y.ses = n → (∀ z ∈ s.dev.cmds, z.id = c → isPending z = true) →
        e.Ended c Status.aborted.code 0 0) ∧
      (∀ c y, s.dev.findCmd c = some y → y.ses ≠ n → (∀ z ∈ s.dev.cmds, z.id = c → z.ses ≠ n) → e.findCmd c = some y))

/-- QP_ENABLE on an IDLE queue pair of an OPEN session with a path reads its context block from the queue pair table; without a path it is in
ERROR with code 1; with 4,096 in use it is refused (R230, R231, R234). QP_DISABLE stops it, an ERROR one too, until its commands have
completed (R235, R236); one still on its way out of IDLE is free again at once (the model's choice, log 69). SES_NUDGE on a PCIe session reads the doorbell (R260). -/
def Obligations.QueuePairControl : Prop :=
  ∀ (s : State) (p : Path) (q : Nat), s.Up → s.dev.glb.blocks = true → q < 32768 →
    let room := (s.dev.qps.filter fun x => x.2.inUse).length < 4096
    let path := (s.dev.ses (q / 64)).pcie = true ∨ s.dev.servingLinks (q / 64) ≠ [] ∨ s.dev.held (q / 64) = true
    ((s.dev.qp q).inUse = false → room → (s.dev.ses (q / 64)).st = .opened → path → DoesThen (.qpEnable p q) s fun e =>
      (e.qp q).st = .idle ∧ (e.qp q).enable = true ∧
      ∃ r ∈ e.reads, r.what = .context q ∧ r.ses = q / 64 ∧ r.addr = (s.dev.ses (q / 64)).qpt / 4096 * 4096 + 64 * (q % 64) ∧ r.len = 64) ∧
    ((s.dev.qp q).inUse = false → room → ¬ ((s.dev.ses (q / 64)).st = .opened ∧ path) → DoesThen (.qpEnable p q) s fun e =>
      (e.qp q).st = .error ∧ (e.qp q).err = 1 ∧ e.reads = s.dev.reads) ∧
    ((s.dev.qp q).inUse = false → ¬ room → DoesThen (.qpEnable p q) s fun e => e = { s.dev.counted with arb := { s.dev.arb with qpRefused := true } }) ∧
    ((s.dev.qp q).st ≠ .idle → (s.dev.qp q).st ≠ .stopping → DoesThen (.qpDisable p q) s fun e =>
      (s.dev.qpCmds (q / 64) (q % 64) ≠ [] → (e.qp q).st = .stopping ∧ (e.qp q).enable = false ∧ e.cmds = s.dev.cmds) ∧
      (s.dev.qpCmds (q / 64) (q % 64) = [] → e.qp q = (s.dev.qp q).idle ∧ ((s.dev.ses (q / 64)).st ≠ .closing → e.cmds = s.dev.cmds))) ∧
    ((s.dev.qp q).st = .idle → (s.dev.qp q).enable = true → DoesThen (.qpDisable p q) s fun e =>
      e.qp q = (s.dev.qp q).idle ∧ (∀ r ∈ e.reads, dqp r.ses r.qp ≠ q) ∧ e.cmds = s.dev.cmds) ∧
    ((s.dev.ses (q / 64)).pcie = true → (s.dev.ses (q / 64)).st = .opened → (s.dev.qp q).st = .active → (s.dev.qp q).ctx.push = false →
      (s.dev.qp q).dbBusy = false → DoesThen (.sesNudge p (q / 64) (q % 64)) s fun e =>
        (e.qp q).dbBusy = true ∧ ∃ r ∈ e.reads, r.what = .doorbell q ∧ r.addr = (s.dev.qp q).ctx.dbAddr)

/-- LNK_CTRL of a present link whose gatehouse has a path: ENABLE = 0 or a test pattern takes the link to DISABLED, ENABLE = 1 takes a
DISABLED link to TRAIN once links train, RETRAIN takes an ACTIVE link DOWN with reason 10; the fields are kept as written (R180, R183,
R205). -/
def Obligations.LinkControlRegister : Prop :=
  ∀ (s : State) (p : Path) (n : Nat) (emode : Bool), s.Up → s.dev.glb.blocks = true → n < 48 → linkPresent s.dev.variant n = true →
    s.dev.gatehousePath (n / 24) = true →
    (∀ enable pattern, DoesThen (.testpat p n enable emode pattern) s fun e =>
      (e.link n).enable = enable ∧ (e.link n).emode = emode ∧ (e.link n).pattern = pattern % 8 ∧
      (enable = false ∨ pattern % 8 ≠ 0 → (e.link n).st = .disabled)) ∧
    (DoesThen (.linkEnable p n true emode) s fun e => (e.link n).enable = true ∧ (e.link n).emode = emode ∧ (e.link n).pattern = 0 ∧
      ((s.dev.link n).st = .disabled → s.dev.linksOn = true → (e.link n).st = .train ∧ (e.link n).since = s.dev.now) ∧
      ((s.dev.link n).st ≠ .disabled → (e.link n).st = (s.dev.link n).st)) ∧
    (DoesThen (.linkEnable p n false emode) s fun e => (e.link n).enable = false ∧ (e.link n).st = .disabled) ∧
    ((s.dev.link n).st = .active → DoesThen (.retrain p n true emode 0) s fun e => (e.link n).st = .down ∧ (e.link n).reason = 10)

/-- Registers whose write is the whole command. LNKC_COORD becomes valid (R151); TTH_VAL_HI sets the selected counter to HI:LO, and is no
set-up write (R493, R835); SHP_CTL validates a descriptor or withdraws it (R405, R407); CHK_CTRL makes the staged words the root key, once,
which lets writes that waited for it go on, or zeroises both (R623, R624, R630); PWR_BCTRL sets CLEAR of the barns named (R756); GLB_SCRATCH0 stores its value (R884); an offset that is not a
register's has no effect. -/
def Obligations.RegisterRows : Prop :=
  ∀ (s : State) (p : Path), s.Up → s.dev.glb.blocks = true →
    (∀ w : Word, DoesThen (.coordWrite p w) s fun e =>
      e = { s.dev.counted with lnkc := { s.dev.lnkc with coord := w.toNat % 2 ^ 24, valid := true, adopted := false } }) ∧
    (∀ hi : Word, DoesThen (.tetherRegSet p hi) s fun e =>
      e.tether (s.dev.path p).tthSel = hi ++ (s.dev.path p).tthLo ∧ (∀ t, t ≠ (s.dev.path p).tthSel → e.tether t = s.dev.tether t) ∧
      e = { s.dev with tth := e.tth }) ∧
    (∀ k, 1 ≤ k → k < 1024 →
      let err := descErr ((s.dev.shape k).words.flatMap fun w => natLe 4 w.toNat)
      (DoesThen (.shapeValidate p k) s fun e =>
        e.shape k = { s.dev.shape k with valid := err == 0, err := err } ∧ ∀ j, j ≠ k → e.shape j = s.dev.shape j) ∧
      (DoesThen (.shapeWithdraw p k) s fun e =>
        e.shape k = { s.dev.shape k with valid := false } ∧ ∀ j, j ≠ k → e.shape j = s.dev.shape j)) ∧
    (s.dev.chk.root = none → DoesThen (.commit p) s fun e =>
      let chk := { s.dev.chk with root := some (s.dev.chk.staged.flatMap fun w => natLe 4 w.toNat), staged := List.replicate 8 0 }
      DataPlane { s.dev.counted with chk := chk } e ∧ (s.dev.cmds = [] → e = { s.dev.counted with chk := chk })) ∧
    (s.dev.chk.root ≠ none → DoesThen (.commit p) s fun e => e = { s.dev.counted with chk := { s.dev.chk with crej := true } }) ∧
    (∀ both, DoesThen (.zeroise p both) s fun e =>
      e = { s.dev.counted with chk := { s.dev.chk with root := none, staged := List.replicate 8 0 } }) ∧
    (∀ barns, barns < 16 → DoesThen (.clear p barns) s fun e => ∀ b, b < 4 →
      e.barn b = if bit barns b then { s.dev.barn b with clearBit := true } else s.dev.barn b) ∧
    (∀ w : Word, DoesThen (.registerWrite p 0x20 w) s fun e =>
      e = { s.dev.counted with glb := { s.dev.counted.glb with scratch0 := w } }) ∧
    (∀ off w, offsetOk off = false → exec (.registerWrite p off w) s = .next s)

/-- A read answers with the register's word on its path, and has the register's effect; an offset that is not a register's is not answered
(R700, R861). A read-to-clear counter answers its count and is 0 (R710). A read of the low half of a pair latches the high half for
its path (R869), and one of the first register of a group latches the rest (R870). -/
def Obligations.RegisterReads : Prop :=
  ∀ (s : State) (p : Path) (off : Nat), s.Up →
    (∀ i ∈ [Instr.rcRead p off, .loRead p off, .latchGroupRead p off],
      (offsetOk off = true → exec i s = .next (s.withDev ((s.dev.regRead p off).2.emit (.readValue p off (s.dev.regRead p off).1)))) ∧
      (offsetOk off = false → exec i s = .next s)) ∧
    (s.dev.glb.blocks = true →
      exec (.rcRead p 0x20044) s = .next (s.withDev
        { s.dev with pwr := { s.dev.pwr with cntTrip := 0 }, out := s.dev.out ++ [.readValue p 0x20044 (BitVec.ofNat 32 s.dev.pwr.cntTrip)] }) ∧
      (Does (.loRead p 0x10008) s fun e =>
        e.out = s.dev.out ++ [.readValue p 0x10008 (BitVec.ofNat 32 s.dev.now)] ∧
        SMap.get (e.path p).latches 0x1000C 0 = BitVec.ofNat 32 (s.dev.now / 2 ^ 32) ∧
        e = { s.dev with paths := e.paths, out := e.out }) ∧
      (Does (.latchGroupRead p 0xB0020) s fun e =>
        e.out = s.dev.out ++ [.readValue p 0xB0020 (BitVec.ofNat 32 (leNat (s.dev.evq.front.take 4)))] ∧
        (∀ k, k < 7 → SMap.get (e.path p).latches (0xB0020 + 4 * (k + 1)) 0 = BitVec.ofNat 32 (leNat (slice (4 * (k + 1)) 4 s.dev.evq.front))) ∧
        e = { s.dev with paths := e.paths, out := e.out }))

/-! ### Boot flash, stored copies, bring-up -/

/-- From step 4 on: BRU_ACCEPT with the right count takes DEGRADED to READY (R803, R804); STORE_NOW and CLR_REMAP ask the xSPI port for a
stored copy, a copy that is due is asked for likewise, and one that has been written takes the place of the older (R777, R795, R796). -/
def Obligations.StoredCopies : Prop :=
  (∀ (s : State) (p : Path), s.Up → s.dev.glb.blocks = true → 3 < s.dev.bru.st →
    (∀ items, s.dev.bru.st = 10 → items % 65536 = s.dev.bru.items.length → DoesThen (.bruAccept p items) s fun e =>
      e.bru.st = 11 ∧ e.glb.ready = true ∧ e.glb.degraded = false ∧ ∃ v ∈ e.evq.staged, v.code = 0x0001) ∧
    (∀ items, s.dev.bru.st ≠ 10 ∨ items % 65536 ≠ s.dev.bru.items.length → DoesThen (.bruAccept p items) s fun e => e = s.dev.counted) ∧
    (DoesThen (.storeNow p) s fun e =>
      e = { s.dev.counted with bru := { s.dev.bru with clrRemap := false, storeBusy := true, xspi := e.bru.xspi } } ∧
      ∃ y, e.bru.xspi = s.dev.bru.xspi ++ [.store y] ∧ y.clrRemap = false ∧ y.uid = s.dev.bru.uid ∧ y.temps = s.dev.bru.temps) ∧
    (∀ both, DoesThen (.clrRemap p both) s fun e => e.bru.clrRemap = true ∧ e.bru.storeBusy = true ∧
      ∃ y, e.bru.xspi = s.dev.bru.xspi ++ [.store y] ∧ y.clrRemap = true)) ∧
  (∀ s : State, s.Up →
    (s.dev.bru.storeDue = none → exec .storedCopyWrite s = .next s) ∧
    (s.dev.bru.storeDue ≠ none → Does .storedCopyWrite s fun e => e.bru.storeDue = none ∧ e.bru.storeBusy = true ∧
      ∃ y, e.bru.xspi = s.dev.bru.xspi ++ [.store y])) ∧
  ∀ (s : State) (ok : Bool) (y : StoredCopy) (rest : List FlashOp), s.Up → s.dev.bru.xspi = .store y :: rest →
    exec (.storedCopyWritten ok) s = .next
      { s with copies := s.copies.set (olderCopy s.copies) (if ok then some { y with seq := copySeq s.copies + 1 } else none),
               dev := { s.dev with bru := { s.dev.bru with xspi := rest, storeBusy := rest.any isStore } } }

/-- The mailbox asks the xSPI port for one operation at a time on the aligned address; a read delivers the flash bytes, a program clears
bits of its 256 bytes and an erase sets 64 KiB to 0xFF, each only there; BUSY then clears (R777; that programming only clears bits is the
model's choice, log 15). -/
def Obligations.MailboxOperations : Prop :=
  (∀ (s : State) (p : Path), s.Up → s.dev.glb.blocks = true → 3 < s.dev.bru.st →
    ∀ i ∈ [(Instr.mailboxRead p, FlashOp.read (s.dev.bru.flAddr / 256 * 256)),
           (.mailboxProgram p, .program (s.dev.bru.flAddr / 256 * 256) s.dev.bru.flData),
           (.mailboxErase p, .erase (s.dev.bru.flAddr / 256 * 256 / 65536 * 65536))],
      (s.dev.bru.flBusy = true → DoesThen i.1 s fun e => e = s.dev.counted) ∧
      (s.dev.bru.flBusy = false → DoesThen i.1 s fun e =>
        e = { s.dev.counted with bru := { s.dev.bru with flBusy := true, xspi := s.dev.bru.xspi ++ [i.2] } })) ∧
  ∀ (s : State) (a : Nat) (bytes : List Byte) (rest : List FlashOp), s.Up → Memory.wf s.flash = true → copyAt a = none →
    let ended := fun (t : State) => t.dev.bru.flBusy = false ∧ t.dev.bru.flErr = s.dev.bru.flErr ∧ t.dev.bru.xspi = rest ∧
      t.copies = s.copies ∧ t.pending = s.pending
    (s.dev.bru.xspi = .read a :: rest → ∃ t, exec (.mailboxDone true) s = .next t ∧ ended t ∧ t.flash = s.flash ∧
      t.dev.bru.flData = Memory.readBytes s.flash a 256) ∧
    (s.dev.bru.xspi = .program a bytes :: rest → ∃ t, exec (.mailboxDone true) s = .next t ∧ ended t ∧
      ∀ x, Memory.read t.flash x = if a ≤ x ∧ x < a + bytes.length then Memory.read s.flash x &&& bytes.getD (x - a) 0
        else Memory.read s.flash x) ∧
    (s.dev.bru.xspi = .erase a :: rest → ∃ t, exec (.mailboxDone true) s = .next t ∧ ended t ∧
      ∀ x, Memory.read t.flash x = if a ≤ x ∧ x < a + 65536 then 0xFF else Memory.read s.flash x)

/-- RESET_N low loses everything but the fuses, what the NAND holds and the test port; its rising edge samples the straps and starts
bring-up at step 1; a loss of supply resets the test port too, and with RESET_N high leaves a device that only RESET_N low brings back
(R729, R730, R732, R766, R914). The steps: the PLLs and yard time, the fuses (an
uncorrectable word ends in FAILED with code 1), the image (none good: code 2), the topology check (R765, R769, R770, R776, R780, R804). -/
def Obligations.ResetAndBringup : Prop :=
  (∀ s : State, s.Up → ∃ t, exec .resetAssert s = .next t ∧ t.dev.glb.resetN = false ∧ t.dev.cmds = [] ∧ t.dev.sessions = [] ∧
    t.dev.links = [] ∧ t.dev.stalls = [] ∧ t.dev.paddocks = [] ∧ t.dev.glb.cfgGen = 0 ∧ t.dev.shd = s.dev.shd.persist ∧
    t.dev.fuses = s.dev.fuses ∧ t.dev.tap = s.dev.tap ∧ t.dev.out = s.dev.out ∧ t.pending = s.pending) ∧
  (∀ (s : State) (straps : Straps), s.dev.glb.resetN = false → s.dev.glb.railOut = false → Does (.resetRelease straps) s fun e =>
    e.glb.resetN = true ∧ e.bru.st = 1 ∧ e.bru.straps = straps ∧ e.ytRun = false ∧ e.glb.ready = false) ∧
  (∀ s : State, ∃ t, exec .supplyLoss s = .next t ∧ t.dev.glb.resetN = false ∧ t.dev.tap = Tap.reset ∧ t.dev.cmds = [] ∧
    t.dev.shd = s.dev.shd.persist ∧ t.pending = s.pending ∧ (s.Up → t.dev.glb.railOut = true)) ∧
  (∀ s : State, s.dev.glb.railOut = true → ∃ t, exec .resetAssert s = .next t ∧ t.dev.glb.resetN = false ∧ t.dev.glb.railOut = false) ∧
  ∀ (s : State) (ms : Nat), s.Up → (s.dev.barns.any fun b => b.2.tripped) = false →
    (s.dev.bru.st = 1 → Does (.bringupStepDone (.straps ms)) s fun e =>
      e.bru.st = 2 ∧ e.ytRun = true ∧ e.clk.yclk = true ∧ e.clk.nclk = true ∧ e.bru.steps = s.dev.bru.steps ++ [ms % 2 ^ 32]) ∧
    (s.dev.bru.st = 2 → Does (.bringupStepDone (.fuses ms false)) s fun e =>
      e.bru.st = 3 ∧ e.glb.variantRead = s.dev.fuses.variantWord ∧ e.bru.uid = s.dev.fuses.uid ∧ e.pwr.cap = capOf s.dev.variant) ∧
    (s.dev.bru.st = 2 → Does (.bringupStepDone (.fuses ms true)) s fun e => e.bru.st = 12 ∧ e.bru.failcode = 1 ∧ e.glb.failed = true) ∧
    (∀ o x y, s.dev.bru.st = 3 → s.dev.bru.straps.boot ≠ 1 →
      (Does (.bringupStepDone (.boot ms o false false x y)) s fun e => e.bru.st = 12 ∧ e.bru.failcode = 2) ∧
      (Does (.bringupStepDone (.boot ms o true false x y)) s fun e => e.bru.st = 4 ∧ e.glb.blocks = true ∧ e.bru.image = false ∧
        e.bru.xspiMode = if o then .d8 else .s1)) ∧
    (s.dev.bru.st = 9 →
      ((s.dev.topoItems.any fun w => w.getLsbD 0) = false → Does (.bringupStepDone (.check ms)) s fun e =>
        e.bru.st = 11 ∧ e.glb.ready = true ∧ e.bru.items = s.dev.topoItems) ∧
      ((s.dev.topoItems.any fun w => w.getLsbD 0) = true → Does (.bringupStepDone (.check ms)) s fun e =>
        e.bru.st = 10 ∧ e.glb.degraded = true ∧ e.glb.ready = s.dev.glb.ready ∧ e.bru.items = s.dev.topoItems))

/-! ### Management -/

/-- On each change of LEVEL from 0 to 1 a watermark increments UPCNT, which saturates at 0xFFFF, and sets CROSSED; if CROSSED was 0 and
NOTICE_UP is 1 it sends one upward notice. On each change from 1 to 0 it does the same with DOWNCNT, DCROSSED and NOTICE_DOWN (R846,
R847). Pin DEV_READY is high exactly while GLB_STATUS.READY is 1, and CRIT_N low exactly while LEVEL of watermark 2 is 1 (R905). -/
def Obligations.WatermarkCrossings : Prop :=
  (∀ d : Dev, d.glb.resetN = true → (d.pinDevReady = d.glb.ready ∧ d.pinCritN = !(d.wmk 2).level)) ∧
  ∀ (s : State) (n : Nat), s.Up → s.dev.ytRun = true →
    let w := s.dev.wmk n
    (w.level = false → s.dev.wmkRises n = true → Does (.watermarkUp n) s fun e =>
      e.wmk n = { w with level := true, crossed := true, up := min (w.up + 1) 0xFFFF } ∧ (∀ m, m ≠ n → e.wmk m = s.dev.wmk m) ∧
      (w.crossed = false → w.noticeUp = true → n ∈ e.plp.upNotices ∧ ∃ v ∈ e.evq.staged, v.code = 0x0002 ∧ v.d0 = n) ∧
      (w.crossed = true ∨ w.noticeUp = false → e = { s.dev with wmks := e.wmks })) ∧
    (w.level = true → s.dev.wmkFalls n = true → Does (.watermarkDown n) s fun e =>
      e.wmk n = { w with level := false, dcrossed := true, down := min (w.down + 1) 0xFFFF } ∧ (∀ m, m ≠ n → e.wmk m = s.dev.wmk m) ∧
      (w.dcrossed = false → w.noticeDown = true → n ∈ e.plp.downNotices ∧ ∃ v ∈ e.evq.staged, v.code = 0x0002 ∧ v.d0 = n) ∧
      (w.dcrossed = true ∨ w.noticeDown = false → e = { s.dev with wmks := e.wmks }))

/-- A record enters the queue 1 µs after its stamp; one that finds the queue full is discarded, counted in WMK_EQ_DROP and sets LOST; the
sequence number counts it all the same (R838, R839). WMK_EQ_POP removes the oldest record and is no set-up write (R840, R835); WMK_CLEAR
clears CROSSED with UPCNT and DCROSSED with DOWNCNT (R848). -/
def Obligations.EventQueue : Prop :=
  (∀ (s : State) (v : Event), s.Up → nextEvent s.dev.evq.staged = some v →
    (s.dev.now < v.stamp + 1000 → exec .eventEnqueue s = .next s) ∧
    (v.stamp + 1000 ≤ s.dev.now → 4096 ≤ s.dev.evq.records.length → exec .eventEnqueue s = .next (s.withDev { s.dev with
      evq := { s.dev.evq with staged := s.dev.evq.staged.filter (fun x => x.seq != v.seq), lost := true, dropped := sat1 s.dev.evq.dropped } })) ∧
    (v.stamp + 1000 ≤ s.dev.now → s.dev.evq.records.length < 4096 → Does .eventEnqueue s fun e =>
      e.evq = { s.dev.evq with staged := s.dev.evq.staged.filter (fun x => x.seq != v.seq), records := s.dev.evq.records ++ [v] } ∧
      (s.dev.evq.records ≠ [] → e = { s.dev with evq := e.evq }))) ∧
  ∀ (s : State) (p : Path), s.Up → s.dev.glb.blocks = true →
    (DoesThen (.wmkEqPop p) s fun e => e = { s.dev with evq := { s.dev.evq with records := s.dev.evq.records.tail } }) ∧
    (∀ n up down, n < 17 → DoesThen (.wmkClear p n up down) s fun e =>
      e.wmk n = { s.dev.wmk n with
        crossed := (s.dev.wmk n).crossed && !up, up := if up then 0 else (s.dev.wmk n).up,
        dcrossed := (s.dev.wmk n).dcrossed && !down, down := if down then 0 else (s.dev.wmk n).down } ∧
      e = { s.dev with wmks := e.wmks })

/-- The Pliop chain: ENUM gives the unit the address it carries and sends the next one on; READ and WRITE to the unit are answered with the
word read, or status 1 for an offset that is not a register's, and counted; a broadcast WRITE is applied and sent on; other frames are
sent on with one more hop, damaged ones counted and dropped (R817–R824). A NOTICE leaves on an idle chain, lowest watermark first (R825,
R826). -/
def Obligations.PliopChain : Prop :=
  (∀ (s : State) (f : List Byte), s.Up → s.dev.plp.released = true →
    let k := s.dev.plp.kind f
    let d1 := s.dev.pliopCount f k
    let off := fieldAt f 4 4
    let a := fieldAt f 4 1
    let sent := fun (d e : Dev) (b : List Byte) => e.out = d.out ++ [.pliop (pliopSeal (hopUp b))] ∧ e.plp.lastOut = s.dev.now + 8160
    (k = .enum → Does (.pliopEnum f) s fun e =>
      (1 ≤ a → a ≤ 254 → e.plp.addr = a ∧ sent s.dev e (splice f 4 [BitVec.ofNat 8 (a + 1)])) ∧
      (a = 0 ∨ a = 255 → e.plp.addr = 0 ∧ sent s.dev e f)) ∧
    (k = .read → Does (.pliopRead f) s fun e =>
      (offsetOk off = true → sent (d1.regRead .pliop off).2 e (pliopRsp f 4 s.dev.plp.addr (d1.regRead .pliop off).1.toNat 0) ∧
        e.plp.cntAcc = sat1 (d1.regRead .pliop off).2.plp.cntAcc) ∧
      (offsetOk off = false → sent s.dev e (pliopRsp f 4 s.dev.plp.addr 0 1) ∧ e.plp.cntAcc = s.dev.plp.cntAcc)) ∧
    (k = .write → Does (.pliopWrite f) s fun e =>
      (offsetOk off = true → e.out = (d1.writeRow .pliop off (BitVec.ofNat 32 (fieldAt f 8 4))).out ++
        [.pliop (pliopSeal (hopUp (pliopRsp f 5 s.dev.plp.addr 0 0)))]) ∧
      (off = 0x20 → s.dev.glb.blocks = true → s.dev.Quiet → e.glb = { s.dev.counted.glb with scratch0 := BitVec.ofNat 32 (fieldAt f 8 4) }) ∧
      (offsetOk off = false → sent s.dev e (pliopRsp f 5 s.dev.plp.addr 0 1) ∧ e.glb = s.dev.glb)) ∧
    (k = .broadcast → Does (.pliopBroadcastWrite f) s fun e =>
      (offsetOk off = true → e.out = (d1.writeRow .pliop off (BitVec.ofNat 32 (fieldAt f 8 4))).out ++ [.pliop (pliopSeal (hopUp f))]) ∧
      (off = 0x20 → s.dev.glb.blocks = true → s.dev.Quiet → e.glb = { s.dev.counted.glb with scratch0 := BitVec.ofNat 32 (fieldAt f 8 4) }) ∧
      (offsetOk off = false → sent s.dev e f ∧ e.glb = s.dev.glb)) ∧
    (k = .pass → Does (.pliopForward f) s fun e => sent s.dev e f ∧ e = { s.dev with plp := e.plp, out := e.out }) ∧
    (k = .bad → Does (.pliopForward f) s fun e =>
      e.plp.cntCrc = sat1 s.dev.plp.cntCrc ∧ e = { s.dev with plp := e.plp })) ∧
  (∀ (s : State) (n : Nat) (down : Bool), s.Up → s.dev.plp.nextNotice = some (n, down) → s.dev.plp.released = true → s.dev.plp.addr ≠ 0 →
    s.dev.pliopIdle = true → Does .pliopNotice s fun e =>
      e.out = s.dev.out ++ [.pliop (pliopSeal (noticeFrame s.dev.plp.addr n down
        (if down then (s.dev.wmk n).down else (s.dev.wmk n).up) (s.dev.wmk n).level))] ∧
      e.plp.cntNotice = sat1 s.dev.plp.cntNotice ∧
      (down = true → n ∉ e.plp.downNotices ∧ e.plp.upNotices = s.dev.plp.upNotices) ∧
      (down = false → n ∉ e.plp.upNotices ∧ e.plp.downNotices = s.dev.plp.downNotices) ∧
      e = { s.dev with plp := e.plp, out := e.out }) ∧
  ∀ s : State, s.Up → exec .pliopRelease s = .next (s.withDev { s.dev with plp := { s.dev.plp with released := true } })

/-- The PCIe endpoint: its link comes up with bus mastering off; once Bus Master Enable is set, what waited is sent, memory requests first,
each vector once; the loss of the link, PE_PERST_N or PECLK drops what waited and fails every read that cannot complete; a completed read
answers the READ it was sent for (R293, R721, R827, R830, R831, R906). -/
def Obligations.PcieEndpoint : Prop :=
  (∀ s : State, s.Up → s.dev.pcie.up = false →
    (s.dev.bru.straps.pexEn = true → 3 ≤ s.dev.bru.st → s.dev.pcie.perst = false → exec .pcieLinkUp s = .next (s.withDev
      { s.dev with pcie := { s.dev.pcie with up := true, busMaster := false }, clk := { s.dev.clk with peclk := true } })) ∧
    (s.dev.bru.straps.pexEn = false ∨ s.dev.bru.st < 3 ∨ s.dev.pcie.perst = true → exec .pcieLinkUp s = .next s)) ∧
  (∀ s : State, s.Up → s.dev.pcie.up = true →
    (s.dev.pcie.busMaster = false → exec .busMasterEnable s = .next (s.withDev
      { s.dev with pcie := { s.dev.pcie with busMaster := true, waiting := [], pendingVec := [] },
                   out := s.dev.out ++ s.dev.pcie.waiting.map .pcie ++ s.dev.pcie.pendingVec.map fun v => .pcie (.msix v) })) ∧
    (exec .busMasterDisable s = .next (s.withDev { s.dev with pcie := { s.dev.pcie with busMaster := false } })) ∧
    (∀ i ∈ [Instr.pcieLinkDown, .pePerst true], DoesThen i s fun e =>
      e.pcie.up = false ∧ e.pcie.busMaster = false ∧ e.pcie.waiting = [] ∧ e.pcie.pendingVec = [] ∧
      (∀ r ∈ e.reads, (s.dev.ses r.ses).pcie = false) ∧ e.stalls = s.dev.stalls ∧ e.links = s.dev.links) ∧
    (s.dev.clk.peclk = true → DoesThen .peclkUnlock s fun e =>
      e.clk = { s.dev.clk with peclk := false, lossPe := true } ∧ e.pcie.up = false ∧ ∀ r ∈ e.reads, (s.dev.ses r.ses).pcie = false)) ∧
  (∀ s : State, s.Up → exec (.pePerst false) s = .next (s.withDev { s.dev with pcie := { s.dev.pcie with perst := false } })) ∧
  ∀ (s : State) (tag q : Nat) (b : List Byte) (r : OutRead), s.Up →
    s.dev.reads.find? (fun r => r.tag == tag && (s.dev.ses r.ses).pcie) = some r → r.what = .context q → (s.dev.qp q).st = .idle →
    (s.dev.qp q).enable = true →
    (b.length = r.len → ctxOk b (s.dev.ses (q / 64)).pcie = true → Does (.pcieReadCompletion tag true b) s fun e =>
      (e.qp q).st = .active ∧ e.reads = s.dev.reads.filter (fun x => x.tag != r.tag)) ∧
    (Does (.pcieReadCompletion tag false b) s fun e => (e.qp q).st = .error ∧ (e.qp q).err = 1)

/-! ### Power, heat and clocks -/

/-- A sample takes every reading once per ms of yard time; a floor that is not stopped and reaches TRIP_C trips; hot hold and a refresh band
end after ten cool samples; a tripped barn whose floor has cooled with CLEAR set and whose PLLs are locked resumes, and the writes queued
for it are applied (R708, R740, R742, R744, R748, R755). -/
def Obligations.HeatRows : Prop :=
  (∀ (s : State) (rs : List (Nat × Option Int)), s.Up → s.dev.ytRun = true → s.dev.pwr.sampledAt + 1000000 ≤ s.dev.now → overLimit rs = false →
    Does (.sensorSample rs) s fun e => e.pwr.sampledAt = s.dev.now ∧ e.pwr.tripC = s.dev.pwr.tripC ∧
      ((rs.map Prod.fst).Nodup → ∀ r ∈ rs, r.1 < 152 → e.sensor r.1 = r.2) ∧
      ∀ b n t, b < 4 → s.dev.dieOk b = true → s.dev.barnStopped b = false → hottest (e.floorReadings b) = some (n, t) →
        t ≥ (s.dev.pwr.tripC : Int) * 4 → (e.barn b).tripped = true) ∧
  (∀ (s : State) (rs : List (Nat × Option Int)), s.Up → s.dev.now < s.dev.pwr.sampledAt + 1000000 → exec (.sensorSample rs) s = .next s) ∧
  (∀ (s : State) (b : Nat), s.Up →
    exec (.hotHoldExit b) s = .next (if (s.dev.barn b).hot = true ∧ 10 ≤ (s.dev.barn b).hotCool then
      s.withDev { s.dev with barns := SMap.put s.dev.barns b { s.dev.barn b with hot := false, hotCool := 0 } } else s)) ∧
  (∀ (s : State) (b k : Nat), s.Up →
    exec (.bandLower b k) s = .next (if 10 ≤ (s.dev.barn b).bandCool.getD k 0 then
      s.withDev { s.dev with barns := SMap.put s.dev.barns b { s.dev.barn b with
        bands := (s.dev.barn b).bands.set k ((s.dev.barn b).bands.getD k 0 - 1), bandCool := (s.dev.barn b).bandCool.set k 0 } } else s)) ∧
  ∀ (s : State) (b : Nat), s.Up →
    let x := s.dev.barn b
    let due := x.tripped = true ∧ x.resumeDue = true ∧ x.sclkLost = false ∧ x.dclkLost = false
    (¬ due → exec (.barnResume b) s = .next s) ∧
    (due → DoesThen (.barnResume b) s fun e => (e.barn b).tripped = false ∧ (e.barn b).writes = [] ∧ (e.barn b).clearBit = false ∧
      ∃ v ∈ e.evq.staged, v.code = 0x0052 ∧ v.source = 0x200 + b)

/-- The estimator takes one estimate every 10 µs, and in READY the throttle level rises by one while the mean of the last 100 exceeds the
cap; the governor lowers it by one after ten estimates below 0.98 of the cap (R733–R735; the estimate is a free value, log 3). Before
READY the estimate is below 250 W and the governor does nothing (R787). A PLL that loses lock
is recorded, with an event (R719, R720, R764). A measurement is over after 1 ms (R863). -/
def Obligations.PowerAndClocks : Prop :=
  ∀ s : State, s.Up →
    (s.dev.ytRun = true → s.dev.pwr.estAt + 10000 ≤ s.dev.now → Does .powerEstimate s fun e =>
      let w := Config.powerEstimate s.dev.free % (if s.dev.glb.ready then 1024 else 250)
      let est := (w :: s.dev.pwr.est).take 100
      let avg := est.sum / est.length
      e.pwr = { s.dev.pwr with
        inst := w, est := est, estAt := s.dev.now, cntGov := e.pwr.cntGov,
        level := if s.dev.glb.ready = true ∧ s.dev.pwr.cap < avg ∧ s.dev.pwr.level < 23 then s.dev.pwr.level + 1 else s.dev.pwr.level,
        below := if s.dev.glb.ready = true ∧ avg * 100 < 98 * s.dev.pwr.cap then s.dev.pwr.below + 1 else 0 } ∧
      e = { s.dev with pwr := e.pwr, free := s.dev.free + 1 }) ∧
    (s.dev.ytRun = false ∨ s.dev.now < s.dev.pwr.estAt + 10000 → exec .powerEstimate s = .next s) ∧
    (exec .governorLower s = .next (if 10 ≤ s.dev.pwr.below ∧ 0 < s.dev.pwr.level then
      s.withDev { s.dev with pwr := { s.dev.pwr with level := s.dev.pwr.level - 1, below := 9 } } else s)) ∧
    (∀ b dclk, b < 4 → (if dclk then (s.dev.barn b).dclkLost else (s.dev.barn b).sclkLost) = false → Does (.sclkDclkUnlock b dclk) s fun e =>
      (dclk = true → (e.barn b).dclkLost = true ∧ e.clk.lossD = s.dev.clk.lossD.set b true) ∧
      (dclk = false → (e.barn b).sclkLost = true ∧ e.clk.lossS = s.dev.clk.lossS.set b true) ∧
      ∃ v ∈ e.evq.staged, v.code = 0x0011 ∧ v.d0 = e.clk.loss) ∧
    (s.dev.shd.nclkLost = false → Does .nclkUnlock s fun e =>
      e.shd = { s.dev.shd with nclkLost := true } ∧ e.clk = { s.dev.clk with lossN := true, nclk := false } ∧
      (∃ v ∈ e.evq.staged, v.code = 0x0011 ∧ v.d0 = e.clk.loss) ∧ e = { s.dev with shd := e.shd, clk := e.clk, evq := e.evq }) ∧
    (∀ p sel, s.dev.glb.blocks = true → DoesThen (.clkMeasSel p sel) s fun e => e = { s.dev with clk := { s.dev.clk with
      sel := sel % 64, measuring := true, measAt := s.dev.now, done := false } }) ∧
    (∀ seen, (s.dev.clk.measuring = true → s.dev.clk.measAt + 1000000 ≤ s.dev.now → Does (.clkMeasDone seen) s fun e =>
        e = { s.dev with clk := { s.dev.clk with measuring := false, done := true, khz := e.clk.khz } } ∧
        (s.dev.clk.sel = 0 → e.clk.khz = 100000) ∧ (s.dev.clk.sel = 13 → e.clk.khz = 25000)) ∧
      (s.dev.clk.measuring = false ∨ s.dev.now < s.dev.clk.measAt + 1000000 → exec (.clkMeasDone seen) s = .next s))

/-- The groomer's next due run of a layer that finds no error counts as done; the oldest entry of a pending list is removed when its
granule reads clean (R657, R672, R675). In BUCKET mode one count leaks every 1/LEAK s (R658). -/
def Obligations.GroomerRows : Prop :=
  (∀ (s : State) (n k : Nat) (fs : List Finding), s.Up → s.dev.stallAvail n = true → s.dev.barnStopped (n / 64) = false → k < 16 →
    let d1 := s.dev.groomTick (n / 64)
    (d1.stall n).grmDone.getD k 0 < (d1.barn (n / 64)).grmDue.getD k 0 →
    faultsIn fs n (runGranule ((d1.stall n).grmDone.getD k 0 % 16384) k) 64 = [] →
    Does (.groomerRun n k fs) s fun e =>
      (e.stall n).grmDone = listUpd (d1.stall n).grmDone k (· + 1) ∧ (∀ m, m ≠ n → e.stall m = d1.stall m) ∧
      e = { d1 with stalls := e.stalls }) ∧
  (∀ (s : State) (n g t : Nat) (rest : List (Nat × Nat)) (fs : List Finding), s.Up → (s.dev.stall n).pendList = (g, t) :: rest →
    (s.dev.barnStopped (n / 64) = true → exec (.pendingListService n fs) s = .next s) ∧
    (s.dev.barnStopped (n / 64) = false → faultsIn fs n g 1 = [] → exec (.pendingListService n fs) s = .next (s.withDev
      { s.dev with stalls := SMap.put s.dev.stalls n { s.dev.stall n with pendList := ((g, t) :: rest).filter fun p => p.1 != g } }))) ∧
  ∀ (s : State) (b : Nat), s.Up →
    let x := s.dev.barn b
    exec (.bucketLeak b) s = .next (if x.bucketMode = true ∧ 0 < x.level ∧ 0 < x.leak ∧ x.leakAt + 1000000000 / x.leak ≤ s.dev.now then
      s.withDev { s.dev with barns := SMap.put s.dev.barns b { x with level := x.level - 1, leakAt := x.leakAt + 1000000000 / x.leak } } else s)

/-- The entropy source: a health failure stops it and is counted; at a passed start-up test its output is available again and LNKC_EPOCH,
if still 0, becomes non-zero; the mask generator takes a new seed only then (R176, R633, R635–R637; the values are free, log 3). A
congestion map counts 2,048 samples of each port and the next period begins (R852–R854). The test port keeps the instruction loaded; one
that selects the boundary-scan register captures the pins and holds what was shifted in (R908, R909), and one that drives the pins stops
while RESET_N is high (R910). -/
def Obligations.EntropyMapsTap : Prop :=
  ∀ s : State, s.Up →
    (∀ prop, Does (.entropyHealthFail prop) s fun e =>
      e.chk = { s.dev.chk with efail := true, estate := 2, eht := sat1 s.dev.chk.eht } ∧ e = { s.dev with chk := e.chk, evq := e.evq } ∧
      ∃ v ∈ e.evq.staged, v.code = 0x0031 ∧ v.d0 = b2n prop) ∧
    (s.dev.chk.estate ≠ 1 → Does .entropyStartupPass s fun e => e.chk.estate = 1 ∧ e.chk.wantEpoch = false ∧
      (s.dev.chk.wantEpoch = true → e.lnkc.epoch ≠ 0) ∧ (s.dev.chk.wantEpoch = false → e.lnkc = s.dev.lnkc)) ∧
    (s.dev.chk.estate = 1 → exec .entropyStartupPass s = .next s) ∧
    (s.dev.chk.estate = 1 → Does .maskReseed s fun e =>
      e = { s.dev with chk := { s.dev.chk with maskSeed := Config.entropy s.dev.free, maskCount := 0 }, free := s.dev.free + 1 }) ∧
    (s.dev.chk.estate ≠ 1 → exec .maskReseed s = .next s) ∧
    (let due := s.dev.ytRun = true ∧ s.dev.fab.enable = true ∧ s.dev.fab.startAt + s.dev.fab.periodUs * 1000 ≤ s.dev.now
     (¬ due → exec .cmapPeriod s = .next s) ∧
     (due → Does .cmapPeriod s fun e => e.fab.seq = (s.dev.fab.seq + 1) % 2 ^ 32 ∧ e.fab.map.length = 260 ∧
       e.fab.startAt = s.dev.fab.startAt + s.dev.fab.periodUs * 1000 ∧ e.fab.periodUs = s.dev.fab.nextPeriodUs ∧
       e = { s.dev with fab := e.fab, free := s.dev.free + 320 })) ∧
    (∀ i left k, (cmapBins i left k).sum = left ∧ (cmapBins i left k).length = k + 1) ∧
    (∀ ir sc, s.dev.glb.railOut = false →
      let op := scanOf ir sc.op
      (scanDrives op = true → exec (.tapInstruction ir sc) s = .fault .tapPinsWhileRunning) ∧
      (scanDrives op = false → op ≠ .bypass → op ≠ .idcode → exec (.tapInstruction ir sc) s = .next (s.withDev { s.dev with
        tap := { ir := ir, op := op, cells := sc.cells, captured := scanPins.map fun p => (p, s.dev.pin p) } })) ∧
      (op = .bypass ∨ op = .idcode → exec (.tapInstruction ir sc) s = .next (s.withDev { s.dev with tap := { s.dev.tap with ir := ir, op := op } })))

/-! ### The shed -/

/-- SHED_FORMAT with its key formats a blank or foreign shed, or one that no paddock uses; FORMAT_COMPLETE gives it a new identity once the
entropy source has output (R602, R603, R637). A checkpoint is taken on command, or when one is due (R580). ARB_WBUF.NEXT_GIB keeps the
nearer limit, and the size in force stays (R360). -/
def Obligations.ShedControl : Prop :=
  (∀ (s : State) (p : Path), s.Up → s.dev.glb.blocks = true →
    let st := s.dev.shd.st
    (st = shdBlank ∨ st = shdForeign ∨ ((st = shdReady ∨ st = shdReadOnly) ∧ s.dev.shedPaddocks = false) →
      DoesThen (.shedFormat p 0x53484544) s fun e => e.shd.st = shdFormatting ∧ e.shd.ident = none ∧ e.shd.journal = [] ∧
        e.shd.readOnly = false ∧ e.chk.wantFormat = true ∧ e = { s.dev.counted with shd := e.shd, chk := e.chk }) ∧
    (∀ key, key ≠ 0x53484544 → DoesThen (.shedFormat p key) s fun e => e = s.dev.counted) ∧
    (∀ wl, st = shdReady → DoesThen (.ckptNow p wl) s fun e => e.shd.wlEn = wl ∧ e.shd.ckptNum = s.dev.shd.ckptNum + 1 ∧
      ∃ x ∈ e.shd.progs, ∃ c : Ckpt, x.what = .checkpoint c ∧ c.seq = s.dev.shd.ckptNum + 1) ∧
    (∀ gib, DoesThen (.wbufNextWrite p gib) s fun e =>
      e.arb = { s.dev.arb with wbufNext := max 2 (min 32 (gib % 64)) } ∧ e.glb = s.dev.counted.glb)) ∧
  (∀ (s : State) (formed spares : List Nat) (p : Population), s.Up → s.dev.shd.pop = some p → s.dev.shd.st = shdFormatting →
    (s.dev.chk.estate ≠ 1 → exec (.formatComplete formed spares) s = .next s) ∧
    (s.dev.chk.estate = 1 → Does (.formatComplete formed spares) s fun e => e.shd.st = shdReady ∧ e.chk.wantFormat = false ∧
      ∃ i, e.shd.ident = some i ∧ i.formatId = Config.entropy s.dev.free ∧ i.variant = s.dev.fuses.variantWord ∧ i.pop = p ∧
        i.nextGib = s.dev.arb.wbufNext)) ∧
  ∀ s : State, s.Up →
    let due := s.dev.shd.ckptAt + s.dev.shd.ckptSec * 1000000000 ≤ s.dev.now ∨ 65536 ≤ s.dev.shd.jsince
    (¬ due → exec .checkpoint s = .next s) ∧
    (due → s.dev.shd.st = shdReady → Does .checkpoint s fun e => e.shd.ckptNum = s.dev.shd.ckptNum + 1 ∧ e.shd.ckptAt = s.dev.now ∧
      ∃ x ∈ e.shd.progs, ∃ c : Ckpt, x.what = .checkpoint c ∧ c.seq = s.dev.shd.ckptNum + 1)

/-- Reports of the NAND: an identity page that has been programmed is the identity, and the first one in the other superblock of the pair
makes that the active one (R577, R578); a superblock queued for erase, with no read in flight to it, is erased and its count grows, one of
the checkpoint region for the pages that wait for it (R572, R573, R578, R580); a segment read for a command reaches it (R559). A merge starts only where its
cause holds; a full log block in page order needs only its MERGE record (R582, R585). -/
def Obligations.NandReports : Prop :=
  (∀ (s : State) (id : Nat), s.Up →
    (s.dev.shd.progs.find? (fun p => p.id == id) = none → ∀ pos, exec (.nandProgramDone id pos) s = .next s) ∧
    (∀ p i, s.dev.shd.progs.find? (fun p => p.id == id) = some p → p.what = .identity i → s.dev.shd.nclkLost = false →
      s.dev.progIssued p = true → Does (.nandProgramDone id none) s fun e =>
        e = { s.dev with shd := { s.dev.shd with
          ident := some i, progs := s.dev.shd.progs.filter (fun x => x.id != id), erasing := e.shd.erasing,
          idAct := (if s.dev.shd.idOther.isSome then 1 - s.dev.shd.idAct else s.dev.shd.idAct), idOther := none,
          idUsed := s.dev.shd.idOther.getD s.dev.shd.idUsed + s.dev.progUnit } })) ∧
  (∀ (s : State) (i : Nat), s.Up →
    let ready := s.dev.shd.erasing.contains i = true ∧ s.dev.shd.nclkLost = false ∧ (s.dev.shd.reads.any fun r => r.sblk == i) = false
    (¬ ready → ∀ pos, exec (.nandEraseDone i pos) s = .next s) ∧
    (ready → i < 8 → Does (.nandEraseDone i none) s fun e => e = { s.dev with shd := { s.dev.shd with
      ckErases := listUpd s.dev.shd.ckErases i (· + 1), idOther := (if i < 2 then some 0 else s.dev.shd.idOther),
      ckptClean := s.dev.shd.ckptClean || decide (2 ≤ i), erasing := s.dev.shd.erasing.filter fun x => x != i } }) ∧
    (ready → 8 ≤ i → Does (.nandEraseDone i none) s fun e =>
      e.sblk i = { s.dev.sblk i with erased := true, erases := (s.dev.sblk i).erases + 1 } ∧ (∀ j, j ≠ i → e.sblk j = s.dev.sblk j) ∧
      e = { s.dev with shd := { s.dev.shd with sblks := e.shd.sblks, erasing := s.dev.shd.erasing.filter fun x => x != i } })) ∧
  (∀ (s : State) (id c pad seg lsn sb len : Nat) (key : List Byte) (x : Cmd) (y : Rec) (g : Fetch) (loc : Nat × Stripe), s.Up →
    s.dev.shd.reads.find? (fun r => r.id == id) = some { id := id, lsn := lsn, sblk := sb, len := len, what := .cmd c pad key seg } →
    s.dev.shd.nclkLost = false → s.dev.locateLsn lsn = some loc → s.dev.findCmd c = some x → s.dev.fetchOf c key seg = some g →
    (s.dev.recOf pad key g.wseq).or (s.dev.capturedRec c key g.wseq) = some y → y.tagged = false → (s.dev.pad pad).residency ≠ 1 →
    Does (.nandReadDone id true) s fun e => ∃ z, e.findCmd c = some z ∧ z.fetches = x.fetches.map fun f =>
      if g.pos = f.pos ∧ f.key = key ∧ f.seg = seg ∧ f.arrived = false then { f with arrived := true, status := 0, bytes := loc.2.bytes } else f) ∧
  ∀ (s : State) (lblk : Nat), s.Up → s.dev.shd.st = shdReady → s.dev.shd.nclkLost = false →
    (∀ i, SMap.find s.dev.shd.logs lblk = some i → (s.dev.sblk i).stripes.length < s.dev.stripesPerSblk →
      exec (.mergeStart (.logFull lblk)) s = .next s) ∧
    (∀ i, SMap.find s.dev.shd.logs lblk = some i → (s.dev.sblk i).stripes.length = s.dev.stripesPerSblk → 0 < s.dev.stripesPerSblk →
      inPageOrder 0 (s.dev.sblk i).stripes = true → (s.dev.sblk i).stripes.all Stripe.good = true → s.dev.shd.merging.contains lblk = false →
      Does (.mergeStart (.logFull lblk)) s fun e =>
        e.shd.merging = s.dev.shd.merging ++ [lblk] ∧ e.shd.jseq = s.dev.shd.jseq + 1)

/-- Small steps of the shed: a program unit of a log block is completed 10 µs after its oldest stripe (R558); a PTR record follows every 32
stripes programmed (R571); the journal unit is padded and programmed 4 µs after its first record (R569); the program rate is worked out
afresh in READY (R587; its value is free, log 3). Staged work of a key starts where none is in progress (R54, R567); a segment of a PINNED
paddock that only the shed holds is asked for (R48, R51, R340). -/
def Obligations.ShedSmallSteps : Prop :=
  ∀ s : State, s.Up →
    (∀ lblk i, SMap.find s.dev.shd.logs lblk = some i →
      let ss := (s.dev.sblk i).stripes
      let part := ss.length % s.dev.progUnit
      (∀ x rest, ss.drop (ss.length - part) = x :: rest →
        (s.dev.now < x.since + 10000 → exec (.programUnitFill lblk) s = .next s) ∧
        (x.since + 10000 ≤ s.dev.now → Does (.programUnitFill lblk) s fun e =>
          (∃ fill, (e.sblk i).stripes = ss ++ fill ∧ ∀ y ∈ fill, y.kind = kindFill) ∧ (e.sblk i).stripes.length % s.dev.progUnit = 0)) ∧
      (s.dev.canJournal = true → (s.dev.sblk i).ptr + 32 ≤ (ss.filter Stripe.good).length → Does (.ptrRecord lblk) s fun e =>
        e.shd.jseq = s.dev.shd.jseq + 1 ∧ e.stalls = s.dev.stalls ∧ e.cmds = s.dev.cmds) ∧
      ((ss.filter Stripe.good).length < (s.dev.sblk i).ptr + 32 → exec (.ptrRecord lblk) s = .next s)) ∧
    (s.dev.now < s.dev.shd.gatherAt + 4000 → exec .journalUnitPad s = .next s) ∧
    (∀ d1, s.dev.shd.gatherAt + 4000 ≤ s.dev.now → s.dev.shd.gather ≠ [] → (s.dev.shd.units.filter fun u => !u.complete).length < 4 →
      s.dev.shd.st = shdReady →
      s.dev.journalHead (ceilDiv (pagesTo (fillUnit s.dev.progUnit (0, 0) s.dev.shd.gather).2.1) s.dev.progUnit * s.dev.progUnit) = some d1 →
      Does .journalUnitPad s fun e => e.shd.units.length = d1.shd.units.length + 1 ∧
        e.shd.gather = (fillUnit s.dev.progUnit (0, 0) s.dev.shd.gather).2.2 ∧ ∃ x ∈ e.shd.progs, ∃ u, x.what = .unit u) ∧
    (exec .prateUpdate s = .next (if s.dev.shd.st = shdReady then s.withDev { s.dev with shd := { s.dev.shd with
      prate := Config.programRate ((List.range 4).map fun g => muckShare (s.dev.freeSblks g)) % 2 ^ 32 } } else s)) ∧
    (∀ pad key x, s.dev.shd.delq.find? (fun x => x.pad == pad && x.key == key) = some x →
      (s.dev.keyBusy pad key = true → exec (.stageWrite pad key) s = .next s) ∧
      (s.dev.keyBusy pad key = false → s.dev.findJob s.dev.nextId = none → s.dev.canJournal = true → Does (.stageWrite pad key) s fun e =>
        e.keyBusy pad key = true ∧ e.shd.jseq = s.dev.shd.jseq + 1)) ∧
    (∀ pad key n r lsn, s.dev.peek pad key = some r → (s.dev.pad pad).residency = 0 → (r.segs[n]?).any (fun v => v.st == 1) = true →
      r.lsns.getD n none = some lsn → s.dev.shd.nclkLost = false → s.dev.reloading r.pad r.key n = false →
      ∀ i ∈ [Instr.backgroundReload pad key n, .residencyMove pad key n], Does i s fun e =>
        ∃ v, e.shd.reads = s.dev.shd.reads ++ [v] ∧ v.lsn = lsn ∧ v.what = .reload r.pad r.key n ∧ v.len = segLen r.len n)
end

