-- ==== Sys2Proof/Laws/State.lean ====
section
/-! SUPPORT. Reading the state after an update: maps, records by number, and one lemma per update for the fields it leaves. -/

namespace Sys2Proof.Machine

open Sys2Proof

/-! ### Maps -/

@[simp] theorem SMap.find_put_self {α : Type} (m : SMap α) (k : Nat) (v : α) : SMap.find (SMap.put m k v) k = some v := by
  induction m with
  | nil => simp [SMap.put, SMap.find]
  | cons p r ih =>
    obtain ⟨j, w⟩ := p
    simp only [SMap.put]
    split
    · simp [SMap.find]
    · split
      · simp [SMap.find]
      · simp only [SMap.find]
        rw [if_neg (by omega), ih]

theorem SMap.find_put_of_ne {α : Type} (m : SMap α) (k j : Nat) (v : α) (h : j ≠ k) :
    SMap.find (SMap.put m k v) j = SMap.find m j := by
  induction m with
  | nil => simp [SMap.put, SMap.find, h.symm]
  | cons p r ih =>
    obtain ⟨i, w⟩ := p
    simp only [SMap.put]
    split
    · simp [SMap.find, h.symm]
    · split
      · rename_i h2
        subst h2
        simp [SMap.find, h.symm]
      · simp only [SMap.find, ih]

theorem SMap.find_put {α : Type} (m : SMap α) (k j : Nat) (v : α) :
    SMap.find (SMap.put m k v) j = if j = k then some v else SMap.find m j := by
  split
  · rename_i h
    rw [h, SMap.find_put_self]
  · exact SMap.find_put_of_ne m k j v ‹_›

@[simp] theorem SMap.get_put_self {α : Type} (m : SMap α) (k : Nat) (v d : α) : SMap.get (SMap.put m k v) k d = v := by
  simp [SMap.get]

theorem SMap.get_put_of_ne {α : Type} (m : SMap α) (k j : Nat) (v d : α) (h : j ≠ k) :
    SMap.get (SMap.put m k v) j d = SMap.get m j d := by
  simp [SMap.get, SMap.find_put_of_ne m k j v h]

theorem SMap.get_put {α : Type} (m : SMap α) (k j : Nat) (v d : α) :
    SMap.get (SMap.put m k v) j d = if j = k then v else SMap.get m j d := by
  simp only [SMap.get, SMap.find_put]
  split <;> rfl

theorem SMap.find_filter_of_keep {α : Type} (m : SMap α) (p : Nat × α → Bool) (k : Nat) (h : ∀ v, p (k, v) = true) :
    SMap.find (m.filter p) k = SMap.find m k := by
  induction m with
  | nil => rfl
  | cons x r ih =>
    obtain ⟨j, w⟩ := x
    by_cases hp : p (j, w) = true
    · simp only [List.filter_cons, hp, if_true, SMap.find, ih]
    · have hj : j ≠ k := fun e => hp (e ▸ h w)
      simp only [List.filter_cons, hp, SMap.find, if_neg hj]
      simpa using ih

theorem SMap.find_filter_of_drop {α : Type} (m : SMap α) (p : Nat × α → Bool) (k : Nat) (h : ∀ v, p (k, v) = false) :
    SMap.find (m.filter p) k = none := by
  induction m with
  | nil => rfl
  | cons x r ih =>
    obtain ⟨j, w⟩ := x
    by_cases hp : p (j, w) = true
    · have hj : j ≠ k := fun e => by rw [e, h w] at hp; cases hp
      simp only [List.filter_cons, hp, if_true, SMap.find, if_neg hj, ih]
    · simp only [List.filter_cons, hp]
      simpa using ih

@[simp] theorem SMap.find_del_self {α : Type} (m : SMap α) (k : Nat) : SMap.find (SMap.del m k) k = none :=
  SMap.find_filter_of_drop m _ k (by simp)

theorem SMap.find_del_of_ne {α : Type} (m : SMap α) (k j : Nat) (h : j ≠ k) : SMap.find (SMap.del m k) j = SMap.find m j :=
  SMap.find_filter_of_keep m _ j (by simp [h])

theorem SMap.find_mem {α : Type} (m : SMap α) (k : Nat) (v : α) (h : SMap.find m k = some v) : (k, v) ∈ m := by
  induction m with
  | nil => cases h
  | cons x r ih =>
    obtain ⟨j, w⟩ := x
    simp only [SMap.find] at h
    split at h
    · rename_i e
      cases h
      subst e
      exact List.mem_cons_self
    · exact List.mem_cons_of_mem _ (ih h)

theorem SMap.get_mem {α : Type} (m : SMap α) (k : Nat) (d : α) : SMap.get m k d = d ∨ (k, SMap.get m k d) ∈ m := by
  cases h : SMap.find m k with
  | none => exact .inl (by simp [SMap.get, h])
  | some v => exact .inr (by simpa [SMap.get, h] using SMap.find_mem m k v h)

theorem SMap.mem_put {α : Type} (m : SMap α) (k : Nat) (v : α) (x : Nat × α) (h : x ∈ SMap.put m k v) : x = (k, v) ∨ x ∈ m := by
  induction m with
  | nil => simpa [SMap.put] using h
  | cons p r ih =>
    obtain ⟨j, w⟩ := p
    simp only [SMap.put] at h
    split at h
    · simpa using h
    · split at h
      · rcases List.mem_cons.1 h with h | h
        · exact .inl h
        · exact .inr (List.mem_cons_of_mem _ h)
      · rcases List.mem_cons.1 h with h | h
        · exact .inr (h ▸ List.mem_cons_self)
        · exact (ih h).imp id (List.mem_cons_of_mem _)

/-! ### The whole step -/

theorem State.run_up (s : State) (f : Dev → Dev) (h : s.dev.glb.resetN = true) : s.run f = .next { s with dev := f s.dev } := by
  simp [State.run, h]

theorem State.run_reset (s : State) (f : Dev → Dev) (h : s.dev.glb.resetN = false) : s.run f = s.held := by
  simp [State.run, h]

theorem State.runAll_up (s : State) (f : State → State) (h : s.dev.glb.resetN = true) : s.runAll f = .next (f s) := by
  simp [State.runAll, h]

/-- A stopped device either stays as it is or its behaviour is undefined (R729, R730). -/
theorem State.held_cases (s : State) : s.held = .next s ∨ s.held = .fault .railAbsent := by
  unfold State.held
  split
  · exact .inr rfl
  · exact .inl rfl

/-! ### Records by number -/

@[simp] theorem Dev.updLink_gets (d : Dev) (n : Nat) (f : Link → Link) (y : Nat) :
    (d.updLink n f).ses y = d.ses y ∧ (d.updLink n f).qp y = d.qp y ∧ (d.updLink n f).stall y = d.stall y ∧
    (d.updLink n f).barn y = d.barn y ∧ (d.updLink n f).pad y = d.pad y ∧ (d.updLink n f).wmk y = d.wmk y ∧
    (d.updLink n f).shape y = d.shape y ∧ (d.updLink n f).findCmd y = d.findCmd y ∧ (d.updLink n f).tether y = d.tether y ∧
    (d.updLink n f).held y = d.held y := by
  repeat' constructor

@[simp] theorem Dev.updLink_path (d : Dev) (n : Nat) (f : Link → Link) (y : Path) : (d.updLink n f).path y = d.path y := rfl

/-- `updLink` changes `links` alone. -/
@[simp] theorem Dev.updLink_fields (d : Dev) (n : Nat) (f : Link → Link) :
    (d.updLink n f).now = d.now ∧ (d.updLink n f).ytRun = d.ytRun ∧ (d.updLink n f).glb = d.glb ∧ (d.updLink n f).fuses = d.fuses ∧
    (d.updLink n f).tap = d.tap ∧ (d.updLink n f).bru = d.bru ∧ (d.updLink n f).clk = d.clk ∧ (d.updLink n f).pwr = d.pwr ∧
    (d.updLink n f).plp = d.plp ∧ (d.updLink n f).pcie = d.pcie ∧ (d.updLink n f).lnkc = d.lnkc ∧ (d.updLink n f).sessions = d.sessions ∧
    (d.updLink n f).qps = d.qps ∧ (d.updLink n f).arb = d.arb ∧ (d.updLink n f).cmds = d.cmds ∧ (d.updLink n f).reads = d.reads ∧
    (d.updLink n f).writes = d.writes ∧ (d.updLink n f).nextTag = d.nextTag ∧ (d.updLink n f).stalls = d.stalls ∧ (d.updLink n f).paddocks = d.paddocks ∧
    (d.updLink n f).old = d.old ∧ (d.updLink n f).tth = d.tth ∧ (d.updLink n f).shapes = d.shapes ∧ (d.updLink n f).chk = d.chk ∧
    (d.updLink n f).shd = d.shd ∧ (d.updLink n f).barns = d.barns ∧ (d.updLink n f).bundles = d.bundles ∧ (d.updLink n f).fabric = d.fabric ∧ (d.updLink n f).evq = d.evq ∧
    (d.updLink n f).wmks = d.wmks ∧ (d.updLink n f).fab = d.fab ∧ (d.updLink n f).paths = d.paths ∧ (d.updLink n f).out = d.out ∧
    (d.updLink n f).free = d.free ∧ (d.updLink n f).nextId = d.nextId ∧ (d.updLink n f).subSeq = d.subSeq ∧ (d.updLink n f).admSeq = d.admSeq ∧
    (d.updLink n f).useStamp = d.useStamp := by
  repeat' constructor

@[simp] theorem Dev.updLink_self (d : Dev) (n : Nat) (f : Link → Link) : (d.updLink n f).link n = f (d.link n) := by
  simp [Dev.updLink, Dev.link, SMap.upd]

theorem Dev.updLink_other (d : Dev) (n : Nat) (f : Link → Link) (m : Nat) (h : m ≠ n) : (d.updLink n f).link m = d.link m := by
  simp [Dev.updLink, Dev.link, SMap.upd, SMap.get_put_of_ne _ _ _ _ _ h]

theorem Dev.link_updLink (d : Dev) (n : Nat) (f : Link → Link) (m : Nat) : (d.updLink n f).link m = if m = n then f (d.link n) else d.link m := by
  split
  · rename_i h
    rw [h, Dev.updLink_self]
  · exact Dev.updLink_other d n f m ‹_›

theorem Dev.updLink_eq (d : Dev) (n : Nat) (f : Link → Link) : d.updLink n f = { d with links := (d.updLink n f).links } := rfl

@[simp] theorem Dev.updSes_gets (d : Dev) (n : Nat) (f : Session → Session) (y : Nat) :
    (d.updSes n f).link y = d.link y ∧ (d.updSes n f).qp y = d.qp y ∧ (d.updSes n f).stall y = d.stall y ∧
    (d.updSes n f).barn y = d.barn y ∧ (d.updSes n f).pad y = d.pad y ∧ (d.updSes n f).wmk y = d.wmk y ∧
    (d.updSes n f).shape y = d.shape y ∧ (d.updSes n f).findCmd y = d.findCmd y ∧ (d.updSes n f).tether y = d.tether y := by
  repeat' constructor

@[simp] theorem Dev.updSes_path (d : Dev) (n : Nat) (f : Session → Session) (y : Path) : (d.updSes n f).path y = d.path y := rfl

/-- `updSes` changes `sessions` alone. -/
@[simp] theorem Dev.updSes_fields (d : Dev) (n : Nat) (f : Session → Session) :
    (d.updSes n f).now = d.now ∧ (d.updSes n f).ytRun = d.ytRun ∧ (d.updSes n f).glb = d.glb ∧ (d.updSes n f).fuses = d.fuses ∧
    (d.updSes n f).tap = d.tap ∧ (d.updSes n f).bru = d.bru ∧ (d.updSes n f).clk = d.clk ∧ (d.updSes n f).pwr = d.pwr ∧
    (d.updSes n f).plp = d.plp ∧ (d.updSes n f).pcie = d.pcie ∧ (d.updSes n f).lnkc = d.lnkc ∧ (d.updSes n f).links = d.links ∧
    (d.updSes n f).qps = d.qps ∧ (d.updSes n f).arb = d.arb ∧ (d.updSes n f).cmds = d.cmds ∧ (d.updSes n f).reads = d.reads ∧
    (d.updSes n f).writes = d.writes ∧ (d.updSes n f).nextTag = d.nextTag ∧ (d.updSes n f).stalls = d.stalls ∧ (d.updSes n f).paddocks = d.paddocks ∧
    (d.updSes n f).old = d.old ∧ (d.updSes n f).tth = d.tth ∧ (d.updSes n f).shapes = d.shapes ∧ (d.updSes n f).chk = d.chk ∧
    (d.updSes n f).shd = d.shd ∧ (d.updSes n f).barns = d.barns ∧ (d.updSes n f).bundles = d.bundles ∧ (d.updSes n f).fabric = d.fabric ∧ (d.updSes n f).evq = d.evq ∧
    (d.updSes n f).wmks = d.wmks ∧ (d.updSes n f).fab = d.fab ∧ (d.updSes n f).paths = d.paths ∧ (d.updSes n f).out = d.out ∧
    (d.updSes n f).free = d.free ∧ (d.updSes n f).nextId = d.nextId ∧ (d.updSes n f).subSeq = d.subSeq ∧ (d.updSes n f).admSeq = d.admSeq ∧
    (d.updSes n f).useStamp = d.useStamp := by
  repeat' constructor

@[simp] theorem Dev.updSes_self (d : Dev) (n : Nat) (f : Session → Session) : (d.updSes n f).ses n = f (d.ses n) := by
  simp [Dev.updSes, Dev.ses, SMap.upd]

theorem Dev.updSes_other (d : Dev) (n : Nat) (f : Session → Session) (m : Nat) (h : m ≠ n) : (d.updSes n f).ses m = d.ses m := by
  simp [Dev.updSes, Dev.ses, SMap.upd, SMap.get_put_of_ne _ _ _ _ _ h]

theorem Dev.ses_updSes (d : Dev) (n : Nat) (f : Session → Session) (m : Nat) : (d.updSes n f).ses m = if m = n then f (d.ses n) else d.ses m := by
  split
  · rename_i h
    rw [h, Dev.updSes_self]
  · exact Dev.updSes_other d n f m ‹_›

theorem Dev.updSes_eq (d : Dev) (n : Nat) (f : Session → Session) : d.updSes n f = { d with sessions := (d.updSes n f).sessions } := rfl

@[simp] theorem Dev.updQp_gets (d : Dev) (n : Nat) (f : Qp → Qp) (y : Nat) :
    (d.updQp n f).link y = d.link y ∧ (d.updQp n f).ses y = d.ses y ∧ (d.updQp n f).stall y = d.stall y ∧
    (d.updQp n f).barn y = d.barn y ∧ (d.updQp n f).pad y = d.pad y ∧ (d.updQp n f).wmk y = d.wmk y ∧
    (d.updQp n f).shape y = d.shape y ∧ (d.updQp n f).findCmd y = d.findCmd y ∧ (d.updQp n f).tether y = d.tether y ∧
    (d.updQp n f).held y = d.held y := by
  repeat' constructor

@[simp] theorem Dev.updQp_path (d : Dev) (n : Nat) (f : Qp → Qp) (y : Path) : (d.updQp n f).path y = d.path y := rfl

/-- `updQp` changes `qps` alone. -/
@[simp] theorem Dev.updQp_fields (d : Dev) (n : Nat) (f : Qp → Qp) :
    (d.updQp n f).now = d.now ∧ (d.updQp n f).ytRun = d.ytRun ∧ (d.updQp n f).glb = d.glb ∧ (d.updQp n f).fuses = d.fuses ∧
    (d.updQp n f).tap = d.tap ∧ (d.updQp n f).bru = d.bru ∧ (d.updQp n f).clk = d.clk ∧ (d.updQp n f).pwr = d.pwr ∧
    (d.updQp n f).plp = d.plp ∧ (d.updQp n f).pcie = d.pcie ∧ (d.updQp n f).lnkc = d.lnkc ∧ (d.updQp n f).links = d.links ∧
    (d.updQp n f).sessions = d.sessions ∧ (d.updQp n f).arb = d.arb ∧ (d.updQp n f).cmds = d.cmds ∧ (d.updQp n f).reads = d.reads ∧
    (d.updQp n f).writes = d.writes ∧ (d.updQp n f).nextTag = d.nextTag ∧ (d.updQp n f).stalls = d.stalls ∧ (d.updQp n f).paddocks = d.paddocks ∧
    (d.updQp n f).old = d.old ∧ (d.updQp n f).tth = d.tth ∧ (d.updQp n f).shapes = d.shapes ∧ (d.updQp n f).chk = d.chk ∧
    (d.updQp n f).shd = d.shd ∧ (d.updQp n f).barns = d.barns ∧ (d.updQp n f).bundles = d.bundles ∧ (d.updQp n f).fabric = d.fabric ∧ (d.updQp n f).evq = d.evq ∧
    (d.updQp n f).wmks = d.wmks ∧ (d.updQp n f).fab = d.fab ∧ (d.updQp n f).paths = d.paths ∧ (d.updQp n f).out = d.out ∧
    (d.updQp n f).free = d.free ∧ (d.updQp n f).nextId = d.nextId ∧ (d.updQp n f).subSeq = d.subSeq ∧ (d.updQp n f).admSeq = d.admSeq ∧
    (d.updQp n f).useStamp = d.useStamp := by
  repeat' constructor

@[simp] theorem Dev.updQp_self (d : Dev) (n : Nat) (f : Qp → Qp) : (d.updQp n f).qp n = f (d.qp n) := by
  simp [Dev.updQp, Dev.qp, SMap.upd]

theorem Dev.updQp_other (d : Dev) (n : Nat) (f : Qp → Qp) (m : Nat) (h : m ≠ n) : (d.updQp n f).qp m = d.qp m := by
  simp [Dev.updQp, Dev.qp, SMap.upd, SMap.get_put_of_ne _ _ _ _ _ h]

theorem Dev.qp_updQp (d : Dev) (n : Nat) (f : Qp → Qp) (m : Nat) : (d.updQp n f).qp m = if m = n then f (d.qp n) else d.qp m := by
  split
  · rename_i h
    rw [h, Dev.updQp_self]
  · exact Dev.updQp_other d n f m ‹_›

theorem Dev.updQp_eq (d : Dev) (n : Nat) (f : Qp → Qp) : d.updQp n f = { d with qps := (d.updQp n f).qps } := rfl

@[simp] theorem Dev.updStall_gets (d : Dev) (n : Nat) (f : Stall → Stall) (y : Nat) :
    (d.updStall n f).link y = d.link y ∧ (d.updStall n f).ses y = d.ses y ∧ (d.updStall n f).qp y = d.qp y ∧
    (d.updStall n f).barn y = d.barn y ∧ (d.updStall n f).pad y = d.pad y ∧ (d.updStall n f).wmk y = d.wmk y ∧
    (d.updStall n f).shape y = d.shape y ∧ (d.updStall n f).findCmd y = d.findCmd y ∧ (d.updStall n f).tether y = d.tether y ∧
    (d.updStall n f).held y = d.held y := by
  repeat' constructor

@[simp] theorem Dev.updStall_path (d : Dev) (n : Nat) (f : Stall → Stall) (y : Path) : (d.updStall n f).path y = d.path y := rfl

/-- `updStall` changes `stalls` alone. -/
@[simp] theorem Dev.updStall_fields (d : Dev) (n : Nat) (f : Stall → Stall) :
    (d.updStall n f).now = d.now ∧ (d.updStall n f).ytRun = d.ytRun ∧ (d.updStall n f).glb = d.glb ∧ (d.updStall n f).fuses = d.fuses ∧
    (d.updStall n f).tap = d.tap ∧ (d.updStall n f).bru = d.bru ∧ (d.updStall n f).clk = d.clk ∧ (d.updStall n f).pwr = d.pwr ∧
    (d.updStall n f).plp = d.plp ∧ (d.updStall n f).pcie = d.pcie ∧ (d.updStall n f).lnkc = d.lnkc ∧ (d.updStall n f).links = d.links ∧
    (d.updStall n f).sessions = d.sessions ∧ (d.updStall n f).qps = d.qps ∧ (d.updStall n f).arb = d.arb ∧ (d.updStall n f).cmds = d.cmds ∧
    (d.updStall n f).reads = d.reads ∧ (d.updStall n f).writes = d.writes ∧ (d.updStall n f).nextTag = d.nextTag ∧ (d.updStall n f).paddocks = d.paddocks ∧
    (d.updStall n f).old = d.old ∧ (d.updStall n f).tth = d.tth ∧ (d.updStall n f).shapes = d.shapes ∧ (d.updStall n f).chk = d.chk ∧
    (d.updStall n f).shd = d.shd ∧ (d.updStall n f).barns = d.barns ∧ (d.updStall n f).bundles = d.bundles ∧ (d.updStall n f).fabric = d.fabric ∧ (d.updStall n f).evq = d.evq ∧
    (d.updStall n f).wmks = d.wmks ∧ (d.updStall n f).fab = d.fab ∧ (d.updStall n f).paths = d.paths ∧ (d.updStall n f).out = d.out ∧
    (d.updStall n f).free = d.free ∧ (d.updStall n f).nextId = d.nextId ∧ (d.updStall n f).subSeq = d.subSeq ∧ (d.updStall n f).admSeq = d.admSeq ∧
    (d.updStall n f).useStamp = d.useStamp := by
  repeat' constructor

@[simp] theorem Dev.updStall_self (d : Dev) (n : Nat) (f : Stall → Stall) : (d.updStall n f).stall n = f (d.stall n) := by
  simp [Dev.updStall, Dev.stall, SMap.upd]

theorem Dev.updStall_other (d : Dev) (n : Nat) (f : Stall → Stall) (m : Nat) (h : m ≠ n) : (d.updStall n f).stall m = d.stall m := by
  simp [Dev.updStall, Dev.stall, SMap.upd, SMap.get_put_of_ne _ _ _ _ _ h]

theorem Dev.stall_updStall (d : Dev) (n : Nat) (f : Stall → Stall) (m : Nat) : (d.updStall n f).stall m = if m = n then f (d.stall n) else d.stall m := by
  split
  · rename_i h
    rw [h, Dev.updStall_self]
  · exact Dev.updStall_other d n f m ‹_›

theorem Dev.updStall_eq (d : Dev) (n : Nat) (f : Stall → Stall) : d.updStall n f = { d with stalls := (d.updStall n f).stalls } := rfl

@[simp] theorem Dev.updBarn_gets (d : Dev) (n : Nat) (f : Barn → Barn) (y : Nat) :
    (d.updBarn n f).link y = d.link y ∧ (d.updBarn n f).ses y = d.ses y ∧ (d.updBarn n f).qp y = d.qp y ∧
    (d.updBarn n f).stall y = d.stall y ∧ (d.updBarn n f).pad y = d.pad y ∧ (d.updBarn n f).wmk y = d.wmk y ∧
    (d.updBarn n f).shape y = d.shape y ∧ (d.updBarn n f).findCmd y = d.findCmd y ∧ (d.updBarn n f).tether y = d.tether y ∧
    (d.updBarn n f).held y = d.held y := by
  repeat' constructor

@[simp] theorem Dev.updBarn_path (d : Dev) (n : Nat) (f : Barn → Barn) (y : Path) : (d.updBarn n f).path y = d.path y := rfl

/-- `updBarn` changes `barns` alone. -/
@[simp] theorem Dev.updBarn_fields (d : Dev) (n : Nat) (f : Barn → Barn) :
    (d.updBarn n f).now = d.now ∧ (d.updBarn n f).ytRun = d.ytRun ∧ (d.updBarn n f).glb = d.glb ∧ (d.updBarn n f).fuses = d.fuses ∧
    (d.updBarn n f).tap = d.tap ∧ (d.updBarn n f).bru = d.bru ∧ (d.updBarn n f).clk = d.clk ∧ (d.updBarn n f).pwr = d.pwr ∧
    (d.updBarn n f).plp = d.plp ∧ (d.updBarn n f).pcie = d.pcie ∧ (d.updBarn n f).lnkc = d.lnkc ∧ (d.updBarn n f).links = d.links ∧
    (d.updBarn n f).sessions = d.sessions ∧ (d.updBarn n f).qps = d.qps ∧ (d.updBarn n f).arb = d.arb ∧ (d.updBarn n f).cmds = d.cmds ∧
    (d.updBarn n f).reads = d.reads ∧ (d.updBarn n f).writes = d.writes ∧ (d.updBarn n f).nextTag = d.nextTag ∧ (d.updBarn n f).stalls = d.stalls ∧
    (d.updBarn n f).paddocks = d.paddocks ∧ (d.updBarn n f).old = d.old ∧ (d.updBarn n f).tth = d.tth ∧ (d.updBarn n f).shapes = d.shapes ∧
    (d.updBarn n f).chk = d.chk ∧ (d.updBarn n f).shd = d.shd ∧ (d.updBarn n f).bundles = d.bundles ∧ (d.updBarn n f).fabric = d.fabric ∧ (d.updBarn n f).evq = d.evq ∧
    (d.updBarn n f).wmks = d.wmks ∧ (d.updBarn n f).fab = d.fab ∧ (d.updBarn n f).paths = d.paths ∧ (d.updBarn n f).out = d.out ∧
    (d.updBarn n f).free = d.free ∧ (d.updBarn n f).nextId = d.nextId ∧ (d.updBarn n f).subSeq = d.subSeq ∧ (d.updBarn n f).admSeq = d.admSeq ∧
    (d.updBarn n f).useStamp = d.useStamp := by
  repeat' constructor

@[simp] theorem Dev.updBarn_self (d : Dev) (n : Nat) (f : Barn → Barn) : (d.updBarn n f).barn n = f (d.barn n) := by
  simp [Dev.updBarn, Dev.barn, SMap.upd]

theorem Dev.updBarn_other (d : Dev) (n : Nat) (f : Barn → Barn) (m : Nat) (h : m ≠ n) : (d.updBarn n f).barn m = d.barn m := by
  simp [Dev.updBarn, Dev.barn, SMap.upd, SMap.get_put_of_ne _ _ _ _ _ h]

theorem Dev.barn_updBarn (d : Dev) (n : Nat) (f : Barn → Barn) (m : Nat) : (d.updBarn n f).barn m = if m = n then f (d.barn n) else d.barn m := by
  split
  · rename_i h
    rw [h, Dev.updBarn_self]
  · exact Dev.updBarn_other d n f m ‹_›

theorem Dev.updBarn_eq (d : Dev) (n : Nat) (f : Barn → Barn) : d.updBarn n f = { d with barns := (d.updBarn n f).barns } := rfl

@[simp] theorem Dev.updPad_gets (d : Dev) (n : Nat) (f : Paddock → Paddock) (y : Nat) :
    (d.updPad n f).link y = d.link y ∧ (d.updPad n f).ses y = d.ses y ∧ (d.updPad n f).qp y = d.qp y ∧
    (d.updPad n f).stall y = d.stall y ∧ (d.updPad n f).barn y = d.barn y ∧ (d.updPad n f).wmk y = d.wmk y ∧
    (d.updPad n f).shape y = d.shape y ∧ (d.updPad n f).findCmd y = d.findCmd y ∧ (d.updPad n f).tether y = d.tether y ∧
    (d.updPad n f).held y = d.held y := by
  repeat' constructor

@[simp] theorem Dev.updPad_path (d : Dev) (n : Nat) (f : Paddock → Paddock) (y : Path) : (d.updPad n f).path y = d.path y := rfl

/-- `updPad` changes `paddocks` alone. -/
@[simp] theorem Dev.updPad_fields (d : Dev) (n : Nat) (f : Paddock → Paddock) :
    (d.updPad n f).now = d.now ∧ (d.updPad n f).ytRun = d.ytRun ∧ (d.updPad n f).glb = d.glb ∧ (d.updPad n f).fuses = d.fuses ∧
    (d.updPad n f).tap = d.tap ∧ (d.updPad n f).bru = d.bru ∧ (d.updPad n f).clk = d.clk ∧ (d.updPad n f).pwr = d.pwr ∧
    (d.updPad n f).plp = d.plp ∧ (d.updPad n f).pcie = d.pcie ∧ (d.updPad n f).lnkc = d.lnkc ∧ (d.updPad n f).links = d.links ∧
    (d.updPad n f).sessions = d.sessions ∧ (d.updPad n f).qps = d.qps ∧ (d.updPad n f).arb = d.arb ∧ (d.updPad n f).cmds = d.cmds ∧
    (d.updPad n f).reads = d.reads ∧ (d.updPad n f).writes = d.writes ∧ (d.updPad n f).nextTag = d.nextTag ∧ (d.updPad n f).stalls = d.stalls ∧
    (d.updPad n f).old = d.old ∧ (d.updPad n f).tth = d.tth ∧ (d.updPad n f).shapes = d.shapes ∧ (d.updPad n f).chk = d.chk ∧
    (d.updPad n f).shd = d.shd ∧ (d.updPad n f).barns = d.barns ∧ (d.updPad n f).bundles = d.bundles ∧ (d.updPad n f).fabric = d.fabric ∧ (d.updPad n f).evq = d.evq ∧
    (d.updPad n f).wmks = d.wmks ∧ (d.updPad n f).fab = d.fab ∧ (d.updPad n f).paths = d.paths ∧ (d.updPad n f).out = d.out ∧
    (d.updPad n f).free = d.free ∧ (d.updPad n f).nextId = d.nextId ∧ (d.updPad n f).subSeq = d.subSeq ∧ (d.updPad n f).admSeq = d.admSeq ∧
    (d.updPad n f).useStamp = d.useStamp := by
  repeat' constructor

@[simp] theorem Dev.updPad_self (d : Dev) (n : Nat) (f : Paddock → Paddock) : (d.updPad n f).pad n = f (d.pad n) := by
  simp [Dev.updPad, Dev.pad, SMap.upd]

theorem Dev.updPad_other (d : Dev) (n : Nat) (f : Paddock → Paddock) (m : Nat) (h : m ≠ n) : (d.updPad n f).pad m = d.pad m := by
  simp [Dev.updPad, Dev.pad, SMap.upd, SMap.get_put_of_ne _ _ _ _ _ h]

theorem Dev.pad_updPad (d : Dev) (n : Nat) (f : Paddock → Paddock) (m : Nat) : (d.updPad n f).pad m = if m = n then f (d.pad n) else d.pad m := by
  split
  · rename_i h
    rw [h, Dev.updPad_self]
  · exact Dev.updPad_other d n f m ‹_›

theorem Dev.updPad_eq (d : Dev) (n : Nat) (f : Paddock → Paddock) : d.updPad n f = { d with paddocks := (d.updPad n f).paddocks } := rfl

@[simp] theorem Dev.updWmk_gets (d : Dev) (n : Nat) (f : Wmk → Wmk) (y : Nat) :
    (d.updWmk n f).link y = d.link y ∧ (d.updWmk n f).ses y = d.ses y ∧ (d.updWmk n f).qp y = d.qp y ∧
    (d.updWmk n f).stall y = d.stall y ∧ (d.updWmk n f).barn y = d.barn y ∧ (d.updWmk n f).pad y = d.pad y ∧
    (d.updWmk n f).shape y = d.shape y ∧ (d.updWmk n f).findCmd y = d.findCmd y ∧ (d.updWmk n f).tether y = d.tether y ∧
    (d.updWmk n f).held y = d.held y := by
  repeat' constructor

@[simp] theorem Dev.updWmk_path (d : Dev) (n : Nat) (f : Wmk → Wmk) (y : Path) : (d.updWmk n f).path y = d.path y := rfl

/-- `updWmk` changes `wmks` alone. -/
@[simp] theorem Dev.updWmk_fields (d : Dev) (n : Nat) (f : Wmk → Wmk) :
    (d.updWmk n f).now = d.now ∧ (d.updWmk n f).ytRun = d.ytRun ∧ (d.updWmk n f).glb = d.glb ∧ (d.updWmk n f).fuses = d.fuses ∧
    (d.updWmk n f).tap = d.tap ∧ (d.updWmk n f).bru = d.bru ∧ (d.updWmk n f).clk = d.clk ∧ (d.updWmk n f).pwr = d.pwr ∧
    (d.updWmk n f).plp = d.plp ∧ (d.updWmk n f).pcie = d.pcie ∧ (d.updWmk n f).lnkc = d.lnkc ∧ (d.updWmk n f).links = d.links ∧
    (d.updWmk n f).sessions = d.sessions ∧ (d.updWmk n f).qps = d.qps ∧ (d.updWmk n f).arb = d.arb ∧ (d.updWmk n f).cmds = d.cmds ∧
    (d.updWmk n f).reads = d.reads ∧ (d.updWmk n f).writes = d.writes ∧ (d.updWmk n f).nextTag = d.nextTag ∧ (d.updWmk n f).stalls = d.stalls ∧
    (d.updWmk n f).paddocks = d.paddocks ∧ (d.updWmk n f).old = d.old ∧ (d.updWmk n f).tth = d.tth ∧ (d.updWmk n f).shapes = d.shapes ∧
    (d.updWmk n f).chk = d.chk ∧ (d.updWmk n f).shd = d.shd ∧ (d.updWmk n f).barns = d.barns ∧ (d.updWmk n f).bundles = d.bundles ∧ (d.updWmk n f).fabric = d.fabric ∧
    (d.updWmk n f).evq = d.evq ∧ (d.updWmk n f).fab = d.fab ∧ (d.updWmk n f).paths = d.paths ∧ (d.updWmk n f).out = d.out ∧
    (d.updWmk n f).free = d.free ∧ (d.updWmk n f).nextId = d.nextId ∧ (d.updWmk n f).subSeq = d.subSeq ∧ (d.updWmk n f).admSeq = d.admSeq ∧
    (d.updWmk n f).useStamp = d.useStamp := by
  repeat' constructor

@[simp] theorem Dev.updWmk_self (d : Dev) (n : Nat) (f : Wmk → Wmk) : (d.updWmk n f).wmk n = f (d.wmk n) := by
  simp [Dev.updWmk, Dev.wmk, SMap.upd]

theorem Dev.updWmk_other (d : Dev) (n : Nat) (f : Wmk → Wmk) (m : Nat) (h : m ≠ n) : (d.updWmk n f).wmk m = d.wmk m := by
  simp [Dev.updWmk, Dev.wmk, SMap.upd, SMap.get_put_of_ne _ _ _ _ _ h]

theorem Dev.wmk_updWmk (d : Dev) (n : Nat) (f : Wmk → Wmk) (m : Nat) : (d.updWmk n f).wmk m = if m = n then f (d.wmk n) else d.wmk m := by
  split
  · rename_i h
    rw [h, Dev.updWmk_self]
  · exact Dev.updWmk_other d n f m ‹_›

theorem Dev.updWmk_eq (d : Dev) (n : Nat) (f : Wmk → Wmk) : d.updWmk n f = { d with wmks := (d.updWmk n f).wmks } := rfl

@[simp] theorem Dev.updShape_gets (d : Dev) (n : Nat) (f : ShapeEnt → ShapeEnt) (y : Nat) :
    (d.updShape n f).link y = d.link y ∧ (d.updShape n f).ses y = d.ses y ∧ (d.updShape n f).qp y = d.qp y ∧
    (d.updShape n f).stall y = d.stall y ∧ (d.updShape n f).barn y = d.barn y ∧ (d.updShape n f).pad y = d.pad y ∧
    (d.updShape n f).wmk y = d.wmk y ∧ (d.updShape n f).findCmd y = d.findCmd y ∧ (d.updShape n f).tether y = d.tether y ∧
    (d.updShape n f).held y = d.held y := by
  repeat' constructor

@[simp] theorem Dev.updShape_path (d : Dev) (n : Nat) (f : ShapeEnt → ShapeEnt) (y : Path) : (d.updShape n f).path y = d.path y := rfl

/-- `updShape` changes `shapes` alone. -/
@[simp] theorem Dev.updShape_fields (d : Dev) (n : Nat) (f : ShapeEnt → ShapeEnt) :
    (d.updShape n f).now = d.now ∧ (d.updShape n f).ytRun = d.ytRun ∧ (d.updShape n f).glb = d.glb ∧ (d.updShape n f).fuses = d.fuses ∧
    (d.updShape n f).tap = d.tap ∧ (d.updShape n f).bru = d.bru ∧ (d.updShape n f).clk = d.clk ∧ (d.updShape n f).pwr = d.pwr ∧
    (d.updShape n f).plp = d.plp ∧ (d.updShape n f).pcie = d.pcie ∧ (d.updShape n f).lnkc = d.lnkc ∧ (d.updShape n f).links = d.links ∧
    (d.updShape n f).sessions = d.sessions ∧ (d.updShape n f).qps = d.qps ∧ (d.updShape n f).arb = d.arb ∧ (d.updShape n f).cmds = d.cmds ∧
    (d.updShape n f).reads = d.reads ∧ (d.updShape n f).writes = d.writes ∧ (d.updShape n f).nextTag = d.nextTag ∧ (d.updShape n f).stalls = d.stalls ∧
    (d.updShape n f).paddocks = d.paddocks ∧ (d.updShape n f).old = d.old ∧ (d.updShape n f).tth = d.tth ∧ (d.updShape n f).chk = d.chk ∧
    (d.updShape n f).shd = d.shd ∧ (d.updShape n f).barns = d.barns ∧ (d.updShape n f).bundles = d.bundles ∧ (d.updShape n f).fabric = d.fabric ∧ (d.updShape n f).evq = d.evq ∧
    (d.updShape n f).wmks = d.wmks ∧ (d.updShape n f).fab = d.fab ∧ (d.updShape n f).paths = d.paths ∧ (d.updShape n f).out = d.out ∧
    (d.updShape n f).free = d.free ∧ (d.updShape n f).nextId = d.nextId ∧ (d.updShape n f).subSeq = d.subSeq ∧ (d.updShape n f).admSeq = d.admSeq ∧
    (d.updShape n f).useStamp = d.useStamp := by
  repeat' constructor

@[simp] theorem Dev.updShape_self (d : Dev) (n : Nat) (f : ShapeEnt → ShapeEnt) : (d.updShape n f).shape n = f (d.shape n) := by
  simp [Dev.updShape, Dev.shape, SMap.upd]

theorem Dev.updShape_other (d : Dev) (n : Nat) (f : ShapeEnt → ShapeEnt) (m : Nat) (h : m ≠ n) : (d.updShape n f).shape m = d.shape m := by
  simp [Dev.updShape, Dev.shape, SMap.upd, SMap.get_put_of_ne _ _ _ _ _ h]

theorem Dev.shape_updShape (d : Dev) (n : Nat) (f : ShapeEnt → ShapeEnt) (m : Nat) : (d.updShape n f).shape m = if m = n then f (d.shape n) else d.shape m := by
  split
  · rename_i h
    rw [h, Dev.updShape_self]
  · exact Dev.updShape_other d n f m ‹_›

theorem Dev.updShape_eq (d : Dev) (n : Nat) (f : ShapeEnt → ShapeEnt) : d.updShape n f = { d with shapes := (d.updShape n f).shapes } := rfl

@[simp] theorem Dev.updPath_gets (d : Dev) (p : Path) (f : PathSt → PathSt) (y : Nat) :
    (d.updPath p f).link y = d.link y ∧ (d.updPath p f).ses y = d.ses y ∧ (d.updPath p f).qp y = d.qp y ∧
    (d.updPath p f).stall y = d.stall y ∧ (d.updPath p f).barn y = d.barn y ∧ (d.updPath p f).pad y = d.pad y ∧
    (d.updPath p f).wmk y = d.wmk y ∧ (d.updPath p f).shape y = d.shape y ∧ (d.updPath p f).findCmd y = d.findCmd y ∧
    (d.updPath p f).tether y = d.tether y ∧ (d.updPath p f).held y = d.held y := by
  repeat' constructor

/-- `updPath` changes `paths` alone. -/
@[simp] theorem Dev.updPath_fields (d : Dev) (p : Path) (f : PathSt → PathSt) :
    (d.updPath p f).now = d.now ∧ (d.updPath p f).ytRun = d.ytRun ∧ (d.updPath p f).glb = d.glb ∧ (d.updPath p f).fuses = d.fuses ∧
    (d.updPath p f).tap = d.tap ∧ (d.updPath p f).bru = d.bru ∧ (d.updPath p f).clk = d.clk ∧ (d.updPath p f).pwr = d.pwr ∧
    (d.updPath p f).plp = d.plp ∧ (d.updPath p f).pcie = d.pcie ∧ (d.updPath p f).lnkc = d.lnkc ∧ (d.updPath p f).links = d.links ∧
    (d.updPath p f).sessions = d.sessions ∧ (d.updPath p f).qps = d.qps ∧ (d.updPath p f).arb = d.arb ∧ (d.updPath p f).cmds = d.cmds ∧
    (d.updPath p f).reads = d.reads ∧ (d.updPath p f).writes = d.writes ∧ (d.updPath p f).nextTag = d.nextTag ∧ (d.updPath p f).stalls = d.stalls ∧
    (d.updPath p f).paddocks = d.paddocks ∧ (d.updPath p f).old = d.old ∧ (d.updPath p f).tth = d.tth ∧ (d.updPath p f).shapes = d.shapes ∧
    (d.updPath p f).chk = d.chk ∧ (d.updPath p f).shd = d.shd ∧ (d.updPath p f).barns = d.barns ∧ (d.updPath p f).bundles = d.bundles ∧ (d.updPath p f).fabric = d.fabric ∧
    (d.updPath p f).evq = d.evq ∧ (d.updPath p f).wmks = d.wmks ∧ (d.updPath p f).fab = d.fab ∧ (d.updPath p f).out = d.out ∧
    (d.updPath p f).free = d.free ∧ (d.updPath p f).nextId = d.nextId ∧ (d.updPath p f).subSeq = d.subSeq ∧ (d.updPath p f).admSeq = d.admSeq ∧
    (d.updPath p f).useStamp = d.useStamp := by
  repeat' constructor

@[simp] theorem Dev.updCmd_gets (d : Dev) (c : Nat) (f : Cmd → Cmd) (y : Nat) :
    (d.updCmd c f).link y = d.link y ∧ (d.updCmd c f).ses y = d.ses y ∧ (d.updCmd c f).qp y = d.qp y ∧
    (d.updCmd c f).stall y = d.stall y ∧ (d.updCmd c f).barn y = d.barn y ∧ (d.updCmd c f).pad y = d.pad y ∧
    (d.updCmd c f).wmk y = d.wmk y ∧ (d.updCmd c f).shape y = d.shape y ∧ (d.updCmd c f).tether y = d.tether y ∧
    (d.updCmd c f).held y = d.held y := by
  repeat' constructor

@[simp] theorem Dev.updCmd_path (d : Dev) (c : Nat) (f : Cmd → Cmd) (y : Path) : (d.updCmd c f).path y = d.path y := rfl

/-- `updCmd` changes `cmds` alone. -/
@[simp] theorem Dev.updCmd_fields (d : Dev) (c : Nat) (f : Cmd → Cmd) :
    (d.updCmd c f).now = d.now ∧ (d.updCmd c f).ytRun = d.ytRun ∧ (d.updCmd c f).glb = d.glb ∧ (d.updCmd c f).fuses = d.fuses ∧
    (d.updCmd c f).tap = d.tap ∧ (d.updCmd c f).bru = d.bru ∧ (d.updCmd c f).clk = d.clk ∧ (d.updCmd c f).pwr = d.pwr ∧
    (d.updCmd c f).plp = d.plp ∧ (d.updCmd c f).pcie = d.pcie ∧ (d.updCmd c f).lnkc = d.lnkc ∧ (d.updCmd c f).links = d.links ∧
    (d.updCmd c f).sessions = d.sessions ∧ (d.updCmd c f).qps = d.qps ∧ (d.updCmd c f).arb = d.arb ∧ (d.updCmd c f).reads = d.reads ∧
    (d.updCmd c f).writes = d.writes ∧ (d.updCmd c f).nextTag = d.nextTag ∧ (d.updCmd c f).stalls = d.stalls ∧ (d.updCmd c f).paddocks = d.paddocks ∧
    (d.updCmd c f).old = d.old ∧ (d.updCmd c f).tth = d.tth ∧ (d.updCmd c f).shapes = d.shapes ∧ (d.updCmd c f).chk = d.chk ∧
    (d.updCmd c f).shd = d.shd ∧ (d.updCmd c f).barns = d.barns ∧ (d.updCmd c f).bundles = d.bundles ∧ (d.updCmd c f).fabric = d.fabric ∧ (d.updCmd c f).evq = d.evq ∧
    (d.updCmd c f).wmks = d.wmks ∧ (d.updCmd c f).fab = d.fab ∧ (d.updCmd c f).paths = d.paths ∧ (d.updCmd c f).out = d.out ∧
    (d.updCmd c f).free = d.free ∧ (d.updCmd c f).nextId = d.nextId ∧ (d.updCmd c f).subSeq = d.subSeq ∧ (d.updCmd c f).admSeq = d.admSeq ∧
    (d.updCmd c f).useStamp = d.useStamp := by
  repeat' constructor

@[simp] theorem Dev.dropCmd_gets (d : Dev) (c : Nat) (y : Nat) :
    (d.dropCmd c).link y = d.link y ∧ (d.dropCmd c).ses y = d.ses y ∧ (d.dropCmd c).qp y = d.qp y ∧
    (d.dropCmd c).stall y = d.stall y ∧ (d.dropCmd c).barn y = d.barn y ∧ (d.dropCmd c).pad y = d.pad y ∧
    (d.dropCmd c).wmk y = d.wmk y ∧ (d.dropCmd c).shape y = d.shape y ∧ (d.dropCmd c).tether y = d.tether y ∧
    (d.dropCmd c).held y = d.held y := by
  repeat' constructor

@[simp] theorem Dev.dropCmd_path (d : Dev) (c : Nat) (y : Path) : (d.dropCmd c).path y = d.path y := rfl

/-- `dropCmd` changes `cmds` alone. -/
@[simp] theorem Dev.dropCmd_fields (d : Dev) (c : Nat) :
    (d.dropCmd c).now = d.now ∧ (d.dropCmd c).ytRun = d.ytRun ∧ (d.dropCmd c).glb = d.glb ∧ (d.dropCmd c).fuses = d.fuses ∧
    (d.dropCmd c).tap = d.tap ∧ (d.dropCmd c).bru = d.bru ∧ (d.dropCmd c).clk = d.clk ∧ (d.dropCmd c).pwr = d.pwr ∧
    (d.dropCmd c).plp = d.plp ∧ (d.dropCmd c).pcie = d.pcie ∧ (d.dropCmd c).lnkc = d.lnkc ∧ (d.dropCmd c).links = d.links ∧
    (d.dropCmd c).sessions = d.sessions ∧ (d.dropCmd c).qps = d.qps ∧ (d.dropCmd c).arb = d.arb ∧ (d.dropCmd c).reads = d.reads ∧
    (d.dropCmd c).writes = d.writes ∧ (d.dropCmd c).nextTag = d.nextTag ∧ (d.dropCmd c).stalls = d.stalls ∧ (d.dropCmd c).paddocks = d.paddocks ∧
    (d.dropCmd c).old = d.old ∧ (d.dropCmd c).tth = d.tth ∧ (d.dropCmd c).shapes = d.shapes ∧ (d.dropCmd c).chk = d.chk ∧
    (d.dropCmd c).shd = d.shd ∧ (d.dropCmd c).barns = d.barns ∧ (d.dropCmd c).bundles = d.bundles ∧ (d.dropCmd c).fabric = d.fabric ∧ (d.dropCmd c).evq = d.evq ∧
    (d.dropCmd c).wmks = d.wmks ∧ (d.dropCmd c).fab = d.fab ∧ (d.dropCmd c).paths = d.paths ∧ (d.dropCmd c).out = d.out ∧
    (d.dropCmd c).free = d.free ∧ (d.dropCmd c).nextId = d.nextId ∧ (d.dropCmd c).subSeq = d.subSeq ∧ (d.dropCmd c).admSeq = d.admSeq ∧
    (d.dropCmd c).useStamp = d.useStamp := by
  repeat' constructor

@[simp] theorem Dev.emit_gets (d : Dev) (o : Output) (y : Nat) :
    (d.emit o).link y = d.link y ∧ (d.emit o).ses y = d.ses y ∧ (d.emit o).qp y = d.qp y ∧
    (d.emit o).stall y = d.stall y ∧ (d.emit o).barn y = d.barn y ∧ (d.emit o).pad y = d.pad y ∧
    (d.emit o).wmk y = d.wmk y ∧ (d.emit o).shape y = d.shape y ∧ (d.emit o).findCmd y = d.findCmd y ∧
    (d.emit o).tether y = d.tether y ∧ (d.emit o).held y = d.held y := by
  repeat' constructor

@[simp] theorem Dev.emit_path (d : Dev) (o : Output) (y : Path) : (d.emit o).path y = d.path y := rfl

/-- `emit` changes `out` alone. -/
@[simp] theorem Dev.emit_fields (d : Dev) (o : Output) :
    (d.emit o).now = d.now ∧ (d.emit o).ytRun = d.ytRun ∧ (d.emit o).glb = d.glb ∧ (d.emit o).fuses = d.fuses ∧
    (d.emit o).tap = d.tap ∧ (d.emit o).bru = d.bru ∧ (d.emit o).clk = d.clk ∧ (d.emit o).pwr = d.pwr ∧
    (d.emit o).plp = d.plp ∧ (d.emit o).pcie = d.pcie ∧ (d.emit o).lnkc = d.lnkc ∧ (d.emit o).links = d.links ∧
    (d.emit o).sessions = d.sessions ∧ (d.emit o).qps = d.qps ∧ (d.emit o).arb = d.arb ∧ (d.emit o).cmds = d.cmds ∧
    (d.emit o).reads = d.reads ∧ (d.emit o).writes = d.writes ∧ (d.emit o).nextTag = d.nextTag ∧ (d.emit o).stalls = d.stalls ∧
    (d.emit o).paddocks = d.paddocks ∧ (d.emit o).old = d.old ∧ (d.emit o).tth = d.tth ∧ (d.emit o).shapes = d.shapes ∧
    (d.emit o).chk = d.chk ∧ (d.emit o).shd = d.shd ∧ (d.emit o).barns = d.barns ∧ (d.emit o).bundles = d.bundles ∧ (d.emit o).fabric = d.fabric ∧
    (d.emit o).evq = d.evq ∧ (d.emit o).wmks = d.wmks ∧ (d.emit o).fab = d.fab ∧ (d.emit o).paths = d.paths ∧
    (d.emit o).free = d.free ∧ (d.emit o).nextId = d.nextId ∧ (d.emit o).subSeq = d.subSeq ∧ (d.emit o).admSeq = d.admSeq ∧
    (d.emit o).useStamp = d.useStamp := by
  repeat' constructor

@[simp] theorem Dev.event_gets (d : Dev) (code source d0 d1 d2 : Nat) (y : Nat) :
    (d.event code source d0 d1 d2).link y = d.link y ∧ (d.event code source d0 d1 d2).ses y = d.ses y ∧ (d.event code source d0 d1 d2).qp y = d.qp y ∧
    (d.event code source d0 d1 d2).stall y = d.stall y ∧ (d.event code source d0 d1 d2).barn y = d.barn y ∧ (d.event code source d0 d1 d2).pad y = d.pad y ∧
    (d.event code source d0 d1 d2).wmk y = d.wmk y ∧ (d.event code source d0 d1 d2).shape y = d.shape y ∧ (d.event code source d0 d1 d2).findCmd y = d.findCmd y ∧
    (d.event code source d0 d1 d2).tether y = d.tether y ∧ (d.event code source d0 d1 d2).held y = d.held y := by
  repeat' constructor

@[simp] theorem Dev.event_path (d : Dev) (code source d0 d1 d2 : Nat) (y : Path) : (d.event code source d0 d1 d2).path y = d.path y := rfl

/-- `event` changes `evq` alone. -/
@[simp] theorem Dev.event_fields (d : Dev) (code source d0 d1 d2 : Nat) :
    (d.event code source d0 d1 d2).now = d.now ∧ (d.event code source d0 d1 d2).ytRun = d.ytRun ∧ (d.event code source d0 d1 d2).glb = d.glb ∧ (d.event code source d0 d1 d2).fuses = d.fuses ∧
    (d.event code source d0 d1 d2).tap = d.tap ∧ (d.event code source d0 d1 d2).bru = d.bru ∧ (d.event code source d0 d1 d2).clk = d.clk ∧ (d.event code source d0 d1 d2).pwr = d.pwr ∧
    (d.event code source d0 d1 d2).plp = d.plp ∧ (d.event code source d0 d1 d2).pcie = d.pcie ∧ (d.event code source d0 d1 d2).lnkc = d.lnkc ∧ (d.event code source d0 d1 d2).links = d.links ∧
    (d.event code source d0 d1 d2).sessions = d.sessions ∧ (d.event code source d0 d1 d2).qps = d.qps ∧ (d.event code source d0 d1 d2).arb = d.arb ∧ (d.event code source d0 d1 d2).cmds = d.cmds ∧
    (d.event code source d0 d1 d2).reads = d.reads ∧ (d.event code source d0 d1 d2).writes = d.writes ∧ (d.event code source d0 d1 d2).nextTag = d.nextTag ∧ (d.event code source d0 d1 d2).stalls = d.stalls ∧
    (d.event code source d0 d1 d2).paddocks = d.paddocks ∧ (d.event code source d0 d1 d2).old = d.old ∧ (d.event code source d0 d1 d2).tth = d.tth ∧ (d.event code source d0 d1 d2).shapes = d.shapes ∧
    (d.event code source d0 d1 d2).chk = d.chk ∧ (d.event code source d0 d1 d2).shd = d.shd ∧ (d.event code source d0 d1 d2).barns = d.barns ∧ (d.event code source d0 d1 d2).bundles = d.bundles ∧ (d.event code source d0 d1 d2).fabric = d.fabric ∧
    (d.event code source d0 d1 d2).wmks = d.wmks ∧ (d.event code source d0 d1 d2).fab = d.fab ∧ (d.event code source d0 d1 d2).paths = d.paths ∧ (d.event code source d0 d1 d2).out = d.out ∧
    (d.event code source d0 d1 d2).free = d.free ∧ (d.event code source d0 d1 d2).nextId = d.nextId ∧ (d.event code source d0 d1 d2).subSeq = d.subSeq ∧ (d.event code source d0 d1 d2).admSeq = d.admSeq ∧
    (d.event code source d0 d1 d2).useStamp = d.useStamp := by
  repeat' constructor

@[simp] theorem Dev.tetherSetTo_gets (d : Dev) (t : Nat) (v : DWord) (y : Nat) :
    (d.tetherSetTo t v).link y = d.link y ∧ (d.tetherSetTo t v).ses y = d.ses y ∧ (d.tetherSetTo t v).qp y = d.qp y ∧
    (d.tetherSetTo t v).stall y = d.stall y ∧ (d.tetherSetTo t v).barn y = d.barn y ∧ (d.tetherSetTo t v).pad y = d.pad y ∧
    (d.tetherSetTo t v).wmk y = d.wmk y ∧ (d.tetherSetTo t v).shape y = d.shape y ∧ (d.tetherSetTo t v).findCmd y = d.findCmd y ∧
    (d.tetherSetTo t v).held y = d.held y := by
  repeat' constructor

@[simp] theorem Dev.tetherSetTo_path (d : Dev) (t : Nat) (v : DWord) (y : Path) : (d.tetherSetTo t v).path y = d.path y := rfl

/-- `tetherSetTo` changes `tth` alone. -/
@[simp] theorem Dev.tetherSetTo_fields (d : Dev) (t : Nat) (v : DWord) :
    (d.tetherSetTo t v).now = d.now ∧ (d.tetherSetTo t v).ytRun = d.ytRun ∧ (d.tetherSetTo t v).glb = d.glb ∧ (d.tetherSetTo t v).fuses = d.fuses ∧
    (d.tetherSetTo t v).tap = d.tap ∧ (d.tetherSetTo t v).bru = d.bru ∧ (d.tetherSetTo t v).clk = d.clk ∧ (d.tetherSetTo t v).pwr = d.pwr ∧
    (d.tetherSetTo t v).plp = d.plp ∧ (d.tetherSetTo t v).pcie = d.pcie ∧ (d.tetherSetTo t v).lnkc = d.lnkc ∧ (d.tetherSetTo t v).links = d.links ∧
    (d.tetherSetTo t v).sessions = d.sessions ∧ (d.tetherSetTo t v).qps = d.qps ∧ (d.tetherSetTo t v).arb = d.arb ∧ (d.tetherSetTo t v).cmds = d.cmds ∧
    (d.tetherSetTo t v).reads = d.reads ∧ (d.tetherSetTo t v).writes = d.writes ∧ (d.tetherSetTo t v).nextTag = d.nextTag ∧ (d.tetherSetTo t v).stalls = d.stalls ∧
    (d.tetherSetTo t v).paddocks = d.paddocks ∧ (d.tetherSetTo t v).old = d.old ∧ (d.tetherSetTo t v).shapes = d.shapes ∧ (d.tetherSetTo t v).chk = d.chk ∧
    (d.tetherSetTo t v).shd = d.shd ∧ (d.tetherSetTo t v).barns = d.barns ∧ (d.tetherSetTo t v).bundles = d.bundles ∧ (d.tetherSetTo t v).fabric = d.fabric ∧ (d.tetherSetTo t v).evq = d.evq ∧
    (d.tetherSetTo t v).wmks = d.wmks ∧ (d.tetherSetTo t v).fab = d.fab ∧ (d.tetherSetTo t v).paths = d.paths ∧ (d.tetherSetTo t v).out = d.out ∧
    (d.tetherSetTo t v).free = d.free ∧ (d.tetherSetTo t v).nextId = d.nextId ∧ (d.tetherSetTo t v).subSeq = d.subSeq ∧ (d.tetherSetTo t v).admSeq = d.admSeq ∧
    (d.tetherSetTo t v).useStamp = d.useStamp := by
  repeat' constructor

@[simp] theorem Dev.tetherAddTo_gets (d : Dev) (t n : Nat) (y : Nat) :
    (d.tetherAddTo t n).link y = d.link y ∧ (d.tetherAddTo t n).ses y = d.ses y ∧ (d.tetherAddTo t n).qp y = d.qp y ∧
    (d.tetherAddTo t n).stall y = d.stall y ∧ (d.tetherAddTo t n).barn y = d.barn y ∧ (d.tetherAddTo t n).pad y = d.pad y ∧
    (d.tetherAddTo t n).wmk y = d.wmk y ∧ (d.tetherAddTo t n).shape y = d.shape y ∧ (d.tetherAddTo t n).findCmd y = d.findCmd y ∧
    (d.tetherAddTo t n).held y = d.held y := by
  repeat' constructor

@[simp] theorem Dev.tetherAddTo_path (d : Dev) (t n : Nat) (y : Path) : (d.tetherAddTo t n).path y = d.path y := rfl

/-- `tetherAddTo` changes `tth` alone. -/
@[simp] theorem Dev.tetherAddTo_fields (d : Dev) (t n : Nat) :
    (d.tetherAddTo t n).now = d.now ∧ (d.tetherAddTo t n).ytRun = d.ytRun ∧ (d.tetherAddTo t n).glb = d.glb ∧ (d.tetherAddTo t n).fuses = d.fuses ∧
    (d.tetherAddTo t n).tap = d.tap ∧ (d.tetherAddTo t n).bru = d.bru ∧ (d.tetherAddTo t n).clk = d.clk ∧ (d.tetherAddTo t n).pwr = d.pwr ∧
    (d.tetherAddTo t n).plp = d.plp ∧ (d.tetherAddTo t n).pcie = d.pcie ∧ (d.tetherAddTo t n).lnkc = d.lnkc ∧ (d.tetherAddTo t n).links = d.links ∧
    (d.tetherAddTo t n).sessions = d.sessions ∧ (d.tetherAddTo t n).qps = d.qps ∧ (d.tetherAddTo t n).arb = d.arb ∧ (d.tetherAddTo t n).cmds = d.cmds ∧
    (d.tetherAddTo t n).reads = d.reads ∧ (d.tetherAddTo t n).writes = d.writes ∧ (d.tetherAddTo t n).nextTag = d.nextTag ∧ (d.tetherAddTo t n).stalls = d.stalls ∧
    (d.tetherAddTo t n).paddocks = d.paddocks ∧ (d.tetherAddTo t n).old = d.old ∧ (d.tetherAddTo t n).shapes = d.shapes ∧ (d.tetherAddTo t n).chk = d.chk ∧
    (d.tetherAddTo t n).shd = d.shd ∧ (d.tetherAddTo t n).barns = d.barns ∧ (d.tetherAddTo t n).bundles = d.bundles ∧ (d.tetherAddTo t n).fabric = d.fabric ∧ (d.tetherAddTo t n).evq = d.evq ∧
    (d.tetherAddTo t n).wmks = d.wmks ∧ (d.tetherAddTo t n).fab = d.fab ∧ (d.tetherAddTo t n).paths = d.paths ∧ (d.tetherAddTo t n).out = d.out ∧
    (d.tetherAddTo t n).free = d.free ∧ (d.tetherAddTo t n).nextId = d.nextId ∧ (d.tetherAddTo t n).subSeq = d.subSeq ∧ (d.tetherAddTo t n).admSeq = d.admSeq ∧
    (d.tetherAddTo t n).useStamp = d.useStamp := by
  repeat' constructor

@[simp] theorem Dev.countLost_gets (d : Dev) (n : Nat) (y : Nat) :
    (d.countLost n).link y = d.link y ∧ (d.countLost n).qp y = d.qp y ∧ (d.countLost n).stall y = d.stall y ∧
    (d.countLost n).barn y = d.barn y ∧ (d.countLost n).pad y = d.pad y ∧ (d.countLost n).wmk y = d.wmk y ∧
    (d.countLost n).shape y = d.shape y ∧ (d.countLost n).findCmd y = d.findCmd y ∧ (d.countLost n).tether y = d.tether y := by
  repeat' constructor

@[simp] theorem Dev.countLost_path (d : Dev) (n : Nat) (y : Path) : (d.countLost n).path y = d.path y := rfl

/-- `countLost` changes `sessions` alone. -/
@[simp] theorem Dev.countLost_fields (d : Dev) (n : Nat) :
    (d.countLost n).now = d.now ∧ (d.countLost n).ytRun = d.ytRun ∧ (d.countLost n).glb = d.glb ∧ (d.countLost n).fuses = d.fuses ∧
    (d.countLost n).tap = d.tap ∧ (d.countLost n).bru = d.bru ∧ (d.countLost n).clk = d.clk ∧ (d.countLost n).pwr = d.pwr ∧
    (d.countLost n).plp = d.plp ∧ (d.countLost n).pcie = d.pcie ∧ (d.countLost n).lnkc = d.lnkc ∧ (d.countLost n).links = d.links ∧
    (d.countLost n).qps = d.qps ∧ (d.countLost n).arb = d.arb ∧ (d.countLost n).cmds = d.cmds ∧ (d.countLost n).reads = d.reads ∧
    (d.countLost n).writes = d.writes ∧ (d.countLost n).nextTag = d.nextTag ∧ (d.countLost n).stalls = d.stalls ∧ (d.countLost n).paddocks = d.paddocks ∧
    (d.countLost n).old = d.old ∧ (d.countLost n).tth = d.tth ∧ (d.countLost n).shapes = d.shapes ∧ (d.countLost n).chk = d.chk ∧
    (d.countLost n).shd = d.shd ∧ (d.countLost n).barns = d.barns ∧ (d.countLost n).bundles = d.bundles ∧ (d.countLost n).fabric = d.fabric ∧ (d.countLost n).evq = d.evq ∧
    (d.countLost n).wmks = d.wmks ∧ (d.countLost n).fab = d.fab ∧ (d.countLost n).paths = d.paths ∧ (d.countLost n).out = d.out ∧
    (d.countLost n).free = d.free ∧ (d.countLost n).nextId = d.nextId ∧ (d.countLost n).subSeq = d.subSeq ∧ (d.countLost n).admSeq = d.admSeq ∧
    (d.countLost n).useStamp = d.useStamp := by
  repeat' constructor

@[simp] theorem Dev.qpError_gets (d : Dev) (q code : Nat) (y : Nat) :
    (d.qpError q code).link y = d.link y ∧ (d.qpError q code).ses y = d.ses y ∧ (d.qpError q code).stall y = d.stall y ∧
    (d.qpError q code).barn y = d.barn y ∧ (d.qpError q code).pad y = d.pad y ∧ (d.qpError q code).wmk y = d.wmk y ∧
    (d.qpError q code).shape y = d.shape y ∧ (d.qpError q code).findCmd y = d.findCmd y ∧ (d.qpError q code).tether y = d.tether y ∧
    (d.qpError q code).held y = d.held y := by
  repeat' constructor

@[simp] theorem Dev.qpError_path (d : Dev) (q code : Nat) (y : Path) : (d.qpError q code).path y = d.path y := rfl

/-- `qpError` changes `qps` alone. -/
@[simp] theorem Dev.qpError_fields (d : Dev) (q code : Nat) :
    (d.qpError q code).now = d.now ∧ (d.qpError q code).ytRun = d.ytRun ∧ (d.qpError q code).glb = d.glb ∧ (d.qpError q code).fuses = d.fuses ∧
    (d.qpError q code).tap = d.tap ∧ (d.qpError q code).bru = d.bru ∧ (d.qpError q code).clk = d.clk ∧ (d.qpError q code).pwr = d.pwr ∧
    (d.qpError q code).plp = d.plp ∧ (d.qpError q code).pcie = d.pcie ∧ (d.qpError q code).lnkc = d.lnkc ∧ (d.qpError q code).links = d.links ∧
    (d.qpError q code).sessions = d.sessions ∧ (d.qpError q code).arb = d.arb ∧ (d.qpError q code).cmds = d.cmds ∧ (d.qpError q code).reads = d.reads ∧
    (d.qpError q code).writes = d.writes ∧ (d.qpError q code).nextTag = d.nextTag ∧ (d.qpError q code).stalls = d.stalls ∧ (d.qpError q code).paddocks = d.paddocks ∧
    (d.qpError q code).old = d.old ∧ (d.qpError q code).tth = d.tth ∧ (d.qpError q code).shapes = d.shapes ∧ (d.qpError q code).chk = d.chk ∧
    (d.qpError q code).shd = d.shd ∧ (d.qpError q code).barns = d.barns ∧ (d.qpError q code).bundles = d.bundles ∧ (d.qpError q code).fabric = d.fabric ∧ (d.qpError q code).evq = d.evq ∧
    (d.qpError q code).wmks = d.wmks ∧ (d.qpError q code).fab = d.fab ∧ (d.qpError q code).paths = d.paths ∧ (d.qpError q code).out = d.out ∧
    (d.qpError q code).free = d.free ∧ (d.qpError q code).nextId = d.nextId ∧ (d.qpError q code).subSeq = d.subSeq ∧ (d.qpError q code).admSeq = d.admSeq ∧
    (d.qpError q code).useStamp = d.useStamp := by
  repeat' constructor

@[simp] theorem Dev.freeCredits_gets (d : Dev) (n : Nat) (vc : Vc) (len : Nat) (y : Nat) :
    (d.freeCredits n vc len).ses y = d.ses y ∧ (d.freeCredits n vc len).qp y = d.qp y ∧ (d.freeCredits n vc len).stall y = d.stall y ∧
    (d.freeCredits n vc len).barn y = d.barn y ∧ (d.freeCredits n vc len).pad y = d.pad y ∧ (d.freeCredits n vc len).wmk y = d.wmk y ∧
    (d.freeCredits n vc len).shape y = d.shape y ∧ (d.freeCredits n vc len).findCmd y = d.findCmd y ∧ (d.freeCredits n vc len).tether y = d.tether y ∧
    (d.freeCredits n vc len).held y = d.held y := by
  repeat' constructor

@[simp] theorem Dev.freeCredits_path (d : Dev) (n : Nat) (vc : Vc) (len : Nat) (y : Path) : (d.freeCredits n vc len).path y = d.path y := rfl

/-- `freeCredits` changes `links` alone. -/
@[simp] theorem Dev.freeCredits_fields (d : Dev) (n : Nat) (vc : Vc) (len : Nat) :
    (d.freeCredits n vc len).now = d.now ∧ (d.freeCredits n vc len).ytRun = d.ytRun ∧ (d.freeCredits n vc len).glb = d.glb ∧ (d.freeCredits n vc len).fuses = d.fuses ∧
    (d.freeCredits n vc len).tap = d.tap ∧ (d.freeCredits n vc len).bru = d.bru ∧ (d.freeCredits n vc len).clk = d.clk ∧ (d.freeCredits n vc len).pwr = d.pwr ∧
    (d.freeCredits n vc len).plp = d.plp ∧ (d.freeCredits n vc len).pcie = d.pcie ∧ (d.freeCredits n vc len).lnkc = d.lnkc ∧ (d.freeCredits n vc len).sessions = d.sessions ∧
    (d.freeCredits n vc len).qps = d.qps ∧ (d.freeCredits n vc len).arb = d.arb ∧ (d.freeCredits n vc len).cmds = d.cmds ∧ (d.freeCredits n vc len).reads = d.reads ∧
    (d.freeCredits n vc len).writes = d.writes ∧ (d.freeCredits n vc len).nextTag = d.nextTag ∧ (d.freeCredits n vc len).stalls = d.stalls ∧ (d.freeCredits n vc len).paddocks = d.paddocks ∧
    (d.freeCredits n vc len).old = d.old ∧ (d.freeCredits n vc len).tth = d.tth ∧ (d.freeCredits n vc len).shapes = d.shapes ∧ (d.freeCredits n vc len).chk = d.chk ∧
    (d.freeCredits n vc len).shd = d.shd ∧ (d.freeCredits n vc len).barns = d.barns ∧ (d.freeCredits n vc len).bundles = d.bundles ∧ (d.freeCredits n vc len).fabric = d.fabric ∧ (d.freeCredits n vc len).evq = d.evq ∧
    (d.freeCredits n vc len).wmks = d.wmks ∧ (d.freeCredits n vc len).fab = d.fab ∧ (d.freeCredits n vc len).paths = d.paths ∧ (d.freeCredits n vc len).out = d.out ∧
    (d.freeCredits n vc len).free = d.free ∧ (d.freeCredits n vc len).nextId = d.nextId ∧ (d.freeCredits n vc len).subSeq = d.subSeq ∧ (d.freeCredits n vc len).admSeq = d.admSeq ∧
    (d.freeCredits n vc len).useStamp = d.useStamp := by
  repeat' constructor

end Sys2Proof.Machine
end

