-- ==== Sys2Proof/Laws/Commands.lean ====
section
/-! SUPPORT. What the shared operations on commands do: finding a command after a change, releasing write-buffer slots, the end of a
command. -/

namespace Sys2Proof.Machine

open Sys2Proof

theorem find_id_map (l : List Cmd) (c k : Nat) (f : Cmd → Cmd) (hf : ∀ x, (f x).id = x.id) :
    (l.map fun x => if x.id = c then f x else x).find? (fun x => x.id == k) =
      if k = c then (l.find? fun x => x.id == c).map f else l.find? fun x => x.id == k := by
  induction l with
  | nil => simp
  | cons x r ih =>
    simp only [List.map_cons]
    by_cases hx : x.id = c
    · by_cases hk : k = c
      · rw [if_pos hx, if_pos hk, List.find?_cons_of_pos (by simp [hf, hx, hk]), List.find?_cons_of_pos (by simp [hx])]
        rfl
      · rw [if_neg hk] at ih
        rw [if_pos hx, if_neg hk, List.find?_cons_of_neg (by simp [hf, hx, Ne.symm hk]),
          List.find?_cons_of_neg (by simp [hx, Ne.symm hk]), ih]
    · by_cases hk : k = c
      · rw [if_pos hk] at ih
        rw [if_neg hx, if_pos hk, List.find?_cons_of_neg (by simp [hx, hk]), List.find?_cons_of_neg (by simp [hx]), ih]
      · rw [if_neg hk] at ih
        rw [if_neg hx, if_neg hk]
        by_cases h2 : x.id = k
        · rw [List.find?_cons_of_pos (by simp [h2]), List.find?_cons_of_pos (by simp [h2])]
        · rw [List.find?_cons_of_neg (by simp [h2]), List.find?_cons_of_neg (by simp [h2]), ih]

/-- A change that keeps identifiers changes the command it names and no other. -/
theorem Dev.findCmd_updCmd (d : Dev) (c k : Nat) (f : Cmd → Cmd) (hf : ∀ x, (f x).id = x.id) :
    (d.updCmd c f).findCmd k = if k = c then (d.findCmd c).map f else d.findCmd k :=
  find_id_map d.cmds c k f hf

theorem Dev.findCmd_updCmd_self (d : Dev) (c : Nat) (f : Cmd → Cmd) (hf : ∀ x, (f x).id = x.id) :
    (d.updCmd c f).findCmd c = (d.findCmd c).map f := by
  rw [Dev.findCmd_updCmd d c c f hf, if_pos rfl]

theorem Dev.findCmd_updCmd_other (d : Dev) (c k : Nat) (f : Cmd → Cmd) (h : k ≠ c) (hf : ∀ x, (f x).id = x.id) :
    (d.updCmd c f).findCmd k = d.findCmd k := by
  rw [Dev.findCmd_updCmd d c k f hf, if_neg h]

theorem Dev.findCmd_id (d : Dev) (c : Nat) (x : Cmd) (h : d.findCmd c = some x) : x.id = c := by
  have := List.find?_some h
  simpa using this

theorem Dev.findCmd_mem (d : Dev) (c : Nat) (x : Cmd) (h : d.findCmd c = some x) : x ∈ d.cmds := List.mem_of_find?_eq_some h

/-- A command that has left is found no more; every other one is. -/
theorem Dev.findCmd_dropCmd (d : Dev) (c k : Nat) : (d.dropCmd c).findCmd k = if k = c then none else d.findCmd k := by
  simp only [Dev.findCmd, Dev.dropCmd, List.find?_filter]
  split
  · rename_i h
    subst h
    simp
  · rename_i h
    congr 1
    funext a
    by_cases ha : a.id = k
    · simp [ha, h]
    · simp [ha]

/-! ### Write-buffer slots -/

/-- The slots of a stopped barn that a command gives back. -/
theorem keepWb_frame (l : List (Nat × Nat × Nat)) (d : Dev) :
    (l.foldl (fun (d : Dev) e =>
        if d.barnStopped (e.2.1 / 64) then d.updBarn (e.2.1 / 64) fun b => { b with wbKept := b.wbKept ++ [(e.2.1, e.2.2)] } else d) d) =
      { d with barns := (l.foldl (fun (d : Dev) e =>
        if d.barnStopped (e.2.1 / 64) then d.updBarn (e.2.1 / 64) fun b => { b with wbKept := b.wbKept ++ [(e.2.1, e.2.2)] } else d) d).barns } ∧
    ∀ b, (l.foldl (fun (d : Dev) e =>
        if d.barnStopped (e.2.1 / 64) then d.updBarn (e.2.1 / 64) fun b => { b with wbKept := b.wbKept ++ [(e.2.1, e.2.2)] } else d) d).barn b =
      { d.barn b with wbKept := ((l.foldl (fun (d : Dev) e =>
        if d.barnStopped (e.2.1 / 64) then d.updBarn (e.2.1 / 64) fun b => { b with wbKept := b.wbKept ++ [(e.2.1, e.2.2)] } else d) d).barn b).wbKept } := by
  induction l generalizing d with
  | nil => exact ⟨rfl, fun _ => rfl⟩
  | cons e r ih =>
    simp only [List.foldl_cons]
    obtain ⟨h1, h2⟩ := ih (if d.barnStopped (e.2.1 / 64) = true then
      d.updBarn (e.2.1 / 64) fun b => { b with wbKept := b.wbKept ++ [(e.2.1, e.2.2)] } else d)
    refine ⟨?_, fun b => ?_⟩
    · refine h1.trans ?_
      split <;> rfl
    · refine (h2 b).trans ?_
      split
      · simp only [Dev.barn_updBarn]
        split
        · rename_i hb
          rw [hb]
        · rfl
      · rfl

/-- Releasing write-buffer slots empties the command's own list; of the barns only the kept slots change. -/
theorem Dev.releaseWb_frame (d : Dev) (c : Cmd) (k : Bool) :
    (d.releaseWb c k) = { d with cmds := (d.updCmd c.id fun x => { x with wb := [] }).cmds, barns := (d.releaseWb c k).barns } ∧
    ∀ b, (d.releaseWb c k).barn b = { d.barn b with wbKept := ((d.releaseWb c k).barn b).wbKept } := by
  unfold Dev.releaseWb
  cases k with
  | false => exact ⟨rfl, fun _ => rfl⟩
  | true =>
    obtain ⟨h1, h2⟩ := keepWb_frame c.wb (d.updCmd c.id fun x => { x with wb := [] })
    exact ⟨h1.trans rfl, fun b => (h2 b).trans rfl⟩

/-! ### The end of a command -/

/-- The record of a command whose outcome is fixed (R342). -/
def Cmd.done (x : Cmd) (status bytes info : Nat) : Cmd :=
  { x with wb := [], stage := .ended, effected := true, status := status, bytes := bytes, info := info, grants := [], fetches := [],
           isWaiter := false, commit := none, searching := false }

/-- What the end of a command does: its own record, its READs, its wait slot and turns, and the slots of stopped barns. -/
theorem Dev.finish_frame (d : Dev) (c st b i : Nat) :
    d.finish c st b i = { d with
      cmds := (d.finish c st b i).cmds, barns := (d.finish c st b i).barns,
      reads := d.reads.filter (fun r => !readOfCmd c r),
      tth := { d.tth with waiters := d.tth.waiters.filter (fun w => w.cmd != c), ready := d.tth.ready.filter (fun w => w.1 != c) },
      arb := { d.arb with wbRound := d.arb.wbRound.filter (fun w => w != c), round := (d.finish c st b i).arb.round } } ∧
    (∀ n, (d.finish c st b i).barn n = { d.barn n with wbKept := ((d.finish c st b i).barn n).wbKept }) ∧
    ∀ k, (d.finish c st b i).findCmd k = if k = c then (d.findCmd c).map (fun x => x.done st b i) else d.findCmd k := by
  unfold Dev.finish
  cases h : d.findCmd c with
  | none =>
    refine ⟨rfl, fun _ => rfl, fun k => ?_⟩
    change (d.updCmd c _).findCmd k = _
    rw [Dev.findCmd_updCmd _ _ _ _ (by simp), h]
    split <;> rfl
  | some x =>
    obtain ⟨h1, h2⟩ := Dev.releaseWb_frame d x true
    dsimp only
    have hid := Dev.findCmd_id d c x h
    generalize d.releaseWb x true = e at h1 h2
    have hc : ∀ k, e.findCmd k = if k = c then (d.findCmd c).map (fun x => { x with wb := [] }) else d.findCmd k := by
      intro k
      rw [h1]
      change (d.updCmd x.id _).findCmd k = _
      rw [Dev.findCmd_updCmd _ _ _ _ (by simp), hid]
    refine ⟨?_, fun n => h2 n, fun k => ?_⟩
    · rw [h1]
      rfl
    · change (e.updCmd c _).findCmd k = _
      rw [Dev.findCmd_updCmd _ _ _ _ (by simp)]
      split
      · rw [hc, if_pos rfl, h]
        rfl
      · rename_i hk
        rw [hc, if_neg hk]

theorem Dev.findCmd_finish (d : Dev) (c st b i k : Nat) :
    (d.finish c st b i).findCmd k = if k = c then (d.findCmd c).map (fun x => x.done st b i) else d.findCmd k :=
  (d.finish_frame c st b i).2.2 k

/-- The end of a command leaves these fields as they are. -/
@[simp] theorem Dev.finish_fields (d : Dev) (c st b i : Nat) :
    (d.finish c st b i).now = d.now ∧ (d.finish c st b i).ytRun = d.ytRun ∧ (d.finish c st b i).glb = d.glb ∧
    (d.finish c st b i).fuses = d.fuses ∧ (d.finish c st b i).tap = d.tap ∧ (d.finish c st b i).bru = d.bru ∧
    (d.finish c st b i).clk = d.clk ∧ (d.finish c st b i).pwr = d.pwr ∧ (d.finish c st b i).plp = d.plp ∧
    (d.finish c st b i).pcie = d.pcie ∧ (d.finish c st b i).lnkc = d.lnkc ∧ (d.finish c st b i).links = d.links ∧
    (d.finish c st b i).sessions = d.sessions ∧ (d.finish c st b i).qps = d.qps ∧ (d.finish c st b i).writes = d.writes ∧
    (d.finish c st b i).nextTag = d.nextTag ∧ (d.finish c st b i).stalls = d.stalls ∧ (d.finish c st b i).paddocks = d.paddocks ∧
    (d.finish c st b i).old = d.old ∧ (d.finish c st b i).shapes = d.shapes ∧ (d.finish c st b i).chk = d.chk ∧
    (d.finish c st b i).shd = d.shd ∧ (d.finish c st b i).bundles = d.bundles ∧ (d.finish c st b i).fabric = d.fabric ∧ (d.finish c st b i).evq = d.evq ∧
    (d.finish c st b i).wmks = d.wmks ∧ (d.finish c st b i).fab = d.fab ∧ (d.finish c st b i).paths = d.paths ∧
    (d.finish c st b i).out = d.out ∧ (d.finish c st b i).free = d.free ∧ (d.finish c st b i).nextId = d.nextId ∧
    (d.finish c st b i).subSeq = d.subSeq ∧ (d.finish c st b i).admSeq = d.admSeq ∧ (d.finish c st b i).useStamp = d.useStamp ∧
    (d.finish c st b i).tth.counters = d.tth.counters ∧ (d.finish c st b i).tth.perSes = d.tth.perSes ∧
    (d.finish c st b i).tth.cntFull = d.tth.cntFull ∧ (d.finish c st b i).tth.cntTimeout = d.tth.cntTimeout ∧
    (d.finish c st b i).tth.waiters = d.tth.waiters.filter (fun w => w.cmd != c) ∧
    (d.finish c st b i).tth.ready = d.tth.ready.filter (fun w => w.1 != c) ∧
    (d.finish c st b i).reads = d.reads.filter (fun r => !readOfCmd c r) := by
  rw [(d.finish_frame c st b i).1]
  repeat' constructor

@[simp] theorem Dev.finish_gets (d : Dev) (c st b i y : Nat) :
    (d.finish c st b i).link y = d.link y ∧ (d.finish c st b i).ses y = d.ses y ∧ (d.finish c st b i).qp y = d.qp y ∧
    (d.finish c st b i).stall y = d.stall y ∧ (d.finish c st b i).pad y = d.pad y ∧ (d.finish c st b i).wmk y = d.wmk y ∧
    (d.finish c st b i).shape y = d.shape y ∧ (d.finish c st b i).held y = d.held y ∧
    (d.finish c st b i).tether y = d.tether y := by
  simp [Dev.link, Dev.ses, Dev.qp, Dev.stall, Dev.pad, Dev.wmk, Dev.shape, Dev.held, Dev.tether]

@[simp] theorem Dev.finish_path (d : Dev) (c st b i : Nat) (y : Path) : (d.finish c st b i).path y = d.path y := by
  simp [Dev.path]

/-- PADDOCK DELETE's state of the paddock is all that `undelete` changes. -/
theorem Dev.undelete_frame (d : Dev) (c : Nat) : d.undelete c = { d with paddocks := (d.undelete c).paddocks } := by
  unfold Dev.undelete
  split
  · rfl
  · dsimp only
    split <;> rfl

/-- A command that is no PADDOCK command changes no paddock when it is taken back. -/
theorem Dev.undelete_of_ne (d : Dev) (c : Nat) (h : ∀ x, d.findCmd c = some x → x.body.opcode ≠ Opcode.paddock.code) : d.undelete c = d := by
  unfold Dev.undelete
  split
  · rfl
  · rename_i x hx
    dsimp only
    rw [if_neg]
    exact fun y => h x hx y.1

/-- What the early end of a command does: as `finish`, with the output left dropped and a PADDOCK DELETE taken back. -/
theorem Dev.abortWith_frame (d : Dev) (c st info : Nat) :
    ∃ n, (∀ x, d.findCmd c = some x → x.body.isWrite = true → n = x.gotBytes) ∧
    d.abortWith c st info = { d with
      cmds := (d.abortWith c st info).cmds, barns := (d.abortWith c st info).barns, paddocks := (d.undelete c).paddocks,
      reads := d.reads.filter (fun r => !readOfCmd c r),
      tth := { d.tth with waiters := d.tth.waiters.filter (fun w => w.cmd != c), ready := d.tth.ready.filter (fun w => w.1 != c) },
      arb := { d.arb with wbRound := d.arb.wbRound.filter (fun w => w != c), round := (d.abortWith c st info).arb.round } } ∧
    (∀ m, (d.abortWith c st info).barn m = { d.barn m with wbKept := ((d.abortWith c st info).barn m).wbKept }) ∧
    ∀ k, (d.abortWith c st info).findCmd k =
      if k = c then (d.findCmd c).map (fun x => ({ x with outLeft := [] } : Cmd).done st n info) else d.findCmd k := by
  have hu := d.undelete_frame c
  have huc : ∀ k, (d.undelete c).findCmd k = d.findCmd k := fun k => by
    rw [hu]
    rfl
  obtain ⟨n, hn, he⟩ : ∃ n, (∀ x, (d.undelete c).findCmd c = some x → x.body.isWrite = true → n = x.gotBytes) ∧
      d.abortWith c st info = ((d.undelete c).updCmd c fun x => { x with outLeft := [], effected := true }).finish c st n info := by
    refine ⟨_, ?_, rfl⟩
    intro x hx hw
    rw [hx]
    simp [hw]
  obtain ⟨h1, h2, h3⟩ := (((d.undelete c).updCmd c fun x => { x with outLeft := [], effected := true }).finish_frame c st n info)
  rw [← he] at h1 h2 h3
  refine ⟨n, fun x hx => hn x (by rw [huc, hx]), ?_, ?_, fun k => ?_⟩
  · refine (h1.trans ?_)
    generalize d.abortWith c st info = e
    rw [hu]
    rfl
  · intro m
    refine (h2 m).trans ?_
    rw [hu]
    rfl
  · rw [h3 k]
    split
    · rw [Dev.findCmd_updCmd_self _ _ _ (by simp), huc]
      cases d.findCmd c <;> rfl
    · rename_i hk
      rw [Dev.findCmd_updCmd_other _ _ _ _ hk (by simp), huc]

/-- As `abortWith`, with the INFO the command has reached (R276). -/
theorem Dev.abort_frame (d : Dev) (c st : Nat) :
    ∃ n, (∀ x, d.findCmd c = some x → x.body.isWrite = true → n = x.gotBytes) ∧
    d.abort c st = { d with
      cmds := (d.abort c st).cmds, barns := (d.abort c st).barns, paddocks := (d.undelete c).paddocks,
      reads := d.reads.filter (fun r => !readOfCmd c r),
      tth := { d.tth with waiters := d.tth.waiters.filter (fun w => w.cmd != c), ready := d.tth.ready.filter (fun w => w.1 != c) },
      arb := { d.arb with wbRound := d.arb.wbRound.filter (fun w => w != c), round := (d.abort c st).arb.round } } ∧
    (∀ m, (d.abort c st).barn m = { d.barn m with wbKept := ((d.abort c st).barn m).wbKept }) ∧
    ∀ k, (d.abort c st).findCmd k =
      if k = c then (d.findCmd c).map (fun x => ({ x with outLeft := [] } : Cmd).done st n (d.infoNow x)) else d.findCmd k := by
  obtain ⟨n, h1, h2, h3, h4⟩ := d.abortWith_frame c st (((d.findCmd c).map d.infoNow).getD 0)
  refine ⟨n, h1, h2, h3, fun k => (h4 k).trans ?_⟩
  cases d.findCmd c <;> rfl

/-- The early end of a command leaves these fields as they are. -/
@[simp] theorem Dev.abort_fields (d : Dev) (c st : Nat) :
    (d.abort c st).now = d.now ∧ (d.abort c st).ytRun = d.ytRun ∧ (d.abort c st).glb = d.glb ∧ (d.abort c st).fuses = d.fuses ∧ (d.abort c st).tap = d.tap ∧
    (d.abort c st).bru = d.bru ∧ (d.abort c st).clk = d.clk ∧ (d.abort c st).pwr = d.pwr ∧ (d.abort c st).plp = d.plp ∧ (d.abort c st).pcie = d.pcie ∧
    (d.abort c st).lnkc = d.lnkc ∧ (d.abort c st).links = d.links ∧ (d.abort c st).sessions = d.sessions ∧ (d.abort c st).qps = d.qps ∧ (d.abort c st).writes = d.writes ∧
    (d.abort c st).nextTag = d.nextTag ∧ (d.abort c st).stalls = d.stalls ∧ (d.abort c st).old = d.old ∧ (d.abort c st).shapes = d.shapes ∧ (d.abort c st).chk = d.chk ∧
    (d.abort c st).shd = d.shd ∧ (d.abort c st).bundles = d.bundles ∧ (d.abort c st).fabric = d.fabric ∧ (d.abort c st).evq = d.evq ∧ (d.abort c st).wmks = d.wmks ∧ (d.abort c st).fab = d.fab ∧
    (d.abort c st).paths = d.paths ∧ (d.abort c st).out = d.out ∧ (d.abort c st).free = d.free ∧ (d.abort c st).nextId = d.nextId ∧ (d.abort c st).subSeq = d.subSeq ∧
    (d.abort c st).admSeq = d.admSeq ∧ (d.abort c st).useStamp = d.useStamp ∧
    (d.abort c st).tth.counters = d.tth.counters ∧ (d.abort c st).tth.perSes = d.tth.perSes ∧
    (d.abort c st).tth.cntFull = d.tth.cntFull ∧ (d.abort c st).tth.cntTimeout = d.tth.cntTimeout ∧
    (d.abort c st).tth.waiters = d.tth.waiters.filter (fun w => w.cmd != c) ∧
    (d.abort c st).tth.ready = d.tth.ready.filter (fun w => w.1 != c) ∧
    (d.abort c st).reads = d.reads.filter (fun r => !readOfCmd c r) ∧ (d.abort c st).paddocks = (d.undelete c).paddocks := by
  obtain ⟨n, _, h, _, _⟩ := d.abort_frame c st
  rw [h]
  repeat' constructor

@[simp] theorem Dev.abort_gets (d : Dev) (c st y : Nat) :
    (d.abort c st).link y = d.link y ∧ (d.abort c st).ses y = d.ses y ∧ (d.abort c st).qp y = d.qp y ∧ (d.abort c st).stall y = d.stall y ∧
    (d.abort c st).wmk y = d.wmk y ∧ (d.abort c st).shape y = d.shape y ∧ (d.abort c st).held y = d.held y ∧ (d.abort c st).tether y = d.tether y := by
  simp [Dev.link, Dev.ses, Dev.qp, Dev.stall, Dev.wmk, Dev.shape, Dev.held, Dev.tether]

theorem Dev.findCmd_abort_other (d : Dev) (c st k : Nat) (h : k ≠ c) : (d.abort c st).findCmd k = d.findCmd k := by
  obtain ⟨n, _, _, _, h3⟩ := d.abort_frame c st
  rw [h3, if_neg h]

end Sys2Proof.Machine
end

