-- ==== Sys2Proof/Laws/Shed.lean ====
section
/-! SUPPORT. What the shed's operations can do. `ShedOnly`: only the shed and the identifier counter change. `StallsOnly`: only the
stalls, and no CAM entry appears. `JobWork`: what shed work of a key can change at most. -/

namespace Sys2Proof.Machine

open Sys2Proof

/-! ### Only the shed changes -/

/-- Only the shed controller and the identifier counter differ. -/
def ShedOnly (d e : Dev) : Prop := e = { d with shd := e.shd, nextId := e.nextId }

theorem ShedOnly.refl (d : Dev) : ShedOnly d d := rfl

theorem ShedOnly.trans {a b c : Dev} (h1 : ShedOnly a b) (h2 : ShedOnly b c) : ShedOnly a c := by
  unfold ShedOnly at *
  refine h2.trans ?_
  rw [h1]

theorem ShedOnly.gets {d e : Dev} (h : ShedOnly d e) :
    e.cmds = d.cmds ∧ e.stalls = d.stalls ∧ e.paddocks = d.paddocks ∧ e.sessions = d.sessions ∧ e.links = d.links ∧ e.qps = d.qps ∧
    e.barns = d.barns ∧ e.reads = d.reads ∧ e.tth = d.tth ∧ e.arb = d.arb ∧ e.evq = d.evq ∧ e.now = d.now ∧ e.bru = d.bru ∧
    e.chk = d.chk ∧ e.out = d.out ∧ e.glb = d.glb ∧ e.old = d.old := by
  rw [h]
  repeat' constructor

theorem foldl_shedOnly {α : Type} (f : Dev → α → Dev) (hf : ∀ d a, ShedOnly d (f d a)) (l : List α) (d : Dev) :
    ShedOnly d (l.foldl f d) := by
  induction l generalizing d with
  | nil => exact ShedOnly.refl d
  | cons a r ih => exact (hf d a).trans (ih _)

theorem updSblk_shedOnly (d : Dev) (i : Nat) (f : Sblk → Sblk) : ShedOnly d (d.updSblk i f) := rfl

theorem queueErase_shedOnly (d : Dev) (i : Nat) : ShedOnly d (d.queueErase i) := by
  unfold Dev.queueErase
  split <;> rfl

theorem allocSblk_shedOnly (d : Dev) (g : Nat) (m : Bool) (u : SblkUse) (i : Nat) (e : Dev) (h : d.allocSblk g m u = some (i, e)) :
    ShedOnly d e := by
  unfold Dev.allocSblk at h
  split at h
  · cases h
  · cases h
    exact (updSblk_shedOnly d _ _).trans (queueErase_shedOnly _ _)

theorem releaseSblk_shedOnly (d : Dev) (i : Nat) : ShedOnly d (d.releaseSblk i) := by
  unfold Dev.releaseSblk
  split
  · rfl
  · exact (updSblk_shedOnly d _ _).trans (queueErase_shedOnly _ _)

theorem addProg_shedOnly (d : Dev) (w : ProgFor) : ShedOnly d (d.addProg w) := rfl

theorem findSome_shedOnly (d : Dev) (use : SblkUse) (m : Bool) (l : List Nat) (i : Nat) (e : Dev)
    (h : (l.findSome? fun g => d.allocSblk g m use) = some (i, e)) : ShedOnly d e := by
  obtain ⟨g, _, hg⟩ := List.exists_of_findSome?_eq_some h
  exact allocSblk_shedOnly d g m use i e hg

theorem journalHead_shedOnly (d : Dev) (n : Nat) (e : Dev) (h : d.journalHead n = some e) : ShedOnly d e := by
  unfold Dev.journalHead at h
  split at h
  · cases h
    exact ShedOnly.refl d
  · dsimp only at h
    split at h
    · cases h
    · rename_i i e1 h1
      cases h
      exact (findSome_shedOnly d _ _ _ i e1 h1).trans rfl

theorem issueUnit_shedOnly (d : Dev) : ShedOnly d d.issueUnit := by
  unfold Dev.issueUnit
  split
  · exact ShedOnly.refl d
  · dsimp only
    split
    · exact ShedOnly.refl d
    · rename_i e he
      exact (journalHead_shedOnly d _ e he).trans rfl

theorem appendRec_shedOnly (d : Dev) (b : JBody) : ShedOnly d (d.appendRec b).2 := by
  unfold Dev.appendRec
  generalize (if d.shd.gather.isEmpty = true then d.now else d.shd.gatherAt) = t
  dsimp only
  split
  · rfl
  · exact ShedOnly.trans (b := { d with shd := _ }) rfl (issueUnit_shedOnly _)

theorem holdLsn_shedOnly (d : Dev) (n : Nat) : ShedOnly d (d.holdLsn n) := rfl

theorem holdLsns_shedOnly (d : Dev) (l : List Nat) : ShedOnly d (d.holdLsns l) := foldl_shedOnly _ holdLsn_shedOnly l d

theorem unmapIfEmpty_shedOnly (d : Dev) (n : Nat) : ShedOnly d (d.unmapIfEmpty n) := by
  unfold Dev.unmapIfEmpty
  dsimp only
  split
  · exact ShedOnly.refl d
  · exact ShedOnly.trans (b := { d with shd := _ }) rfl (appendRec_shedOnly _ _)

theorem releaseLsn_shedOnly (d : Dev) (n : Nat) : ShedOnly d (d.releaseLsn n) := by
  unfold Dev.releaseLsn
  dsimp only
  split
  · exact ShedOnly.trans (b := { d with shd := _ }) rfl (unmapIfEmpty_shedOnly _ _)
  · rfl

theorem releaseLsns_shedOnly (d : Dev) (l : List Nat) : ShedOnly d (d.releaseLsns l) := foldl_shedOnly _ releaseLsn_shedOnly l d

theorem updJob_shedOnly (d : Dev) (i : Nat) (f : Job → Job) : ShedOnly d (d.updJob i f) := rfl

theorem dropJob_shedOnly (d : Dev) (i : Nat) : ShedOnly d (d.dropJob i) := rfl

theorem writeIdentity_shedOnly (d : Dev) (f : Identity → Identity) : ShedOnly d (d.writeIdentity f) := by
  unfold Dev.writeIdentity
  split
  · split
    · exact ShedOnly.refl d
    · exact addProg_shedOnly d _
  · exact ShedOnly.refl d

theorem openLog_shedOnly (d : Dev) (lblk i : Nat) (e : Dev) (h : d.openLog lblk = some (i, e)) : ShedOnly d e := by
  unfold Dev.openLog at h
  split at h
  · cases h
    exact ShedOnly.refl d
  · split at h
    · cases h
    · rename_i j e1 h1
      cases h
      exact (allocSblk_shedOnly d _ _ _ _ e1 h1).trans (ShedOnly.trans (b := { e1 with shd := _ }) rfl (appendRec_shedOnly _ _))

theorem writeStripe_shedOnly (d : Dev) (n kind : Nat) (b : List Byte) (job seg : Nat) (e : Dev)
    (h : d.writeStripe n kind b job seg = some e) : ShedOnly d e := by
  unfold Dev.writeStripe at h
  split at h
  · cases h
  · rename_i i e1 h1
    dsimp only at h
    split at h
    · cases h
    · cases h
      exact (openLog_shedOnly d _ i e1 h1).trans ((updSblk_shedOnly e1 _ _).trans (addProg_shedOnly _ _))

theorem jobStripes_shedOnly (l : List Nat) (d : Dev) (job kind : Nat) (r : Rec) (lsns : List (Option Nat)) (left : Nat) :
    ShedOnly d (d.jobStripes job kind r l lsns left).2.2.2 := by
  induction l generalizing d lsns left with
  | nil => exact ShedOnly.refl d
  | cons i is ih =>
    unfold Dev.jobStripes
    split
    · exact ShedOnly.refl d
    · rename_i n _
      split
      · exact ShedOnly.refl d
      · rename_i e he
        exact (holdLsn_shedOnly d n).trans ((writeStripe_shedOnly _ _ _ _ _ _ e he).trans (ih e _ _))

/-! ### Only the stalls change, and no CAM entry appears -/

/-- Only the stalls differ, and a free CAM entry stays free. -/
def StallsOnly (d e : Dev) : Prop :=
  e = { d with stalls := e.stalls } ∧ ∀ k i, SMap.find (d.stall k).cam i = none → SMap.find (e.stall k).cam i = none

theorem StallsOnly.refl (d : Dev) : StallsOnly d d := ⟨rfl, fun _ _ h => h⟩

theorem StallsOnly.trans {a b c : Dev} (h1 : StallsOnly a b) (h2 : StallsOnly b c) : StallsOnly a c := by
  refine ⟨?_, fun k i h => h2.2 k i (h1.2 k i h)⟩
  refine h2.1.trans ?_
  rw [h1.1]

theorem foldl_stallsOnly {α : Type} (f : Dev → α → Dev) (hf : ∀ d a, StallsOnly d (f d a)) (l : List α) (d : Dev) :
    StallsOnly d (l.foldl f d) := by
  induction l generalizing d with
  | nil => exact StallsOnly.refl d
  | cons a r ih => exact (hf d a).trans (ih _)

theorem updStall_stallsOnly (d : Dev) (n : Nat) (f : Stall → Stall)
    (hf : ∀ x i, SMap.find x.cam i = none → SMap.find (f x).cam i = none) : StallsOnly d (d.updStall n f) := by
  refine ⟨rfl, fun k i h => ?_⟩
  rw [Dev.stall_updStall]
  split
  · rename_i hk
    subst hk
    exact hf _ i h
  · exact h

theorem setSlot_stallsOnly (d : Dev) (s n : Nat) (u : SlotUse) : StallsOnly d (d.setSlot s n u) :=
  updStall_stallsOnly d s _ fun _ _ h => h

theorem dropSlot_stallsOnly (d : Dev) (s n : Nat) : StallsOnly d (d.dropSlot s n) := updStall_stallsOnly d s _ fun _ _ h => h

theorem freeRun_stallsOnly (d : Dev) (r : Run) : StallsOnly d (d.freeRun r) := by
  have key : ∀ u, StallsOnly d (if (slotRuns u).isEmpty = true then d.dropSlot r.stall r.slot else d.setSlot r.stall r.slot u) := by
    intro u
    split
    · exact dropSlot_stallsOnly d _ _
    · exact setSlot_stallsOnly d _ _ _
  unfold Dev.freeRun
  split
  · exact StallsOnly.refl d
  · exact key _

theorem freeStorage_stallsOnly (d : Dev) (r : Rec) : StallsOnly d (d.freeStorage r) := by
  unfold Dev.freeStorage
  dsimp only
  refine StallsOnly.trans ?_ (foldl_stallsOnly _ freeRun_stallsOnly _ _)
  split
  · split
    · split
      · exact freeRun_stallsOnly d _
      · exact StallsOnly.refl d
    · exact StallsOnly.refl d
  · refine foldl_stallsOnly _ (fun d e => ?_) _ d
    split
    · exact StallsOnly.refl d
    · exact dropSlot_stallsOnly d _ _

theorem setRec_cam (x : Stall) (l : Loc) (r y : Rec) (he : entryRec x l = some y) (i : Nat) (h : SMap.find x.cam i = none) :
    SMap.find (setRec x l r).cam i = none := by
  cases l with
  | cam j =>
    have hj : i ≠ j := fun e => by
      subst e
      rw [entryRec, h] at he
      cases he
    simpa [setRec, SMap.find_put_of_ne _ _ _ _ hj] using h
  | ovf q p =>
    simp only [setRec]
    split <;> exact h

theorem updRec_stallsOnly (d : Dev) (s : Nat) (l : Loc) (f : Rec → Rec) : StallsOnly d (d.updRec s l f) := by
  refine updStall_stallsOnly d s _ fun x i h => ?_
  split
  · exact h
  · rename_i y hy
    exact setRec_cam x l _ y hy i h

theorem updKey_stallsOnly (d : Dev) (pad : Nat) (key : List Byte) (f : Rec → Rec) : StallsOnly d (d.updKey pad key f) := by
  unfold Dev.updKey
  dsimp only
  split
  · exact StallsOnly.refl d
  · exact updRec_stallsOnly d _ _ _

/-! ### Cleared entries -/

/-- No live record lies at an entry: it is cleared, or its record is in state 3 (R525). -/
def DeadAt (s : Stall) (l : Loc) : Prop := ∀ y, entryRec s l = some y → y.st = 3

/-- A record changed in place, but for its state, brings no cleared entry back. -/
theorem setRec_dead (x : Stall) (l a : Loc) (r y : Rec) (he : entryRec x l = some y) (hr : y.st = 3 → r.st = 3) (h : DeadAt x a) :
    DeadAt (setRec x l r) a := by
  intro z hz
  cases l with
  | cam j =>
    cases a with
    | cam i =>
      simp only [setRec, entryRec, SMap.find_put] at hz
      split at hz
      · rename_i hij
        subst hij
        cases hz
        exact hr (h y he)
      · exact h z hz
    | ovf q p => exact h z hz
  | ovf q p =>
    simp only [entryRec] at he
    split at he
    · cases he
    · rename_i e hb
      simp only [setRec, hb] at hz
      cases a with
      | cam i => exact h z hz
      | ovf q2 p2 =>
        have h2 := h
        simp only [DeadAt, entryRec] at h2
        simp only [entryRec] at hz
        split at hz
        · cases hz
        · rename_i e2 hb2
          simp only [hb2] at h2
          rw [SMap.find_put] at hz
          split at hz
          · rename_i hk
            cases hz
            refine hr (h2 y ?_)
            rw [hk]
            exact he
          · exact h2 z hz

/-- What keeps cleared entries cleared, in every stall. -/
def KeepsDead (d e : Dev) : Prop := ∀ k l, DeadAt (d.stall k) l → DeadAt (e.stall k) l

theorem KeepsDead.trans {a b c : Dev} (h1 : KeepsDead a b) (h2 : KeepsDead b c) : KeepsDead a c := fun k l h => h2 k l (h1 k l h)

theorem KeepsDead.of_stalls {d e : Dev} (h : e.stalls = d.stalls) : KeepsDead d e := fun k l hd => by
  unfold Dev.stall
  rw [h]
  exact hd

theorem updStall_dead (d : Dev) (n : Nat) (f : Stall → Stall) (hf : ∀ x l, DeadAt x l → DeadAt (f x) l) : KeepsDead d (d.updStall n f) := by
  intro k l h
  rw [Dev.stall_updStall]
  split
  · rename_i hk
    subst hk
    exact hf _ l h
  · exact h

theorem updRec_dead (d : Dev) (s : Nat) (l : Loc) (f : Rec → Rec) (hf : ∀ x, x.st = 3 → (f x).st = 3) : KeepsDead d (d.updRec s l f) := by
  refine updStall_dead d s _ fun x a h => ?_
  split
  · exact h
  · rename_i y hy
    exact setRec_dead x l a _ y hy (hf y) h

theorem updKey_dead (d : Dev) (pad : Nat) (key : List Byte) (f : Rec → Rec) (hf : ∀ x, x.st = 3 → (f x).st = 3) :
    KeepsDead d (d.updKey pad key f) := by
  unfold Dev.updKey
  dsimp only
  split
  · exact KeepsDead.of_stalls rfl
  · exact updRec_dead d _ _ _ hf

theorem setSlot_dead (d : Dev) (s n : Nat) (u : SlotUse) : KeepsDead d (d.setSlot s n u) := updStall_dead d s _ fun _ _ h => h

theorem dropSlot_dead (d : Dev) (s n : Nat) : KeepsDead d (d.dropSlot s n) := updStall_dead d s _ fun _ _ h => h

theorem freeRun_dead (d : Dev) (r : Run) : KeepsDead d (d.freeRun r) := by
  have key : ∀ u, KeepsDead d (if (slotRuns u).isEmpty = true then d.dropSlot r.stall r.slot else d.setSlot r.stall r.slot u) := by
    intro u
    split
    · exact dropSlot_dead d _ _
    · exact setSlot_dead d _ _ _
  unfold Dev.freeRun
  split
  · exact KeepsDead.of_stalls rfl
  · exact key _

theorem foldl_dead {α : Type} (f : Dev → α → Dev) (hf : ∀ d a, KeepsDead d (f d a)) (l : List α) (d : Dev) : KeepsDead d (l.foldl f d) := by
  induction l generalizing d with
  | nil => exact KeepsDead.of_stalls rfl
  | cons a r ih => exact (hf d a).trans (ih _)

theorem dropTransit_dead (d : Dev) (pad : Nat) (key : List Byte) : KeepsDead d (d.dropTransit pad key) := by
  unfold Dev.dropTransit
  split
  · exact KeepsDead.of_stalls rfl
  · dsimp only
    split
    · exact KeepsDead.of_stalls rfl
    · refine KeepsDead.trans ?_ (updKey_dead _ pad key _ fun _ h => h)
      split
      · split
        · split
          · exact KeepsDead.of_stalls rfl
          · exact freeRun_dead d _
        · exact KeepsDead.of_stalls rfl
      · refine foldl_dead _ (fun d i => ?_) _ d
        split
        · exact dropSlot_dead d _ _
        · exact KeepsDead.of_stalls rfl

theorem dropTransit_stallsOnly (d : Dev) (pad : Nat) (key : List Byte) : StallsOnly d (d.dropTransit pad key) := by
  unfold Dev.dropTransit
  split
  · exact StallsOnly.refl d
  · dsimp only
    split
    · exact StallsOnly.refl d
    · refine StallsOnly.trans ?_ (updKey_stallsOnly _ pad key _)
      split
      · split
        · split
          · exact StallsOnly.refl d
          · exact freeRun_stallsOnly d _
        · exact StallsOnly.refl d
      · refine foldl_stallsOnly _ (fun d i => ?_) _ d
        split
        · exact dropSlot_stallsOnly d _ _
        · exact StallsOnly.refl d

/-! ### Shed work of a key -/

/-- A command's record is as it was, or a final program failure of its job has taken its place as the outcome (R363). -/
def FailsAtMost (x y : Option Cmd) : Prop :=
  y = x ∨ ∃ c : Cmd, x = some c ∧ c.job.isSome = true ∧ c.status = 0 ∧ y = some { c with status := 0x31 }

theorem FailsAtMost.trans {x y z : Option Cmd} (h1 : FailsAtMost x y) (h2 : FailsAtMost y z) : FailsAtMost x z := by
  rcases h1 with rfl | ⟨c, rfl, hj, hs, rfl⟩
  · exact h2
  · rcases h2 with rfl | ⟨c', hc, _, hs', rfl⟩
    · exact .inr ⟨c, rfl, hj, hs, rfl⟩
    · cases hc
      cases hs'

/-- What shed work of a key can change: the shed, identifiers, stalls (cleared entries stay so), events, and outcomes of commands whose
job failed for good. -/
structure JobWork (d e : Dev) : Prop where
  frame : e = { d with shd := e.shd, nextId := e.nextId, stalls := e.stalls, evq := e.evq, cmds := e.cmds }
  dead : KeepsDead d e
  cmd : ∀ c, FailsAtMost (d.findCmd c) (e.findCmd c)
  ids : e.cmds.map Cmd.id = d.cmds.map Cmd.id

theorem JobWork.refl (d : Dev) : JobWork d d := ⟨rfl, KeepsDead.of_stalls rfl, fun _ => .inl rfl, rfl⟩

theorem JobWork.trans {a b c : Dev} (h1 : JobWork a b) (h2 : JobWork b c) : JobWork a c := by
  refine ⟨?_, h1.dead.trans h2.dead, fun n => (h1.cmd n).trans (h2.cmd n), h2.ids.trans h1.ids⟩
  refine h2.frame.trans ?_
  rw [h1.frame]

theorem ShedOnly.jobWork {d e : Dev} (h : ShedOnly d e) : JobWork d e := by
  refine ⟨?_, KeepsDead.of_stalls (by rw [h]), fun c => .inl ?_, ?_⟩
  · rw [h]
  · rw [h]
    rfl
  · rw [h]

theorem StallsOnly.jobWork {d e : Dev} (h : StallsOnly d e) (hd : KeepsDead d e) : JobWork d e := by
  refine ⟨?_, hd, fun c => .inl ?_, ?_⟩
  · rw [h.1]
  · rw [h.1]
    rfl
  · rw [h.1]

theorem updJobRec_jobWork (d : Dev) (j : Job) (f : Rec → Rec) (hf : ∀ x, (f x).st = x.st) : JobWork d (d.updJobRec j f) := by
  refine StallsOnly.jobWork (updKey_stallsOnly _ _ _ _) (updKey_dead _ _ _ _ fun x hx => ?_)
  split
  · exact (hf x).trans hx
  · exact hx

theorem failJobCmds_jobWork (d : Dev) (i : Nat) : JobWork d (d.failJobCmds i) := by
  refine ⟨rfl, KeepsDead.of_stalls rfl, fun c => ?_, ?_⟩
  · have h : ∀ l : List Cmd, (l.map fun c => if c.job = some i ∧ c.status = 0 then { c with status := 0x31 } else c).find?
        (fun x => x.id == c) = (l.find? fun x => x.id == c).map fun c => if c.job = some i ∧ c.status = 0 then { c with status := 0x31 } else c := by
      intro l
      rw [List.find?_map]
      congr 2
      funext x
      simp only [Function.comp]
      split <;> rfl
    unfold Dev.failJobCmds Dev.findCmd
    rw [h]
    cases hx : d.cmds.find? fun x => x.id == c with
    | none => exact .inl rfl
    | some x =>
      simp only [Option.map_some]
      split
      · rename_i hc
        exact .inr ⟨x, rfl, by rw [hc.1]; rfl, hc.2, rfl⟩
      · exact .inl rfl
  · simp only [Dev.failJobCmds, List.map_map]
    congr 1
    funext x
    simp only [Function.comp]
    split <;> rfl

theorem event_jobWork (d : Dev) (a b x y z : Nat) : JobWork d (d.event a b x y z) := ⟨rfl, KeepsDead.of_stalls rfl, fun _ => .inl rfl, rfl⟩

theorem jobLost_jobWork (d : Dev) (j : Job) : JobWork d (d.jobLost j) :=
  (failJobCmds_jobWork d j.id).trans (ShedOnly.jobWork (d := d.failJobCmds j.id) rfl)

theorem jobDelete_jobWork (d : Dev) (j : Job) : JobWork d (d.jobDelete j) := by
  unfold Dev.jobDelete
  split
  · exact jobLost_jobWork d j
  · exact ((appendRec_shedOnly d _).trans (updJob_shedOnly _ _ _)).jobWork

theorem jobFailed_jobWork (d : Dev) (j : Job) : JobWork d (d.jobFailed j) := by
  unfold Dev.jobFailed
  dsimp only
  refine JobWork.trans (b := d.releaseLsns (j.lsns.filterMap id)) (releaseLsns_shedOnly d _).jobWork ?_
  split
  · exact (dropJob_shedOnly _ _).jobWork
  · split
    · exact jobLost_jobWork _ j
    · refine JobWork.trans ?_ (jobDelete_jobWork _ j)
      split
      · refine JobWork.trans ?_ (event_jobWork _ _ _ _ _ _)
        refine JobWork.trans ?_ (failJobCmds_jobWork _ _)
        refine JobWork.trans ?_ (releaseLsns_shedOnly _ _).jobWork
        exact (updJobRec_jobWork _ _ _ fun _ => rfl)
      · refine JobWork.trans ?_ (failJobCmds_jobWork _ _)
        refine JobWork.trans ?_ (releaseLsns_shedOnly _ _).jobWork
        exact (updJobRec_jobWork _ _ _ fun _ => rfl)

theorem spillDone_jobWork (d : Dev) (j : Job) : JobWork d (d.spillDone j) := by
  unfold Dev.spillDone
  split
  · exact ((releaseLsns_shedOnly d _).trans (dropJob_shedOnly _ _)).jobWork
  · dsimp only
    refine JobWork.trans ?_ ((dropTransit_stallsOnly _ _ _).jobWork (dropTransit_dead _ _ _))
    split
    · refine JobWork.trans ?_ (appendRec_shedOnly _ _).jobWork
      refine JobWork.trans ?_ (dropJob_shedOnly _ _).jobWork
      refine JobWork.trans ?_ (updJobRec_jobWork _ _ _ fun _ => rfl)
      exact (releaseLsns_shedOnly d _).jobWork
    · refine JobWork.trans ?_ (dropJob_shedOnly _ _).jobWork
      refine JobWork.trans ?_ (updJobRec_jobWork _ _ _ fun _ => rfl)
      exact (releaseLsns_shedOnly d _).jobWork

theorem advanceJob_jobWork (d : Dev) (i : Nat) : JobWork d (d.advanceJob i) := by
  unfold Dev.advanceJob
  split
  · exact JobWork.refl d
  · split
    · exact JobWork.refl d
    · split
      · exact jobFailed_jobWork d _
      · split
        · exact spillDone_jobWork d _
        · split
          · exact jobDelete_jobWork d _
          · split
            · exact jobFailed_jobWork d _
            · exact ((appendRec_shedOnly d _).trans (updJob_shedOnly _ _ _)).jobWork

theorem startJob_jobWork (d : Dev) (r : Rec) (spill staged : Bool) (only : Option Nat) : JobWork d (d.startJob r spill staged only).2 := by
  unfold Dev.startJob
  dsimp only
  refine JobWork.trans ?_ (advanceJob_jobWork _ _)
  have h := jobStripes_shedOnly (jobSegs r only) (d.fresh.2.holdLsns ((if spill then r.lsns.map fun _ => none else r.lsns).filterMap id)) d.fresh.1
    (if spill then kindSpill else kindData) r (if spill then r.lsns.map fun _ => none else r.lsns) 0
  refine (ShedOnly.trans (ShedOnly.trans (b := d.fresh.2) rfl (holdLsns_shedOnly _ _)) (h.trans ?_)).jobWork
  rfl

theorem startDelete_jobWork (d : Dev) (pad epoch wseq : Nat) (key : List Byte) (staged : Bool) :
    JobWork d (d.startDelete pad epoch wseq key staged).2 := by
  unfold Dev.startDelete
  dsimp only
  refine JobWork.trans ?_ (advanceJob_jobWork _ _)
  exact ShedOnly.jobWork (d := d) rfl

/-- A PADDOCK record's shed work changes no stall. -/
theorem startPaddockRec_jobWork (d : Dev) (sub pad epoch : Nat) (p : Paddock) :
    JobWork d (d.startPaddockRec sub pad epoch p).2 ∧ (d.startPaddockRec sub pad epoch p).2.stalls = d.stalls := by
  unfold Dev.startPaddockRec
  dsimp only
  split
  · refine ⟨JobWork.trans ?_ (jobLost_jobWork _ _), rfl⟩
    exact ShedOnly.jobWork (d := d) rfl
  · refine ⟨JobWork.trans ?_ ((appendRec_shedOnly _ _).trans (updJob_shedOnly _ _ _)).jobWork, ?_⟩
    · exact ShedOnly.jobWork (d := d) rfl
    · exact (appendRec_shedOnly _ _).gets.2.1

/-- A command that waits for shed work has its job; its status stays, or is the final failure of that work. -/
theorem Dev.awaitJob_cmd (d : Dev) (c j : Nat) (x : Cmd) (h : d.findCmd c = some x) :
    ∃ st, (st = x.status ∨ st = Status.mediaError.code) ∧ (d.awaitJob c j).findCmd c = some { x with job := some j, status := st } := by
  unfold Dev.awaitJob
  rw [Dev.findCmd_updCmd_self _ _ _ (by simp), h]
  have pick : ∀ b : Bool, (if b = true then Status.mediaError.code else x.status) = x.status ∨ (if b = true then Status.mediaError.code else x.status) = Status.mediaError.code :=
    fun b => by cases b <;> simp
  exact ⟨_, pick _, rfl⟩

theorem Dev.awaitJob_other (d : Dev) (c j k : Nat) (h : k ≠ c) : (d.awaitJob c j).findCmd k = d.findCmd k :=
  Dev.findCmd_updCmd_other d c k _ h (by simp)

/-- A command that waits for shed work has its job; its status stays, or is the final failure of that work. -/
theorem Dev.awaitWrite_cmd (d : Dev) (c j : Nat) (x : Cmd) (h : d.findCmd c = some x) :
    ∃ st, (st = x.status ∨ st = Status.mediaError.code) ∧ (d.awaitWrite c j).findCmd c = some { x with job := some j, status := st } := by
  unfold Dev.awaitWrite
  rw [Dev.findCmd_updCmd_self _ _ _ (by simp), h]
  have pick : ∀ b : Bool, (if b = true then Status.mediaError.code else x.status) = x.status ∨ (if b = true then Status.mediaError.code else x.status) = Status.mediaError.code :=
    fun b => by cases b <;> simp
  exact ⟨_, pick _, rfl⟩

theorem Dev.awaitWrite_other (d : Dev) (c j k : Nat) (h : k ≠ c) : (d.awaitWrite c j).findCmd k = d.findCmd k :=
  Dev.findCmd_updCmd_other d c k _ h (by simp)

end Sys2Proof.Machine
end

