-- ==== Sys2Proof/Laws/Store.lean ====
section
/-! SUPPORT. What finding, reading and storing a key can change: the media, the stalls, the barns' counters, the shed, check-value
counters, events, storage that awaits release, and outcomes of commands whose shed job failed. Nothing else. -/

namespace Sys2Proof.Machine

open Sys2Proof

structure StoreWork (d e : Dev) : Prop where
  frame : e = { d with
    shd := e.shd, nextId := e.nextId, stalls := e.stalls, evq := e.evq, cmds := e.cmds, barns := e.barns, bru := { d.bru with storeDue := e.bru.storeDue },
    chk := { d.chk with
      maskCount := e.chk.maskCount, make := e.chk.make, check := e.chk.check, fail := e.chk.fail, noKey := e.chk.noKey },
    useStamp := e.useStamp, old := e.old }
  cmd : ∀ c, FailsAtMost (d.findCmd c) (e.findCmd c)
  ids : e.cmds.map Cmd.id = d.cmds.map Cmd.id

theorem StoreWork.refl (d : Dev) : StoreWork d d := ⟨rfl, fun _ => .inl rfl, rfl⟩

theorem StoreWork.trans {a b c : Dev} (h1 : StoreWork a b) (h2 : StoreWork b c) : StoreWork a c := by
  refine ⟨?_, fun n => (h1.cmd n).trans (h2.cmd n), h2.ids.trans h1.ids⟩
  refine h2.frame.trans ?_
  rw [h1.frame]

theorem JobWork.storeWork {d e : Dev} (h : JobWork d e) : StoreWork d e := by
  refine ⟨?_, h.cmd, h.ids⟩
  rw [h.frame]

theorem StallsOnly.storeWork {d e : Dev} (h : StallsOnly d e) : StoreWork d e := by
  refine ⟨?_, fun c => .inl ?_, ?_⟩
  · rw [h.1]
  · rw [h.1]
    rfl
  · rw [h.1]

theorem ShedOnly.storeWork {d e : Dev} (h : ShedOnly d e) : StoreWork d e := h.jobWork.storeWork

/-- A device that differs only in what storing may change, with the same commands. -/
theorem StoreWork.of_cmds {d e : Dev} (h : e = { d with
    shd := e.shd, nextId := e.nextId, stalls := e.stalls, evq := e.evq, barns := e.barns, bru := { d.bru with storeDue := e.bru.storeDue },
    chk := { d.chk with
      maskCount := e.chk.maskCount, make := e.chk.make, check := e.chk.check, fail := e.chk.fail, noKey := e.chk.noKey },
    useStamp := e.useStamp, old := e.old }) : StoreWork d e := by
  have hc : e.cmds = d.cmds := by
    rw [h]
  refine ⟨?_, fun c => .inl ?_, by rw [hc]⟩
  · rw [h]
  · unfold Dev.findCmd
    rw [hc]

theorem foldl_storeWork {α : Type} (f : Dev → α → Dev) (hf : ∀ d a, StoreWork d (f d a)) (l : List α) (d : Dev) :
    StoreWork d (l.foldl f d) := by
  induction l generalizing d with
  | nil => exact StoreWork.refl d
  | cons a r ih => exact (hf d a).trans (ih _)

theorem foldl_pair_storeWork {α β : Type} (f : β × Dev → α → β × Dev) (hf : ∀ a x, StoreWork a.2 (f a x).2) (l : List α) (a : β × Dev) :
    StoreWork a.2 (l.foldl f a).2 := by
  induction l generalizing a with
  | nil => exact StoreWork.refl _
  | cons x r ih => exact (hf a x).trans (ih _)

theorem updStall_storeWork (d : Dev) (n : Nat) (f : Stall → Stall) : StoreWork d (d.updStall n f) := StoreWork.of_cmds rfl

theorem updBarn_storeWork (d : Dev) (n : Nat) (f : Barn → Barn) : StoreWork d (d.updBarn n f) := StoreWork.of_cmds rfl

theorem event_storeWork (d : Dev) (a b x y z : Nat) : StoreWork d (d.event a b x y z) := StoreWork.of_cmds rfl

theorem storeSoon_storeWork (d : Dev) : StoreWork d d.storeSoon := StoreWork.of_cmds rfl

/-! ### The loft -/

theorem degrade_storeWork (d : Dev) (s w : Nat) : StoreWork d (d.degrade s w) := by
  unfold Dev.degrade
  split
  · exact StoreWork.refl d
  · exact (updStall_storeWork _ _ _).trans ((event_storeWork _ _ _ _ _ _).trans (storeSoon_storeWork _))

theorem hardFault_storeWork (d : Dev) (s g : Nat) (b : Bool) : StoreWork d (d.hardFault s g b) := by
  unfold Dev.hardFault
  dsimp only
  split
  · exact StoreWork.refl d
  · split
    · exact degrade_storeWork d s 0
    · split
      · exact degrade_storeWork d s 1
      · exact (updStall_storeWork d _ _).trans ((updBarn_storeWork _ _ _).trans ((event_storeWork _ _ _ _ _ _).trans (storeSoon_storeWork _)))

theorem bucketAdd_storeWork (d : Dev) (b : Nat) : StoreWork d (d.bucketAdd b) := by
  unfold Dev.bucketAdd
  dsimp only
  split
  · split
    · exact updBarn_storeWork _ _ _
    · exact (updBarn_storeWork _ _ _).trans (event_storeWork _ _ _ _ _ _)
  · exact updBarn_storeWork _ _ _

theorem corrEvent_storeWork (d : Dev) (s g y : Nat) : StoreWork d (d.corrEvent s g y) := by
  have key : ∀ n t, StoreWork d (if n < (d.barn (s / 64)).evlim then
      (d.updBarn (s / 64) fun x => { x with evAt := t, evCount := n + 1 }).event Ev.eccCorr.code (0x0100 + s) g y 0
      else d.updBarn (s / 64) fun x => { x with evAt := t, evCount := n }) := by
    intro n t
    split
    · exact (updBarn_storeWork _ _ _).trans (event_storeWork _ _ _ _ _ _)
    · exact updBarn_storeWork _ _ _
  exact key _ _

theorem writeback_storeWork (d : Dev) (f : LoftFault) : StoreWork d (d.writeback f) := by
  unfold Dev.writeback
  split
  · exact hardFault_storeWork _ _ _ _
  · exact StoreWork.refl d

theorem correction_storeWork (d : Dev) (f : LoftFault) (y : Nat) (dir : Bool) : StoreWork d (d.correction f y dir) := by
  have h0 : ∀ g h, StoreWork d ((d.updStall f.stall g).updBarn (f.stall / 64) h) := fun g h =>
    (updStall_storeWork d _ _).trans (updBarn_storeWork _ _ _)
  unfold Dev.correction
  dsimp only
  split
  · split
    · split
      · exact (h0 _ _).trans (writeback_storeWork _ _)
      · exact (h0 _ _).trans ((bucketAdd_storeWork _ _).trans (writeback_storeWork _ _))
    · split
      · exact h0 _ _
      · split
        · exact (h0 _ _).trans ((updStall_storeWork _ _ _).trans (bucketAdd_storeWork _ _))
        · exact (h0 _ _).trans ((bucketAdd_storeWork _ _).trans ((corrEvent_storeWork _ _ _ _).trans (writeback_storeWork _ _)))
  · exact (h0 _ _).trans ((corrEvent_storeWork _ _ _ _).trans (writeback_storeWork _ _))

theorem uncorrectable_storeWork (d : Dev) (s g : Nat) : StoreWork d (d.uncorrectable s g) :=
  (updStall_storeWork d _ _).trans ((updBarn_storeWork _ _ _).trans (event_storeWork _ _ _ _ _ _))

theorem readGranules_storeWork (d : Dev) (fs : List Finding) (s lo n : Nat) : StoreWork d (d.readGranules fs s lo n).2 := by
  unfold Dev.readGranules
  refine foldl_pair_storeWork (β := GranuleRead) _ (fun a f => ?_) _ ({ bad := false, left := [] }, d)
  dsimp only
  split
  · exact StoreWork.refl _
  · exact correction_storeWork _ _ _ _
  · exact uncorrectable_storeWork _ _ _

/-! ### Finding a key -/

theorem rewriteBad_storeWork (d : Dev) (fs : List Finding) (s lo n : Nat) : StoreWork d (d.rewriteBad fs s lo n) :=
  foldl_storeWork _ (fun d f => writeback_storeWork d f) _ d

theorem camParity_storeWork (d : Dev) (s : Nat) (fs : List Finding) : StoreWork d (d.camParity s fs) := by
  refine (updStall_storeWork d s camDrain).trans (foldl_storeWork _ (fun d f => ?_) fs _)
  split
  · split
    · exact (updStall_storeWork _ _ _).trans (event_storeWork _ _ _ _ _ _)
    · exact StoreWork.refl d
  · exact StoreWork.refl d

theorem readBucketAt_storeWork (d : Dev) (fs : List Finding) (s g q : Nat) : StoreWork d (d.readBucketAt fs s g q) := by
  have h := readGranules_storeWork d fs s g 1
  unfold Dev.readBucketAt
  dsimp only
  split
  · exact h.trans ((rewriteBad_storeWork _ _ _ _ _).trans (updStall_storeWork _ _ _))
  · split
    · exact h
    · exact h.trans (updStall_storeWork _ _ _)

theorem readRecAt_storeWork (d : Dev) (fs : List Finding) (s g : Nat) (l : Loc) : StoreWork d (d.readRecAt fs s g l) := by
  have h := readGranules_storeWork d fs s g 8
  unfold Dev.readRecAt
  dsimp only
  split
  · exact h.trans ((rewriteBad_storeWork _ _ _ _ _).trans (updStall_storeWork _ _ _))
  · split
    · exact h
    · exact h.trans (updStall_storeWork _ _ _)

theorem lookup_storeWork (d : Dev) (fs : List Finding) (s pad : Nat) (key : List Byte) : StoreWork d (d.lookup fs s pad key).2 := by
  unfold Dev.lookup
  dsimp only
  refine StoreWork.trans ?_ (foldl_storeWork _ (fun d l => readRecAt_storeWork d _ _ _ _) _ _)
  refine StoreWork.trans ?_ (foldl_storeWork _ (fun d q => readBucketAt_storeWork d _ _ _ _) _ _)
  exact (camParity_storeWork d s fs).trans (updStall_storeWork _ _ _)

theorem readRuns_storeWork (fs : List Finding) (w : Bool) (bs : List Byte) (l : List Run) (a : ExtentRead) (d : Dev) :
    StoreWork d (readRuns fs w bs l a d).2 := by
  induction l generalizing a d with
  | nil => exact StoreWork.refl d
  | cons e l ih => exact (readGranules_storeWork d fs _ _ _).trans (ih _ _)

theorem readExtents_storeWork (d : Dev) (fs : List Finding) (home : Nat) (loc : Loc) (r : Rec) :
    StoreWork d (d.readExtents fs home loc r).2 := by
  have h := fun bs => readRuns_storeWork fs (decide (r.segs.length > 32)) bs r.extSlots { bad := false, bytes := [] } d
  unfold Dev.readExtents
  dsimp only
  split
  · exact (h _).trans (updStall_storeWork _ _ _)
  · split
    · exact h _
    · exact (h _).trans (updRec_stallsOnly _ _ _ _).storeWork

theorem readWorking_storeWork (d : Dev) (fs : List Finding) (s : Nat) : StoreWork d (d.readWorking fs s).2 := by
  have h := readGranules_storeWork d fs s 32768 32768
  unfold Dev.readWorking
  dsimp only
  split
  · exact h.trans (rewriteBad_storeWork _ _ _ _ _)
  · exact h

/-- A lookup finds the key at its home stall. -/
theorem find_storeWork (d : Dev) (fs : List Finding) (pad : Nat) (key : List Byte) : StoreWork d (d.find fs pad key).2 := by
  unfold Dev.find
  dsimp only
  have h := (readWorking_storeWork d fs (homeStall (d.padSet pad) (keyDigest key))).trans
    (lookup_storeWork (d.readWorking fs (homeStall (d.padSet pad) (keyDigest key))).2 fs (homeStall (d.padSet pad) (keyDigest key)) pad key)
  split
  · exact h
  · split
    · split
      · exact h.trans (readExtents_storeWork _ _ _ _ _)
      · exact h.trans (readExtents_storeWork _ _ _ _ _)
    · split <;> exact h

theorem find_home (d : Dev) (fs : List Finding) (pad : Nat) (key : List Byte) (h : Nat) (loc : Loc) (r : Rec) (e : Dev)
    (hf : d.find fs pad key = (.hit h loc r, e)) : h = homeStall (d.padSet pad) (keyDigest key) := by
  unfold Dev.find at hf
  dsimp only at hf
  split at hf
  · cases hf
  · split at hf
    · split at hf
      · cases hf
      · cases hf
        rfl
    · split at hf <;> cases hf

/-! ### Reading segments -/

theorem checkBytes_storeWork (d : Dev) (r : Rec) (i s : Nat) (b t : List Byte) : StoreWork d (d.checkBytes r i s b t).2 := by
  have key : ∀ (ok : Bool) (c : Chk), c = { d.chk with
        maskCount := c.maskCount, make := c.make, check := c.check, fail := c.fail, noKey := c.noKey } →
      StoreWork d (if ok then ({ d with chk := c } : Dev)
        else ({ d with chk := c } : Dev).event Ev.chkFail.code 0x0001 r.pad s i) := by
    intro ok c hc
    rw [hc]
    cases ok
    · exact StoreWork.of_cmds rfl
    · exact StoreWork.of_cmds rfl
  refine key _ _ ?_
  split <;> rfl

theorem checkTag_storeWork (d : Dev) (r : Rec) (i s : Nat) (b : List Byte) : StoreWork d (d.checkTag r i s b).2 :=
  checkBytes_storeWork d r i s b _

theorem touchSlot_storeWork (d : Dev) (s n : Nat) : StoreWork d (d.touchSlot s n) := by
  unfold Dev.touchSlot
  split
  · exact StoreWork.of_cmds rfl
  · exact StoreWork.refl d

theorem abandonStaging_storeWork (d : Dev) (home : Nat) (loc : Loc) (r : Rec) : StoreWork d (d.abandonStaging home loc r) := by
  unfold Dev.abandonStaging
  dsimp only
  refine StoreWork.trans ?_ (startDelete_jobWork _ _ _ _ _ _).storeWork
  refine StoreWork.trans ?_ (event_storeWork _ _ _ _ _ _)
  refine StoreWork.trans ?_ (releaseLsns_shedOnly _ _).storeWork
  exact (updRec_stallsOnly _ _ _ _).storeWork

/-- The end of a segment's read: the check value's verdict on the bytes read. -/
def readTail (d : Dev) (r : Rec) (i s : Nat) (whole : List Byte) : SegRes × Dev :=
  if !r.tagged then (.bytes whole, d)
  else
    if (d.checkTag r i s whole).1 then (.bytes whole, (d.checkTag r i s whole).2)
    else if (d.checkTag r i s whole).2.chk.root.isNone ∨ (d.checkTag r i s whole).2.shd.nclkLost = true then
      (.fail Status.checkFail.code, (d.checkTag r i s whole).2)
    else
      match (d.checkTag r i s whole).2.recoverable r i with
      | some n => (.ask n (some false), (d.checkTag r i s whole).2)
      | none => (.fail Status.checkFail.code, (d.checkTag r i s whole).2)

theorem readTail_storeWork (d : Dev) (r : Rec) (i s : Nat) (whole : List Byte) : StoreWork d (readTail d r i s whole).2 := by
  have h := checkTag_storeWork d r i s whole
  unfold readTail
  split
  · exact StoreWork.refl d
  · split
    · exact h
    · split
      · exact h
      · split <;> exact h

theorem readSeg_storeWork (d : Dev) (fs : List Finding) (home : Nat) (loc : Loc) (r : Rec) (i lo hi : Nat) :
    StoreWork d (d.readSeg fs home loc r i lo hi).2 := by
  have hp : ∀ e : Dev, StoreWork e (e.poison home loc i) := fun e => (updRec_stallsOnly e home loc _).storeWork
  unfold Dev.readSeg
  split
  · exact StoreWork.refl d
  · rename_i e _
    split
    · exact StoreWork.refl d
    · split
      · split
        · exact StoreWork.refl d
        · split <;> exact StoreWork.refl d
      · split
        · exact StoreWork.refl d
        · generalize (if r.tagged = true then r.granulesOf e 0 (segLen r.len i) else r.granulesOf e lo hi) = g
          dsimp only
          have h := readGranules_storeWork d fs e.stall g.1 g.2
          split
          · split
            · split
              · exact h.trans (hp _)
              · exact h
            · split
              · exact h.trans ((hp _).trans (abandonStaging_storeWork _ _ _ _))
              · exact h.trans (hp _)
          · have h2 := h.trans (touchSlot_storeWork _ e.stall e.slot)
            have key : ∀ whole : List Byte, StoreWork d (readTail ((d.readGranules fs e.stall g.1 g.2).2.touchSlot e.stall e.slot) r i e.stall whole).2 :=
              fun whole => h2.trans (readTail_storeWork _ _ _ _ _)
            exact key _

theorem issueRead_shedOnly (d : Dev) (n len : Nat) (w : NReadFor) : ShedOnly d (d.issueRead n len w) := rfl

theorem towPut_storeWork (d : Dev) (s : Nat) (l : List TowDesc) : StoreWork d (d.towPut s l) := updStall_storeWork d s _

theorem towRead_storeWork (d : Dev) (c : Nat) (r : Rec) (i lo hi : Nat) : StoreWork d (d.towRead c r i lo hi) := by
  unfold Dev.towRead
  split
  · exact StoreWork.refl d
  · exact towPut_storeWork _ _ _

/-- The reading of a value's segments. -/
theorem fetchSegs_storeWork (l : List (Nat × Nat × Nat)) (d : Dev) (c : Nat) (fs : List Finding) (home : Nat) (loc : Loc) (r : Rec)
    (fet : List Fetch) : StoreWork d (d.fetchSegs c fs home loc r l fet).2 := by
  induction l generalizing d fet with
  | nil => exact StoreWork.refl d
  | cons x is ih =>
    obtain ⟨i, lo, hi⟩ := x
    unfold Dev.fetchSegs
    split
    · exact ih _ _
    · dsimp only
      have h := readSeg_storeWork d fs home loc r i lo hi
      split
      · exact h.trans ((towRead_storeWork _ _ _ _ _ _).trans (ih _ _))
      · exact h
      · exact h.trans (((holdLsn_shedOnly _ _).trans (issueRead_shedOnly _ _ _ _)).storeWork.trans (ih _ _))

/-! ### Storing a value -/

/-- What an attempt to take space leaves behind, whatever its outcome. -/
def Tried.Work {α : Type} (d : Dev) (get : α → Dev) : Tried α → Prop
  | .ok a => StoreWork d (get a)
  | .wait e => StoreWork d e
  | .full e => StoreWork d e

theorem Tried.Work.trans {α : Type} {d e : Dev} {get : α → Dev} {t : Tried α} (h : StoreWork d e) (ht : Tried.Work e get t) :
    Tried.Work d get t := by
  cases t <;> exact h.trans ht

theorem evict_storeWork (d : Dev) (v : Victim) : StoreWork d (d.evict v) := by
  unfold Dev.evict
  dsimp only
  refine StoreWork.trans ?_ (updRec_stallsOnly _ _ _ _).storeWork
  split
  · split
    · exact (freeRun_stallsOnly d _).storeWork
    · exact StoreWork.refl d
  · exact (dropSlot_stallsOnly d _ _).storeWork

theorem spillVictim_storeWork (d : Dev) (v : Victim) : StoreWork d (d.spillVictim v) := by
  unfold Dev.spillVictim
  split
  · exact StoreWork.refl d
  · split
    · exact StoreWork.refl d
    · exact (startJob_jobWork _ _ _ _ _).storeWork

theorem walkSlot_work (l : List Nat) (d : Dev) : Tried.Work d (fun x => x.2.2) (walkSlot l d) := by
  induction l with
  | nil => exact StoreWork.refl d
  | cons s r ih =>
    unfold walkSlot
    split
    · exact ih
    · split
      · exact StoreWork.refl d
      · split
        · exact ih
        · split
          · exact evict_storeWork d _
          · exact spillVictim_storeWork d _

theorem placeSegs_work (is : List Nat) (set : List Nat) (home st : Nat) (got : List (Nat × SegEnt)) (d : Dev) :
    Tried.Work d (fun x => x.2) (placeSegs set home st is got d) := by
  induction is generalizing got d with
  | nil => exact StoreWork.refl d
  | cons i is ih =>
    have hu : ∀ e : Dev, StoreWork e (got.foldl (fun (d : Dev) e => d.dropSlot e.2.stall e.2.slot) e) := fun e =>
      foldl_storeWork _ (fun d a => (dropSlot_stallsOnly d _ _).storeWork) got e
    unfold placeSegs
    dsimp only
    have hw := walkSlot_work (rotateSet set (home + i)) d
    split
    · rename_i e he
      rw [he] at hw
      exact StoreWork.trans hw (hu e)
    · rename_i e he
      rw [he] at hw
      exact StoreWork.trans hw (hu e)
    · rename_i s slot e he
      rw [he] at hw
      exact Tried.Work.trans (StoreWork.trans hw (setSlot_stallsOnly e s slot _).storeWork) (ih _ _)

theorem withRoom_work {α : Type} (f : Dev → Option α) (get : α → Dev) (hf : ∀ d a, f d = some a → StoreWork d (get a)) (s k : Nat) (d : Dev) :
    Tried.Work d get (withRoom f s k d) := by
  induction k generalizing d with
  | zero => exact StoreWork.refl d
  | succ k ih =>
    unfold withRoom
    split
    · rename_i a ha
      exact hf d a ha
    · split
      · exact StoreWork.refl d
      · split
        · exact StoreWork.refl d
        · split
          · exact Tried.Work.trans (evict_storeWork d _) (ih _)
          · exact spillVictim_storeWork d _

theorem evictOwn_work (k pad quota before : Nat) (after : Dev → Nat) (usable : Victim → Bool) (d : Dev) :
    Tried.Work d id (evictOwn pad quota before after usable k d) := by
  induction k generalizing d with
  | zero => exact StoreWork.refl d
  | succ k ih =>
    unfold evictOwn
    split
    · exact StoreWork.refl d
    · split
      · exact StoreWork.refl d
      · split
        · exact Tried.Work.trans (evict_storeWork d _) (ih _)
        · exact spillVictim_storeWork d _

theorem quotaRoom_work (d : Dev) (pad home : Nat) (w : WritePlan) (key : List Byte) (loc bad : Option Loc) :
    Tried.Work d id (d.quotaRoom pad home w key loc bad) := by
  unfold Dev.quotaRoom
  dsimp only
  split
  · exact StoreWork.refl d
  · split
    · exact evictOwn_work _ _ _ _ _ _ d
    · split <;> exact StoreWork.refl d

theorem allocRun_storeWork (d : Dev) (s : Nat) (k : RunKind) (n : Nat) (b : List Byte) (x : Run × Dev) (h : d.allocRun s k n b = some x) :
    StoreWork d x.2 := by
  unfold Dev.allocRun at h
  split at h
  · cases h
    exact updStall_storeWork d _ _
  · split at h
    · cases h
    · cases h
      exact (setSlot_stallsOnly d _ _ _).storeWork

theorem allocSlots_storeWork (d : Dev) (s n u : Nat) (x : List Run × Dev) (h : d.allocSlots s n u = some x) : StoreWork d x.2 := by
  unfold Dev.allocSlots at h
  split at h
  · cases h
  · cases h
    exact foldl_storeWork _ (fun d r => (setSlot_stallsOnly d _ _ _).storeWork) _ d

theorem allocExtent_storeWork (d : Dev) (s n : Nat) (c : Bool) (x : List Run × Dev) (h : d.allocExtent s n c = some x) :
    StoreWork d x.2 := by
  have hr : ∀ k u, (d.allocRun s k u []).map (fun x => ([x.1], x.2)) = some x → StoreWork d x.2 := by
    intro k u hm
    cases hy : d.allocRun s k u [] with
    | none =>
      rw [hy] at hm
      cases hm
    | some y =>
      rw [hy] at hm
      cases hm
      exact allocRun_storeWork d s k u [] y hy
  unfold Dev.allocExtent at h
  split at h
  · dsimp only at h
    split at h
    · exact hr _ _ h
    · exact allocSlots_storeWork d _ _ _ x h
  · split at h
    · exact hr _ _ h
    · cases h
      exact StoreWork.refl d

theorem writeSpace_work (d : Dev) (pad home : Nat) (key : List Byte) (w : WritePlan) :
    Tried.Work d (fun x => x.2.2.2) (d.writeSpace pad home key w) := by
  have hs : ∀ (slots : List (Nat × SegEnt)) (e : Dev),
      StoreWork e (slots.foldl (fun (d : Dev) e => d.dropSlot e.2.stall e.2.slot) e) := fun slots e =>
    foldl_storeWork _ (fun d a => (dropSlot_stallsOnly d _ _).storeWork) slots e
  have hx : ∀ e : Dev, Tried.Work e (fun x : List Run × Dev => x.2) (e.inRoom home fun d' => d'.allocExtent home (segCount w.len) (d.pad pad).check) :=
    fun e => withRoom_work _ (fun x => x.2) (fun d' a ha => allocExtent_storeWork d' _ _ _ a ha) _ _ e
  unfold Dev.writeSpace
  dsimp only
  split
  · have hb : Tried.Work d (fun x : Run × Dev => x.2)
        (d.inRoom home fun d => d.allocRun home .bin (ceilDiv w.len 64) ((w.written.map Prod.snd).headD [])) :=
      withRoom_work _ (fun x => x.2) (fun d' a ha => allocRun_storeWork d' _ _ _ _ a ha) _ _ d
    split
    · rename_i bin e he
      rw [he] at hb
      have h := hx e
      split
      · rename_i runs e2 h2
        rw [h2] at h
        exact StoreWork.trans hb h
      · rename_i e2 h2
        rw [h2] at h
        exact StoreWork.trans hb (StoreWork.trans h (freeRun_stallsOnly _ _).storeWork)
      · rename_i e2 h2
        rw [h2] at h
        exact StoreWork.trans hb (StoreWork.trans h (freeRun_stallsOnly _ _).storeWork)
    · rename_i e he
      rw [he] at hb
      exact hb
    · rename_i e he
      rw [he] at hb
      exact hb
  · have hb := placeSegs_work (w.written.map Prod.fst) (d.padSet pad) (homeIndex (d.padSet pad) (keyDigest key))
      (if (d.pad pad).residency = 2 then 2 else 0) [] d
    split
    · rename_i slots e he
      rw [he] at hb
      have h := hx e
      split
      · rename_i runs e2 h2
        rw [h2] at h
        exact StoreWork.trans hb h
      · rename_i e2 h2
        rw [h2] at h
        exact StoreWork.trans hb (StoreWork.trans h (hs _ _))
      · rename_i e2 h2
        rw [h2] at h
        exact StoreWork.trans hb (StoreWork.trans h (hs _ _))
    · rename_i e he
      rw [he] at hb
      exact hb
    · rename_i e he
      rw [he] at hb
      exact hb

theorem removeEntry_storeWork (d : Dev) (s : Nat) (l : Loc) : StoreWork d (d.removeEntry s l) := updStall_storeWork d s _

theorem retireEntry_storeWork (d : Dev) (r : Rec) (s : Nat) (l : Loc) : StoreWork d (d.retireEntry r s l) := StoreWork.of_cmds rfl

theorem retire_storeWork (d : Dev) (r : Rec) : StoreWork d (d.retire r) := StoreWork.of_cmds rfl

theorem takeRecord_storeWork (d : Dev) (s : Nat) (x : (Nat × Nat) × Dev) (h : d.takeRecord s = some x) : StoreWork d x.2 := by
  unfold Dev.takeRecord at h
  split at h
  · cases h
    exact StoreWork.refl d
  · split at h
    · cases h
    · cases h
      exact (setSlot_stallsOnly d _ _ _).storeWork

theorem takeBucket_storeWork (d : Dev) (s : Nat) (x : Nat × Dev) (h : d.takeBucket s = some x) : StoreWork d x.2 := by
  unfold Dev.takeBucket at h
  dsimp only at h
  split at h
  · cases h
    exact updStall_storeWork d _ _
  · split at h
    · split at h
      · cases h
      · cases h
        exact updStall_storeWork d _ _
    · split at h
      · cases h
      · split at h
        · cases h
        · cases h
          exact (setSlot_stallsOnly d _ _ _).storeWork.trans (updStall_storeWork _ _ _)

theorem insertOvf_storeWork (d : Dev) (s : Nat) (x : Rec) (e : Dev) (h : d.insertOvf s x = some e) : StoreWork d e := by
  have h0 : ∀ d', (if (ovfSlots (d.stall s)).isEmpty then (d.freeSlot s).map (fun slot => d.setSlot s slot (.overflow 0)) else some d) = some d' →
      StoreWork d d' := by
    intro d' hd
    split at hd
    · cases hf : d.freeSlot s with
      | none =>
        rw [hf] at hd
        cases hd
      | some n =>
        rw [hf] at hd
        cases hd
        exact (setSlot_stallsOnly d _ _ _).storeWork
    · cases hd
      exact StoreWork.refl d
  unfold Dev.insertOvf at h
  split at h
  · cases h
  · rename_i d1 hd1
    have w1 := h0 d1 hd1
    split at h
    · cases h
    · rename_i slot k d2 hd2
      have w2 := takeRecord_storeWork d1 s _ hd2
      dsimp only at h
      split at h
      · cases h
        exact w1.trans (w2.trans (updStall_storeWork _ _ _))
      · split at h
        · cases h
        · rename_i q d3 hd3
          cases h
          exact w1.trans (w2.trans ((takeBucket_storeWork d2 s _ hd3).trans ((updStall_storeWork _ _ _).trans (updStall_storeWork _ _ _))))

theorem insertRec_storeWork (d : Dev) (s : Nat) (x : Rec) (e : Dev) (h : d.insertRec s x = some e) : StoreWork d e := by
  unfold Dev.insertRec at h
  dsimp only at h
  split at h
  · cases h
    exact updStall_storeWork d _ _
  · exact insertOvf_storeWork d s x e h

/-- What a stored write leaves, whatever its outcome. -/
def Stored.Work (d : Dev) : Stored → Prop
  | .ok _ e => StoreWork d e
  | .wait e => StoreWork d e
  | .fail _ e => StoreWork d e

theorem giveBack_storeWork (slots : List (Nat × SegEnt)) (bin : Option Run) (ext : List Run) (small : Bool) (d : Dev) :
    StoreWork d (giveBack slots bin ext small d) := by
  refine StoreWork.trans ?_ (foldl_storeWork _ (fun d r => (freeRun_stallsOnly d r).storeWork) _ _)
  split
  · exact StoreWork.refl d
  · exact foldl_storeWork _ (fun d a => (dropSlot_stallsOnly d _ _).storeWork) slots d

/-- What reserving leaves, whatever its outcome. -/
def Reserved.Work (d : Dev) : Reserved → Prop
  | .ok _ e => StoreWork d e
  | .wait e => StoreWork d e
  | .fail _ e => StoreWork d e

/-- The commit point of a write (R363). -/
theorem reserve_work (d : Dev) (pad home : Nat) (key : List Byte) (loc bad : Option Loc) (w : WritePlan) :
    Reserved.Work d (d.reserve pad home key loc bad w) := by
  unfold Dev.reserve
  have hq := quotaRoom_work d pad home w key loc bad
  split
  · rename_i e he
    rw [he] at hq
    exact hq
  · rename_i e he
    rw [he] at hq
    exact hq
  · rename_i e he
    rw [he] at hq
    have hs := writeSpace_work e pad home key w
    split
    · exact hq
    · split
      · rename_i e2 h2
        rw [h2] at hs
        exact StoreWork.trans hq hs
      · rename_i e2 h2
        rw [h2] at hs
        exact StoreWork.trans hq hs
      · rename_i slots bin ext e2 h2
        rw [h2] at hs
        exact StoreWork.trans hq (StoreWork.trans hs (giveBack_storeWork _ _ _ _ _))

theorem effectSpace_work (d : Dev) (pad home : Nat) (key : List Byte) (w : WritePlan) (held : Option Reserve) :
    Tried.Work d (fun x => x.2.2.2) (d.effectSpace pad home key w held) := by
  have hp : ∀ (k : RunKind) (b : List Byte) (l : List Run) (e : Dev), StoreWork e (l.foldl (fun d r => d.placeRun k b r) e) := fun k b l e =>
    foldl_storeWork _ (fun d r => updStall_storeWork d _ _) l e
  unfold Dev.effectSpace
  split
  · split
    · exact (hp _ _ _ d).trans (hp _ _ _ _)
    · exact writeSpace_work d pad home key w
  · exact writeSpace_work d pad home key w

/-- The storing of a value. -/
theorem store_work (d : Dev) (pad home : Nat) (key : List Byte) (loc bad : Option Loc) (made : List (Nat × List Byte)) (held : Option Reserve)
    (w : WritePlan) : Stored.Work d (d.store pad home key loc bad made held w) := by
  unfold Dev.store
  dsimp only
  have hq : Tried.Work d id (if held.isSome then Tried.ok d else d.quotaRoom pad home w key loc bad) := by
    split
    · exact StoreWork.refl d
    · exact quotaRoom_work d pad home w key loc bad
  split
  · rename_i e he
    rw [he] at hq
    exact hq
  · rename_i e he
    rw [he] at hq
    exact hq
  · rename_i d1 he
    rw [he] at hq
    have hq : StoreWork d d1 := hq
    have hs := effectSpace_work d1 pad home key w held
    split
    · exact hq
    split
    · rename_i e h1
      rw [h1] at hs
      exact hq.trans hs
    · rename_i e h1
      rw [h1] at hs
      split
      · exact hq.trans hs
      · exact hq.trans hs
    · rename_i slots bin ext d2 h1
      rw [h1] at hs
      have h2 : StoreWork d d2 := hq.trans hs
      have hfin : ∀ put : Tried Dev, Tried.Work d2 id put → ∀ (r : Rec) (late : List (Nat × List Byte)) (wseq : Nat) (f : Chk → Chk),
          (∀ c, ∃ n, f c = { c with maskCount := n }) → Stored.Work d (match put with
            | .wait d => .wait (giveBack slots bin ext w.small d)
            | .full d =>
              let d := giveBack slots bin ext w.small d
              if held.isSome then .wait d else .fail Status.noSpace.code d
            | .ok e =>
              let e := if w.small then e else fillSlots w e slots
              let e : Dev := { e with shd := { e.shd with wseq := wseq + 1 } }
              let draws := f e.chk
              let e : Dev := if (d.pad pad).check then { e with chk := { draws with make := satAdd 32 e.chk.make late.length } } else e
              .ok r e) := by
        intro put hw r late wseq f hf
        cases put with
        | wait e => exact h2.trans (StoreWork.trans hw (giveBack_storeWork _ _ _ _ _))
        | full e =>
          have h3 := h2.trans (StoreWork.trans hw (giveBack_storeWork slots bin ext w.small _))
          dsimp only
          split
          · exact h3
          · exact h3
        | ok e =>
          have h3 : StoreWork d e := h2.trans hw
          have hfill : StoreWork e (if w.small then e else fillSlots w e slots) := by
            split
            · exact StoreWork.refl e
            · refine foldl_storeWork _ (fun d s => ?_) slots e
              exact StoreWork.of_cmds rfl
          have h4 := h3.trans hfill
          dsimp only
          generalize (if w.small then e else fillSlots w e slots) = e2 at h4
          obtain ⟨n, hn⟩ := hf e2.chk
          split
          · rw [hn]
            exact h4.trans (StoreWork.of_cmds rfl)
          · exact h4.trans (StoreWork.of_cmds rfl)
      have draws : ∀ (l : List (Nat × List Byte)) (c : Chk), ∃ n, l.foldl (fun (c : Chk) x => c.draws x.2.length) c = { c with maskCount := n } := by
        intro l
        induction l with
        | nil => exact fun c => ⟨c.maskCount, rfl⟩
        | cons a r ih =>
          intro c
          obtain ⟨n, hn⟩ := ih (c.draws a.2.length)
          exact ⟨n, hn⟩
      refine hfin _ ?_ _ (w.written.filter fun x => !(made.any fun e => e.1 == x.1)) d2.shd.wseq
        (fun c => (w.written.filter fun x => !(made.any fun e => e.1 == x.1)).foldl (fun (c : Chk) x => c.draws x.2.length) c)
        (draws _)
      split
      · exact (updRec_stallsOnly _ _ _ _).storeWork.trans (retire_storeWork _ _)
      · have hi : ∀ (e : Dev) (r : Rec), StoreWork d2 e → Tried.Work d2 id (e.inRoom home fun d => d.insertRec home r) := fun e r he =>
          Tried.Work.trans he (withRoom_work _ id (fun d' a ha => insertRec_storeWork d' _ _ a ha) _ _ _)
        refine hi _ _ ?_
        split
        · split
          · exact (retireEntry_storeWork _ _ _ _).trans (removeEntry_storeWork _ _ _)
          · exact StoreWork.refl _
        · exact StoreWork.refl _

theorem readWb_storeWork (d : Dev) (fs : List Finding) (c : Cmd) : StoreWork d (d.readWb fs c).2 :=
  foldl_pair_storeWork (fun (a : List Nat × Dev) (e : Nat × Nat × Nat) =>
    (if (a.2.readGranules fs e.2.1 (e.2.2 * 1024) 1024).1.bad then a.1 ++ [e.1] else a.1, (a.2.readGranules fs e.2.1 (e.2.2 * 1024) 1024).2))
    (fun a _ => readGranules_storeWork a.2 fs _ _ _) c.wb (c.wbLost, d)

end Sys2Proof.Machine
end

