-- ==== Sys2Proof/Laws/Traffic.lean ====
section
/-! SUPPORT. What sending can change. `Sends`: frames join the queues, replay lists and outputs, data timers start, the current link of a
session is chosen, held frames grow: nothing else. `Traffic`: as `Sends`, with READs, WRITEs and PCIe requests of one's own. -/

namespace Sys2Proof.Machine

open Sys2Proof

/-- A link without what sending changes. -/
def Link.core (l : Link) : Link :=
  { l with queue := [], unacked := [], txSeq := 0, used := Cred.zero, ackAt := 0, ctlDirty := false, ctlAt := 0, transit := [] }

/-- A session without what sending changes. -/
def Session.core (x : Session) : Session :=
  { x with clink := 0, clinkNone := false, hold := x.hold.map fun h => { h with frames := [] } }

/-- A READ without its timer and the link it was sent on. -/
def OutRead.core (r : OutRead) : OutRead := { r with due := none, link := 0 }

/-- A command without the timers of its grants and the link of its output. -/
def Cmd.core (x : Cmd) : Cmd := { x with grants := x.grants.map fun g => { g with due := none }, segLink := none }

structure Sends (d e : Dev) : Prop where
  frame : e = { d with links := e.links, sessions := e.sessions, cmds := e.cmds, reads := e.reads, out := e.out }
  link : ∀ n, (e.link n).core = (d.link n).core
  ses : ∀ n, (e.ses n).core = (d.ses n).core
  cmds : e.cmds.map Cmd.core = d.cmds.map Cmd.core
  reads : e.reads.map OutRead.core = d.reads.map OutRead.core
  out : ∃ more, e.out = d.out ++ more

theorem Sends.refl (d : Dev) : Sends d d := ⟨rfl, fun _ => rfl, fun _ => rfl, rfl, rfl, [], by simp⟩

theorem Sends.trans {a b c : Dev} (h1 : Sends a b) (h2 : Sends b c) : Sends a c := by
  obtain ⟨m1, e1⟩ := h1.out
  obtain ⟨m2, e2⟩ := h2.out
  refine ⟨?_, fun n => (h2.link n).trans (h1.link n), fun n => (h2.ses n).trans (h1.ses n), h2.cmds.trans h1.cmds,
    h2.reads.trans h1.reads, m1 ++ m2, by rw [e2, e1, List.append_assoc]⟩
  refine h2.frame.trans ?_
  rw [h1.frame]

theorem foldl_sends {α : Type} (f : Dev → α → Dev) (hf : ∀ d a, Sends d (f d a)) (l : List α) (d : Dev) : Sends d (l.foldl f d) := by
  induction l generalizing d with
  | nil => exact Sends.refl d
  | cons a r ih => exact (hf d a).trans (ih _)

theorem find_core (l m : List Cmd) (h : l.map Cmd.core = m.map Cmd.core) (c : Nat) :
    (l.find? fun x => x.id == c).map Cmd.core = (m.find? fun x => x.id == c).map Cmd.core := by
  have key : ∀ k : List Cmd, ((k.map Cmd.core).find? fun x => x.id == c) = (k.find? fun x => x.id == c).map Cmd.core := by
    intro k
    rw [List.find?_map]
    rfl
  rw [← key, ← key, h]

/-- A command found after sending is the one found before but for the timers of its grants. -/
theorem Sends.findCmd {d e : Dev} (h : Sends d e) (c : Nat) : (e.findCmd c).map Cmd.core = (d.findCmd c).map Cmd.core :=
  find_core _ _ h.cmds c

/-- A link changed only where sending changes it. -/
theorem updLink_sends (d : Dev) (n : Nat) (f : Link → Link) (hf : (f (d.link n)).core = (d.link n).core) : Sends d (d.updLink n f) := by
  refine ⟨rfl, fun m => ?_, fun _ => rfl, rfl, rfl, [], by simp⟩
  rw [Dev.link_updLink]
  split
  · rename_i h
    rw [h, hf]
  · rfl

theorem updSes_sends (d : Dev) (n : Nat) (f : Session → Session) (hf : (f (d.ses n)).core = (d.ses n).core) : Sends d (d.updSes n f) := by
  refine ⟨rfl, fun _ => rfl, fun m => ?_, rfl, rfl, [], by simp⟩
  rw [Dev.ses_updSes]
  split
  · rename_i h
    rw [h, hf]
  · rfl

theorem emit_sends (d : Dev) (o : Output) : Sends d (d.emit o) := ⟨rfl, fun _ => rfl, fun _ => rfl, rfl, rfl, [o], rfl⟩

theorem startTimer_sends (d : Dev) (n : Nat) (p : Pkt) : Sends d (d.startTimer n p) := by
  unfold Dev.startTimer
  split
  · refine ⟨rfl, fun _ => rfl, fun _ => rfl, rfl, ?_, [], by simp⟩
    simp only [List.map_map]
    congr 1
    funext r
    simp only [Function.comp]
    split <;> rfl
  · refine ⟨rfl, fun _ => rfl, fun _ => rfl, ?_, rfl, [], by simp⟩
    simp only [Dev.updCmd, List.map_map]
    congr 1
    funext x
    simp only [Function.comp]
    split
    · simp only [Cmd.core, List.map_map]
      congr 1
      apply List.map_congr_left
      intro g _
      simp only [Function.comp]
      split <;> rfl
    · rfl
  · exact Sends.refl d

theorem sendFrame_sends (d : Dev) (n : Nat) (p : Pkt) : Sends d (d.sendFrame n p) := by
  unfold Dev.sendFrame
  exact (updLink_sends d n _ rfl).trans ((emit_sends _ _).trans (startTimer_sends _ _ _))

theorem pumpLoop_sends (k : Nat) (d : Dev) (n : Nat) : Sends d (pumpLoop k d n) := by
  induction k generalizing d with
  | zero => exact Sends.refl d
  | succ k ih =>
    unfold pumpLoop
    split
    · exact Sends.refl d
    · exact (updLink_sends d n _ rfl).trans ((sendFrame_sends _ n _).trans (ih _))

theorem pump_sends (d : Dev) (n : Nat) : Sends d (d.pump n) := by
  unfold Dev.pump
  split
  · exact pumpLoop_sends _ d n
  · exact Sends.refl d

theorem enqueue_sends (d : Dev) (n : Nat) (p : Pkt) : Sends d (d.enqueue n p) :=
  (updLink_sends d n _ rfl).trans (pump_sends _ n)

theorem refreshClink_sends (d : Dev) (s : Nat) : Sends d (d.refreshClink s) := by
  unfold Dev.refreshClink
  split
  · exact Sends.refl d
  · split
    · exact updSes_sends d s _ rfl
    · exact updSes_sends d s _ rfl

theorem sendSes_sends (d : Dev) (s : Nat) (p : Pkt) : Sends d (d.sendSes s p) := by
  unfold Dev.sendSes
  split
  · rename_i h hh
    refine updSes_sends d s _ ?_
    simp [Session.core, hh]
  · dsimp only
    split
    · exact refreshClink_sends d s
    · exact (refreshClink_sends d s).trans (enqueue_sends _ _ _)

theorem segLink_sends (d : Dev) (c : Nat) (v : Option (Nat × Nat)) : Sends d (d.updCmd c fun x => { x with segLink := v }) := by
  refine ⟨rfl, fun _ => rfl, fun _ => rfl, ?_, rfl, [], by simp⟩
  simp only [Dev.updCmd, List.map_map]
  congr 1
  funext x
  simp only [Function.comp]
  split <;> rfl

theorem partLink_sends (d : Dev) (c s i : Nat) : Sends d (d.partLink c s i).2 := by
  unfold Dev.partLink
  split
  · split
    · exact Sends.refl d
    · split
      · exact Sends.refl d
      · exact refreshClink_sends d s
  · exact Sends.refl d

theorem sendPart_sends (d : Dev) (c s i : Nat) (ps : List Pkt) : Sends d (d.sendPart c s i ps) := by
  unfold Dev.sendPart
  split
  · rename_i h hh
    refine (segLink_sends d c _).trans (updSes_sends _ s _ ?_)
    simp [Session.core, hh]
  · have h := partLink_sends d c s i
    split
    · rename_i e
      rw [e] at h
      exact h
    · rename_i n d' e
      rw [e] at h
      exact h.trans ((segLink_sends d' c _).trans (foldl_sends _ (fun d p => enqueue_sends d _ p) ps _))

theorem sendRsp_sends (d : Dev) (c : Cmd) (t a : Nat) (hs : List ExtHdr) (b : List Byte) (o : Owner) :
    Sends d (d.sendRsp c t a hs b o) :=
  (refreshClink_sends d c.ses).trans (sendSes_sends _ _ _)

/-! ### With READs, WRITEs and PCIe requests -/

structure Traffic (d e : Dev) : Prop where
  frame : e = { d with
    links := e.links, sessions := e.sessions, cmds := e.cmds, reads := e.reads, out := e.out, writes := e.writes,
    nextTag := e.nextTag, pcie := e.pcie }
  link : ∀ n, (e.link n).core = (d.link n).core
  ses : ∀ n, (e.ses n).core = (d.ses n).core
  cmds : e.cmds.map Cmd.core = d.cmds.map Cmd.core
  reads : ∃ new, e.reads.map OutRead.core = d.reads.map OutRead.core ++ new
  out : ∃ more, e.out = d.out ++ more
  pcie : e.pcie = { d.pcie with waiting := e.pcie.waiting, pendingVec := e.pcie.pendingVec, issued := e.pcie.issued }

theorem Traffic.refl (d : Dev) : Traffic d d := ⟨rfl, fun _ => rfl, fun _ => rfl, rfl, ⟨[], by simp⟩, ⟨[], by simp⟩, rfl⟩

theorem Traffic.trans {a b c : Dev} (h1 : Traffic a b) (h2 : Traffic b c) : Traffic a c := by
  obtain ⟨m1, e1⟩ := h1.out
  obtain ⟨m2, e2⟩ := h2.out
  obtain ⟨n1, f1⟩ := h1.reads
  obtain ⟨n2, f2⟩ := h2.reads
  refine ⟨?_, fun n => (h2.link n).trans (h1.link n), fun n => (h2.ses n).trans (h1.ses n), h2.cmds.trans h1.cmds,
    ⟨n1 ++ n2, by rw [f2, f1, List.append_assoc]⟩, ⟨m1 ++ m2, by rw [e2, e1, List.append_assoc]⟩, ?_⟩
  · refine h2.frame.trans ?_
    rw [h1.frame]
  · refine h2.pcie.trans ?_
    rw [h1.pcie]

theorem Sends.traffic {d e : Dev} (h : Sends d e) : Traffic d e := by
  refine ⟨?_, h.link, h.ses, h.cmds, ⟨[], by rw [h.reads, List.append_nil]⟩, h.out, ?_⟩
  · rw [h.frame]
  · rw [h.frame]

theorem Traffic.findCmd {d e : Dev} (h : Traffic d e) (c : Nat) : (e.findCmd c).map Cmd.core = (d.findCmd c).map Cmd.core :=
  find_core _ _ h.cmds c

theorem foldl_traffic {α : Type} (f : Dev → α → Dev) (hf : ∀ d a, Traffic d (f d a)) (l : List α) (d : Dev) :
    Traffic d (l.foldl f d) := by
  induction l generalizing d with
  | nil => exact Traffic.refl d
  | cons a r ih => exact (hf d a).trans (ih _)

theorem pcieSend_traffic (d : Dev) (o : PcieOut) : Traffic d (d.pcieSend o) := by
  unfold Dev.pcieSend
  split
  · exact Traffic.refl d
  · split
    · exact ⟨rfl, fun _ => rfl, fun _ => rfl, rfl, ⟨[], by simp⟩, ⟨[], by simp⟩, rfl⟩
    · exact (emit_sends d _).traffic

theorem msix_traffic (d : Dev) (v : Nat) : Traffic d (d.msix v) := by
  unfold Dev.msix
  split
  · exact Traffic.refl d
  · split
    · exact (emit_sends d _).traffic
    · split
      · exact Traffic.refl d
      · exact ⟨rfl, fun _ => rfl, fun _ => rfl, rfl, ⟨[], by simp⟩, ⟨[], by simp⟩, rfl⟩

theorem takeTag_traffic (d : Dev) : Traffic d d.takeTag.2 :=
  ⟨rfl, fun _ => rfl, fun _ => rfl, rfl, ⟨[], by simp [Dev.takeTag]⟩, ⟨[], by simp [Dev.takeTag]⟩, rfl⟩

theorem readTag_traffic (d : Dev) (b : Bool) : Traffic d (d.readTag b).2 ∧ (d.readTag b).2.reads = d.reads := by
  cases b with
  | false => exact ⟨takeTag_traffic d, rfl⟩
  | true => exact ⟨⟨rfl, fun _ => rfl, fun _ => rfl, rfl, ⟨[], by simp [Dev.readTag]⟩, ⟨[], by simp [Dev.readTag]⟩, rfl⟩, rfl⟩

/-- The READ that `sendRead` makes. -/
def Dev.newRead (d : Dev) (s q addr len : Nat) (w : ReadFor) : OutRead :=
  { tag := (d.readTag (d.ses s).pcie).1, ses := s, qp := q, addr := addr, len := len, what := w, due := none, acked := false, link := 0 }

/-- A READ is added to those outstanding; sending it is traffic. -/
theorem sendRead_traffic (d : Dev) (s q addr len : Nat) (hs : List ExtHdr) (w : ReadFor) :
    Traffic d (d.sendRead s q addr len hs w) ∧
    (d.sendRead s q addr len hs w).reads.map OutRead.core = d.reads.map OutRead.core ++ [(d.newRead s q addr len w).core] := by
  obtain ⟨ht, hr⟩ := readTag_traffic d (d.ses s).pcie
  have hn : (d.newRead s q addr len w).tag = (d.readTag (d.ses s).pcie).1 := rfl
  unfold Dev.sendRead
  dsimp only
  rw [show ({ tag := (d.readTag (d.ses s).pcie).1, ses := s, qp := q, addr := addr, len := len, what := w, due := none, acked := false,
              link := 0 } : OutRead) = d.newRead s q addr len w from rfl]
  generalize d.newRead s q addr len w = nr at hn ⊢
  generalize (d.readTag (d.ses s).pcie).1 = t at hn ⊢
  generalize (d.readTag (d.ses s).pcie).2 = e at ht hr ⊢
  have h0 : ∀ l : List OutRead, l.map OutRead.core = d.reads.map OutRead.core ++ [nr.core] → Traffic d { e with reads := l } := by
    intro l hl
    refine ⟨?_, ht.link, ht.ses, ht.cmds, ⟨[nr.core], hl⟩, ht.out, ht.pcie⟩
    rw [ht.frame]
  have e0 : (e.reads ++ [nr]).map OutRead.core = d.reads.map OutRead.core ++ [nr.core] := by simp [hr]
  split
  · have hm : ∀ (l : List OutRead) (t : Nat) (v : Option Nat),
        (l.map fun x => if x.tag = t then { x with due := v } else x).map OutRead.core = l.map OutRead.core := by
      intro l t v
      rw [List.map_map]
      congr 1
      funext x
      simp only [Function.comp]
      split <;> rfl
    have hp : ∀ (d : Dev) (o : PcieOut), (d.pcieSend o).reads = d.reads := by
      intro d o
      unfold Dev.pcieSend
      split
      · rfl
      · split <;> rfl
    refine ⟨(h0 _ ((hm _ _ _).trans e0)).trans (pcieSend_traffic _ _), ?_⟩
    rw [hp]
    exact (hm _ _ _).trans e0
  · have hs' := sendSes_sends { e with reads := e.reads ++ [nr] } s
      (Dev.sesPkt { e with reads := e.reads ++ [nr] } 0x07 .req s q t addr hs (natLe 8 len) (.read t))
    exact ⟨(h0 _ e0).trans hs'.traffic, hs'.reads.trans e0⟩

theorem piecePkts_traffic (l : List OutPiece) (d : Dev) (c : Cmd) (ps : List Pkt) : Traffic d (d.piecePkts c l ps).2 := by
  induction l generalizing d ps with
  | nil => exact Traffic.refl d
  | cons p r ih =>
    unfold Dev.piecePkts
    dsimp only
    refine Traffic.trans ?_ (ih _ _)
    unfold Dev.piecePkt
    split
    · exact Traffic.refl d
    · exact ⟨rfl, fun _ => rfl, fun _ => rfl, rfl, ⟨[], by simp [Dev.takeTag]⟩, ⟨[], by simp [Dev.takeTag]⟩, rfl⟩

theorem sendPieces_traffic (k : Nat) (d : Dev) (c : Cmd) (l : List OutPiece) : Traffic d (d.sendPieces c k l) := by
  induction k generalizing d l with
  | zero => exact Traffic.refl d
  | succ k ih =>
    cases l with
    | nil => exact Traffic.refl d
    | cons p r =>
      unfold Dev.sendPieces
      split
      · exact (pcieSend_traffic d _).trans (ih _ _)
      · dsimp only
        exact (piecePkts_traffic _ d c []).trans ((sendPart_sends _ _ _ _ _).traffic.trans (ih _ _))

/-- Sending a command's output: what waits of it shrinks, and frames go. -/
theorem sendOutput_traffic (d : Dev) (c : Nat) :
    (d.findCmd c = none ∧ d.sendOutput c = d) ∨
    ∃ x stay n, d.findCmd c = some x ∧ Traffic (d.updCmd c fun y => { y with outLeft := stay, sent := y.sent + n }) (d.sendOutput c) := by
  unfold Dev.sendOutput
  split
  · rename_i h
    exact .inl ⟨h, rfl⟩
  · rename_i x h
    exact .inr ⟨x, _, _, h, sendPieces_traffic _ _ _ _⟩

/-- The outcome of a command, and every field but its output and grant timers, survives the sending of output. -/
theorem sendOutput_findCmd (d : Dev) (c k : Nat) (x : Cmd) (h : d.findCmd k = some x) :
    ∃ y, (d.sendOutput c).findCmd k = some y ∧ ({ y with outLeft := [], sent := 0 } : Cmd).core = ({ x with outLeft := [], sent := 0 } : Cmd).core := by
  rcases sendOutput_traffic d c with ⟨_, he⟩ | ⟨z, stay, n, hz, ht⟩
  · exact ⟨x, by rw [he, h], rfl⟩
  · have hf := ht.findCmd k
    by_cases hk : k = c
    · subst hk
      rw [Dev.findCmd_updCmd_self _ _ _ (by simp), h] at hf
      cases hy : (d.sendOutput k).findCmd k with
      | none =>
        rw [hy] at hf
        cases hf
      | some y =>
        rw [hy] at hf
        have h2 : y.core = Cmd.core { x with outLeft := stay, sent := x.sent + n } := Option.some.inj hf
        refine ⟨y, rfl, ?_⟩
        exact congrArg (fun z : Cmd => { z with outLeft := [], sent := 0 }) h2
    · rw [Dev.findCmd_updCmd_other _ _ _ _ hk (by simp), h] at hf
      cases hy : (d.sendOutput c).findCmd k with
      | none =>
        rw [hy] at hf
        cases hf
      | some y =>
        rw [hy] at hf
        have h2 : y.core = x.core := Option.some.inj hf
        exact ⟨y, rfl, congrArg (fun z : Cmd => { z with outLeft := [], sent := 0 }) h2⟩

/-- Sending output changes what traffic changes and the output that waits. -/
theorem sendOutput_frame (d : Dev) (c : Nat) :
    d.sendOutput c = { d with
      links := (d.sendOutput c).links, sessions := (d.sendOutput c).sessions, cmds := (d.sendOutput c).cmds,
      reads := (d.sendOutput c).reads, out := (d.sendOutput c).out, writes := (d.sendOutput c).writes,
      nextTag := (d.sendOutput c).nextTag, pcie := (d.sendOutput c).pcie } := by
  rcases sendOutput_traffic d c with ⟨_, he⟩ | ⟨z, stay, n, hz, ht⟩
  · rw [he]
  · exact ht.frame.trans rfl

end Sys2Proof.Machine
end

