-- ==== Sys2Proof/Laws/Plane.lean ====
section
/-! SUPPORT. What the operations of a command's data plane leave as it was, in the terms statements use (`DataPlane`). -/

namespace Sys2Proof.Machine

open Sys2Proof

theorem DataPlane.refl (d : Dev) : DataPlane d d := ⟨rfl, rfl⟩

theorem DataPlane.trans {a b c : Dev} (h1 : DataPlane a b) (h2 : DataPlane b c) : DataPlane a c := by
  refine ⟨?_, h2.2.trans h1.2⟩
  refine h2.1.trans ?_
  rw [h1.1]

theorem StoreWork.plane {d e : Dev} (h : StoreWork d e) : DataPlane d e := by
  refine ⟨?_, h.ids⟩
  rw [h.frame]

theorem Traffic.plane {d e : Dev} (h : Traffic d e) : DataPlane d e := by
  refine ⟨?_, ?_⟩
  · rw [h.frame]
  · have := congrArg (List.map Cmd.id) h.cmds
    rw [List.map_map, List.map_map] at this
    exact this

theorem updCmd_ids (d : Dev) (c : Nat) (f : Cmd → Cmd) (hf : ∀ x, (f x).id = x.id) :
    (d.updCmd c f).cmds.map Cmd.id = d.cmds.map Cmd.id := by
  unfold Dev.updCmd
  rw [List.map_map]
  congr 1
  funext x
  simp only [Function.comp]
  split
  · exact hf x
  · rfl

theorem updCmd_plane (d : Dev) (c : Nat) (f : Cmd → Cmd) (hf : ∀ x, (f x).id = x.id) : DataPlane d (d.updCmd c f) :=
  ⟨rfl, updCmd_ids d c f hf⟩

theorem releaseWb_ids (d : Dev) (c : Cmd) (k : Bool) : (d.releaseWb c k).cmds.map Cmd.id = d.cmds.map Cmd.id := by
  have h := congrArg Dev.cmds (d.releaseWb_frame c k).1
  rw [h]
  exact updCmd_ids d _ _ (by intro x; rfl)

theorem finish_ids (d : Dev) (c st b i : Nat) : (d.finish c st b i).cmds.map Cmd.id = d.cmds.map Cmd.id := by
  unfold Dev.finish
  dsimp only
  refine (updCmd_ids _ _ _ (by intro x; rfl)).trans ?_
  split
  · exact releaseWb_ids _ _ _
  · rfl

theorem finish_plane (d : Dev) (c st b i : Nat) : DataPlane d (d.finish c st b i) := by
  refine ⟨?_, finish_ids d c st b i⟩
  refine (d.finish_frame c st b i).1.trans ?_
  rw [(d.finish_frame c st b i).1]

/-- The early end of a command that is no PADDOCK command. -/
theorem abort_plane (d : Dev) (c st : Nat) (h : ∀ x, d.findCmd c = some x → x.body.opcode ≠ Opcode.paddock.code) : DataPlane d (d.abort c st) := by
  unfold Dev.abort Dev.abortWith
  rw [d.undelete_of_ne c h]
  exact (updCmd_plane d c _ (by intro x; rfl)).trans (finish_plane _ _ _ _ _)

theorem sendOutput_plane (d : Dev) (c : Nat) : DataPlane d (d.sendOutput c) := by
  rcases sendOutput_traffic d c with ⟨_, he⟩ | ⟨x, stay, n, hx, ht⟩
  · rw [he]
    exact DataPlane.refl d
  · exact (updCmd_plane d c _ (by intro x; rfl)).trans ht.plane

theorem readDone_plane (d : Dev) (c : Nat) (outs : List OutPiece) (st b i n : Nat) : DataPlane d (d.readDone c outs st b i n) := by
  unfold Dev.readDone
  dsimp only
  exact (updCmd_plane d c _ (by intro x; rfl)).trans ((finish_plane _ _ _ _ _).trans (sendOutput_plane _ _))

theorem slalom_barns (d : Dev) (s : Shape) (l : List (Option Nat)) : d.slalom s l = { d with barns := (d.slalom s l).barns } := by
  have hl : ∀ (r : List (Option Nat × Nat)) (d : Dev), (r.foldl (fun (d : Dev) x => match x.1 with
      | none => d
      | some st => d.slalomCount st (s.slalomBlocks x.2)) d) = { d with barns := (r.foldl (fun (d : Dev) x => match x.1 with
      | none => d
      | some st => d.slalomCount st (s.slalomBlocks x.2)) d).barns } := by
    intro r
    induction r with
    | nil => exact fun _ => rfl
    | cons x r ih =>
      intro d
      simp only [List.foldl_cons]
      refine (ih _).trans ?_
      split <;> rfl
  unfold Dev.slalom
  split
  · exact hl _ _
  · rfl

theorem slalom_findCmd (d : Dev) (s : Shape) (l : List (Option Nat)) (c : Nat) : (d.slalom s l).findCmd c = d.findCmd c := by
  rw [slalom_barns]
  rfl

theorem slalom_plane (d : Dev) (s : Shape) (l : List (Option Nat)) : DataPlane d (d.slalom s l) := by
  have h := slalom_barns d s l
  refine ⟨?_, ?_⟩
  · rw [h]
  · rw [h]

theorem free_plane (d : Dev) (n : Nat) : DataPlane d { d with free := n } := ⟨rfl, rfl⟩

end Sys2Proof.Machine
end

