-- ==== Sys2Proof/Laws/Asks.lean ====
section
/-! SUPPORT. What asking for inbound data can change: traffic, and the grants and requests of commands. -/

namespace Sys2Proof.Machine

open Sys2Proof

/-- A command without what asking for its input changes. -/
def Cmd.plain (x : Cmd) : Cmd := { x with grants := [], nextGrant := 0, asked := 0, segLink := none }

structure Asks (d e : Dev) : Prop where
  frame : e = { d with
    links := e.links, sessions := e.sessions, cmds := e.cmds, reads := e.reads, out := e.out, writes := e.writes,
    nextTag := e.nextTag, pcie := e.pcie }
  link : ∀ n, (e.link n).core = (d.link n).core
  ses : ∀ n, (e.ses n).core = (d.ses n).core
  cmds : e.cmds.map Cmd.plain = d.cmds.map Cmd.plain
  reads : ∃ new, e.reads.map OutRead.core = d.reads.map OutRead.core ++ new
  out : ∃ more, e.out = d.out ++ more
  pcie : e.pcie = { d.pcie with waiting := e.pcie.waiting, pendingVec := e.pcie.pendingVec, issued := e.pcie.issued }

theorem Asks.refl (d : Dev) : Asks d d := ⟨rfl, fun _ => rfl, fun _ => rfl, rfl, ⟨[], by simp⟩, ⟨[], by simp⟩, rfl⟩

theorem Asks.trans {a b c : Dev} (h1 : Asks a b) (h2 : Asks b c) : Asks a c := by
  obtain ⟨m1, e1⟩ := h1.out
  obtain ⟨m2, e2⟩ := h2.out
  obtain ⟨n1, f1⟩ := h1.reads
  obtain ⟨n2, f2⟩ := h2.reads
  refine ⟨?_, fun n => (h2.link n).trans (h1.link n), fun n => (h2.ses n).trans (h1.ses n), h2.cmds.trans h1.cmds,
    ⟨n1 ++ n2, by rw [f2, f1, List.append_assoc]⟩, ⟨m1 ++ m2, by rw [e2, e1, List.append_assoc]⟩, ?_⟩
  · refine h2.frame.trans ?_
    rw [h1.frame]
  · refine h2.pcie.trans ?_
    rw [h1.pcie]

theorem Traffic.asks {d e : Dev} (h : Traffic d e) : Asks d e := by
  refine ⟨h.frame, h.link, h.ses, ?_, h.reads, h.out, h.pcie⟩
  have key : ∀ l : List Cmd, l.map Cmd.plain = (l.map Cmd.core).map Cmd.plain := fun l => by
    rw [List.map_map]
    rfl
  rw [key, h.cmds, ← key]

theorem find_plain (l m : List Cmd) (h : l.map Cmd.plain = m.map Cmd.plain) (c : Nat) :
    (l.find? fun x => x.id == c).map Cmd.plain = (m.find? fun x => x.id == c).map Cmd.plain := by
  have key : ∀ k : List Cmd, ((k.map Cmd.plain).find? fun x => x.id == c) = (k.find? fun x => x.id == c).map Cmd.plain := by
    intro k
    rw [List.find?_map]
    rfl
  rw [← key, ← key, h]

theorem Asks.findCmd {d e : Dev} (h : Asks d e) (c : Nat) : (e.findCmd c).map Cmd.plain = (d.findCmd c).map Cmd.plain :=
  find_plain _ _ h.cmds c

/-- A command found before asking is found after it, but for its grants and what it has asked for. -/
theorem Asks.found {d e : Dev} (h : Asks d e) (c : Nat) (x : Cmd) (hx : d.findCmd c = some x) :
    ∃ y, e.findCmd c = some y ∧ y.plain = x.plain := by
  have hf := h.findCmd c
  rw [hx] at hf
  cases hy : e.findCmd c with
  | none =>
    rw [hy] at hf
    cases hf
  | some y =>
    rw [hy] at hf
    exact ⟨y, rfl, Option.some.inj hf⟩

theorem updCmd_asks (d : Dev) (c : Nat) (f : Cmd → Cmd) (hf : ∀ x, (f x).plain = x.plain) : Asks d (d.updCmd c f) := by
  refine ⟨rfl, fun _ => rfl, fun _ => rfl, ?_, ⟨[], by simp⟩, ⟨[], by simp⟩, rfl⟩
  unfold Dev.updCmd
  rw [List.map_map]
  congr 1
  funext x
  simp only [Function.comp]
  split
  · exact hf x
  · rfl

theorem sendGrant_asks (d : Dev) (c : Cmd) (g : Grant) : Asks d (d.sendGrant c g) :=
  (updCmd_asks d c.id _ (by intro x; rfl)).trans (sendRsp_sends _ _ _ _ _ _ _).traffic.asks

theorem nextGrant_asks (k : Nat) (d : Dev) (c : Nat) : Asks d (d.nextGrant c k) := by
  induction k generalizing d with
  | zero => exact Asks.refl d
  | succ k ih =>
    unfold Dev.nextGrant
    split
    · exact Asks.refl d
    · rename_i x _
      have key : ∀ (p : Prop) (_ : Decidable p) (g : Grant), Asks d (if p then (d.sendGrant x g).nextGrant c k else d) := by
        intro p hp g
        split
        · exact (sendGrant_asks d _ _).trans (ih _)
        · exact Asks.refl d
      exact key _ _ _

theorem pullRange_asks (k : Nat) (d : Dev) (c : Cmd) (base lo hi : Nat) (v : Bool) : Asks d (d.pullRange c base lo hi v k) := by
  induction k generalizing d lo with
  | zero => exact Asks.refl d
  | succ k ih =>
    unfold Dev.pullRange
    split
    · exact Asks.refl d
    · exact (sendRead_traffic _ _ _ _ _ _ _).1.asks.trans (ih _ _)

theorem nextPulls_asks (d : Dev) (c : Nat) : Asks d (d.nextPulls c) := by
  unfold Dev.nextPulls
  split
  · exact Asks.refl d
  · split
    · exact Asks.refl d
    · split
      · dsimp only
        split
        · exact (updCmd_asks d c _ (by intro x; rfl)).trans (pullRange_asks _ _ _ _ _ _ _)
        · exact Asks.refl d
      · split
        · exact (updCmd_asks d c _ (by intro x; rfl)).trans (pullRange_asks _ _ _ _ _ _ _)
        · exact Asks.refl d

theorem askInput_asks (d : Dev) (c : Nat) : Asks d (d.askInput c) := by
  unfold Dev.askInput
  split
  · exact Asks.refl d
  · split
    · exact Asks.refl d
    · split
      · exact nextGrant_asks _ _ _
      · exact nextPulls_asks _ _

theorem Asks.plane {d e : Dev} (h : Asks d e) : DataPlane d e := by
  refine ⟨?_, ?_⟩
  · rw [h.frame]
  · have := congrArg (List.map Cmd.id) h.cmds
    rw [List.map_map, List.map_map] at this
    exact this

end Sys2Proof.Machine
end

