-- ==== Sys2Proof/Laws/Exec.lean ====
section
/-! SUPPORT. The shape of every command's meaning: all but eight act on the device alone, and not at all in reset. -/

namespace Sys2Proof.Machine

open Sys2Proof

/-- The commands that touch more than the device, or that can stop. -/
def Instr.special : Instr → Prop
  | .mailboxDone _ | .storedCopyWritten _ | .resetAssert | .resetRelease _ | .supplyLoss | .bringupStepDone _
  | .sensorSample _ | .tapInstruction _ _ => True
  | _ => False

/-- Every other command acts on the device alone, while the device runs (R729, R766). -/
theorem exec_device (c : Instr) (s : State) (h : ¬ Instr.special c) :
    ∃ d, exec c s = if s.dev.glb.resetN then .next { s with dev := d } else s.held := by
  cases c <;> first | exact absurd trivial h | exact ⟨_, rfl⟩

end Sys2Proof.Machine
end

