-- ==== Sys2Proof/Laws/Fetch.lean ====
section
/-! SUPPORT. What reading doorbells and fetching can change (traffic and queue pairs), and what a command's leaving does. -/

namespace Sys2Proof.Machine

open Sys2Proof

structure Fetches (d e : Dev) : Prop where
  frame : e = { d with
    links := e.links, sessions := e.sessions, cmds := e.cmds, reads := e.reads, out := e.out, writes := e.writes,
    nextTag := e.nextTag, pcie := e.pcie, qps := e.qps }
  link : ∀ n, (e.link n).core = (d.link n).core
  ses : ∀ n, (e.ses n).core = (d.ses n).core
  cmds : e.cmds.map Cmd.core = d.cmds.map Cmd.core
  reads : ∃ new, e.reads.map OutRead.core = d.reads.map OutRead.core ++ new
  out : ∃ more, e.out = d.out ++ more
  pcie : e.pcie = { d.pcie with waiting := e.pcie.waiting, pendingVec := e.pcie.pendingVec, issued := e.pcie.issued }

theorem Fetches.refl (d : Dev) : Fetches d d := ⟨rfl, fun _ => rfl, fun _ => rfl, rfl, ⟨[], by simp⟩, ⟨[], by simp⟩, rfl⟩

theorem Fetches.trans {a b c : Dev} (h1 : Fetches a b) (h2 : Fetches b c) : Fetches a c := by
  obtain ⟨m1, e1⟩ := h1.out
  obtain ⟨m2, e2⟩ := h2.out
  obtain ⟨n1, f1⟩ := h1.reads
  obtain ⟨n2, f2⟩ := h2.reads
  refine ⟨?_, fun n => (h2.link n).trans (h1.link n), fun n => (h2.ses n).trans (h1.ses n), h2.cmds.trans h1.cmds,
    ⟨n1 ++ n2, by rw [f2, f1, List.append_assoc]⟩, ⟨m1 ++ m2, by rw [e2, e1, List.append_assoc]⟩, ?_⟩
  · refine h2.frame.trans ?_
    rw [h1.frame]
  · refine h2.pcie.trans ?_
    rw [h1.pcie]

theorem Traffic.fetches {d e : Dev} (h : Traffic d e) : Fetches d e := by
  refine ⟨?_, h.link, h.ses, h.cmds, h.reads, h.out, h.pcie⟩
  rw [h.frame]

theorem Fetches.findCmd {d e : Dev} (h : Fetches d e) (c : Nat) : (e.findCmd c).map Cmd.core = (d.findCmd c).map Cmd.core :=
  find_core _ _ h.cmds c

theorem updQp_fetches (d : Dev) (q : Nat) (f : Qp → Qp) : Fetches d (d.updQp q f) :=
  ⟨rfl, fun _ => rfl, fun _ => rfl, rfl, ⟨[], by simp⟩, ⟨[], by simp⟩, rfl⟩

/-- Traffic leaves every queue pair as it is. -/
theorem Traffic.qp {d e : Dev} (h : Traffic d e) (q : Nat) : e.qp q = d.qp q := by
  rw [h.frame]
  rfl

theorem newRead_updQp (d : Dev) (q : Nat) (f : Qp → Qp) (s k a l : Nat) (w : ReadFor) :
    (d.updQp q f).newRead s k a l w = d.newRead s k a l w := by
  have e : ((d.updQp q f).readTag ((d.updQp q f).ses s).pcie).1 = (d.readTag (d.ses s).pcie).1 := by
    rw [show (d.updQp q f).ses s = d.ses s from rfl]
    cases (d.ses s).pcie <;> rfl
  unfold Dev.newRead
  rw [e]

/-- Reading a doorbell: the queue pair's read is in flight, or one more is asked for. -/
theorem doorbell_fetches (d : Dev) (q : Nat) :
    Fetches d (d.doorbell q) ∧ (∀ k, k ≠ q → (d.doorbell q).qp k = d.qp k) ∧
    (d.doorbell q).qp q = { d.qp q with dbBusy := true, dbAgain := if (d.qp q).dbBusy then true else (d.qp q).dbAgain } ∧
    ((d.qp q).dbBusy = true → (d.doorbell q).reads = d.reads) ∧
    ((d.qp q).dbBusy = false → (d.doorbell q).reads.map OutRead.core = d.reads.map OutRead.core ++
      [(d.newRead (q / 64) (q % 64) (d.qp q).ctx.dbAddr 8 (.doorbell q)).core]) := by
  unfold Dev.doorbell
  cases hb : (d.qp q).dbBusy with
  | true =>
    refine ⟨updQp_fetches _ _ _, fun k hk => by rw [if_pos rfl, Dev.updQp_other _ _ _ _ hk], ?_, fun _ => rfl, fun h => by simp at h⟩
    simp [← hb]
  | false =>
    obtain ⟨h1, h2⟩ := sendRead_traffic (d.updQp q fun x => { x with dbBusy := true }) (q / 64) (q % 64) (d.qp q).ctx.dbAddr 8 [] (.doorbell q)
    refine ⟨(updQp_fetches _ _ _).trans h1.fetches, fun k hk => ?_, ?_, fun h => by simp at h, fun _ => ?_⟩
    · simp only [Bool.false_eq_true, if_false]
      rw [h1.qp, Dev.updQp_other _ _ _ _ hk]
    · simp only [Bool.false_eq_true, if_false]
      rw [h1.qp]
      simp
    · simp only [Bool.false_eq_true, if_false]
      rw [h2, newRead_updQp]
      rfl

theorem wakeFetch_fetches (d : Dev) (s : Nat) : Fetches d (d.wakeFetch s) := by
  unfold Dev.wakeFetch
  generalize ((d.qps.filter fun q => q.1 / 64 == s && q.2.heldBack).map Prod.fst) = l
  induction l generalizing d with
  | nil => exact Fetches.refl d
  | cons q r ih =>
    simp only [List.foldl_cons]
    refine Fetches.trans ?_ (ih _)
    split
    · exact (updQp_fetches _ _ _).trans (doorbell_fetches _ _).1
    · exact Fetches.refl d

/-! ### A command leaves -/

theorem foldl_qpIdle (l : List Nat) (d : Dev) :
    l.foldl Dev.qpIdle d = { d with qps := (l.foldl Dev.qpIdle d).qps, reads := (l.foldl Dev.qpIdle d).reads, writes := (l.foldl Dev.qpIdle d).writes } := by
  induction l generalizing d with
  | nil => rfl
  | cons q r ih =>
    simp only [List.foldl_cons]
    exact (ih _).trans rfl

/-- Commands of session s that are discarded and counted (R221). -/
theorem foldl_discard (s : Nat) (l : List Cmd) (d : Dev) :
    l.foldl (fun d c => (d.dropCmd c.id).countLost s) d = { d with
      cmds := (l.foldl (fun d c => (d.dropCmd c.id).countLost s) d).cmds,
      sessions := (l.foldl (fun d c => (d.dropCmd c.id).countLost s) d).sessions } ∧
    (∀ n, n ≠ s → (l.foldl (fun d c => (d.dropCmd c.id).countLost s) d).ses n = d.ses n) ∧
    (l.foldl (fun d c => (d.dropCmd c.id).countLost s) d).ses s =
      { d.ses s with lost := ((l.foldl (fun d c => (d.dropCmd c.id).countLost s) d).ses s).lost } := by
  induction l generalizing d with
  | nil => exact ⟨rfl, fun _ _ => rfl, rfl⟩
  | cons c r ih =>
    obtain ⟨h1, h2, h3⟩ := ih ((d.dropCmd c.id).countLost s)
    simp only [List.foldl_cons]
    generalize r.foldl (fun d c => (d.dropCmd c.id).countLost s) ((d.dropCmd c.id).countLost s) = e at h1 h2 h3
    refine ⟨h1.trans rfl, fun n hn => (h2 n hn).trans (Dev.updSes_other _ _ _ _ hn), ?_⟩
    rw [h3]
    unfold Dev.countLost
    rw [Dev.updSes_self]
    rfl

/-- What settling a session leaves as it was. -/
def SettleOnly (a b : Dev) : Prop :=
  b = { a with qps := b.qps, reads := b.reads, writes := b.writes, sessions := b.sessions, cmds := b.cmds,
               arb := { a.arb with round := b.arb.round } }

theorem SettleOnly.trans {a b c : Dev} (h1 : SettleOnly a b) (h2 : SettleOnly b c) : SettleOnly a c := by
  unfold SettleOnly at h1 h2 ⊢
  refine h2.trans ?_
  rw [h1]

/-- Settling a session changes its own record, queue pairs, READs and WRITEs, and commands of it that can no longer be admitted. -/
theorem settleSession_frame (d : Dev) (s : Nat) :
    SettleOnly d (d.settleSession s) ∧
    (∀ n, n ≠ s → (d.settleSession s).ses n = d.ses n) ∧
    ((d.settleSession s).ses s = d.ses s ∨
      ((d.ses s).st = .closing ∧ (d.settleSession s).ses s =
        { d.ses s with st := .closed, hold := none, clinkNone := true, lost := ((d.settleSession s).ses s).lost })) := by
  unfold Dev.settleSession
  dsimp only
  generalize (d.qps.filter fun q => q.1 / 64 == s && q.2.st == .stopping && (d.qpCmds s (q.1 % 64)).isEmpty).map Prod.fst = l
  have h1 := foldl_qpIdle l d
  generalize List.foldl Dev.qpIdle d l = e at h1 ⊢
  have hs : ∀ n, e.ses n = d.ses n := fun n => by
    rw [h1]
    rfl
  split
  · rename_i hc
    rw [hs] at hc
    obtain ⟨k1, k2, k3⟩ := foldl_discard s (e.cmds.filter fun c => c.ses == s) e
    generalize (e.cmds.filter fun c => c.ses == s).foldl (fun d c => (d.dropCmd c.id).countLost s) e = f at k1 k2 k3 ⊢
    have u1 : f.leaveRound.updSes s (fun x => { x with st := .closed, hold := none, clinkNone := true }) = { f with
        sessions := (f.leaveRound.updSes s fun x => { x with st := .closed, hold := none, clinkNone := true }).sessions,
        arb := { f.arb with round := (f.leaveRound.updSes s fun x => { x with st := .closed, hold := none, clinkNone := true }).arb.round } } := rfl
    have u2 : ∀ n, n ≠ s → (f.leaveRound.updSes s fun x => { x with st := .closed, hold := none, clinkNone := true }).ses n = f.ses n :=
      fun n hn => (Dev.updSes_other _ _ _ _ hn).trans rfl
    have u3 : (f.leaveRound.updSes s fun x => { x with st := .closed, hold := none, clinkNone := true }).ses s =
        { f.ses s with st := .closed, hold := none, clinkNone := true } := (Dev.updSes_self _ _ _).trans rfl
    generalize f.leaveRound.updSes s (fun x => { x with st := .closed, hold := none, clinkNone := true }) = g at u1 u2 u3 ⊢
    have h2 := foldl_qpIdle ((g.qps.filter fun q => q.1 / 64 == s).map Prod.fst) g
    generalize List.foldl Dev.qpIdle g ((g.qps.filter fun q => q.1 / 64 == s).map Prod.fst) = t at h2 ⊢
    have ht : ∀ n, t.ses n = g.ses n := fun n => by
      rw [h2]
      rfl
    refine ⟨?_, fun n hn => ?_, .inr ⟨hc.1, ?_⟩⟩
    · have w1 : SettleOnly d e := by unfold SettleOnly; rw [h1]
      have w2 : SettleOnly e f := by unfold SettleOnly; rw [k1]
      have w3 : SettleOnly f g := by unfold SettleOnly; rw [u1]
      have w4 : SettleOnly g t := by unfold SettleOnly; rw [h2]
      exact w1.trans (w2.trans (w3.trans w4))
    · rw [ht, u2 n hn, k2 n hn, hs]
    · rw [ht, u3, k3, hs]
  · refine ⟨?_, fun n _ => hs n, .inl (hs s)⟩
    unfold SettleOnly
    rw [h1]

end Sys2Proof.Machine
end

