-- ==== Sys2Proof/Laws/Registers.lean ====
section
/-! SUPPORT. Which register an offset writes, once for each range of the map (R860), and what the register rows come down to. -/

namespace Sys2Proof.Machine

open Sys2Proof

/-- A write that is in force: GLB_CFG_GEN counts it unless R835 excepts its offset. -/
theorem regWrite_eq (d : Dev) (p : Path) (off : Nat) (w : Word) (h : d.glb.blocks = true) :
    d.regWrite p off w = (if notSetUp off then d else d.counted).writeBlock p off w := by
  unfold Dev.regWrite
  rw [h]
  rfl

theorem writeBlock_ses (d : Dev) (p : Path) (off : Nat) (w : Word) (h1 : 0x40000 ≤ off) (h2 : off < 0x50000) :
    d.writeBlock p off w = d.writeSes (off % 0x10000) w.toNat := by
  unfold Dev.writeBlock
  dsimp only
  repeat rw [if_neg (by omega)]
  rw [if_pos (by omega)]

theorem writeBlock_wmk (d : Dev) (p : Path) (off : Nat) (w : Word) (h1 : 0xB0000 ≤ off) (h2 : off < 0xC0000) :
    d.writeBlock p off w = d.writeWmk (off % 0x10000) w.toNat := by
  unfold Dev.writeBlock
  dsimp only
  repeat rw [if_neg (by omega)]
  rw [if_pos (by omega)]

theorem writeBlock_shp (d : Dev) (p : Path) (off : Nat) (w : Word) (h1 : 0xC0000 ≤ off) (h2 : off < 0xD0000) :
    d.writeBlock p off w = d.writeShp (off % 0x10000) w := by
  unfold Dev.writeBlock
  dsimp only
  repeat rw [if_neg (by omega)]
  rw [if_pos (by omega)]

theorem writeBlock_qp (d : Dev) (p : Path) (off : Nat) (w : Word) (h1 : 0xD0000 ≤ off) (h2 : off < 0xF0000) :
    d.writeBlock p off w = d.qpCtrlWrite ((off - 0xD0000) / 4) w.toNat := by
  unfold Dev.writeBlock
  dsimp only
  repeat rw [if_neg (by omega)]
  rw [if_pos (by omega)]

/-- LNK_CTRL of a link that is present and reached. -/
theorem writeBlock_lnk (d : Dev) (p : Path) (n : Nat) (w : Word) (hn : n < 48) (h1 : linkPresent d.variant n = true)
    (h2 : d.gatehousePath (n / 24) = true) : d.writeBlock p (0x100000 + n * 0x1000) w = d.linkCtrl n w.toNat := by
  unfold Dev.writeBlock
  dsimp only
  repeat rw [if_neg (by omega)]
  rw [if_pos (by omega)]
  have : (0x100000 + n * 0x1000 - 0x100000) / 0x1000 = n := by omega
  rw [this, if_pos ⟨by omega, h1, h2⟩]

/-- A command that acts on the device and then lets go on what waited. -/
theorem doesThen_run (i : Instr) (s : State) (f g : Dev → Dev) (P : Dev → Prop) (hu : s.Up) (he : exec i s = s.run f)
    (hf : f s.dev = (g s.dev).letGo) (hp : P (g s.dev)) : DoesThen i s P := by
  refine ⟨g s.dev, ?_, hp⟩
  rw [he]
  unfold State.run
  rw [show s.dev.glb.resetN = true from hu, if_pos rfl, hf]
  rfl

/-- A row that writes a register. -/
theorem doesThen_row (i : Instr) (s : State) (p : Path) (off : Nat) (w : Word) (P : Dev → Prop) (hu : s.Up) (hb : s.dev.glb.blocks = true)
    (he : exec i s = s.run fun d => d.writeRow p off w) (ho : offsetOk off = true)
    (h : P ((if notSetUp off then s.dev else s.dev.counted).writeBlock p off w)) : DoesThen i s P := by
  refine doesThen_run i s _ (fun d => d.regWrite p off w) P hu he ?_ ?_
  · unfold Dev.writeRow
    rw [if_pos ho]
  · rw [← regWrite_eq _ _ _ _ hb] at h
    exact h

end Sys2Proof.Machine
end

