-- ==== Sys2Proof/Laws/Sessions.lean ====
section
/-! SUPPORT. Sessions: the current link (R222), a session that opens (R211), queue pairs that go IDLE (R235), commands that end when a
session closes (R217–R219), and a session or queue pair that settles. -/

namespace Sys2Proof.Machine

open Sys2Proof

/-- A command that is there and finishes has ended. -/
theorem ended_finish (d : Dev) (c st b i : Nat) (x : Cmd) (h : d.findCmd c = some x) : (d.finish c st b i).Ended c st b i :=
  ⟨x.done st b i, by rw [Dev.findCmd_finish, if_pos rfl, h]; rfl, rfl, rfl, rfl, rfl⟩

/-- A command that is there and is aborted has ended; a write reports the bytes it had taken. -/
theorem ended_abort (d : Dev) (c st : Nat) (x : Cmd) (h : d.findCmd c = some x) :
    ∃ n, (d.abort c st).Ended c st n (d.infoNow x) ∧ (x.body.isWrite = true → n = x.gotBytes) := by
  obtain ⟨n, hn, _, _, h3⟩ := d.abort_frame c st
  refine ⟨n, ⟨({x with outLeft := []} : Cmd).done st n (d.infoNow x), ?_, rfl, rfl, rfl, rfl⟩, hn x h⟩
  rw [h3, if_pos rfl, h]; rfl

/-- The choice of a current link changes the session alone. -/
theorem refreshClink_frame (d : Dev) (s : Nat) : d.refreshClink s = { d with sessions := (d.refreshClink s).sessions } ∧
    (∀ m, m ≠ s → (d.refreshClink s).ses m = d.ses m) ∧
    (d.refreshClink s).ses s = { d.ses s with clink := ((d.refreshClink s).ses s).clink, clinkNone := ((d.refreshClink s).ses s).clinkNone } := by
  unfold Dev.refreshClink
  split
  · exact ⟨rfl, fun _ _ => rfl, rfl⟩
  · split
    · refine ⟨rfl, fun m hm => Dev.updSes_other _ _ _ _ hm, ?_⟩
      rw [Dev.updSes_self]
    · refine ⟨rfl, fun m hm => Dev.updSes_other _ _ _ _ hm, ?_⟩
      rw [Dev.updSes_self]

theorem find_filter_mod (m : SMap Qp) (n q : Nat) (h : q / 64 = n) : SMap.get (m.filter fun q => q.1 / 64 != n) q Qp.reset = Qp.reset := by
  unfold SMap.get
  rw [SMap.find_filter_of_drop _ _ _ (by intro v; simp [h])]
  rfl

/-- SES_CTRL of session n: its write reaches the session, and counts as set-up. -/
theorem sesOff (n : Nat) (hn : n < 512) : offsetOk (sesCtrlOff n) = true ∧ notSetUp (sesCtrlOff n) = false ∧
    ∀ (d : Dev) (p : Path) (w : Word), d.writeBlock p (sesCtrlOff n) w = d.sesCtrlWrite n w.toNat := by
  have hk : sesCtrlOff n = 0x41000 + n * 0x40 := by unfold sesCtrlOff; rw [Nat.mod_eq_of_lt hn]
  rw [hk]
  refine ⟨by unfold offsetOk; simp; omega, by unfold notSetUp; simp; omega, fun d p w => ?_⟩
  rw [writeBlock_ses _ _ _ _ (by omega) (by omega)]
  have e1 : (0x41000 + n * 0x40) % 0x10000 = 0x1000 + n * 0x40 := by omega
  rw [e1]
  unfold Dev.writeSes
  split <;> try omega
  rw [if_pos (by omega)]
  have : (0x1000 + n * 0x40 - 0x1000) / 0x40 = n := by omega
  have h2 : (0x1000 + n * 0x40) % 0x40 = 0 := by omega
  rw [this, h2]
  rfl

/-- What opening a session leaves (R211). -/
theorem sesOpen_spec (d : Dev) (n : Nat) : ((d.sesOpen n).ses n).st = .opened ∧ ((d.sesOpen n).ses n).pcie = (d.ses n).pcie ∧
    ((d.sesOpen n).ses n).abort = (d.ses n).abort ∧ ((d.sesOpen n).ses n).hold = none ∧
    ((d.sesOpen n).ses n).epoch = (if (d.ses n).epoch = 0xFFFF then 1 else (d.ses n).epoch + 1) ∧
    (∀ m, m ≠ n → (d.sesOpen n).ses m = d.ses m) ∧
    d.sesOpen n = { d with sessions := (d.sesOpen n).sessions, qps := d.qps.filter fun q => q.1 / 64 != n } := by
  unfold Dev.sesOpen
  dsimp only
  generalize hE : Dev.updSes _ n _ = d3
  have g1 : ∃ v, d3.ses n = { d.ses n with st := .opened, epoch := if (d.ses n).epoch = 0xFFFF then 1 else (d.ses n).epoch + 1, hold := none, clinkNone := true, bal := (d.ses n).burstKib * 1024 * 1000, balAt := d.now, pepoch := v } := by
    rw [← hE, Dev.updSes_self, Dev.updSes_self]; exact ⟨_, rfl⟩
  have g2 : ∀ m, m ≠ n → d3.ses m = d.ses m := fun m hm => by
    rw [← hE, Dev.updSes_other _ _ _ _ hm, Dev.updSes_other _ _ _ _ hm]; rfl
  have g3 : d3 = { d with sessions := d3.sessions, qps := d.qps.filter fun q => q.1 / 64 != n } := by rw [← hE]; rfl
  clear hE
  obtain ⟨v, g1⟩ := g1
  obtain ⟨f1, f2, f3⟩ := refreshClink_frame d3 n
  rw [g1] at f3
  refine ⟨by rw [f3], by rw [f3], by rw [f3], by rw [f3], by rw [f3], fun m hm => (f2 m hm).trans (g2 m hm), ?_⟩
  rw [f1, g3]

/-- A record looked up in a map whose entry under `a` has been changed in place. -/
theorem SMap.get_mapAt {α : Type} (m : SMap α) (a q : Nat) (f : α → α) (v : α) (h : f v = v) :
    SMap.get (m.map fun x => if x.1 = a then (x.1, f x.2) else x) q v = if q = a then f (SMap.get m q v) else SMap.get m q v := by
  induction m with
  | nil => simp [SMap.get, SMap.find, h]
  | cons x m ih =>
    obtain ⟨k, w⟩ := x
    have e : ∀ (y : Nat × α) (m : SMap α), SMap.get (y :: m) q v = if y.1 = q then y.2 else SMap.get m q v := fun y m => by
      unfold SMap.get
      rw [SMap.find]
      split <;> rfl
    rw [List.map_cons, e, e, ih]
    by_cases hk : k = a
    · subst hk
      by_cases hq : k = q
      · simp [hq]
      · simp [hq]
    · by_cases hq : k = q
      · subst hq; simp [hk]
      · simp [hk, hq]

theorem Qp.idle_idle (x : Qp) : x.idle.idle = x.idle := by
  unfold Qp.idle
  dsimp only
  split <;> rfl

theorem qpIdle_qp (d : Dev) (a q : Nat) : (d.qpIdle a).qp q = if q = a then (d.qp q).idle else d.qp q :=
  SMap.get_mapAt d.qps a q Qp.idle Qp.reset rfl

/-- Queue pairs put in IDLE: what is not yet announced stays, their READs and completions are dropped. -/
theorem qpIdle_frame (l : List Nat) : ∀ (d : Dev), (l.foldl Dev.qpIdle d) = { d with qps := (l.foldl Dev.qpIdle d).qps, reads := (l.foldl Dev.qpIdle d).reads, writes := (l.foldl Dev.qpIdle d).writes } ∧
    (∀ q, q ∈ l → (l.foldl Dev.qpIdle d).qp q = (d.qp q).idle) ∧ (∀ q, q ∉ l → (l.foldl Dev.qpIdle d).qp q = d.qp q) ∧
    ∀ y ∈ (l.foldl Dev.qpIdle d).qps, y ∈ d.qps ∨ y.2.st = .idle := by
  induction l with
  | nil => intro d; exact ⟨rfl, fun _ h => (List.not_mem_nil h).elim, fun _ _ => rfl, fun y h => .inl h⟩
  | cons a l ih =>
    intro d
    obtain ⟨h1, h2, h3, h4⟩ := ih (d.qpIdle a)
    have hi := qpIdle_qp d a
    refine ⟨?_, fun q hq => ?_, fun q hq => ?_, fun y hy => ?_⟩
    · rw [List.foldl_cons, h1]; rfl
    · rw [List.foldl_cons]
      by_cases hl : q ∈ l
      · rw [h2 q hl, hi]
        split
        · exact Qp.idle_idle _
        · rfl
      · rw [h3 q hl, hi, if_pos ((List.mem_cons.1 hq).resolve_right hl)]
    · rw [List.foldl_cons, h3 q (fun h => hq (List.mem_cons_of_mem _ h)), hi, if_neg (fun h => hq (by rw [h]; exact List.mem_cons_self))]
    · rcases h4 y hy with h | h
      · obtain ⟨z, hz, rfl⟩ := List.mem_map.1 (show y ∈ d.qps.map _ from h)
        split
        · exact .inr rfl
        · exact .inl hz
      · exact .inr h

/-- Commands of session n that are discarded and counted change no other session and no queue pair. -/
theorem discard_frame (n : Nat) (l : List Cmd) : ∀ (d : Dev),
    let e := l.foldl (fun d c => (d.dropCmd c.id).countLost n) d
    (∀ m, m ≠ n → e.ses m = d.ses m) ∧ e.qps = d.qps := by
  induction l with
  | nil => intro d; exact ⟨fun _ _ => rfl, rfl⟩
  | cons a l ih =>
    intro d
    obtain ⟨h1, h2⟩ := ih ((d.dropCmd a.id).countLost n)
    exact ⟨fun m hm => (h1 m hm).trans (Dev.updSes_other _ _ _ _ hm), h2.trans rfl⟩

/-- What settling a session can do (R220, R235): stopping queue pairs that are empty go IDLE; a closing session keeps CLOSING while a
command keeps it open, and closes where none of its commands is left. -/
theorem settle_spec (d : Dev) (n : Nat) :
    (∀ m, m ≠ n → (d.settleSession n).ses m = d.ses m) ∧
    ((d.ses n).st ≠ .closing → (d.settleSession n).ses n = d.ses n ∧ (d.settleSession n).cmds = d.cmds) ∧
    ((∃ c ∈ d.cmds, c.ses = n ∧ (isPending c = false ∨ ∀ y ∈ d.qps, y.1 = dqp c.ses c.qp → y.2.st ≠ .error)) →
      (d.settleSession n).ses n = d.ses n ∧ (d.settleSession n).cmds = d.cmds) ∧
    ((d.ses n).st = .closing → (∀ c ∈ d.cmds, c.ses ≠ n) → ((d.settleSession n).ses n).st = .closed ∧ ((d.settleSession n).ses n).hold = none ∧
      (d.settleSession n).cmds = d.cmds ∧ ∀ q, q / 64 = n → (d.settleSession n).qp q = (d.qp q).idle) := by
  unfold Dev.settleSession
  dsimp only
  generalize (d.qps.filter fun q => q.1 / 64 == n && q.2.st == .stopping && (d.qpCmds n (q.1 % 64)).isEmpty).map Prod.fst = l
  obtain ⟨h1, h2, h3, h4⟩ := qpIdle_frame l d
  generalize l.foldl Dev.qpIdle d = d1 at h1 h2 h3 h4
  have hs : ∀ m, d1.ses m = d.ses m := fun m => by rw [h1]; rfl
  have hc : d1.cmds = d.cmds := by rw [h1]
  split
  · rename_i hcl
    obtain ⟨hcl1, hcl2⟩ := hcl
    have hk : ∀ c ∈ d.cmds, d1.keepsOpen n c = false := fun c hc' => by
      rw [Bool.not_eq_true', List.any_eq_false] at hcl2
      simpa using hcl2 c (by rw [hc]; exact hc')
    obtain ⟨m1, m2⟩ := discard_frame n (d1.cmds.filter fun c => c.ses == n) d1
    have m3 : (∀ c ∈ d.cmds, c.ses ≠ n) →
        (d1.cmds.filter fun c => c.ses == n).foldl (fun d c => (d.dropCmd c.id).countLost n) d1 = d1 := fun h => by
      rw [List.filter_eq_nil_iff.2 (by intro c hm; rw [hc] at hm; simpa using h c hm)]; rfl
    generalize (d1.cmds.filter fun c => c.ses == n).foldl (fun d c => (d.dropCmd c.id).countLost n) d1 = d2 at m1 m2 m3
    generalize hd3 : Dev.updSes _ n _ = d3
    have g1 : d3.cmds = d2.cmds := by rw [← hd3]; rfl
    have g2 : ∀ m, m ≠ n → d3.ses m = d.ses m := fun m hm => by
      rw [← hd3, Dev.updSes_other _ _ _ _ hm, ← hs, ← m1 m hm]; rfl
    have g3 : (d3.ses n).st = .closed ∧ (d3.ses n).hold = none := by rw [← hd3, Dev.updSes_self]; exact ⟨rfl, rfl⟩
    have g4 : d3.qps = d1.qps := by rw [← hd3, ← m2]; rfl
    clear hd3
    obtain ⟨k1, k2, k3, _⟩ := qpIdle_frame ((d3.qps.filter fun q => q.1 / 64 == n).map Prod.fst) d3
    have ks : ∀ m, (((d3.qps.filter fun q => q.1 / 64 == n).map Prod.fst).foldl Dev.qpIdle d3).ses m = d3.ses m := fun m => by rw [k1]; rfl
    refine ⟨fun m hm => ?_, fun h => absurd (by rw [← hs]; exact hcl1) h, fun h => ?_, fun _ he => ⟨?_, ?_, ?_, fun q hq => ?_⟩⟩
    · rw [ks, g2 m hm]
    · exfalso
      obtain ⟨c, hc', he, hp⟩ := h
      have := hk c hc'
      unfold Dev.keepsOpen at this
      simp only [he, beq_self_eq_true, Bool.true_and, Bool.not_eq_false', Bool.and_eq_true, beq_iff_eq] at this
      rcases hp with hp | hp
      · rw [hp] at this; exact absurd this.1 (by simp)
      · rcases SMap.get_mem d1.qps (dqp c.ses c.qp) Qp.reset with h | h
        · have h5 : (d1.qp (dqp c.ses c.qp)).st = .error := by rw [he]; exact this.2
          unfold Dev.qp at h5
          rw [h] at h5
          cases h5
        · have h5 : (d1.qp (dqp c.ses c.qp)).st = .error := by rw [he]; exact this.2
          rcases h4 _ h with h6 | h6
          · exact hp _ h6 rfl h5
          · rw [show (SMap.get d1.qps (dqp c.ses c.qp) Qp.reset).st = .error from h5] at h6
            cases h6
    · rw [ks]; exact g3.1
    · rw [ks]; exact g3.2
    · rw [k1, ← hc, ← m3 he]; exact g1
    · have q0 : ∀ q, d3.qp q = d1.qp q := fun q => by unfold Dev.qp; rw [g4]
      have q1 : d1.qp q = d.qp q ∨ d1.qp q = (d.qp q).idle := by
        by_cases hl : q ∈ l
        · exact .inr (h2 q hl)
        · exact .inl (h3 q hl)
      by_cases hm : q ∈ (d3.qps.filter fun q => q.1 / 64 == n).map Prod.fst
      · rw [k2 q hm, q0]
        rcases q1 with h | h
        · rw [h]
        · rw [h, Qp.idle_idle]
      · rw [k3 q hm]
        have e3 : d3.qp q = Qp.reset := by
          rcases SMap.get_mem d3.qps q Qp.reset with h | h
          · exact h
          · exact absurd (List.mem_map.2 ⟨_, List.mem_filter.2 ⟨h, by simpa using hq⟩, rfl⟩) hm
        have e1 : d1.qp q = Qp.reset := by rw [← q0]; exact e3
        rcases q1 with h | h
        · rw [e3, ← h, e1]; rfl
        · rw [e3, ← h, e1]
  · rename_i hcl
    refine ⟨fun m _ => hs m, fun _ => ⟨hs n, hc⟩, fun _ => ⟨hs n, hc⟩, fun h1' h2' => ?_⟩
    exfalso; apply hcl
    refine ⟨by rw [hs]; exact h1', ?_⟩
    rw [Bool.not_eq_true', List.any_eq_false]
    intro c hm
    rw [hc] at hm
    unfold Dev.keepsOpen
    simp [h2' c hm]

/-- What the close of a session does to one of its commands (R217–R219). -/
theorem closeCmd_spec (d : Dev) (c : Cmd) : (∀ k, k ≠ c.id → (d.closeCmd c).findCmd k = d.findCmd k) ∧ (∀ m, (d.closeCmd c).ses m = d.ses m) ∧
    (∀ k, (d.findCmd k).isSome = true → ((d.closeCmd c).findCmd k).isSome = true) ∧
    (isPending c = true → (d.findCmd c.id).isSome = true → (d.closeCmd c).Ended c.id Status.aborted.code 0 0) := by
  have hf : ∀ k, (d.findCmd k).isSome = true → ((d.finish c.id Status.aborted.code 0 0).findCmd k).isSome = true := fun k h => by
    rw [Dev.findCmd_finish]
    split
    · rename_i hk; rw [hk] at h; simpa using h
    · exact h
  have ha : ∀ k, (d.findCmd k).isSome = true → ((d.abort c.id Status.aborted.code).findCmd k).isSome = true := fun k h => by
    obtain ⟨n, _, _, _, h3⟩ := d.abort_frame c.id Status.aborted.code
    rw [h3]
    split
    · rename_i hk; rw [hk] at h; simpa using h
    · exact h
  unfold Dev.closeCmd
  split
  · refine ⟨fun k hk => ?_, fun m => by simp, hf, fun _ h => ?_⟩
    · rw [Dev.findCmd_finish, if_neg hk]
    · obtain ⟨x, hx⟩ := Option.isSome_iff_exists.1 h
      exact ended_finish d c.id Status.aborted.code 0 0 x hx
  · rename_i hp
    split
    · exact ⟨fun _ _ => rfl, fun _ => rfl, fun _ h => h, fun h => absurd h hp⟩
    · exact ⟨fun k hk => Dev.findCmd_abort_other _ _ _ _ hk, fun m => by simp, ha, fun h => absurd h hp⟩

/-- … and to all of them. -/
theorem closeAll (l : List Cmd) : ∀ (d : Dev), (∀ c ∈ l, (d.findCmd c.id).isSome = true) →
    let e := l.foldl (fun d c => d.closeCmd c) d
    (∀ k, (∀ c ∈ l, c.id ≠ k) → e.findCmd k = d.findCmd k) ∧ (∀ m, e.ses m = d.ses m) ∧
    ∀ k, (∀ z ∈ l, z.id = k → isPending z = true) → ((∃ c ∈ l, c.id = k) ∨ d.Ended k Status.aborted.code 0 0) →
      e.Ended k Status.aborted.code 0 0 := by
  induction l with
  | nil => intro d _; exact ⟨fun _ _ => rfl, fun _ => rfl, fun k _ h => h.resolve_left fun ⟨_, h, _⟩ => (List.not_mem_nil h).elim⟩
  | cons a l ih =>
    intro d hd
    obtain ⟨c1, c2, c3, c4⟩ := closeCmd_spec d a
    obtain ⟨i1, i2, i3⟩ := ih (d.closeCmd a) (fun c hc => c3 _ (hd c (List.mem_cons_of_mem _ hc)))
    refine ⟨fun k hk => ?_, fun m => ?_, fun k hz h => ?_⟩
    · rw [List.foldl_cons, i1 k (fun c hc => hk c (List.mem_cons_of_mem _ hc)), c1 k (fun h => hk a List.mem_cons_self h.symm)]
    · rw [List.foldl_cons, i2, c2]
    · rw [List.foldl_cons]
      refine i3 k (fun z hl => hz z (List.mem_cons_of_mem _ hl)) ?_
      by_cases ha : a.id = k
      · right
        rw [← ha]
        exact c4 (hz a List.mem_cons_self ha) (hd a List.mem_cons_self)
      · rcases h with ⟨c, hc, he⟩ | ⟨x, hx, h2⟩
        · rcases List.mem_cons.1 hc with rfl | hc
          · exact absurd he ha
          · exact .inl ⟨c, hc, he⟩
        · exact .inr ⟨x, by rw [c1 k (fun h => ha h.symm), hx], h2⟩

theorem findCmd_some_of_mem (d : Dev) (c : Cmd) (h : c ∈ d.cmds) : (d.findCmd c.id).isSome = true := by
  unfold Dev.findCmd
  rw [List.find?_isSome]
  exact ⟨c, h, by simp⟩

theorem updCmd_ses (d : Dev) (c : Nat) (f : Cmd → Cmd) (h : ∀ x, (f x).ses = x.ses) : (d.updCmd c f).cmds.map Cmd.ses = d.cmds.map Cmd.ses := by
  unfold Dev.updCmd
  rw [List.map_map]
  refine List.map_congr_left fun x _ => ?_
  simp only [Function.comp]
  split
  · exact h x
  · rfl

theorem finish_ses (d : Dev) (c st b i : Nat) : (d.finish c st b i).cmds.map Cmd.ses = d.cmds.map Cmd.ses := by
  unfold Dev.finish
  cases h : d.findCmd c with
  | none => exact updCmd_ses d c _ (by intro x; rfl)
  | some x =>
    obtain ⟨h1, _⟩ := Dev.releaseWb_frame d x true
    refine Eq.trans (b := ((d.releaseWb x true).updCmd c _).cmds.map Cmd.ses) rfl ((updCmd_ses _ c _ (by intro x; rfl)).trans ?_)
    rw [h1]
    exact updCmd_ses d _ _ (by intro x; rfl)

theorem abort_ses (d : Dev) (c st : Nat) : (d.abort c st).cmds.map Cmd.ses = d.cmds.map Cmd.ses := by
  unfold Dev.abort Dev.abortWith
  refine (finish_ses _ _ _ _ _).trans ((updCmd_ses _ c _ (by intro x; rfl)).trans ?_)
  rw [d.undelete_frame c]

theorem closeCmd_ses (d : Dev) (c : Cmd) : (d.closeCmd c).cmds.map Cmd.ses = d.cmds.map Cmd.ses := by
  unfold Dev.closeCmd
  split
  · exact finish_ses _ _ _ _ _
  · split
    · rfl
    · exact abort_ses _ _ _

theorem closeAll_ses (l : List Cmd) : ∀ d : Dev, (l.foldl (fun d c => d.closeCmd c) d).cmds.map Cmd.ses = d.cmds.map Cmd.ses := by
  induction l with
  | nil => intro d; rfl
  | cons a l ih => intro d; rw [List.foldl_cons, ih, closeCmd_ses]

/-- QP_CTRL of queue pair q: its write reaches the queue pair, and counts as set-up. -/
theorem qpOff (q : Nat) (hq : q < 32768) : offsetOk (qpCtrlOff q) = true ∧ notSetUp (qpCtrlOff q) = false ∧
    ∀ (d : Dev) (p : Path) (w : Word), d.writeBlock p (qpCtrlOff q) w = d.qpCtrlWrite q w.toNat := by
  have hk : qpCtrlOff q = 0xD0000 + q * 4 := by unfold qpCtrlOff; rw [Nat.mod_eq_of_lt hq]
  rw [hk]
  refine ⟨by unfold offsetOk; simp; omega, by unfold notSetUp; simp; omega, fun d p w => ?_⟩
  rw [writeBlock_qp _ _ _ _ (by omega) (by omega)]
  have : (0xD0000 + q * 4 - 0xD0000) / 4 = q := by omega
  rw [this]

/-- A session has no current link exactly where no link serves it. -/
theorem refresh_none (d : Dev) (s : Nat) : ((d.refreshClink s).ses s).clinkNone = true ↔ d.servingLinks s = [] := by
  unfold Dev.refreshClink
  split
  · rename_i h
    simp only [Bool.and_eq_true, Bool.not_eq_true'] at h
    constructor
    · intro h1; rw [h.1] at h1; cases h1
    · intro h1
      have : (d.ses s).clink ∈ d.servingLinks s := by
        unfold Dev.servingLinks
        refine List.mem_filter.2 ⟨?_, h.2⟩
        have := h.2
        unfold Dev.serves linkPresent at this
        simp only [Bool.and_eq_true, decide_eq_true_eq] at this
        exact List.mem_range.2 this.1.1.1.1.1
      rw [h1] at this; cases this
  · split
    · rename_i h; rw [Dev.updSes_self]; simp [h]
    · rename_i h; rw [Dev.updSes_self]; simp [h]

end Sys2Proof.Machine
end

