-- ==== Sys2Proof/Laws/Links.lean ====
section
/-! SUPPORT. Links: what sending on one link leaves of another, what a lost link does (R181–R187), what a link that becomes ACTIVE does
(R172, R188–R190), and that a packet queued stays on its link. -/

namespace Sys2Proof.Machine

open Sys2Proof

/-- LNK_CTRL of link n: its write reaches the link. -/
theorem lnkOff (n : Nat) (hn : n < 48) : offsetOk (lnkCtrlOff n) = true ∧ notSetUp (lnkCtrlOff n) = false ∧
    ∀ (d : Dev) (p : Path) (w : Word), linkPresent d.variant n = true → d.gatehousePath (n / 24) = true → d.writeBlock p (lnkCtrlOff n) w = d.linkCtrl n w.toNat := by
  have hk : lnkCtrlOff n = 0x100000 + n * 0x1000 := by unfold lnkCtrlOff; rw [Nat.mod_eq_of_lt hn]
  rw [hk]
  exact ⟨by unfold offsetOk; simp; omega, by unfold notSetUp; simp; omega, fun d p w h1 h2 => writeBlock_lnk d p n w hn h1 h2⟩

/-- A link that is not ACTIVE keeps its record, and no event is made. -/
def Kp (n : Nat) (d e : Dev) : Prop := (d.link n).st ≠ .active → e.link n = d.link n ∧ e.evq = d.evq

theorem Kp.refl (n : Nat) (d : Dev) : Kp n d d := fun _ => ⟨rfl, rfl⟩

theorem Kp.trans {n : Nat} {a b c : Dev} (h1 : Kp n a b) (h2 : Kp n b c) : Kp n a c := fun h => by
  obtain ⟨e1, e2⟩ := h1 h
  obtain ⟨e3, e4⟩ := h2 (by rw [e1]; exact h)
  exact ⟨e3.trans e1, e4.trans e2⟩

theorem kp_of {n : Nat} {d e : Dev} (h1 : e.links = d.links) (h2 : e.evq = d.evq) : Kp n d e := fun _ => ⟨by unfold Dev.link; rw [h1], h2⟩

theorem foldl_kp {α : Type} (n : Nat) (f : Dev → α → Dev) (hf : ∀ d a, Kp n d (f d a)) (l : List α) (d : Dev) : Kp n d (l.foldl f d) := by
  induction l generalizing d with
  | nil => exact Kp.refl n d
  | cons a r ih => exact (hf d a).trans (ih _)

theorem kp_foldl {α : Type} {n : Nat} {d a : Dev} (f : Dev → α → Dev) (l : List α) (h : Kp n d a) (hf : ∀ d a, Kp n d (f d a)) : Kp n d (l.foldl f a) :=
  h.trans (foldl_kp n f hf l a)

theorem startTimer_links (d : Dev) (m : Nat) (p : Pkt) : (d.startTimer m p).links = d.links ∧ (d.startTimer m p).evq = d.evq := by
  unfold Dev.startTimer
  split <;> exact ⟨rfl, rfl⟩

/-- A frame sent on one link leaves the others. -/
theorem sendFrame_link (d : Dev) (m n : Nat) (p : Pkt) (h : m ≠ n) : (d.sendFrame m p).link n = d.link n := by
  unfold Dev.sendFrame
  dsimp only
  generalize hd : d.updLink m _ = d1
  unfold Dev.link
  rw [(startTimer_links _ _ _).1]
  change d1.link n = d.link n
  rw [← hd]
  exact Dev.updLink_other _ _ _ _ (Ne.symm h)

theorem pumpLoop_link (k : Nat) (m n : Nat) (h : m ≠ n) : ∀ d : Dev, (pumpLoop k d m).link n = d.link n := by
  induction k with
  | zero => intro d; rfl
  | succ k ih =>
    intro d
    unfold pumpLoop
    split
    · rfl
    · rw [ih, sendFrame_link _ _ _ _ h, Dev.updLink_other _ _ _ _ (Ne.symm h)]

theorem pump_link (d : Dev) (m n : Nat) (h : m ≠ n) : (d.pump m).link n = d.link n := by
  unfold Dev.pump
  split
  · exact pumpLoop_link _ _ _ h _
  · rfl

/-- A packet queued on one link leaves the others. -/
theorem enqueue_link (d : Dev) (m n : Nat) (p : Pkt) (h : m ≠ n) : (d.enqueue m p).link n = d.link n := by
  unfold Dev.enqueue
  rw [pump_link _ _ _ h, Dev.updLink_other _ _ _ _ (Ne.symm h)]

theorem sends_evq {d e : Dev} (h : Sends d e) : e.evq = d.evq := by rw [h.frame]

/-- The current link, where there is one, serves the session. -/
theorem refresh_serves (d : Dev) (s : Nat) (h : ((d.refreshClink s).ses s).clinkNone = false) :
    d.serves s ((d.refreshClink s).ses s).clink = true := by
  unfold Dev.refreshClink at *
  split at h
  · rename_i h1
    rw [if_pos h1]
    simp only [Bool.and_eq_true] at h1
    exact h1.2
  · rename_i h1
    rw [if_neg h1]
    split at h
    · rw [Dev.updSes_self] at h; cases h
    · rename_i m r hm
      rw [Dev.updSes_self]
      have : m ∈ d.servingLinks s := by rw [hm]; exact List.mem_cons_self
      exact (List.mem_filter.1 this).2

theorem enqueueAll_kp (n m : Nat) (hm : m ≠ n) (f : Dev → Pkt → Pkt) (ps : List Pkt) (d : Dev) :
    Kp n d (ps.foldl (fun d p => d.enqueue m (f d p)) d) :=
  foldl_kp n _ (fun _ _ _ => ⟨enqueue_link _ _ _ _ hm, sends_evq (enqueue_sends _ _ _)⟩) ps d

theorem updSes_kp (n : Nat) (d : Dev) (s : Nat) (f) : Kp n d (d.updSes s f) := kp_of rfl rfl

theorem refreshClink_kp (n : Nat) (d : Dev) (s : Nat) : Kp n d (d.refreshClink s) := by
  have := (refreshClink_frame d s).1
  exact kp_of (by rw [this]) (by rw [this])

theorem enqueue_sessions (a : Dev) (m : Nat) (p : Pkt) : (a.enqueue m p).sessions = a.sessions := by
  unfold Dev.enqueue Dev.pump
  have hl : ∀ k (b : Dev) m, (pumpLoop k b m).sessions = b.sessions := by
    intro k
    induction k with
    | zero => intro b m; rfl
    | succ k ih2 =>
      intro b m
      unfold pumpLoop
      split
      · rfl
      · rw [ih2]
        unfold Dev.sendFrame Dev.startTimer
        dsimp only
        split <;> rfl
  split
  · rw [hl]; rfl
  · rfl

theorem placeFrames_kp (n : Nat) (d : Dev) (s : Nat) (ps : List Pkt) : Kp n d (d.placeFrames s ps) := by
  unfold Dev.placeFrames
  split
  · exact updSes_kp n d s _
  · dsimp only
    split
    · exact refreshClink_kp n d s
    · rename_i h
      simp only [Bool.not_eq_true] at h
      intro ha
      have hs := refresh_serves d s h
      have hne : ((d.refreshClink s).ses s).clink ≠ n := by
        intro he
        rw [he] at hs
        unfold Dev.serves at hs
        simp only [Bool.and_eq_true, beq_iff_eq] at hs
        exact ha hs.1.1.2
      refine (refreshClink_kp n d s).trans ?_ ha
      generalize d.refreshClink s = a at hne
      clear h ha hs
      induction ps generalizing a with
      | nil => exact Kp.refl n a
      | cons p r ih =>
        refine Kp.trans (b := a.enqueue (a.ses s).clink (a.fitVc (a.ses s).clink p)) (fun _ => ⟨enqueue_link _ _ _ _ hne, sends_evq (enqueue_sends _ _ _)⟩) ?_
        refine ih _ ?_
        unfold Dev.ses at *
        rw [enqueue_sessions]; exact hne

theorem resendReads_kp (n : Nat) (d : Dev) (s : Nat) (f) : Kp n d (d.resendReads s f) := by
  unfold Dev.resendReads
  dsimp only
  exact kp_foldl _ _ (kp_of rfl rfl) (fun d r => placeFrames_kp n d s _)

theorem abort_kp (n : Nat) (d : Dev) (c st : Nat) : Kp n d (d.abort c st) := kp_of (by simp) (by simp)

theorem countLost_kp (n : Nat) (d : Dev) (s : Nat) : Kp n d (d.countLost s) := kp_of (by simp) (by simp)

theorem endWith_kp (n : Nat) (d : Dev) (c : Cmd) (st : Nat) : Kp n d (d.endWith c st) := by
  unfold Dev.endWith
  split
  · split
    · exact kp_of rfl rfl
    · exact Kp.refl n d
  · exact abort_kp n d _ _

theorem loseCmd_kp (n : Nat) (d : Dev) (c : Cmd) : Kp n d (d.loseCmd c) := by
  unfold Dev.loseCmd
  dsimp only
  split
  · split
    · exact Kp.refl n d
    · exact kp_of rfl rfl
  · split
    · exact kp_of rfl rfl
    · exact Kp.trans (b := d.updCmd c.id fun x => { x with linkLost := true }) (kp_of rfl rfl) (endWith_kp n _ c _)

theorem settle_kp (n : Nat) (d : Dev) (s : Nat) : Kp n d (d.settleSession s) := by
  have := (settleSession_frame d s).1
  unfold SettleOnly at this
  exact kp_of (by rw [this]) (by rw [this])

theorem holdExpire_kp (n : Nat) (d : Dev) (s : Nat) : Kp n d (d.holdExpire s) := by
  unfold Dev.holdExpire Dev.sesQpError
  dsimp only
  generalize (List.range 64).map (dqp s) = l
  refine Kp.trans (foldl_kp n (fun d q => d.qpError q 4) (fun d q => kp_of rfl rfl) l d) ?_
  generalize l.foldl (fun d q => d.qpError q 4) d = d
  refine Kp.trans ?_ ((refreshClink_kp n _ s).trans (settle_kp n _ s))
  exact kp_foldl _ _ (kp_of rfl rfl) (fun d c => loseCmd_kp n d c)

theorem sesLoss_kp (n m : Nat) (d : Dev) (s : Nat) (ps) : Kp n d (d.sesLoss m s ps) := by
  unfold Dev.sesLoss
  split
  · unfold Dev.startHold
    dsimp only
    split
    · exact (updSes_kp n d s _).trans (holdExpire_kp n _ s)
    · exact updSes_kp n d s _
  · exact (placeFrames_kp n d s ps).trans (resendReads_kp n _ s _)

theorem ownerLost_kp (n : Nat) (d : Dev) (o : Owner) : Kp n d (d.ownerLost o) := by
  have one : ∀ c, Kp n d (match d.findCmd c with
    | some x => if x.stage = .ended then d.updCmd c fun x => { x with status := Status.linkLost.code, outLeft := [] } else d.abort c Status.linkLost.code
    | none => d) := by
    intro c
    split
    · split
      · exact kp_of rfl rfl
      · exact abort_kp n d _ _
    · exact Kp.refl n d
  unfold Dev.ownerLost
  dsimp only
  split
  · exact one _
  · exact one _
  · split
    · split
      · exact one _
      · exact one _
      · exact one _
      · exact kp_of rfl rfl
    · exact Kp.refl n d
  · exact Kp.refl n d

theorem relayLost_kp (n : Nat) (d : Dev) (p : Pkt) : Kp n d (d.relayLost p) := by
  have again : Kp n d (if (d.ses p.ses).st = .closed ∨ ((d.ses p.ses).hold.isNone && (d.servingLinks p.ses).isEmpty) = true then
      { d with lnkc := { d.lnkc with lostCmd := sat1 d.lnkc.lostCmd } } else d.placeFrames p.ses [p.linkLost]) := by
    split
    · exact kp_of rfl rfl
    · exact placeFrames_kp n d _ _
  unfold Dev.relayLost
  dsimp only
  split
  · exact again
  · exact again
  · exact Kp.refl n d

/-- What a link that has left ACTIVE does to the sessions and commands whose frames it held. -/
theorem leaveRest_kp (n : Nat) (d : Dev) (ss : List Nat) (fs : List Pkt) (noPath : Bool) :
    let e := ss.foldl (fun d s => d.sesLoss n s (if noPath then [] else fs.filter fun p => p.ofSession s))
      (if noPath then fs.foldl (fun d p => d.ownerLost p.owner) d else d)
    Kp n d (if noPath then fs.foldl Dev.relayLost e else e) := by
  have k1 : Kp n d (if noPath then fs.foldl (fun d p => d.ownerLost p.owner) d else d) := by
    split
    · exact foldl_kp n (fun d (p : Pkt) => d.ownerLost p.owner) (fun d p => ownerLost_kp n d p.owner) _ _
    · exact Kp.refl n d
  have k2 := k1.trans (foldl_kp n (fun d s => d.sesLoss n s (if noPath then [] else fs.filter fun p => p.ofSession s))
    (fun d s => sesLoss_kp n n d s _) ss _)
  dsimp only
  generalize ss.foldl _ _ = e at k2 ⊢
  split
  · exact k2.trans (foldl_kp n Dev.relayLost (fun d p => relayLost_kp n d p) _ _)
  · exact k2

/-- A link leaves ACTIVE: its record is cleared, and no event is made by what its frames go through. -/
theorem leaveActive_spec (d : Dev) (n : Nat) (lock noPath : Bool) (st : LinkSt) (h : st ≠ .active) :
    (d.leaveActive n lock noPath st).link n = { d.link n with
      st := st, since := d.now, queue := [], unacked := [], nakOut := false, cnt := { (d.link n).cnt with down := sat1 (d.link n).cnt.down } } ∧
    (d.leaveActive n lock noPath st).evq = d.evq := by
  unfold Dev.leaveActive
  generalize d.sesOnLink n = ss
  generalize (d.link n).frames n = fs
  generalize hd : d.updLink n (fun l =>
    { l with st := st, since := d.now, queue := [], unacked := [], nakOut := false, cnt := { l.cnt with down := sat1 l.cnt.down } }) = d1
  have h1 : d1.link n = { d.link n with
      st := st, since := d.now, queue := [], unacked := [], nakOut := false, cnt := { (d.link n).cnt with down := sat1 (d.link n).cnt.down } } := by
    rw [← hd, Dev.updLink_self]
  have h2 : d1.evq = d.evq := by rw [← hd]; rfl
  clear hd
  have k1 : Kp n d1 (if lock = true then ({ d1 with cmds := d1.cmds.map (Cmd.offLink n) } : Dev)
      else ({ d1 with cmds := d1.cmds.map (Cmd.offLink n) } : Dev).emit
        (.control n (downBlock (({ d1 with cmds := d1.cmds.map (Cmd.offLink n) } : Dev).link n).ctl))) := by
    split <;> exact kp_of rfl rfl
  dsimp only
  generalize (if lock = true then ({ d1 with cmds := d1.cmds.map (Cmd.offLink n) } : Dev)
      else ({ d1 with cmds := d1.cmds.map (Cmd.offLink n) } : Dev).emit
        (.control n (downBlock (({ d1 with cmds := d1.cmds.map (Cmd.offLink n) } : Dev).link n).ctl))) = d2 at k1 ⊢
  obtain ⟨e1, e2⟩ := (k1.trans (leaveRest_kp n d2 ss fs noPath)) (by rw [h1]; exact h)
  exact ⟨e1.trans h1, e2.trans h2⟩

/-- An ACTIVE link goes DOWN: its state, its reason, and the event. -/
theorem linkDown_spec (d : Dev) (n r : Nat) (ha : (d.link n).st = .active) :
    (d.linkDown n r).link n = { d.link n with
      st := .down, reason := r, since := d.now, queue := [], unacked := [], nakOut := false, cnt := { (d.link n).cnt with down := sat1 (d.link n).cnt.down } } ∧
    (d.linkDown n r).evq = (d.event Ev.linkDown.code (0x300 + n) r 0 0).evq := by
  unfold Dev.linkDown
  dsimp only
  rw [if_pos ha]
  generalize hd : d.updLink n _ = d1
  obtain ⟨e1, e2⟩ := leaveActive_spec (d1.event Ev.linkDown.code (0x300 + n) r 0 0) n (r == DownReason.lock.code) (r == DownReason.noPath.code) .down (by decide)
  refine ⟨?_, ?_⟩
  · rw [e1]
    have : (d1.event Ev.linkDown.code (0x300 + n) r 0 0).link n = { d.link n with reason := r } := by
      change d1.link n = _
      rw [← hd, Dev.updLink_self]
    rw [this, ← hd]; rfl
  · rw [e2, ← hd]; rfl

/-- A frame sent joins the replay list. -/
theorem sendFrame_unacked (d : Dev) (n : Nat) (p : Pkt) : ∃ x, ((d.sendFrame n p).link n).unacked = (d.link n).unacked ++ [x] := by
  unfold Dev.sendFrame
  dsimp only
  generalize hd : d.updLink n _ = d1
  refine ⟨{ seq := (d.link n).txSeq, pkt := p, len := (encodePkt p (d.srcOf n) (d.link n).pexts).length, tries := 0 }, ?_⟩
  unfold Dev.link
  rw [(startTimer_links _ _ _).1]
  change (d1.link n).unacked = (d.link n).unacked ++ _
  rw [← hd, Dev.updLink_self]; rfl

/-- Frames sent join the replay list. -/
theorem pumpLoop_unacked (k : Nat) (n : Nat) : ∀ d : Dev, ∃ more, ((pumpLoop k d n).link n).unacked = (d.link n).unacked ++ more := by
  induction k with
  | zero => intro d; exact ⟨[], by simp [pumpLoop]⟩
  | succ k ih =>
    intro d
    unfold pumpLoop
    split
    · exact ⟨[], by simp⟩
    · obtain ⟨m, hm⟩ := ih (Dev.sendFrame (d.updLink n _) n _)
      obtain ⟨x, hx⟩ := sendFrame_unacked (d.updLink n _) n _
      rw [hx, Dev.updLink_self] at hm
      exact ⟨_, by rw [hm, List.append_assoc]⟩

theorem pump_unacked (d : Dev) (n : Nat) : ∃ more, ((d.pump n).link n).unacked = (d.link n).unacked ++ more := by
  unfold Dev.pump
  split
  · exact pumpLoop_unacked _ n d
  · exact ⟨[], by simp⟩

/-- What an ACK comes to on an ACTIVE link. -/
theorem ackIn_eq (d : Dev) (n seq : Nat) (freed : Cred) (h : (d.link n).st = .active) : ∃ (gone : List TxFrame) (tags : List Nat),
    gone = (let x := splitSeq seq (d.link n).unacked; if x.2 = [] then [] else x.1 ++ x.2.take 1) ∧
    (∀ f ∈ gone, ∀ t, f.pkt.owner = .read t → t ∈ tags) ∧
    d.ackIn n seq freed = ({ d.updLink n (fun l => { l with unacked := if gone.isEmpty then (d.link n).unacked else (splitSeq seq (d.link n).unacked).2.drop 1, partnerFreed := freed, ackAt := if gone.isEmpty then l.ackAt else d.now }) with
      reads := d.reads.map fun r => if tags.contains r.tag then { r with acked := true } else r } : Dev).pump n := by
  unfold Dev.ackIn
  dsimp only
  rw [if_neg (show ¬ ((d.link n).st ≠ .active) by rw [h]; simp)]
  refine ⟨_, _, ?_, ?_, rfl⟩
  · cases hx : (splitSeq seq (d.link n).unacked).2 with
    | nil => rfl
    | cons f r => simp
  · intro f hf t ht
    exact List.mem_filterMap.2 ⟨f, hf, by rw [ht]⟩

/-- The links keep their state, what was sent stays sent, and no time passes. -/
def Lo (d e : Dev) : Prop := (∀ n, (e.link n).core = (d.link n).core) ∧ (∃ more, e.out = d.out ++ more) ∧ e.now = d.now

theorem Lo.refl (d : Dev) : Lo d d := ⟨fun _ => rfl, ⟨[], by simp⟩, rfl⟩

theorem Lo.trans {a b c : Dev} (h1 : Lo a b) (h2 : Lo b c) : Lo a c := by
  obtain ⟨m1, e1⟩ := h1.2.1
  obtain ⟨m2, e2⟩ := h2.2.1
  exact ⟨fun n => (h2.1 n).trans (h1.1 n), ⟨m1 ++ m2, by rw [e2, e1, List.append_assoc]⟩, h2.2.2.trans h1.2.2⟩

theorem lo_of {d e : Dev} (h1 : e.links = d.links) (h2 : e.out = d.out) (h3 : e.now = d.now) : Lo d e :=
  ⟨fun n => by unfold Dev.link; rw [h1], ⟨[], by simp [h2]⟩, h3⟩

theorem lo_foldl {α : Type} {d a : Dev} (f : Dev → α → Dev) (l : List α) (h : Lo d a) (hf : ∀ d a, Lo d (f d a)) : Lo d (l.foldl f a) := by
  induction l generalizing a with
  | nil => exact h
  | cons x r ih => exact ih (h.trans (hf a x))

theorem Sends.lo {d e : Dev} (h : Sends d e) : Lo d e := ⟨h.link, h.out, by rw [h.frame]⟩

theorem Fetches.lo {d e : Dev} (h : Fetches d e) : Lo d e := ⟨h.link, h.out, by rw [h.frame]⟩

theorem Asks.lo {d e : Dev} (h : Asks d e) : Lo d e := ⟨h.link, h.out, by rw [h.frame]⟩

theorem placeFrames_lo (d : Dev) (s : Nat) (ps : List Pkt) : Lo d (d.placeFrames s ps) := by
  unfold Dev.placeFrames
  split
  · exact lo_of rfl rfl rfl
  · dsimp only
    split
    · exact (Sends.lo (refreshClink_sends d s))
    · exact lo_foldl _ _ (Sends.lo (refreshClink_sends d s)) (fun d p => Sends.lo (enqueue_sends _ _ _))

theorem resendReads_lo (d : Dev) (s : Nat) (f) : Lo d (d.resendReads s f) := by
  unfold Dev.resendReads
  exact lo_foldl _ _ (lo_of rfl rfl rfl) (fun d r => placeFrames_lo d s _)

theorem sesResume_lo (d : Dev) (s n : Nat) (h : Hold) : Lo d (d.sesResume s n h) := by
  unfold Dev.sesResume
  dsimp only
  refine Lo.trans ?_ (Fetches.lo (wakeFetch_fetches _ s))
  refine lo_foldl _ _ ?_ (fun d c => Asks.lo (askInput_asks d c))
  refine Lo.trans (Lo.trans ?_ (placeFrames_lo _ s _)) (resendReads_lo _ s _)
  exact lo_of rfl rfl rfl

theorem endWith_lo (d : Dev) (c : Cmd) (st : Nat) : Lo d (d.endWith c st) := by
  unfold Dev.endWith
  split
  · split
    · exact lo_of rfl rfl rfl
    · exact Lo.refl d
  · exact lo_of (by simp) (by simp) (by simp)

theorem settle_lo (d : Dev) (s : Nat) : Lo d (d.settleSession s) := by
  have := (settleSession_frame d s).1
  unfold SettleOnly at this
  exact lo_of (by rw [this]) (by rw [this]) (by rw [this])

theorem retireCmd_lo (d : Dev) (c : Cmd) : Lo d (d.retireCmd c) := by
  unfold Dev.retireCmd
  dsimp only
  refine Lo.trans ?_ (Fetches.lo (wakeFetch_fetches _ _))
  refine Lo.trans ?_ (settle_lo _ _)
  split <;> exact lo_of rfl rfl rfl

theorem faultCmd_lo (d : Dev) (c : Cmd) : Lo d (d.faultCmd c) := by
  unfold Dev.faultCmd
  dsimp only
  split
  · exact lo_of rfl rfl rfl
  · split
    · exact lo_of rfl rfl rfl
    · have h := (endWith_lo d c Status.aborted.code).trans (lo_of rfl rfl rfl : Lo _ ((d.endWith c Status.aborted.code).countLost c.ses))
      split
      · exact h.trans (retireCmd_lo _ _)
      · exact h

theorem links_map_get (m : SMap Link) (g : Link → Link) (h0 : g Link.reset = Link.reset) (n : Nat) :
    SMap.get (m.map fun l => (l.1, g l.2)) n Link.reset = g (SMap.get m n Link.reset) := by
  unfold SMap.get
  induction m with
  | nil => simp [SMap.find, h0]
  | cons x r ih =>
    obtain ⟨k, v⟩ := x
    simp only [List.map_cons, SMap.find] at *
    split
    · rfl
    · exact ih

theorem sesFault_lo (d : Dev) (s e : Nat) : Lo d (d.sesFault s e) := by
  unfold Dev.sesFault Dev.sesQpError Dev.dropFrames
  dsimp only
  refine Lo.trans ?_ (settle_lo _ s)
  refine lo_foldl _ _ ?_ (fun d c => faultCmd_lo d c)
  generalize hE : List.foldl (fun d q => d.qpError q 6) (d.event Ev.sesFault.code 0 s e 0) _ = d1
  have h1 : Lo d d1 := by
    rw [← hE]
    exact lo_foldl _ _ (lo_of rfl rfl rfl) (fun d q => lo_of rfl rfl rfl)
  refine h1.trans ⟨fun n => ?_, ⟨[], by simp [Dev.updSes]⟩, rfl⟩
  change (SMap.get (d1.links.map fun l => (l.1, { l.2 with queue := l.2.queue.filter fun p => !p.ofSession s })) n Link.reset).core = _
  rw [links_map_get d1.links (fun l => { l with queue := l.queue.filter fun p => !p.ofSession s }) rfl n]
  rfl

theorem sesGain_lo (d : Dev) (n s : Nat) : Lo d (d.sesGain n s) := by
  unfold Dev.sesGain
  dsimp only
  generalize hd : (if (d.ses s).pepoch = 0 then d.updSes s fun x => { x with pepoch := (d.link n).pepoch } else d) = d1
  have h1 : Lo d d1 := by
    rw [← hd]
    split
    · exact lo_of rfl rfl rfl
    · exact Lo.refl d
  split
  · split
    · exact h1.trans (sesResume_lo d1 s n _)
    · exact h1
  · split
    · exact h1.trans ((sesFault_lo d1 s _).trans (Sends.lo (refreshClink_sends _ s)))
    · exact h1.trans (Sends.lo (refreshClink_sends _ s))

/-- A link becomes ACTIVE with the partner's capability block. -/
theorem enterActive_spec (d : Dev) (n : Nat) (c : CapBlock) : 
    let e := d.enterActive n c
    (e.link n).st = .active ∧ (e.link n).pcoord = c.coord ∧ (e.link n).pepoch = c.epoch ∧ (e.link n).pcred = c.cred ∧
        (e.link n).urg = c.urg ∧ (e.link n).rxSeq = 0 ∧ (e.link n).since = d.now ∧ (e.link n).capAt = (d.link n).capAt ∧ ∃ more, e.out = d.out ++ more := by
  intro e
  have he : e = d.enterActive n c := rfl
  unfold Dev.enterActive at he
  dsimp only at he
  generalize hd : d.updLink n _ = d1 at he
  have h1 : Lo d1 e := by rw [he]; exact lo_foldl _ _ (Lo.refl d1) (fun d s => sesGain_lo d n s)
  have hc := h1.1 n
  have ho : d1.out = d.out := by rw [← hd]; rfl
  have hcap : (d1.link n).capAt = (d.link n).capAt := by rw [← hd, Dev.updLink_self]
  have hl : (d1.link n).st = .active ∧ (d1.link n).pcoord = c.coord ∧ (d1.link n).pepoch = c.epoch ∧ (d1.link n).pcred = c.cred ∧
        (d1.link n).urg = c.urg ∧ (d1.link n).rxSeq = 0 ∧ (d1.link n).since = d.now := by
    rw [← hd, Dev.updLink_self]; exact ⟨rfl, rfl, rfl, rfl, rfl, rfl, rfl⟩
  obtain ⟨l1, l2, l3, l4, l5, l6, l7⟩ := hl
  clear_value e
  obtain ⟨m, hm⟩ := h1.2.1
  refine ⟨?_, ?_, ?_, ?_, ?_, ?_, ?_, ?_, m, by rw [hm, ho]⟩
  · have h9 := congrArg Link.st hc; exact Eq.trans h9 l1
  · have h9 := congrArg Link.pcoord hc; exact Eq.trans h9 l2
  · have h9 := congrArg Link.pepoch hc; exact Eq.trans h9 l3
  · have h9 := congrArg Link.pcred hc; exact Eq.trans h9 l4
  · have h9 := congrArg Link.urg hc; exact Eq.trans h9 l5
  · have h9 := congrArg Link.rxSeq hc; exact Eq.trans h9 l6
  · have h9 := congrArg Link.since hc; exact Eq.trans h9 l7
  · have h9 := congrArg Link.capAt hc; exact Eq.trans h9 hcap

theorem takeOffer_link (d : Dev) (n o : Nat) : (d.takeOffer n o).links = d.links ∧ (d.takeOffer n o).now = d.now ∧
   ((d.lnkc.valid = true ∨ o ≠ 0xFFFFFFFF) → (d.takeOffer n o).lnkc.valid = true) := by
  unfold Dev.takeOffer
  split
  · rename_i h
    exact ⟨rfl, rfl, fun h2 => h2.elim id (fun h3 => absurd h h3)⟩
  · split
    · exact ⟨rfl, rfl, fun _ => rfl⟩
    · rename_i h
      have hv : d.lnkc.valid = true := by
        unfold Dev.offerWins at h
        cases hd : d.lnkc.valid with
        | true => rfl
        | false => rw [hd] at h; simp at h
      split <;> exact ⟨rfl, rfl, fun _ => hv⟩

/-- A link that was not ACTIVE goes DOWN. -/
theorem linkDown_off (d : Dev) (n r : Nat) (ha : (d.link n).st ≠ .active) : ((d.linkDown n r).link n).st = .down ∧ ((d.linkDown n r).link n).reason = r := by
  unfold Dev.linkDown
  dsimp only
  rw [if_neg ha, Dev.updLink_self]
  refine ⟨rfl, ?_⟩
  simp

/-- A packet waits on a link, or was sent and is not acknowledged. -/
def onLink (d : Dev) (n : Nat) (p : Pkt) : Prop := p ∈ (d.link n).queue ∨ p ∈ (d.link n).unacked.map TxFrame.pkt

theorem sendFrame_on (d : Dev) (n : Nat) (p : Pkt) : ((d.sendFrame n p).link n).queue = (d.link n).queue ∧
    ((d.sendFrame n p).link n).unacked.map TxFrame.pkt = (d.link n).unacked.map TxFrame.pkt ++ [p] := by
  unfold Dev.sendFrame
  dsimp only
  generalize hd : d.updLink n _ = d1
  unfold Dev.link
  rw [(startTimer_links _ _ _).1]
  change (d1.link n).queue = (d.link n).queue ∧ (d1.link n).unacked.map TxFrame.pkt = _
  rw [← hd, Dev.updLink_self]
  exact ⟨rfl, by simp; rfl⟩

theorem pickPkt_mem (l : Link) (q : List Pkt) (b : List Vc) (p : Pkt) (rest : List Pkt) (h : pickPkt l b q = some (p, rest)) (x : Pkt) (hx : x ∈ q) : x = p ∨ x ∈ rest := by
  obtain ⟨pre, post, h1, h2, _⟩ : ∃ pre post, q = pre ++ p :: post ∧ rest = pre ++ post ∧ True := by
    induction q generalizing b p rest with
    | nil => simp [pickPkt] at h
    | cons y r ih =>
      unfold pickPkt at h
      split at h
      · cases h; exact ⟨[], r, rfl, rfl, trivial⟩
      · cases hk : pickPkt l (y.vc :: b) r with
        | none => rw [hk] at h; simp at h
        | some z =>
          rw [hk] at h
          obtain ⟨p', rest'⟩ := z
          simp only [Option.map_some, Option.some.injEq, Prod.mk.injEq] at h
          obtain ⟨h1, h2⟩ := h
          subst h1 h2
          by_cases hxr : x ∈ r
          · obtain ⟨pre, post, g2, g3, _⟩ := ih _ _ _ hk hxr
            exact ⟨y :: pre, post, by rw [g2]; rfl, by rw [g3]; rfl, trivial⟩
          · have : ∀ (r : List Pkt) (b : List Vc) p' rest', pickPkt l b r = some (p', rest') → ∃ pre post, r = pre ++ p' :: post ∧ rest' = pre ++ post ∧ True := by
              intro r
              induction r with
              | nil => intro b p' rest' h; simp [pickPkt] at h
              | cons y r ih =>
                intro b p' rest' h
                unfold pickPkt at h
                split at h
                · cases h; exact ⟨[], r, rfl, rfl, trivial⟩
                · cases hk : pickPkt l (y.vc :: b) r with
                  | none => rw [hk] at h; simp at h
                  | some z =>
                    rw [hk] at h
                    obtain ⟨p'', rest''⟩ := z
                    simp only [Option.map_some, Option.some.injEq, Prod.mk.injEq] at h
                    obtain ⟨h1, h2⟩ := h
                    subst h1 h2
                    obtain ⟨pre, post, g2, g3, _⟩ := ih _ _ _ hk
                    exact ⟨y :: pre, post, by rw [g2]; rfl, by rw [g3]; rfl, trivial⟩
            obtain ⟨pre, post, g2, g3, _⟩ := this r _ _ _ hk
            exact ⟨y :: pre, post, by rw [g2]; rfl, by rw [g3]; rfl, trivial⟩
  rw [h1] at hx
  rw [h2]
  simp only [List.mem_append, List.mem_cons] at hx ⊢
  tauto

theorem pumpLoop_on (k : Nat) (n : Nat) (p : Pkt) : ∀ d : Dev, onLink d n p → onLink (pumpLoop k d n) n p := by
  induction k with
  | zero => intro d h; exact h
  | succ k ih =>
    intro d h
    unfold pumpLoop
    split
    · exact h
    · rename_i q rest hp
      refine ih _ ?_
      obtain ⟨e1, e2⟩ := sendFrame_on (d.updLink n fun l => { l with queue := rest }) n q
      unfold onLink
      rw [e1, e2, Dev.updLink_self]
      rcases h with h | h
      · rcases pickPkt_mem _ _ _ _ _ hp p h with h | h
        · right; rw [h]; simp
        · left; exact h
      · right; exact List.mem_append_left _ h

/-- A packet queued is on its link. -/
theorem enqueue_on (d : Dev) (n : Nat) (p : Pkt) : onLink (d.enqueue n p) n p := by
  unfold Dev.enqueue Dev.pump
  have h0 : onLink (d.updLink n fun l => { l with queue := l.queue ++ [p] }) n p := by
    left; rw [Dev.updLink_self]; simp
  split
  · exact pumpLoop_on _ n p _ h0
  · exact h0

/-- A packet queued changes links, timers of commands and READs, and what is sent: nothing else. -/
theorem enqueue_frame (d : Dev) (n : Nat) (p : Pkt) : d.enqueue n p = { d with links := (d.enqueue n p).links, cmds := (d.enqueue n p).cmds, reads := (d.enqueue n p).reads, out := (d.enqueue n p).out } := by
  have h1 := (enqueue_sends d n p).frame
  have h2 := enqueue_sessions d n p
  rw [h2] at h1
  exact h1

end Sys2Proof.Machine
end

