-- ==== Sys2Proof/Laws/Memory.lean ====
section
/-! SUPPORT. The boot flash: every operation keeps the canonical form, and what is read after each. -/

namespace Sys2Proof.Machine

open Sys2Proof

/-- The flash at reset has the canonical form. -/
theorem reset_flash_wf : Memory.wf State.reset.flash = true := rfl

theorem Memory.wfFrom_mono (m : List Host.Cell) (lo hi : Nat) (h : Memory.wfFrom hi m = true) (hle : lo ≤ hi) :
    Memory.wfFrom lo m = true := by
  cases m with
  | nil => rfl
  | cons c r =>
    simp only [Memory.wfFrom, Bool.and_eq_true, decide_eq_true_eq] at h ⊢
    exact ⟨⟨by omega, h.1.2⟩, h.2⟩

theorem Memory.read_below (m : List Host.Cell) (lo a : Nat) (h : Memory.wfFrom lo m = true) (ha : a < lo) :
    Memory.read m a = Memory.erased := by
  induction m generalizing lo with
  | nil => rfl
  | cons c r ih =>
    simp only [Memory.wfFrom, Bool.and_eq_true, decide_eq_true_eq] at h
    simp only [Memory.read]
    rw [if_neg (by omega)]
    exact ih (c.1 + 1) h.2 (by omega)

theorem Memory.wfFrom_write (m : List Host.Cell) (lo a : Nat) (v : Byte) (h : Memory.wfFrom lo m = true) (ha : lo ≤ a) :
    Memory.wfFrom lo (Memory.write m a v) = true := by
  induction m generalizing lo with
  | nil =>
    simp only [Memory.write]
    split
    · rfl
    · simpa [Memory.wfFrom] using ⟨ha, ‹_›⟩
  | cons c r ih =>
    simp only [Memory.wfFrom, Bool.and_eq_true, decide_eq_true_eq] at h
    obtain ⟨⟨h1, h2⟩, h3⟩ := h
    simp only [Memory.write]
    split
    · split
      · simpa [Memory.wfFrom, h1, h2] using h3
      · rename_i hlt hv
        simp only [Memory.wfFrom, Bool.and_eq_true, decide_eq_true_eq]
        exact ⟨⟨ha, hv⟩, ⟨by omega, h2⟩, h3⟩
    · split
      · rename_i heq
        subst heq
        split
        · exact Memory.wfFrom_mono _ _ _ h3 (by omega)
        · rename_i hv
          simpa [Memory.wfFrom, h1, hv] using h3
      · simp only [Memory.wfFrom, Bool.and_eq_true, decide_eq_true_eq]
        exact ⟨⟨h1, h2⟩, ih (c.1 + 1) h3 (by omega)⟩

/-- Writing one byte keeps the canonical form. -/
theorem Memory.wf_write (m : List Host.Cell) (a : Nat) (v : Byte) (h : Memory.wf m = true) : Memory.wf (Memory.write m a v) = true :=
  Memory.wfFrom_write m 0 a v h (Nat.zero_le a)

theorem Memory.read_write_from (m : List Host.Cell) (lo a x : Nat) (v : Byte) (h : Memory.wfFrom lo m = true) :
    Memory.read (Memory.write m a v) x = if x = a then v else Memory.read m x := by
  induction m generalizing lo with
  | nil =>
    simp only [Memory.write]
    split
    · rename_i hv
      simp [Memory.read, hv]
    · by_cases hx : x = a
      · simp [Memory.read, hx]
      · simp [Memory.read, hx, Ne.symm hx]
  | cons c r ih =>
    simp only [Memory.wfFrom, Bool.and_eq_true, decide_eq_true_eq] at h
    obtain ⟨⟨h1, h2⟩, h3⟩ := h
    simp only [Memory.write]
    split
    · have hlow : Memory.read ((c.1, c.2) :: r) a = Memory.erased := by
        simp only [Memory.read]
        rw [if_neg (by omega)]
        exact Memory.read_below r (c.1 + 1) a h3 (by omega)
      split
      · rename_i hv
        split
        · rename_i hx
          rw [hx, hlow, hv]
        · rfl
      · by_cases hx : x = a
        · simp [Memory.read, hx]
        · rw [if_neg hx]
          conv => lhs; unfold Memory.read
          rw [if_neg (Ne.symm hx)]
    · split
      · rename_i heq
        subst heq
        split
        · rename_i hv
          by_cases hx : x = c.1
          · rw [if_pos hx, hx, hv]
            exact Memory.read_below r (c.1 + 1) c.1 h3 (by omega)
          · rw [if_neg hx]
            simp [Memory.read, Ne.symm hx]
        · by_cases hx : x = c.1
          · simp [Memory.read, hx]
          · simp [Memory.read, hx, Ne.symm hx]
      · rename_i hne
        by_cases hc : c.1 = x
        · rw [if_neg (by omega)]
          simp [Memory.read, hc]
        · simp only [Memory.read, if_neg hc]
          exact ih (c.1 + 1) h3

/-- A read after a write gives the byte written there, and every other byte as before. -/
theorem Memory.read_write (m : List Host.Cell) (a x : Nat) (v : Byte) (h : Memory.wf m = true) :
    Memory.read (Memory.write m a v) x = if x = a then v else Memory.read m x :=
  Memory.read_write_from m 0 a x v h

theorem Memory.wf_writeBytes (bs : List Byte) (m : List Host.Cell) (a : Nat) (h : Memory.wf m = true) :
    Memory.wf (Memory.writeBytes m a bs) = true := by
  induction bs generalizing m a with
  | nil => exact h
  | cons b r ih => exact ih _ _ (Memory.wf_write m a b h)

theorem Memory.read_writeBytes (bs : List Byte) (m : List Host.Cell) (a x : Nat) (h : Memory.wf m = true) :
    Memory.read (Memory.writeBytes m a bs) x =
      if a ≤ x ∧ x < a + bs.length then bs.getD (x - a) 0 else Memory.read m x := by
  induction bs generalizing m a with
  | nil =>
    rw [if_neg (by simp)]
    rfl
  | cons b r ih =>
    simp only [Memory.writeBytes, ih _ (a + 1) (Memory.wf_write m a b h), Memory.read_write m a x b h, List.length_cons]
    by_cases h1 : x = a
    · subst h1
      rw [if_neg (by omega), if_pos rfl, if_pos (by omega)]
      simp
    · by_cases h2 : a + 1 ≤ x ∧ x < a + 1 + r.length
      · rw [if_pos h2, if_pos (by omega)]
        obtain ⟨k, rfl⟩ : ∃ k, x = a + 1 + k := ⟨x - (a + 1), by omega⟩
        have e1 : a + 1 + k - (a + 1) = k := by omega
        have e2 : a + 1 + k - a = k + 1 := by omega
        rw [e1, e2]
        rfl
      · rw [if_neg h2, if_neg h1, if_neg (by omega)]

theorem Memory.wf_program (bs : List Byte) (m : List Host.Cell) (a : Nat) (h : Memory.wf m = true) :
    Memory.wf (Memory.program m a bs) = true := by
  induction bs generalizing m a with
  | nil => exact h
  | cons b r ih => exact ih _ _ (Memory.wf_write m a _ h)

theorem Memory.read_program (bs : List Byte) (m : List Host.Cell) (a x : Nat) (h : Memory.wf m = true) :
    Memory.read (Memory.program m a bs) x =
      if a ≤ x ∧ x < a + bs.length then Memory.read m x &&& bs.getD (x - a) 0 else Memory.read m x := by
  induction bs generalizing m a with
  | nil =>
    rw [if_neg (by simp)]
    rfl
  | cons b r ih =>
    simp only [Memory.program, ih _ (a + 1) (Memory.wf_write m a _ h), Memory.read_write m a x _ h, List.length_cons]
    by_cases h1 : x = a
    · subst h1
      rw [if_neg (by omega), if_pos rfl, if_pos (by omega)]
      simp
    · by_cases h2 : a + 1 ≤ x ∧ x < a + 1 + r.length
      · rw [if_pos h2, if_neg h1, if_pos (by omega)]
        obtain ⟨k, rfl⟩ : ∃ k, x = a + 1 + k := ⟨x - (a + 1), by omega⟩
        have e1 : a + 1 + k - (a + 1) = k := by omega
        have e2 : a + 1 + k - a = k + 1 := by omega
        rw [e1, e2]
        rfl
      · rw [if_neg h2, if_neg h1, if_neg (by omega)]

theorem Memory.wfFrom_filter (m : List Host.Cell) (p : Host.Cell → Bool) (lo : Nat) (h : Memory.wfFrom lo m = true) :
    Memory.wfFrom lo (m.filter p) = true := by
  induction m generalizing lo with
  | nil => rfl
  | cons c r ih =>
    simp only [Memory.wfFrom, Bool.and_eq_true, decide_eq_true_eq] at h
    simp only [List.filter_cons]
    split
    · simp only [Memory.wfFrom, Bool.and_eq_true, decide_eq_true_eq]
      exact ⟨h.1, ih _ h.2⟩
    · exact ih _ (Memory.wfFrom_mono _ _ _ h.2 (by omega))

theorem Memory.wf_erase (m : List Host.Cell) (lo hi : Nat) (h : Memory.wf m = true) : Memory.wf (Memory.erase m lo hi) = true :=
  Memory.wfFrom_filter m _ 0 h

/-- An erase sets the bytes of its range to 0xFF, and leaves every other byte. -/
theorem Memory.read_erase (m : List Host.Cell) (lo hi x : Nat) :
    Memory.read (Memory.erase m lo hi) x = if lo ≤ x ∧ x < hi then Memory.erased else Memory.read m x := by
  induction m with
  | nil => split <;> rfl
  | cons c r ih =>
    obtain ⟨a, v⟩ := c
    simp only [Memory.erase] at ih ⊢
    by_cases hk : a < lo ∨ hi ≤ a
    · rw [List.filter_cons_of_pos (by simpa using hk)]
      simp only [Memory.read]
      split
      · rename_i h
        subst h
        rw [if_neg (by omega)]
      · exact ih
    · rw [List.filter_cons_of_neg (by simpa using hk), ih]
      simp only [Memory.read]
      split
      · rfl
      · rw [if_neg (by omega)]

end Sys2Proof.Machine
end

