-- ==== Sys2Proof/Laws/Reads.lean ====
section
/-! SUPPORT. What the reads' walks can change (`StoreWork`), and the bound of a SCAN's output. -/

namespace Sys2Proof.Machine

open Sys2Proof

/-- The walk of one stall's entries changes the media and what reading counts. -/
theorem scanEntries_storeWork (l : List (Loc × Rec)) (d : Dev) (fs : List Finding) (c : Cmd) (p s : Nat) (a : ScanAt) :
    StoreWork d (d.scanEntries fs c p s l a).2 := by
  induction l generalizing d a with
  | nil => exact StoreWork.refl d
  | cons x es ih =>
    obtain ⟨loc, r⟩ := x
    unfold Dev.scanEntries
    split
    · exact StoreWork.refl d
    · dsimp only
      have h : StoreWork d (if ((c.body.subop == 0 || c.selects r) && !r.quarantined) = true then
          d.readGranules fs s (recGranule (d.stall s) loc) 8 else ({ bad := false, left := [] }, d)).2 := by
        split
        · exact readGranules_storeWork _ _ _ _ _
        · exact StoreWork.refl d
      generalize (if ((c.body.subop == 0 || c.selects r) && !r.quarantined) = true then
          d.readGranules fs s (recGranule (d.stall s) loc) 8 else ({ bad := false, left := [] }, d)) = g at h ⊢
      split
      · exact h.trans ((updStall_storeWork _ _ _).trans (ih _ _))
      · split
        · exact h.trans (ih _ _)
        · split
          · exact h
          · exact h.trans (ih _ _)

theorem scanEntries_length (l : List (Loc × Rec)) (d : Dev) (fs : List Finding) (c : Cmd) (p s : Nat) (a : ScanAt)
    (h : a.bytes.length ≤ c.body.length) : (d.scanEntries fs c p s l a).1.bytes.length ≤ c.body.length := by
  induction l generalizing d a with
  | nil => exact h
  | cons x es ih =>
    obtain ⟨loc, r⟩ := x
    unfold Dev.scanEntries
    split
    · exact h
    · dsimp only
      generalize (if ((c.body.subop == 0 || c.selects r) && !r.quarantined) = true then
          d.readGranules fs s (recGranule (d.stall s) loc) 8 else ({ bad := false, left := [] }, d)) = g
      split
      · exact ih _ _ h
      · split
        · exact ih _ _ h
        · split
          · exact h
          · exact ih _ _ (by simp only [List.length_append]; omega)

theorem scanCam_work (d : Dev) (fs : List Finding) (c : Cmd) (p e s : Nat) (a : ScanAt) :
    StoreWork d (d.scanCam fs c p e s a).2 ∧
    (a.bytes.length ≤ c.body.length → (d.scanCam fs c p e s a).1.bytes.length ≤ c.body.length) := by
  unfold Dev.scanCam
  split
  · exact ⟨StoreWork.refl d, id⟩
  · exact ⟨(camParity_storeWork d s fs).trans ((scanEntries_storeWork _ _ _ _ _ _ _).trans (updStall_storeWork _ _ _)),
      fun h => scanEntries_length _ _ _ _ _ _ _ h⟩

theorem scanBuckets_work (l : List Nat) (d : Dev) (fs : List Finding) (c : Cmd) (p e s : Nat) (a : ScanAt) :
    StoreWork d (d.scanBuckets fs c p e s l a).2 ∧
    (a.bytes.length ≤ c.body.length → (d.scanBuckets fs c p e s l a).1.bytes.length ≤ c.body.length) := by
  induction l generalizing d a with
  | nil => exact ⟨StoreWork.refl d, id⟩
  | cons q qs ih =>
    unfold Dev.scanBuckets
    split
    · exact ⟨StoreWork.refl d, id⟩
    · have h1 := (readBucketAt_storeWork d fs s (bucketGranule (d.stall s) q) q).trans (updStall_storeWork _ s fun x =>
        { x with cnt := { x.cnt with ovfRead := sat1 x.cnt.ovfRead } })
      dsimp only
      generalize Dev.updStall _ s _ = d1 at h1 ⊢
      generalize bucketRecs _ _ _ _ = es
      have h2 := scanEntries_storeWork es d1 fs c p s a
      have h3 := scanEntries_length es d1 fs c p s a
      generalize d1.scanEntries fs c p s es a = y at h2 h3 ⊢
      exact ⟨h1.trans (h2.trans (ih _ _).1), fun h => (ih _ _).2 (h3 h)⟩

/-- A SCAN changes the media and what reading counts, and its bytes stay within LENGTH. -/
theorem scanStalls_work (l : List Nat) (d : Dev) (fs : List Finding) (c : Cmd) (p e : Nat) (a : ScanAt) :
    StoreWork d (d.scanStalls fs c p e l a).2 ∧
    (a.bytes.length ≤ c.body.length → ∀ b ∈ (d.scanStalls fs c p e l a).1, b.bytes.length ≤ c.body.length) := by
  induction l generalizing d p e a with
  | nil =>
    refine ⟨StoreWork.refl d, fun h b hb => ?_⟩
    simp only [Dev.scanStalls, Option.mem_def, Option.some.injEq] at hb
    rw [← hb]
    exact h
  | cons s ss ih =>
    unfold Dev.scanStalls
    split
    · refine ⟨StoreWork.refl d, fun h b hb => ?_⟩
      simp only [Option.mem_def, Option.some.injEq] at hb
      rw [← hb]
      exact h
    · split
      · exact ⟨StoreWork.refl d, fun _ b hb => by simp at hb⟩
      · obtain ⟨h1, h2⟩ := scanCam_work d fs c p e s a
        generalize d.scanCam fs c p e s a = x at h1 h2 ⊢
        dsimp only
        obtain ⟨h3, h4⟩ := scanBuckets_work (bucketsFrom (x.2.stall s) e) x.2 fs c p e s x.1
        generalize x.2.scanBuckets fs c p e s (bucketsFrom (x.2.stall s) e) x.1 = y at h3 h4 ⊢
        exact ⟨h1.trans (h3.trans (ih _ _ _ _).1), fun h => (ih _ _ _ _).2 (h4 (h2 h))⟩

/-! ### Looking a key up -/

theorem servedBad_storeWork (d : Dev) (fs : List Finding) (ws : List Cmd) : StoreWork d (d.servedBad fs ws).2 :=
  foldl_pair_storeWork (fun (a : Bool × Dev) (e : Nat × Nat × Nat) =>
    (a.1 || (a.2.readGranules fs e.2.1 (e.2.2 * 1024) 1024).1.bad, (a.2.readGranules fs e.2.1 (e.2.2 * 1024) 1024).2))
    (fun a _ => readGranules_storeWork a.2 fs _ _ _) _ (false, d)

theorem servedCheck_storeWork (d : Dev) (c : Cmd) (key : List Byte) (ws : List Cmd) : StoreWork d (d.servedCheck c key ws).2 := by
  unfold Dev.servedCheck
  dsimp only
  split
  · exact StoreWork.refl d
  · refine foldl_pair_storeWork (β := Bool) _ (fun a x => ?_) ws (false, d)
    refine foldl_pair_storeWork (β := Bool) _ (fun a s => ?_) _ a
    split
    · exact StoreWork.refl _
    · exact checkBytes_storeWork _ _ _ _ _ _

/-- What a read's lookup changes: the media and what reading counts. -/
theorem see_storeWork (d : Dev) (c : Cmd) (fs : List Finding) (pos : Nat) (key : List Byte) : StoreWork d (d.see c fs pos key).2 := by
  unfold Dev.see
  split
  · exact StoreWork.refl d
  · dsimp only
    generalize (if c.body.opcode = Opcode.existsKey.code then [] else d.servingWrites c key) = data
    have h := (find_storeWork d fs c.body.pad key).trans ((servedBad_storeWork _ fs data).trans (servedCheck_storeWork _ c key data))
    split
    · exact h
    · split
      · exact h
      · split <;> exact h

/-- The lookup of one key of a list changes the media, what reading counts and the command's own record. -/
theorem lookKey_plane (d : Dev) (c : Nat) (fs : List Finding) (range : Nat → Nat × Nat) (i : Nat) (k : List Byte) :
    DataPlane d (d.lookKey c fs range i k).2 := by
  unfold Dev.lookKey
  split
  · exact DataPlane.refl d
  · rename_i x _
    split
    · exact DataPlane.refl d
    · dsimp only
      have h := (see_storeWork d x fs i k).plane
      split
      · exact h
      · exact h.trans (updCmd_plane _ _ _ (by intro y; rfl))
      · exact h.trans ((fetchSegs_storeWork _ _ _ _ _ _ _ _).plane.trans (updCmd_plane _ _ _ (by intro y; rfl)))

/-- The lookups of a list change the media, what reading counts and the command's own record. -/
theorem lookKeys_plane (l : List (Nat × List Byte)) (d : Dev) (c : Nat) (fs : List Finding) (range : Nat → Nat × Nat) :
    DataPlane d (d.lookKeys c fs range l).2 := by
  induction l generalizing d with
  | nil => exact DataPlane.refl d
  | cons x ks ih =>
    obtain ⟨i, k⟩ := x
    unfold Dev.lookKeys
    have h := lookKey_plane d c fs range i k
    split
    · rename_i st e he
      rw [he] at h
      exact h
    · rename_i e he
      rw [he] at h
      exact h.trans (ih _)

end Sys2Proof.Machine
end

