-- ==== Sys2Proof/Laws/Receive.lean ====
section
/-! SUPPORT. What the receipt of one frame does when nothing waits in a receive buffer: the frame is parsed once, and delivered, kept,
dropped or rejected. -/

namespace Sys2Proof.Machine

open Sys2Proof

theorem SMap.filter_put {α : Type} (m : SMap α) (k : Nat) (v : α) (p : Nat × α → Bool) (hm : ∀ x ∈ m, p x = false)
    (hv : p (k, v) = true) : (SMap.put m k v).filter p = [(k, v)] := by
  have h0 : ∀ l : SMap α, (∀ x ∈ l, p x = false) → l.filter p = [] := fun l hl => List.filter_eq_nil_iff.2 fun x hx => by
    simp [hl x hx]
  induction m with
  | nil => simp [SMap.put, hv]
  | cons a r ih =>
    obtain ⟨j, w⟩ := a
    have ha : p (j, w) = false := hm _ (by simp)
    have hr : ∀ x ∈ r, p x = false := fun x hx => hm x (by simp [hx])
    simp only [SMap.put]
    split
    · simp [hv, ha, h0 r hr]
    · split
      · simp [hv, h0 r hr]
      · simp [ha, ih hr]

theorem SMap.sum_put {α : Type} (m : SMap α) (k : Nat) (v : α) (f : Nat × α → Nat) (hm : ∀ x ∈ m, f x = 0) :
    ((SMap.put m k v).map f).sum = f (k, v) := by
  have h0 : ∀ l : SMap α, (∀ x ∈ l, f x = 0) → (l.map f).sum = 0 := by
    intro l hl
    induction l with
    | nil => rfl
    | cons a r ih => simp [hl a (by simp), ih fun x hx => hl x (by simp [hx])]
  induction m with
  | nil => simp [SMap.put]
  | cons a r ih =>
    obtain ⟨j, w⟩ := a
    have ha : f (j, w) = 0 := hm _ (by simp)
    have hr : ∀ x ∈ r, f x = 0 := fun x hx => hm x (by simp [hx])
    simp only [SMap.put]
    split
    · simp [ha, h0 r hr]
    · split
      · simp [h0 r hr]
      · simp [ha, ih hr]

/-- Link n once it has accepted a frame: the next number is expected, and the frame lies in the receive buffer (R138). -/
def Link.accept (l : Link) (now : Nat) (h : RxHeld) : Link :=
  let t : Transit := { toLink := false, ch := vcCode h.vc, bytes := h.frame }
  { l with rxSeq := (l.rxSeq + 1) % 65536, nakOut := false, rxHold := l.rxHold ++ [h], transit := l.transit ++ [t] }.touch now

/-- The device once link n has accepted a frame and remembers its identity. -/
def Dev.arrive (d : Dev) (n : Nat) (vc : Vc) (f : List Byte) : Dev :=
  (d.updLink n fun l => l.accept d.now { vc := vc, frame := f, counts := true, parsed := false }).updLink n
    fun l => l.remember (frameIdent f)

/-- What is left in the receive buffer. -/
def Dev.setHold (d : Dev) (n : Nat) (l : List RxHeld) : Dev := d.updLink n fun x => { x with rxHold := l }

theorem touch_fields (l : Link) (now : Nat) : l.touch now = { l with ctlDirty := true, ctlAt := (l.touch now).ctlAt } := by
  unfold Link.touch
  split
  · rename_i h
    cases l
    simp only at h
    rw [h]
  · rfl

theorem rxHold_nil (d : Dev) (n : Nat) (h : ∀ l ∈ d.links, l.2.rxHold = []) : (d.link n).rxHold = [] := by
  unfold Dev.link
  rcases SMap.get_mem d.links n Link.reset with h1 | h1
  · rw [h1]
    rfl
  · exact h _ h1

/-- With no frame waiting anywhere, a received frame is taken from its link's buffer at once. -/
theorem receive_eq (d : Dev) (n : Nat) (vc : Vc) (f : List Byte) (h : ∀ l ∈ d.links, l.2.rxHold = []) (ha : (d.link n).st = .active) :
    d.receive n vc f =
      (match (d.updLink n fun l => l.accept d.now { vc := vc, frame := f, counts := true, parsed := false }).takeFrame n
          { vc := vc, frame := f, counts := true, parsed := false } with
       | (e, none) => e.setHold n []
       | (e, some x) => e.setHold n [x]) := by
  have h0 := rxHold_nil d n h
  generalize hx : ({ vc := vc, frame := f, counts := true, parsed := false } : RxHeld) = x
  generalize hd : (d.updLink n fun l => l.accept d.now x) = d1
  have hl : d1.links = SMap.put d.links n ((d.link n).accept d.now x) := by
    rw [← hd]
    rfl
  have hh : ((d.link n).accept d.now x).rxHold = [x] := by
    unfold Link.accept
    rw [touch_fields]
    simp [h0]
  have hw : d1.rxWaiting = 1 := by
    unfold Dev.rxWaiting
    rw [hl, SMap.sum_put]
    · simp [hh]
    · intro y hy
      simp [h y hy]
  have hf : ((d1.links.filter fun l => !l.2.rxHold.isEmpty).map Prod.fst) = [n] := by
    rw [hl, SMap.filter_put]
    · rfl
    · intro y hy
      simp [h y hy]
    · simp [hh]
  have hd1 : d1.drainRx = d1.drainLink n := by
    unfold Dev.drainRx
    rw [hw]
    unfold drainLoop
    rw [hf]
    simp only [List.foldl_cons, List.foldl_nil]
    change (if (d1.drainLink n).rxWaiting < d1.rxWaiting then d1.drainLink n else d1.drainLink n) = _
    rw [ite_self]
  have hrx : (d1.link n).rxHold = [x] := by
    rw [← hd]
    simp [hh]
  unfold Dev.receive
  rw [if_neg (by rw [ha]; simp)]
  refine Eq.trans (b := (d.updLink n fun l => l.accept d.now { vc := vc, frame := f, counts := true, parsed := false }).drainRx) rfl ?_
  rw [hx]
  rw [hd, hd1]
  unfold Dev.drainLink
  rw [hrx]
  unfold Dev.drainList
  rw [if_neg (by simp)]
  rcases d1.takeFrame n x with ⟨e, _ | y⟩
  · rfl
  · rfl

theorem updLink_parse (d : Dev) (n m : Nat) (g : Link → Link) (vc : Vc) (f : List Byte)
    (hu : ∀ l, (g l).urg = l.urg) (hh : ∀ l, (g l).history = l.history) : (d.updLink m g).parse n vc f = d.parse n vc f := by
  have h1 : ∀ k, ((d.updLink m g).link k).urg = (d.link k).urg := fun k => by
    rw [Dev.link_updLink]
    split
    · rename_i e
      rw [hu, e]
    · rfl
  have h2 : ∀ k, ((d.updLink m g).link k).history = (d.link k).history := fun k => by
    rw [Dev.link_updLink]
    split
    · rename_i e
      rw [hh, e]
    · rfl
  have h3 : ∀ pos, (d.updLink m g).parseTail n f pos = d.parseTail n f pos := by
    intro pos
    unfold Dev.parseTail Dev.isDup
    rw [h2]
    rfl
  unfold Dev.parse
  rw [h1]
  simp only [h3]
  rfl

theorem accept_parse (d : Dev) (n : Nat) (vc : Vc) (f : List Byte) (x : RxHeld) :
    (d.updLink n fun l => l.accept d.now x).parse n vc f = d.parse n vc f := by
  refine updLink_parse d n n _ vc f (fun l => ?_) (fun l => ?_)
  · unfold Link.accept
    rw [touch_fields]
  · unfold Link.accept
    rw [touch_fields]

/-- A frame that parses: delivered, or kept. -/
theorem receive_ok (d : Dev) (n : Nat) (vc : Vc) (f : List Byte) (h : ∀ l ∈ d.links, l.2.rxHold = []) (ha : (d.link n).st = .active)
    (hp : d.parse n vc f = .ok) :
    d.receive n vc f = (match (d.arrive n vc f).deliverFrame n vc f with
      | some e => (e.freeCredits n vc f.length).setHold n []
      | none =>
        if frameTyp f != 0x0A then (d.arrive n vc f).setHold n [{ vc := vc, frame := f, counts := true, parsed := true }]
        else ((d.arrive n vc f).freeCredits n vc f.length).setHold n [{ vc := vc, frame := f, counts := false, parsed := true }]) := by
  rw [receive_eq d n vc f h ha]
  unfold Dev.takeFrame
  simp only [Bool.false_eq_true, if_false, accept_parse, hp, if_true]
  rw [show (d.updLink n fun l => l.accept d.now { vc := vc, frame := f, counts := true, parsed := false }).updLink n
    (fun l => l.remember (frameIdent f)) = d.arrive n vc f from rfl]
  cases (d.arrive n vc f).deliverFrame n vc f with
  | some e => rfl
  | none =>
    unfold RxHeld.blocks
    dsimp only
    cases frameTyp f != 0x0A <;> rfl

/-- The device after acceptance differs in link n alone, and there not in what the model's other parts read. -/
theorem arrive_frame (d : Dev) (n : Nat) (vc : Vc) (f : List Byte) :
    d.arrive n vc f = { d with links := (d.arrive n vc f).links } ∧
    (∀ m, m ≠ n → (d.arrive n vc f).link m = d.link m) ∧
    (d.arrive n vc f).link n = { d.link n with
      rxSeq := ((d.link n).rxSeq + 1) % 65536, nakOut := false, ctlDirty := true, ctlAt := ((d.arrive n vc f).link n).ctlAt,
      rxHold := (d.link n).rxHold ++ [{ vc := vc, frame := f, counts := true, parsed := false }],
      transit := (d.link n).transit ++ [{ toLink := false, ch := vcCode vc, bytes := f }],
      history := (frameIdent f :: (d.link n).history).take 1024 } := by
  refine ⟨rfl, fun m hm => ?_, ?_⟩
  · unfold Dev.arrive
    rw [Dev.updLink_other _ _ _ _ hm, Dev.updLink_other _ _ _ _ hm]
  · unfold Dev.arrive
    rw [Dev.updLink_self, Dev.updLink_self]
    unfold Link.accept Link.remember
    rw [touch_fields]

theorem deliverFrame_eq (d : Dev) (n : Nat) (vc : Vc) (f : List Byte) :
    (frameTyp f = 0x01 → d.deliverFrame n vc f = d.commandIn vc f) ∧ (frameTyp f = 0x04 → d.deliverFrame n vc f = some (d.dataIn f)) ∧
    (frameTyp f = 0x06 → d.deliverFrame n vc f = some (d.nudgeIn vc f)) ∧
    (frameTyp f = 0x08 → d.deliverFrame n vc f = some (d.readDataIn f)) ∧ (frameTyp f = 0x0A → d.deliverFrame n vc f = d.configIn n f) ∧
    (frameTyp f = 0x0C → d.deliverFrame n vc f = some (d.rejectIn n f)) := by
  unfold Dev.deliverFrame
  and_intros <;> intro h <;> (rw [h]; rfl)

/-- A device that differs in its links alone. -/
theorem links_gets (d e : Dev) (h : e = { d with links := e.links }) :
    (∀ q, e.qp q = d.qp q) ∧ (∀ k, e.ses k = d.ses k) ∧ (∀ c, e.findCmd c = d.findCmd c) ∧ e.reads = d.reads ∧ e.writes = d.writes ∧
    e.cmds = d.cmds ∧ e.stalls = d.stalls ∧ e.now = d.now ∧ e.glb = d.glb ∧ (∀ a b c, e.pushCmd a b c = d.pushCmd a b c) ∧
    (∀ a, e.pendUsed a = d.pendUsed a) ∧ (∀ f, e.matchRead f = d.matchRead f) ∧ e.nextId = d.nextId ∧ e.subSeq = d.subSeq := by
  rw [h]
  exact ⟨fun _ => rfl, fun _ => rfl, fun _ => rfl, rfl, rfl, rfl, rfl, rfl, rfl, fun _ _ _ => rfl, fun _ => rfl, fun _ => rfl, rfl, rfl⟩

/-- Credits given back, and a receive buffer set: link n alone changes. -/
theorem freed_frame (d : Dev) (n : Nat) (vc : Vc) (len : Nat) (l : List RxHeld) :
    (d.freeCredits n vc len).setHold n l = { d with links := ((d.freeCredits n vc len).setHold n l).links } ∧
    (∀ m, m ≠ n → ((d.freeCredits n vc len).setHold n l).link m = d.link m) ∧
    ((d.freeCredits n vc len).setHold n l).link n = { d.link n with
      freed := credBump (d.link n).freed vc (creditCost len), ctlDirty := true,
      ctlAt := (((d.freeCredits n vc len).setHold n l).link n).ctlAt, rxHold := l } := by
  refine ⟨rfl, fun m hm => ?_, ?_⟩
  · unfold Dev.setHold Dev.freeCredits
    rw [Dev.updLink_other _ _ _ _ hm, Dev.updLink_other _ _ _ _ hm]
  · unfold Dev.setHold Dev.freeCredits
    rw [Dev.updLink_self, Dev.updLink_self]
    rw [touch_fields]

end Sys2Proof.Machine
end

