-- ==== Sys2Proof/Laws/Rows.lean ====
section
/-! SUPPORT. Register rows and reports: reads that clear or latch (R868–R870), the bring-up's reports, watermark notices and Pliop
frames, each with what it comes to. -/

namespace Sys2Proof.Machine

open Sys2Proof

theorem path_updPath (d : Dev) (p : Path) (f : PathSt → PathSt) : (d.updPath p f).path p = f (d.path p) := by
  unfold Dev.path Dev.updPath SMap.upd
  simp

/-- A latched word is what later reads of its offset return. -/
theorem latch_spec (d : Dev) (p : Path) (o v : Nat) : d.latch p o v = { d with paths := (d.latch p o v).paths } ∧
    (∀ k, SMap.get ((d.latch p o v).path p).latches k 0 = if k = o then BitVec.ofNat 32 v else SMap.get (d.path p).latches k 0) := by
  refine ⟨rfl, fun k => ?_⟩
  unfold Dev.latch
  rw [path_updPath]
  exact SMap.get_put _ _ _ _ _

theorem group_spec (p : Path) (base : Nat) (bytes : List Byte) (n : Nat) : ∀ d : Dev, 
    let e := (List.range n).foldl (fun d k => d.latch p (base + 4 * (k + 1)) (leNat (slice (4 * (k + 1)) 4 bytes))) d
    e = { d with paths := e.paths } ∧ ∀ k, k < n → SMap.get (e.path p).latches (base + 4 * (k + 1)) 0 = BitVec.ofNat 32 (leNat (slice (4 * (k + 1)) 4 bytes)) := by
  induction n with
  | zero => intro d; exact ⟨rfl, fun k h => absurd h (Nat.not_lt_zero k)⟩
  | succ n ih =>
    intro d e
    obtain ⟨h1, h2⟩ := ih d
    have he : e = ((List.range n).foldl (fun d k => d.latch p (base + 4 * (k + 1)) (leNat (slice (4 * (k + 1)) 4 bytes))) d).latch p (base + 4 * (n + 1)) (leNat (slice (4 * (n + 1)) 4 bytes)) := by
      change List.foldl _ _ _ = _
      rw [List.range_succ, List.foldl_append]; rfl
    generalize (List.range n).foldl (fun d k => d.latch p (base + 4 * (k + 1)) (leNat (slice (4 * (k + 1)) 4 bytes))) d = d1 at *
    obtain ⟨l1, l2⟩ := latch_spec d1 p (base + 4 * (n + 1)) (leNat (slice (4 * (n + 1)) 4 bytes))
    clear_value e
    subst he
    refine ⟨?_, fun k hk => ?_⟩
    · refine l1.trans ?_
      rw [h1]
    · rw [l2]
      by_cases h : k = n
      · rw [h, if_pos rfl]
      · rw [if_neg (by omega)]
        exact h2 k (by omega)

/-- The first word of a group is read, and the others are latched (R870). -/
theorem groupRead_spec (d : Dev) (p : Path) (base : Nat) (bytes : List Byte) : ∃ e : Dev, d.groupRead p base bytes = (leNat (bytes.take 4), e) ∧
    e = { d with paths := e.paths } ∧ ∀ k, k < 7 → SMap.get (e.path p).latches (base + 4 * (k + 1)) 0 = BitVec.ofNat 32 (leNat (slice (4 * (k + 1)) 4 bytes)) := by
  obtain ⟨g1, g2⟩ := group_spec p base bytes 7 d
  exact ⟨_, rfl, g1, g2⟩

/-- PWR_CNT_TRIP clears on a read. -/
theorem regRead_cntTrip (d : Dev) (p : Path) (hb : d.glb.blocks = true) : d.regRead p 0x20044 = (BitVec.ofNat 32 d.pwr.cntTrip, { d with pwr := { d.pwr with cntTrip := 0 } }) := by
  have h : d.readBlock p 0x20044 = d.readPwr p 0x44 := by
    unfold Dev.readBlock; dsimp only
    rw [if_neg (by decide), if_neg (by decide), if_pos (by decide)]
  unfold Dev.regRead
  rw [hb, h]; rfl

/-- The low word of yard time latches the high word. -/
theorem regRead_now (d : Dev) (p : Path) (hb : d.glb.blocks = true) : d.regRead p 0x10008 = (BitVec.ofNat 32 (d.now % 2 ^ 64 % 2 ^ 32), d.latch p 0x1000C (d.now % 2 ^ 64 / 2 ^ 32)) := by
  have h : d.readBlock p 0x10008 = d.readClk p 0x8 := by
    unfold Dev.readBlock; dsimp only
    rw [if_neg (by decide), if_pos (by decide)]
  unfold Dev.regRead
  rw [hb, h]; rfl

/-- The event queue window is a latch group. -/
theorem regRead_evq (d : Dev) (p : Path) (hb : d.glb.blocks = true) : d.regRead p 0xB0020 = (BitVec.ofNat 32 (d.groupRead p 0xB0020 d.evq.front).1, (d.groupRead p 0xB0020 d.evq.front).2) := by
  have h : d.readBlock p 0xB0020 = d.readWmk p 0x20 := by
    unfold Dev.readBlock; dsimp only
    iterate 11 rw [if_neg (by decide)]
    rw [if_pos (by decide)]
  unfold Dev.regRead
  rw [hb, h]
  rw [show d.readWmk p 0x20 = d.groupRead p 0xB0020 d.evq.front from rfl]
  rfl

/-- A read row answers with the value read. -/
theorem readRow_eq (d : Dev) (p : Path) (off : Nat) (v : Word) (e : Dev) (ho : offsetOk off = true) (h : d.regRead p off = (v, e)) : d.readRow p off = e.emit (.readValue p off v) := by
  unfold Dev.readRow
  rw [if_pos ho, h]

theorem writeBlock_bru (d : Dev) (p : Path) (off : Nat) (w : Word) (h1 : 0xA0000 ≤ off) (h2 : off < 0xB0000) :
    d.writeBlock p off w = d.writeBru p (off % 0x10000) w.toNat := by
  unfold Dev.writeBlock
  dsimp only
  iterate 10 rw [if_neg (by omega)]
  rw [if_pos (by omega)]

/-- A row that writes a firmware-applied register of BRU after step 3. -/
theorem doesThen_bruRow (i : Instr) (s : State) (p : Path) (o : Nat) (w : Word) (P : Dev → Prop) (hu : s.Up) (hb : s.dev.glb.blocks = true) (hs : 3 < s.dev.bru.st)
    (he : exec i s = s.run fun d => d.writeRow p (0xA0000 + o) w) (ho : offsetOk (0xA0000 + o) = true) (hn : notSetUp (0xA0000 + o) = false) (ho2 : o < 0x10000)
    (h20 : o ≠ 0x20) (h28 : o ≠ 0x28) (h30 : o = 0x30 → bit w.toNat 30 = false)
    (h : P (s.dev.counted.writeBruFw o w.toNat)) : DoesThen i s P := by
  refine doesThen_row i s p (0xA0000 + o) w P hu hb he ho ?_
  rw [hn]
  simp only [Bool.false_eq_true, if_false]
  rw [writeBlock_bru _ _ _ _ (by omega) (by omega)]
  have : (0xA0000 + o) % 0x10000 = o := by omega
  rw [this]
  unfold Dev.writeBru
  split
  · exact absurd rfl h20
  · exact absurd rfl h28
  · dsimp only
    rw [if_neg (show ¬ (o = 0x30 ∧ bit w.toNat 30 = true) from fun h => by rw [h30 h.1] at h; cases h.2)]
    rw [if_neg (show ¬ s.dev.counted.bru.st ≤ 3 from Nat.not_le.2 hs)]
    exact h

theorem msix_frame (d : Dev) (v : Nat) : (d.msix v).bru = d.bru ∧ (d.msix v).glb = d.glb ∧ (d.msix v).evq = d.evq := by
  unfold Dev.msix
  split
  · exact ⟨rfl, rfl, rfl⟩
  · split
    · exact ⟨rfl, rfl, rfl⟩
    · split <;> exact ⟨rfl, rfl, rfl⟩

theorem writeAccept_eq (d : Dev) (v : Nat) : d.writeBruFw 8 v = if d.bru.st = 10 ∧ v % 65536 = d.bru.items.length then d.enterReady else d := rfl

theorem rowAccept_eq (d : Dev) (items : Nat) : d.writeBruFw 8 (BitVec.ofNat 32 (items % 65536)).toNat =
    if d.bru.st = 10 ∧ items % 65536 = d.bru.items.length then d.enterReady else d := by
  have : (BitVec.ofNat 32 (items % 65536)).toNat % 65536 = items % 65536 := by rw [BitVec.toNat_ofNat]; omega
  rw [writeAccept_eq, this]

/-- What entering READY leaves. -/
theorem enterReady_spec (d : Dev) : d.enterReady.bru.st = 11 ∧ d.enterReady.glb.ready = true ∧ d.enterReady.glb.degraded = false ∧ ∃ v ∈ d.enterReady.evq.staged, v.code = 0x0001 := by
  unfold Dev.enterReady Dev.storeSoon
  dsimp only
  generalize hd : (Dev.event _ Ev.bruReady.code _ _ _ _) = d1
  obtain ⟨m1, m2, m3⟩ := msix_frame d1 2
  generalize d1.msix 2 = d2 at *
  rw [m1, m2, m3, ← hd]
  exact ⟨rfl, rfl, rfl, _, List.mem_append_right _ (List.mem_singleton.2 rfl), rfl⟩

/-- Tearing a flash operation leaves the device and the queue. -/
theorem tear_dev (s : State) : s.tearFlash.dev = s.dev ∧ s.tearFlash.pending = s.pending := by
  unfold State.tearFlash State.setFlash
  dsimp only
  split
  · exact ⟨rfl, rfl⟩
  · split <;> exact ⟨rfl, rfl⟩
  · split <;> exact ⟨rfl, rfl⟩
  · exact ⟨rfl, rfl⟩

/-- The bring-up keeps its state, its FAILCODE, its image, its xSPI mode and GLB. -/
def BruKeep (d e : Dev) : Prop := e.glb = d.glb ∧ e.bru.st = d.bru.st ∧ e.bru.failcode = d.bru.failcode ∧ e.bru.image = d.bru.image ∧
  e.bru.xspiMode = d.bru.xspiMode

theorem writeFw_keep (d : Dev) (o v : Nat) (h : d.bru.st ≠ 10) : BruKeep d (d.writeBruFw o v) := by
  unfold Dev.writeBruFw
  split
  · dsimp only
    split <;> exact ⟨rfl, rfl, rfl, rfl, rfl⟩
  · rw [if_neg (fun h2 => h h2.1)]; exact ⟨rfl, rfl, rfl, rfl, rfl⟩
  · unfold Dev.mailboxOp
    dsimp only
    split <;> exact ⟨rfl, rfl, rfl, rfl, rfl⟩
  · exact ⟨rfl, rfl, rfl, rfl, rfl⟩
  · split <;> exact ⟨rfl, rfl, rfl, rfl, rfl⟩

/-- Held writes leave the bring-up where it is. -/
theorem applyHeld_keep (d : Dev) (h : d.bru.st ≠ 10) : BruKeep d d.applyHeld := by
  unfold Dev.applyHeld
  dsimp only
  generalize d.bru.heldWrites = ws
  have : ∀ (ws : List QueuedWrite) (a : Dev), BruKeep d a → BruKeep d (ws.foldl (fun (d : Dev) (w : QueuedWrite) => d.writeBruFw w.off w.val.toNat) a) := by
    intro ws
    induction ws with
    | nil => intro a h; exact h
    | cons w r ih =>
      intro a ha
      refine ih _ ?_
      obtain ⟨h1, h2, h3, h4, h5⟩ := ha
      obtain ⟨k1, k2, k3, k4, k5⟩ := writeFw_keep a w.off w.val.toNat (by rw [h2]; exact h)
      exact ⟨k1.trans h1, k2.trans h2, k3.trans h3, k4.trans h4, k5.trans h5⟩
  exact this ws _ ⟨rfl, rfl, rfl, rfl, rfl⟩

/-- What a failed bring-up leaves. -/
theorem failed_spec (d : Dev) (c : Nat) : (d.failed c).bru.st = 12 ∧ (d.failed c).bru.failcode = c ∧ (d.failed c).glb.failed = true := by
  unfold Dev.failed
  obtain ⟨h1, h2, h3, _⟩ := applyHeld_keep ({ d with bru := { d.bru with st := 12, failcode := c }, glb := { d.glb with failed := true, blocks := false } } : Dev) (show (12:Nat) ≠ 10 by decide)
  exact ⟨h2, h3, by rw [h1]⟩

/-- What a notice of watermark n leaves. -/
def NoticeKeep (n : Nat) (down : Bool) (d e : Dev) : Prop :=
  e.wmks = d.wmks ∧ n ∈ (if down then e.plp.downNotices else e.plp.upNotices) ∧ ∃ v ∈ e.evq.staged, v.code = 0x0002 ∧ v.d0 = n

theorem mem_addNotice (l : List Nat) (n : Nat) : n ∈ addNotice l n := by
  unfold addNotice
  split
  · rename_i h; exact List.contains_iff_mem.1 h
  · exact List.mem_append_right _ (List.mem_singleton.2 rfl)

theorem msix_rest (d : Dev) (v : Nat) : (d.msix v).plp = d.plp ∧ (d.msix v).wmks = d.wmks ∧ (d.msix v).evq = d.evq := by
  unfold Dev.msix
  split
  · exact ⟨rfl, rfl, rfl⟩
  · split
    · exact ⟨rfl, rfl, rfl⟩
    · split <;> exact ⟨rfl, rfl, rfl⟩

/-- A notice keeps every watermark, waits for its frame, and stages its event. -/
theorem notice_spec (d : Dev) (n : Nat) (down : Bool) : NoticeKeep n down d (d.notice n down) := by
  have key : NoticeKeep n down d (let d1 := d.event Ev.wmk.code 0x0005 n (b2n down + 2 ^ 31 * b2n (d.wmk n).level) (if down then (d.wmk n).down else (d.wmk n).up)
    { d1 with plp := if down then { d1.plp with downNotices := addNotice d1.plp.downNotices n } else { d1.plp with upNotices := addNotice d1.plp.upNotices n } }) := by
    refine ⟨rfl, ?_, _, List.mem_append_right _ (List.mem_singleton.2 rfl), rfl, rfl⟩
    cases down <;> exact mem_addNotice _ _
  unfold Dev.notice
  dsimp only at key ⊢
  split
  · unfold NoticeKeep at key ⊢
    obtain ⟨m1, m2, m3⟩ := msix_rest ({ (d.event Ev.wmk.code 0x0005 n (b2n down + 2 ^ 31 * b2n (d.wmk n).level) (if down then (d.wmk n).down else (d.wmk n).up)) with plp := if down then { (d.event Ev.wmk.code 0x0005 n (b2n down + 2 ^ 31 * b2n (d.wmk n).level) (if down then (d.wmk n).down else (d.wmk n).up)).plp with downNotices := addNotice (d.event Ev.wmk.code 0x0005 n (b2n down + 2 ^ 31 * b2n (d.wmk n).level) (if down then (d.wmk n).down else (d.wmk n).up)).plp.downNotices n } else { (d.event Ev.wmk.code 0x0005 n (b2n down + 2 ^ 31 * b2n (d.wmk n).level) (if down then (d.wmk n).down else (d.wmk n).up)).plp with upNotices := addNotice (d.event Ev.wmk.code 0x0005 n (b2n down + 2 ^ 31 * b2n (d.wmk n).level) (if down then (d.wmk n).down else (d.wmk n).up)).plp.upNotices n } } : Dev) 0
    rw [m1, m2, m3]
    exact key
  · exact key

theorem wmk_upd (d : Dev) (n m : Nat) (f : Wmk → Wmk) : (d.updWmk n f).wmk m = if m = n then f (d.wmk n) else d.wmk m := by
  unfold Dev.wmk Dev.updWmk SMap.upd
  dsimp only
  by_cases h : m = n
  · rw [if_pos h, h, SMap.get_put_self]
  · rw [if_neg h, SMap.get_put_of_ne _ _ _ _ _ h]

theorem wmk_of {d e : Dev} (h : e.wmks = d.wmks) (m : Nat) : e.wmk m = d.wmk m := by unfold Dev.wmk; rw [h]

theorem satAdd_16 (a : Nat) : satAdd 16 a 1 = min (a + 1) 0xFFFF := by unfold satAdd; rfl

/-- A row that writes a number to a register. -/
theorem writeReg_then (i : Instr) (s : State) (p : Path) (off v : Nat) (P : Dev → Prop) (hu : s.Up) (hb : s.dev.glb.blocks = true)
    (he : exec i s = s.writeReg p off v) (ho : offsetOk off = true)
    (h : P ((if notSetUp off then s.dev else s.dev.counted).writeBlock p off (BitVec.ofNat 32 v))) : DoesThen i s P :=
  doesThen_row i s p off (BitVec.ofNat 32 v) P hu hb he ho h

/-- What a received ENUM comes to; and the other kinds. -/
theorem pliopIn_enum (d : Dev) (f : List Byte) (hr : d.plp.released = true) (hk : d.plp.kind f = .enum) :
    d.pliopIn [.enum] f = (d.pliopCount f (d.plp.kind f)).pliopEnum f := by
  unfold Dev.pliopIn
  dsimp only
  rw [hr, hk]; rfl

theorem pliopIn_read (d : Dev) (f : List Byte) (hr : d.plp.released = true) (hk : d.plp.kind f = .read) :
    d.pliopIn [.read] f = (d.pliopCount f (d.plp.kind f)).pliopRead f := by
  unfold Dev.pliopIn
  dsimp only
  rw [hr, hk]; rfl

theorem pliopIn_write (d : Dev) (f : List Byte) (hr : d.plp.released = true) (hk : d.plp.kind f = .write) :
    d.pliopIn [.write] f = (d.pliopCount f (d.plp.kind f)).pliopWrite f := by
  unfold Dev.pliopIn
  dsimp only
  rw [hr, hk]; rfl

theorem pliopIn_broadcast (d : Dev) (f : List Byte) (hr : d.plp.released = true) (hk : d.plp.kind f = .broadcast) :
    d.pliopIn [.broadcast] f = (d.pliopCount f (d.plp.kind f)).pliopBroadcast f := by
  unfold Dev.pliopIn
  dsimp only
  rw [hr, hk]; rfl

theorem pliopIn_pass (d : Dev) (f : List Byte) (hr : d.plp.released = true) (hk : d.plp.kind f = .pass) :
    d.pliopIn [.pass, .bad] f = (d.pliopCount f (d.plp.kind f)).pliopSend f := by
  unfold Dev.pliopIn
  dsimp only
  rw [hr, hk]; rfl

theorem pliopIn_bad (d : Dev) (f : List Byte) (hr : d.plp.released = true) (hk : d.plp.kind f = .bad) :
    d.pliopIn [.pass, .bad] f = (d.pliopCount f (d.plp.kind f)) := by
  unfold Dev.pliopIn
  dsimp only
  rw [hr, hk]; rfl

theorem pliopSend_out (d : Dev) (b : List Byte) : (d.countAcc.pliopSend b).out = d.out ++ [.pliop (pliopSeal (hopUp b))] := rfl

theorem pliopSend_glb (d : Dev) (b : List Byte) : (d.countAcc.pliopSend b).glb = d.glb := rfl

theorem pliopWrite_ok (d : Dev) (f : List Byte) (h : offsetOk (fieldAt f 4 4) = true) : d.pliopWrite f =
    ((d.writeRow .pliop (fieldAt f 4 4) (BitVec.ofNat 32 (fieldAt f 8 4))).countAcc).pliopSend (pliopRsp f 5 d.plp.addr 0 0) := by
  unfold Dev.pliopWrite; dsimp only; rw [if_pos h]

theorem pliopBroadcast_ok (d : Dev) (f : List Byte) (h : offsetOk (fieldAt f 4 4) = true) : d.pliopBroadcast f =
    ((d.writeRow .pliop (fieldAt f 4 4) (BitVec.ofNat 32 (fieldAt f 8 4))).countAcc).pliopSend f := by
  unfold Dev.pliopBroadcast; dsimp only; rw [if_pos h]

theorem pliopWrite_no (d : Dev) (f : List Byte) (h : offsetOk (fieldAt f 4 4) = false) : d.pliopWrite f = d.pliopSend (pliopRsp f 5 d.plp.addr 0 1) := by
  unfold Dev.pliopWrite; dsimp only; rw [if_neg (by rw [h]; decide)]

theorem pliopBroadcast_no (d : Dev) (f : List Byte) (h : offsetOk (fieldAt f 4 4) = false) : d.pliopBroadcast f = d.pliopSend f := by
  unfold Dev.pliopBroadcast; dsimp only; rw [if_neg (by rw [h]; decide)]

end Sys2Proof.Machine
end

