-- ==== Sys2Proof/Laws/Writes.lean ====
section
/-! SUPPORT. What the end of a stored write or a DELETE does: its record, the shed work it starts, and nothing outside the data plane. -/

namespace Sys2Proof.Machine

open Sys2Proof

theorem stallsOnly_plane {d e : Dev} (h : StallsOnly d e) : DataPlane d e := h.storeWork.plane

theorem shedOnly_plane {d e : Dev} (h : ShedOnly d e) : DataPlane d e := h.storeWork.plane

theorem jobWork_plane {d e : Dev} (h : JobWork d e) : DataPlane d e := h.storeWork.plane

/-- What a command's record keeps through shed work: all but a status that a final program failure replaces. -/
structure Kept (x y : Cmd) : Prop where
  stage : y.stage = x.stage
  bytes : y.bytes = x.bytes
  info : y.info = x.info
  status : x.status = Status.ok.code → y.status = Status.ok.code ∨ y.status = Status.mediaError.code

theorem Kept.refl (x : Cmd) : Kept x x := ⟨rfl, rfl, rfl, fun h => .inl h⟩

theorem storeWork_kept {d e : Dev} (h : StoreWork d e) (c : Nat) (x : Cmd) (hx : d.findCmd c = some x) :
    ∃ y, e.findCmd c = some y ∧ Kept x y ∧ y.job = x.job ∧ (x.job = none → y = x) := by
  rcases h.cmd c with h1 | ⟨z, hz, hj, _, hy⟩
  · exact ⟨x, by rw [h1, hx], Kept.refl x, rfl, fun _ => rfl⟩
  · rw [hx] at hz
    cases hz
    refine ⟨_, hy, ⟨rfl, rfl, rfl, fun _ => .inr rfl⟩, rfl, fun hn => ?_⟩
    rw [hn] at hj
    cases hj

theorem awaitWrite_plane (d : Dev) (c j : Nat) : DataPlane d (d.awaitWrite c j) := updCmd_plane d c _ (by intro x; rfl)

theorem awaitJob_plane (d : Dev) (c j : Nat) : DataPlane d (d.awaitJob c j) := updCmd_plane d c _ (by intro x; rfl)

theorem delq_storeWork (d : Dev) (l : List StagedDel) : StoreWork d { d with shd := { d.shd with delq := l } } := StoreWork.of_cmds rfl

/-- The shed work of a value just stored (R386). -/
theorem persistValue_spec (d : Dev) (c : Cmd) (x : Cmd) (r : Rec) (old : Option Rec) (hx : d.findCmd c.id = some x) (hs : x.status = Status.ok.code) :
    DataPlane d (d.persistValue c r old) ∧
    ∃ y, (d.persistValue c r old).findCmd c.id = some y ∧ Kept x y ∧
      ((d.pad r.pad).persist ≠ persistDurable → x.job = none → y.status = Status.ok.code) ∧
      ((d.pad r.pad).persist = persistDurable → y.job.isSome = true) := by
  unfold Dev.persistValue
  dsimp only
  split
  · rename_i hp
    have hj := startJob_jobWork d r false false none
    refine ⟨(jobWork_plane hj).trans (awaitWrite_plane _ _ _), ?_⟩
    obtain ⟨y, hy, hk, _, _⟩ := storeWork_kept hj.storeWork c.id x hx
    obtain ⟨st, hst, hz⟩ := Dev.awaitWrite_cmd _ c.id (d.startJob r false false none).1 y hy
    refine ⟨_, hz, ⟨hk.stage, hk.bytes, hk.info, fun _ => ?_⟩, fun h => absurd hp h, fun _ => rfl⟩
    rcases hst with h | h
    · exact (hk.status hs).imp h.trans h.trans
    · exact .inr h
  · rename_i hp
    split
    · have hj := (updKey_stallsOnly d r.pad r.key fun y => { y with staging := some (mkStaging (d.now + (d.pad r.pad).stage * 1000000) (c.ses, c.qp, c.admSeq) (d.stagingOf r.pad r.key old)) }).storeWork
      have hj2 := hj.trans (delq_storeWork _ ((d.updKey r.pad r.key fun y => { y with staging := some (mkStaging (d.now + (d.pad r.pad).stage * 1000000) (c.ses, c.qp, c.admSeq) (d.stagingOf r.pad r.key old)) }).shd.delq.filter
        fun x => !(x.pad == r.pad && x.key == r.key)))
      refine ⟨hj2.plane, ?_⟩
      obtain ⟨y, hy, hk, hjob, hn⟩ := storeWork_kept hj2 c.id x hx
      exact ⟨y, hy, hk, fun _ h => by rw [hn h, hs], fun h => absurd h hp⟩
    · split
      · have hj := (startJob_jobWork d r true false none).storeWork
        refine ⟨hj.plane, ?_⟩
        obtain ⟨y, hy, hk, hjob, hn⟩ := storeWork_kept hj c.id x hx
        exact ⟨y, hy, hk, fun _ h => by rw [hn h, hs], fun h => absurd h hp⟩
      · exact ⟨DataPlane.refl d, x, hx, Kept.refl x, fun _ _ => hs, fun h => absurd h hp⟩

/-- The shed work of a DELETE (R386, R567). -/
theorem persistDelete_spec (d : Dev) (c : Cmd) (x : Cmd) (pad : Nat) (key : List Byte) (w : Nat) (old : Option Rec)
    (hx : d.findCmd c.id = some x) (hs : x.status = Status.ok.code) :
    DataPlane d (d.persistDelete c pad key w old) ∧
    KeepsDead d (d.persistDelete c pad key w old) ∧
    ∃ y, (d.persistDelete c pad key w old).findCmd c.id = some y ∧ Kept x y ∧
      ((d.pad pad).persist ≠ persistDurable → y.status = Status.ok.code) ∧
      ((d.pad pad).persist = persistDurable → y.job.isSome = true) := by
  unfold Dev.persistDelete
  dsimp only
  split
  · rename_i hp
    have hj := startDelete_jobWork d pad (d.pad pad).epoch w key false
    refine ⟨(jobWork_plane hj).trans (awaitJob_plane _ _ _), hj.dead, ?_⟩
    obtain ⟨y, hy, hk, _, _⟩ := storeWork_kept hj.storeWork c.id x hx
    obtain ⟨st, hst, hz⟩ := Dev.awaitJob_cmd _ c.id (d.startDelete pad (d.pad pad).epoch w key false).1 y hy
    refine ⟨_, hz, ⟨hk.stage, hk.bytes, hk.info, fun _ => ?_⟩, fun h => absurd hp h, fun _ => rfl⟩
    rcases hst with h | h
    · exact (hk.status hs).imp h.trans h.trans
    · exact .inr h
  · rename_i hp
    split
    · exact ⟨(delq_storeWork d _).plane, KeepsDead.of_stalls rfl, x, hx, Kept.refl x, fun _ => hs, fun h => absurd h hp⟩
    · exact ⟨DataPlane.refl d, KeepsDead.of_stalls rfl, x, hx, Kept.refl x, fun _ => hs, fun h => absurd h hp⟩

/-- The poisoned segments of a value just stored (R669). -/
theorem storePoisoned_plane (d : Dev) (c : Cmd) (r : Rec) (segs : List Nat) : DataPlane d (d.storePoisoned c r segs) := by
  unfold Dev.storePoisoned
  dsimp only
  have h1 := stallsOnly_plane (updKey_stallsOnly d r.pad r.key fun x =>
    { x with segs := segs.foldl (fun l i => setSeg l i 3) x.segs, shedId := 0, pinnedByFailure := (d.pad r.pad).persist != 0 })
  split
  · exact h1
  · refine h1.trans (DataPlane.trans ?_ (updCmd_plane _ _ _ (by intro x; rfl)))
    refine DataPlane.trans ?_ (jobWork_plane (startDelete_jobWork _ _ _ _ _ _))
    exact (stallsOnly_plane (updKey_stallsOnly _ _ _ _)).trans (shedOnly_plane (releaseLsns_shedOnly _ _))

theorem towCommit_storeWork (d : Dev) (c : Cmd) (r : Rec) (w : WritePlan) (base : Nat) : StoreWork d (d.towCommit c r w base) :=
  foldl_storeWork _ (fun d _ => towPut_storeWork d _ _) _ d

/-- The outcome of a write that has been stored. -/
theorem storeWrite_ok (d d2 : Dev) (c x : Cmd) (fs : List Finding) (home : Nat) (loc bad : Option Loc) (w : WritePlan) (base info : Nat) (r : Rec)
    (hx : d.findCmd c.id = some x) (hj : c.job = x.job)
    (hs : d.store c.body.pad home (c.key.getD []) loc bad c.made c.commit w = .ok r d2) :
    DataPlane d (d.storeWrite c fs home loc bad w base info) ∧
    (poisonedSegs w.len base c.wbBase c.need ((d2.towCommit c r w base).readWb fs c).1 = [] →
      ∃ y, (d.storeWrite c fs home loc bad w base info).findCmd c.id = some y ∧ y.stage = .ended ∧ y.bytes = c.gotBytes ∧ y.info = info ∧
        ((d2.pad r.pad).persist ≠ persistDurable → c.job = none → y.status = Status.ok.code) ∧
        ((d2.pad r.pad).persist = persistDurable → y.job.isSome = true ∧ (y.status = Status.ok.code ∨ y.status = Status.mediaError.code))) := by
  have h1 := store_work d c.body.pad home (c.key.getD []) loc bad c.made c.commit w
  rw [hs] at h1
  have h2 : StoreWork d2 ((d2.towCommit c r w base).readWb fs c).2 := (towCommit_storeWork d2 c r w base).trans (readWb_storeWork _ fs c)
  have h3 := StoreWork.trans h1 h2
  obtain ⟨y, hy, _, hyj, _⟩ := storeWork_kept h3 c.id x hx
  unfold Dev.storeWrite
  dsimp only
  rw [hs]
  dsimp only
  split
  · rename_i he
    have hf : (((d2.towCommit c r w base).readWb fs c).2.finish c.id Status.ok.code c.gotBytes info).findCmd c.id = some (y.done Status.ok.code c.gotBytes info) := by
      rw [Dev.findCmd_finish, if_pos rfl, hy]
      rfl
    obtain ⟨hp, z, hz, hk, hv, hd⟩ := persistValue_spec _ c _ r (d.peek c.body.pad (c.key.getD [])) hf rfl
    have hpad : (((d2.towCommit c r w base).readWb fs c).2.finish c.id Status.ok.code c.gotBytes info).pad r.pad = d2.pad r.pad := by
      have e : ((d2.towCommit c r w base).readWb fs c).2.paddocks = d2.paddocks := by rw [h2.frame]
      simp only [Dev.finish_gets]
      unfold Dev.pad
      rw [e]
    rw [hpad] at hv hd
    refine ⟨h3.plane.trans ((finish_plane _ _ _ _ _).trans hp), fun _ => ⟨z, hz, hk.stage, hk.bytes, hk.info, fun h1 h2 => hv h1 ?_, fun h1 => ⟨hd h1, hk.status rfl⟩⟩⟩
    exact hyj.trans (hj.symm.trans h2)
  · rename_i he
    refine ⟨h3.plane.trans ((finish_plane _ _ _ _ _).trans (storePoisoned_plane _ _ _ _)), fun h => ?_⟩
    rw [h] at he
    exact absurd rfl he

end Sys2Proof.Machine
end

