-- ==== Sys2Proof/WellFormed.lean ====
section
/-! DEFINITION. Which commands are well formed: link, session, queue-pair, stall and barn numbers in their ranges, frames and
blocks of the lengths the link and the Pliop chain carry, and packet commands whose TYPE byte is their own (R158). -/

namespace Sys2Proof

/-- The packet type (byte 0) of a frame. -/
def frameType (frame : List Byte) : Nat := (frame.headD 0).toNat

/-- An access path names a link that exists in the numbering (R861). -/
def Path.wf : Path → Bool
  | .pcie | .pliop => true
  | .link n => decide (n < 48)

/-- A frame the link layer can deliver: 32 to 8,448 bytes (R135). -/
def frameWf (link : Nat) (frame : List Byte) : Bool :=
  decide (link < 48) && decide (32 ≤ frame.length) && decide (frame.length ≤ 8448)

/-- A Pliop frame is 16 bytes (R816) of the given TYPE (R817). -/
def pliopWf (types : List Nat) (frame : List Byte) : Bool :=
  decide (frame.length = 16) && types.contains (frameType frame)

/-- A register offset of the map (R860), naturally aligned. -/
def offWf (off : Nat) : Bool := decide (off < 0x400_0000) && decide (off % 4 = 0)

def LoftFault.wf (f : LoftFault) : Bool :=
  decide (f.stall < 256) && decide (f.granule < 2 ^ 24) && f.errs.all fun e => decide (e.1 < 68)

def Finding.wf : Finding → Bool
  | .loft f => f.wf
  | .camParity st i => decide (st < 256) && decide (i < 4096)

def Cred.wf (c : Cred) : Bool :=
  decide (c.req < 65536) && decide (c.data < 65536) && decide (c.rsp < 65536) && decide (c.urg < 65536)

/-- The pattern field of LNK_CTRL.TESTPAT is 3 bits. -/
def patternWf (n : Nat) : Bool := decide (n < 8)

/-- The well-formed commands. -/
def Instr.wf : Instr → Bool
  | .nop _ | .flushSession _ | .flushQueue _ | .flushDevice _ | .tetherSet _ | .tetherAdd _ | .tetherWaitGe _
  | .tetherRead _ | .paddockCreate _ | .paddockDelete _ | .paddockAlter _ | .paddockStat _ | .admitNext
  | .complete _ | .waiterRelease | .waitGeTimeout _ | .dataTimeout _ | .wbufAllocate | .getOutputResume _
  | .storageRelease _ | .urgentWindow | .formatComplete _ _ | .storedCopyWrite | .mailboxDone _ | .clkMeasDone _
  | .pliopNotice | .pliopRelease | .pcieReadCompletion _ _ _ | .pcieLinkDown | .busMasterEnable | .pePerst _
  | .resetAssert | .bringupStepDone _ | .supplyLoss | .powerEstimate | .governorLower | .nclkUnlock
  | .peclkUnlock | .nandReadDone _ _ | .mergeStart _ | .programUnitFill _ | .ptrRecord _
  | .checkpoint | .prateUpdate | .entropyHealthFail _ | .entropyStartupPass | .maskReseed | .eventEnqueue
  | .cmapPeriod | .journalUnitPad | .pcieLinkUp | .busMasterDisable | .storedCopyWritten _ | .tapInstruction _ _ => true
  | .nandProgramDone _ p | .nandEraseDone _ p => p.all fun n => decide (n < 4)
  | .get _ f | .getRange _ f | .shapeGet _ f | .existsKey _ f | .scanPfx _ f | .scanDigest _ f | .gather _ f
  | .scoreTopk _ f | .scoreTokens _ f | .put _ f | .putRange _ f | .append _ f | .delete _ f => f.all Finding.wf
  | .command l _ fr => frameWf l fr && decide (frameType fr = 0x01)
  | .data l _ fr => frameWf l fr && decide (frameType fr = 0x04)
  | .nudge l _ fr => frameWf l fr && decide (frameType fr = 0x06)
  | .readData l _ fr => frameWf l fr && decide (frameType fr = 0x08)
  | .config l _ fr => frameWf l fr && decide (frameType fr = 0x0A)
  | .reject l _ fr => frameWf l fr && decide (frameType fr = 0x0C)
  | .rejectedPacket l _ fr => decide (l < 48) && decide (fr.length ≤ 8448)
  | .frameDiscard l _ | .down l | .replayTimeout l | .linkControlSend l | .capSend l | .pmdTrainingComplete l
  | .alignLock l | .trainTo l | .alignTo l | .capxTo l | .linkRestart l | .lockLost l => decide (l < 48)
  | .nak l q => decide (l < 48) && decide (q < 65536)
  | .ack l q c => decide (l < 48) && decide (q < 65536) && c.wf
  | .cap l b => decide (l < 48) && decide (b.length = 32)
  | .holdDeadline n => decide (n < 512)
  | .flitNak b _ q => decide (b < 88) && decide (q < 65536)
  | .notify d | .ntimeExpiry d | .sweep d => decide (d < 32768)
  | .sessionOpen p n _ _ | .sessionClose p n _ _ => p.wf && decide (n < 512)
  | .qpEnable p d | .qpDisable p d => p.wf && decide (d < 32768)
  | .sesNudge p n q => p.wf && decide (n < 512) && decide (q < 64)
  | .retrain p l _ _ t => p.wf && decide (l < 48) && patternWf t
  | .testpat p l _ _ t => p.wf && decide (l < 48) && patternWf t && decide (t ≠ 0)
  | .linkEnable p l _ _ => p.wf && decide (l < 48)
  | .shapeValidate p k | .shapeWithdraw p k => p.wf && decide (k < 1024)
  | .coordWrite p _ | .tetherRegSet p _ | .commit p | .zeroise p _ | .shedFormat p _ | .ckptNow p _
  | .storeNow p | .clrRemap p _ | .mailboxRead p | .mailboxProgram p | .mailboxErase p | .wmkEqPop p => p.wf
  | .wbufNextWrite p g => p.wf && decide (g < 64)
  | .bruAccept p n => p.wf && decide (n < 65536)
  | .wmkClear p n _ _ => p.wf && decide (n < 17)
  | .clear p m => p.wf && decide (m < 16)
  | .clkMeasSel p n => p.wf && decide (n < 64)
  | .rcRead p o | .loRead p o | .latchGroupRead p o | .registerWrite p o _ => p.wf && offWf o
  | .pliopEnum fr => pliopWf [0x01] fr
  | .pliopRead fr => pliopWf [0x02] fr
  | .pliopWrite fr | .pliopBroadcastWrite fr => pliopWf [0x03] fr
  | .pliopForward fr => decide (fr.length = 16)
  | .resetRelease st => decide (st.boot < 4)
  | .sensorSample r => r.all fun x => decide (x.1 < 152)
  | .hotHoldExit b | .barnResume b | .bucketLeak b | .sclkDclkUnlock b _ => decide (b < 4)
  | .bandLower b k => decide (b < 4) && decide (k < 16)
  | .groomerRun st k f => decide (st < 256) && decide (k < 16) && f.all Finding.wf
  | .pendingListService st f => decide (st < 256) && f.all Finding.wf
  | .stageWrite pd k | .backgroundReload pd k _ | .residencyMove pd k _ =>
      decide (pd < 4096) && decide (1 ≤ k.length) && decide (k.length ≤ 240)
  | .watermarkUp n | .watermarkDown n => decide (n < 17)

end Sys2Proof
end

