-- ==== Sys2Proof/Tests/Slice0.lean ====
section
/-! SUPPORT. Small checks of the model: ill-formed commands are refused, values worked out by hand from the spec, and for every
statement with hypotheses a concrete state and operands that meet them. -/

open Sys2Proof Sys2Proof.Machine

namespace Sys2Proof.Tests

/-! ### Small states -/

def body0 : Body :=
  { opcode := 0, subop := 0, flags := 0, param := 0, paddock := 0, tether := 0, offset := 0, length := 0, addr := 0, tadd := 0,
    ilen := 0, arg := 0 }

def key0 : List Byte := [0x61#8]

/-- Command 1 of queue pair 0 of session 3, admitted, with key "a". -/
def cmdOf (b : Body) : Cmd := { State.reset.dev.mkCmd 1 3 0 .push false 7 b [] .admitted none with key := some key0 }

def link0 : Link := { Link.reset with st := .active, pcred := ownCredits, pexts := 0x7E, pcoord := 5, urg := true }
def ses0 : Session :=
  { Session.reset with st := .opened, lset := 1, coord := 5, clink := 0, clinkNone := false, epoch := 1 }
def qp0 : Qp := { Qp.reset with st := .active, enable := true, ctx := { QpCtx.none with push := true } }
/-- Paddock 0 lies on stalls 0 and 1 alone. -/
def pad0 : Paddock := { Paddock.reset with live := true, epoch := 1, setMode := 2, bitmap := 0x03#8 :: zeros 31 }

/-- A KS-480 in READY with link 0 ACTIVE, session 3 OPEN on it, a push-mode queue pair and paddock 0. -/
def dev0 : Dev :=
  { State.reset.dev with
    now := 5000000, ytRun := true, glb := { Glb.reset with ready := true, blocks := true },
    bru := { Bru.reset Straps.dflt with st := 11 }, links := [(0, link0)], sessions := [(3, ses0)], qps := [(192, qp0)],
    paddocks := [(0, pad0)], lnkc := { Lnkc.reset with coord := 9, valid := true, epoch := 77 } }

def st (d : Dev) : State := { State.reset with dev := d }

/-- `dev0` with one command. -/
def devC (c : Cmd) : Dev := { dev0 with cmds := [c] }
def stC (c : Cmd) : State := st (devC c)

/-! ### Well-formedness -/

def frame32 (typ : Byte) : List Byte := typ :: List.replicate 31 0

/-- One ill-formed command for every check, refused; and a neighbour within each bound. -/
theorem test_ill_formed_refused :
    (∀ i ∈ [Instr.get 1 [.loft { stall := 256, granule := 0, errs := [], hard := false, spareBad := false }],
      .get 1 [.loft { stall := 0, granule := 2 ^ 24, errs := [], hard := false, spareBad := false }],
      .put 1 [.loft { stall := 0, granule := 0, errs := [(68, 1)], hard := false, spareBad := false }],
      .delete 1 [.camParity 0 4096], .command 48 .req (frame32 1), .command 0 .req (frame32 4), .command 0 .req [0x01],
      .data 0 .data (frame32 1), .nudge 0 .req (frame32 8), .readData 0 .data (frame32 6), .config 0 .req (frame32 12),
      .reject 0 .rsp (frame32 10), .rejectedPacket 48 .req [], .frameDiscard 48 .badCrc, .down 48, .nak 0 65536, .nak 48 0,
      .ack 0 0 { Cred.zero with data := 65536 }, .cap 0 [], .capSend 48, .holdDeadline 512, .flitNak 88 true 0, .flitNak 0 true 65536,
      .notify 32768, .sessionOpen .pcie 512 false false, .sessionClose (.link 48) 0 false false, .qpEnable .pcie 32768,
      .sesNudge .pcie 0 64, .sesNudge .pcie 512 0, .retrain .pcie 0 true false 8, .testpat .pcie 0 true false 0,
      .linkEnable .pcie 48 true false, .shapeValidate .pcie 1024, .coordWrite (.link 48) 0, .wbufNextWrite .pcie 64,
      .bruAccept .pcie 65536, .wmkClear .pcie 17 true true, .clear .pcie 16, .clkMeasSel .pcie 64, .rcRead .pcie 2,
      .loRead .pcie 0x400_0000, .registerWrite .pcie 1 0, .pliopEnum (List.replicate 16 0), .pliopRead [0x02],
      .pliopForward [], .resetRelease { Straps.dflt with boot := 4 }, .sensorSample [(152, none)], .hotHoldExit 4, .bandLower 4 0,
      .bandLower 0 16, .groomerRun 256 0 [], .groomerRun 0 16 [], .pendingListService 256 [], .stageWrite 0 [],
      .stageWrite 4096 key0, .backgroundReload 0 (List.replicate 241 0) 0, .watermarkUp 17, .nandProgramDone 0 (some 4),
      .nandEraseDone 0 (some 4)], i.wf = false) ∧
    (∀ i ∈ [Instr.get 1 [.loft { stall := 255, granule := 2 ^ 24 - 1, errs := [(67, 1)], hard := true, spareBad := true }],
      .delete 1 [.camParity 255 4095], .command 47 .req (frame32 1), .data 0 .data (frame32 4), .config 0 .req (frame32 10),
      .nak 47 65535, .cap 0 (List.replicate 32 0), .holdDeadline 511, .flitNak 87 true 65535, .notify 32767,
      .sesNudge .pliop 511 63, .testpat .pcie 0 true false 7, .shapeValidate .pcie 1023, .wmkClear (.link 47) 16 true true,
      .rcRead .pcie 0x3FFFFFC, .pliopEnum (0x01 :: List.replicate 15 0), .sensorSample [(151, none)], .bandLower 3 15,
      .stageWrite 4095 (List.replicate 240 0), .nandEraseDone 0 (some 3)], i.wf = true) := by decide +kernel

/-! ### The step, commands, the tether unit -/

/-- Hypotheses of CommandsAwaitTheirTurn: a command of another opcode never runs a NOP. -/
theorem test_await_turn : ∀ x ∈ (stC (cmdOf body0)).dev.cmds, ∀ op ∈ [1, 2, 33], (stC (cmdOf body0)).dev.runnable x op = false := by
  decide

theorem test_queue_front : ({ State.reset with pending := [.urgentWindow] } : State).pending = [.urgentWindow] ∧
    (st dev0).pending = [] ∧ (st dev0).dev.ytRun = true ∧ State.reset.pending = [] ∧ State.reset.dev.ytRun = false := by decide

/-- StopsAndReset: RESET_N low with its rails, and without one. -/
theorem test_reset_low : ∀ out ∈ [false, true],
    let s := st { dev0 with glb := { dev0.glb with resetN := false, railOut := out } }
    s.dev.glb.resetN = false ∧ s.dev.glb.railOut = out := by decide

/-- A loss of supply with RESET_N high leaves nothing defined until RESET_N falls (R730, R914). -/
theorem test_supply_loss :
    (match Machine.exec .supplyLoss (st dev0) with
     | .next t => (t.dev.glb.railOut, t.dev.pin .devReady, match Machine.exec .urgentWindow t with | .fault f => some f | _ => none,
         match Machine.exec .resetAssert t with | .next u => u.dev.glb.railOut | _ => true)
     | _ => (false, .low, none, true)) = (true, .undefined, some .railAbsent, false) := by decide +kernel

theorem test_flash_form : Memory.wf State.reset.flash = true ∧ Memory.wf [(0, 0x00#8), (5, 0xFE#8)] = true ∧
    Memory.wf [(0, 0xFF#8)] = false ∧ Memory.wf [(5, 0#8), (5, 0#8)] = false := by decide

theorem test_quiet : dev0.Quiet := by decide

/-- Hypotheses of NopEnds, with TETH = 1 for its second half. -/
theorem test_nop :
    let x := cmdOf { body0 with flags := 0x10, tether := 16383, tadd := 5 }
    let y := { x with stage := .ended, effected := true, status := Status.ok.code }
    (stC x).Up ∧ (stC x).dev.findCmd 1 = some x ∧ x.body.opcode = Opcode.nop.code ∧ (stC x).dev.runnable x Opcode.nop.code = true ∧
      x.body.teth = true ∧ (stC y).Up ∧ (stC y).dev.findCmd 1 = some y ∧ y.body.opcode = Opcode.nop.code ∧ y.status = Status.ok.code ∧
      (stC y).dev.completable y = true := by decide

def flushCmd (sub : Nat) : Cmd := cmdOf { body0 with opcode := 0x20, subop := sub }

theorem test_flush : ∀ sub ∈ [0, 1, 2],
    let x := flushCmd sub
    let y := { x with flushOn := [1] }
    (stC x).dev.runnable x Opcode.flush.code = true ∧ (stC x).dev.flushRecs x = [] ∧ (stC x).dev.flushDels x = [] ∧
      (stC x).dev.flushCmds x = [] ∧ (stC y).dev.flushCmds y ≠ [] ∧ (stC y).dev.findCmd 1 = some y ∧
      (stC y).dev.runnable y Opcode.flush.code = true := by decide

def tethCmd (sub arg : Nat) : Cmd := cmdOf { body0 with opcode := 0x21, subop := sub, tether := 7, arg := arg, length := 50 }

theorem test_tether_set_add_read : ∀ sub ∈ [0, 1, 3], (stC (tethCmd sub 9)).dev.tetherCmd 1 sub = some (tethCmd sub 9) := by decide

/-- ADD wraps modulo 2^64 (R469). -/
theorem test_tether_add_wraps :
    let s := st { devC (tethCmd 1 2) with tth := { Tth.reset with counters := [(7, 0xFFFFFFFFFFFFFFFF#64)] } }
    (match Machine.exec (.tetherAdd 1) s with | .next t => t.dev.tether 7 | _ => 0) = 1#64 := by decide

/-- The three clauses of WaitGe: counter reached, no wait slot left, waiting; at the counter's very value it is reached. -/
theorem test_wait_ge :
    let x := tethCmd 2 9
    let at8 := { devC x with tth := { Tth.reset with counters := [(7, 8#64)] } }
    let at9 := { devC x with tth := { Tth.reset with counters := [(7, 9#64)] } }
    let none8 := { devC x with tth := { Tth.reset with counters := [(7, 8#64)], perSes := 0 } }
    (∀ d ∈ [at8, at9, none8], (st d).Up ∧ d.tetherCmd 1 2 = some x) ∧ (BitVec.ofNat 64 x.body.arg ≤ at9.tether 7) ∧
      ¬ BitVec.ofNat 64 x.body.arg ≤ at8.tether 7 ∧ none8.tth.perSes ≤ none8.waitSlots 3 ∧
      ¬ (at8.tth.perSes ≤ at8.waitSlots 3 ∨ 65536 ≤ at8.tth.waiters.length) := by decide

def waiter0 : Waiter := { cmd := 1, ses := 3, tether := 7, target := 9, deadline := 5000000 }

def overdueCmd : Cmd := { cmdOf { body0 with opcode := 0x10, length := 8 } with
  need := 8, grants := [{ idx := 0, off := 0, len := 8, got := 0, due := some 4999999 }] }

/-- WaitersAndTimeouts: a satisfied waiter; a waiter at its deadline, and one ns before it; a write whose grant is overdue. -/
theorem test_waiters_timeouts :
    let x := { tethCmd 2 9 with isWaiter := true }
    let d := { devC x with tth := { Tth.reset with waiters := [waiter0], ready := [(1, 9)] } }
    (d.tth.ready.take 4).map Prod.fst = [1] ∧ (d.findCmd 1).isSome = true ∧
      d.tth.waiters.find? (fun w => w.cmd == 1) = some waiter0 ∧ waiter0.deadline ≤ d.now ∧
      ({ d with now := 4999999 } : Dev).now < waiter0.deadline ∧
      (let y := overdueCmd
       (devC y).findCmd 1 = some y ∧ (devC y).overdue y = true ∧ y.effected = false ∧ y.stage ≠ .ended ∧ (devC y).held y.ses = false ∧
         y.body.isWrite = true) := by decide

/-! ### PADDOCK -/

/-- A descriptor: CTRL, MASK, and otherwise zero. -/
def descBytes (ctrl mask : Nat) : List Byte := natLe 4 ctrl ++ natLe 2 mask ++ zeros 58

def padCmdOf (sub pad : Nat) (desc : List Byte) : Cmd :=
  { cmdOf { body0 with opcode := 0x22, subop := sub, paddock := pad, ilen := desc.length } with
    key := none, need := desc.length, got := if desc = [] then [] else [{ off := 0, bytes := desc }], gotBytes := desc.length }

theorem test_paddock_create :
    let x := padCmdOf 0 1 (descBytes 0 0)
    let y := padCmdOf 0 0 (descBytes 0 0)
    let d := devC x
    let e := devC y
    let new (d : Dev) (c : Cmd) :=
      (parseDesc c.input).apply (fun _ => true)
        { Paddock.reset with live := true, epoch := (d.pad c.body.pad).mark + 1, mark := (d.pad c.body.pad).mark + 1 }
    d.padCmd 1 0 = some x ∧ d.createFails 1 (parseDesc x.input) (new d x) = 0 ∧
      e.padCmd 1 0 = some y ∧ e.createFails 0 (parseDesc y.input) (new e y) = Status.keyExists.code := by decide

theorem test_paddock_alter :
    let x := padCmdOf 2 0 (descBytes 0 1)
    let y := padCmdOf 2 0 (descBytes 0 1024)
    let new (d : Dev) (c : Cmd) := (parseDesc c.input).apply (bit (parseDesc c.input).mask) (d.pad c.body.pad)
    (devC x).padCmd 1 2 = some x ∧ (devC x).alterFails 0 (parseDesc x.input) (new (devC x) x) = 0 ∧
      (devC y).padCmd 1 2 = some y ∧ (devC y).alterFails 0 (parseDesc y.input) (new (devC y) y) = Status.badDescriptor.code := by decide

theorem test_paddock_delete_stat :
    let x := padCmdOf 1 0 []
    let w := { padCmdOf 1 0 [] with admSeq := 5 }
    let z := padCmdOf 3 0 []
    let before := { devC w with cmds := [w, { cmdOf { body0 with opcode := 1 } with id := 2, slotHeld := true }] }
    (devC x).padCmd 1 1 = some x ∧ (devC x).padBefore x = false ∧ before.padCmd 1 1 = some w ∧ before.padBefore w = true ∧
      (((devC x).padSet 0).any fun k => (devC x).barnStopped (k / 64)) = false ∧ (devC z).padCmd 1 3 = some z := by decide +kernel

/-! ### Values -/

/-- A command with inbound bytes, all arrived. -/
def inCmd (b : Body) (bytes : List Byte) : Cmd :=
  { cmdOf b with need := bytes.length, got := if bytes = [] then [] else [{ off := 0, bytes := bytes }], gotBytes := bytes.length }

def putCmd (bytes : List Byte) : Cmd := inCmd { body0 with opcode := 0x10, length := bytes.length } bytes

/-- The device a command leaves behind. -/
def after (i : Instr) (d : Dev) : Dev :=
  match Machine.exec i (st d) with
  | .next t => t.dev
  | _ => d

/-- `dev0` after a PUT of four bytes under key "a". -/
def held4 : Dev := { after (.put 1 []) (devC (putCmd [1, 2, 3, 4])) with cmds := [] }

def dHas (c : Cmd) : Dev := { held4 with cmds := [c] }

theorem test_put_ends : ((after (.put 1 []) (devC (putCmd [1, 2, 3, 4]))).cmds.map fun c => (c.stage, c.status, c.bytes, c.info)) =
    [(.ended, Status.ok.code, 4, 2 ^ 64 - 1)] := by decide +kernel

/-- GET of the four bytes: BYTES and INFO are 4 (R298). -/
theorem test_get_ends : ((after (.get 1 []) (dHas (cmdOf { body0 with opcode := 1, length := 64 }))).cmds.map
    fun c => (c.stage, c.status, c.bytes, c.info)) = [(.ended, Status.ok.code, 4, 4)] := by decide +kernel

/-- GET_RANGE from byte 3 on for 64: one byte, ST_TRUNCATED (R299). -/
theorem test_get_range_truncated :
    ((after (.getRange 1 []) (dHas (cmdOf { body0 with opcode := 2, offset := 3, length := 64 }))).cmds.map
      fun c => (c.stage, c.status, c.bytes, c.info)) = [(.ended, Status.truncated.code, 1, 4)] := by decide +kernel

/-- ReadsDeliver, absent key. -/
theorem test_reads_absent : ∀ op ∈ [Opcode.get.code, Opcode.getRange.code, Opcode.shapeGet.code],
    let x := cmdOf { body0 with opcode := op, length := 64 }
    (stC x).Up ∧ (devC x).findCmd 1 = some x ∧ (devC x).runnable x op = true ∧ x.looked = false ∧
      (match (devC x).see x [] 0 key0 with
       | (.value none [], _) => true
       | _ => false) = true := by decide +kernel

/-- What ReadsDeliver asks of a read whose key the lookup finds: `n` is the number of writes that serve it. -/
def readHyps (d : Dev) (x : Cmd) (op n : Nat) (sh : Option Shape) (bytes : List (List Byte)) : Bool :=
  d.glb.resetN && d.findCmd 1 == some x && d.runnable x op && !x.looked && x.shape == sh &&
    match d.see x [] 0 key0 with
    | (.value base ls, d1) =>
      let b := base.map fun b => b.2.2
      let len := (viewLen b ls).getD 0
      let lo := (x.readRange len).1
      let hi := (x.readRange len).2.1
      let y := match base with
        | none => ([], d1)
        | some (h, loc, r) => d1.fetchSegs 1 [] h loc r (viewParts (some r) ls lo hi) []
      let z := y.2.viewed 0 key0 b ls y.1 len lo hi
      (viewLen b ls).isSome && ls.length == n && (match z.1 with | .done _ => true | _ => false) &&
        cutRange len lo hi z.2.segs == bytes.flatten &&
        sh.all fun s => !y.2.macWaits s.usesMac (s.workBarns ((List.range (s.rowsOf bytes.flatten).length).map fun k =>
          viewStall b ls (lo + k * s.rowLen)) [])
    | _ => false

/-- A shape descriptor: F16 to F32, nothing else (R402). -/
def shape0 : Shape := descShape (natLe 4 0x00000100 ++ zeros 60)

/-- A write past its commit point, whose data serves the reads behind it (R364). -/
def committed (c : Cmd) : Cmd :=
  { c with id := 2, subSeq := 1, commit := some { len := 2, segs := [0], slots := [], bin := none, ext := [], dram := 0, shed := 0 } }

/-- A read of "a" submitted after the write of id 2. -/
def later (c : Cmd) : Cmd := { c with subSeq := 2 }

/-- ReadsDeliver, key found: no shape, a shape and an empty range, a shape and bytes; a new value and a range over the stored one that
writes past their commit point hold. -/
theorem test_reads_hit :
    let get := cmdOf { body0 with opcode := Opcode.get.code, length := 64 }
    let shaped := fun off len => { cmdOf { body0 with opcode := Opcode.shapeGet.code, offset := off, length := len } with shape := some shape0 }
    let range := committed (inCmd { body0 with opcode := Opcode.putRange.code, offset := 1, length := 2 } [8, 9])
    readHyps (dHas get) get Opcode.get.code 0 none [[1, 2, 3, 4]] = true ∧
    (let x := cmdOf { body0 with opcode := Opcode.getRange.code, offset := 4, length := 1 }
     readHyps (dHas x) x Opcode.getRange.code 0 none [] = true) ∧
    readHyps (dHas (shaped 4 1)) (shaped 4 1) Opcode.shapeGet.code 0 (some shape0) [] = true ∧
    readHyps (dHas (shaped 0 4)) (shaped 0 4) Opcode.shapeGet.code 0 (some shape0) [[1, 2, 3, 4]] = true ∧
    readHyps { dev0 with cmds := [committed (putCmd [5, 6]), later get] } (later get) Opcode.get.code 1 none [[5, 6]] = true ∧
    readHyps { held4 with cmds := [range, later get] } (later get) Opcode.get.code 1 none [[1, 8, 9, 4]] = true := by
  decide +kernel

/-- ExistsScanEnd: a key found and one absent; a scan of each kind that comes to its end, and one that has room for no record. -/
theorem test_exists_scan :
    (let x := cmdOf { body0 with opcode := Opcode.existsKey.code }
     let len := fun (d : Dev) => match d.see x [] 0 key0 with
       | (.value base ls, _) => some (viewLen (base.map fun b => b.2.2) ls)
       | _ => none
     (devC x).runnable x Opcode.existsKey.code = true ∧ len (devC x) = some none ∧
       (dHas x).runnable x Opcode.existsKey.code = true ∧ len (dHas x) = some (some 4)) ∧
    (∀ y ∈ [(0, 264, false), (1, 264, false), (0, 8, true)],
      let x := cmdOf { body0 with opcode := Opcode.scan.code, subop := y.1, length := y.2.1, arg := 2 ^ 64 - 1 }
      let d := dHas x
      d.runnable x Opcode.scan.code = true ∧ d.findCmd 1 = some x ∧ ((d.padSet 0).all fun k => d.barnReached (k / 64)) = true ∧
        ((d.scanStalls [] x 0 0 (d.padSet 0) { bytes := [], count := 0, stop := none }).1.map fun a => a.stop.isSome) = some y.2.2) := by
  decide +kernel

/-- A key list of key "a" and, second, a key that is absent (R319). -/
def listBytes : List Byte := [0, 1, 1, 0, 0x61, 0, 0, 0] ++ [0, 1, 1, 0, 0x62, 0, 0, 0]

/-- What GatherEnds and ScoreEnds ask of the command's keys: the first is there with the bytes given, the second absent. -/
def listHyps (d : Dev) (x : Cmd) (op : Nat) (range : Nat → Nat × Nat) (bytes : List Byte) (ok : Dev → List (Option Seat) → Bool) : Bool :=
  let ks := x.listed.getD []
  let idx := List.zip (List.range ks.length) ks
  let y := (d.updCmd 1 fun z => { z with keyRecs := ks.map fun _ => none }).lookKeys 1 [] range idx
  d.glb.resetN && d.findCmd 1 == some x && d.ready x op && x.arrived && !x.listBad && x.keyRecs.isEmpty && y.1.isNone &&
    match y.2.findCmd 1 with
    | none => false
    | some z =>
      let v := y.2.seats z range idx
      !z.keyRecs.any Option.isNone && v.2.map (fun s => s.map Seat.bytes) == [some bytes, none] && ok y.2 v.2 &&
        match v.1 with
        | .done _ => true
        | _ => false

def gatherHyps (sh : Option Shape) : Bool :=
  let x := { inCmd { body0 with opcode := Opcode.gather.code, param := 1, length := 4, ilen := 16 } listBytes with key := none, shape := sh }
  listHyps (dHas x) x Opcode.gather.code (fun len => (0, min len 4)) [1, 2, 3, 4] fun d ss =>
    sh.all fun s => !d.macWaits s.usesMac (s.workBarns (ss.map fun z => z.bind Seat.stall) (d.gatherBags x s))

theorem test_gather : gatherHyps none = true ∧ gatherHyps (some shape0) = true := by decide +kernel

/-- `dev0` after a PUT of a page of 32 zero bytes under key "a". -/
def heldPage : Dev := { after (.put 1 []) (devC (putCmd (zeros 32))) with cmds := [] }

/-- A SCORE descriptor: D = 16, one token, queries and pages of F16 (R402, R450). -/
def score0 : Shape := { shape0 with kind := 1, src := 5, scaleT := 5, dcode := 0, tokens := 1 }

/-- What ScoreEnds asks of its list, and whether a page has another length. -/
def scoreHyps (sub : Nat) (d0 : Dev) (page : List Byte) (bad : Bool) : Bool :=
  let x := { inCmd { body0 with opcode := Opcode.score.code, subop := sub, param := 4, length := 64, ilen := 80 } (zeros 64 ++ listBytes) with
    key := none, shape := some score0 }
  x.body.subop == sub && listHyps { d0 with cmds := [x] } x Opcode.score.code (fun len => (0, len)) page fun d ss =>
    (ss.any fun z => z.any fun v => v.r.len != score0.pageLen) == bad &&
      !d.macWaits true (ss.flatMap fun z => (z.map fun v => v.r.barns (d.homeOf 0 v.r.key)).getD [])

/-- ScoreEnds: both kinds, pages of the right length and of another one. -/
theorem test_score : scoreHyps 0 heldPage (zeros 32) false = true ∧ scoreHyps 1 heldPage (zeros 32) false = true ∧
    scoreHyps 0 held4 [1, 2, 3, 4] true = true ∧ scoreHyps 1 held4 [1, 2, 3, 4] true = true := by decide +kernel

/-- The lines shared by WritesStore's clauses; `hit`: the key is there. -/
def writeHyps (x : Cmd) (op : Nat) (d0 : Dev) (hit : Bool) : Bool :=
  let d := { d0 with cmds := [x] }
  d.glb.resetN && d.findCmd 1 == some x && x.arrived && d.mayStore x && !d.barnStopped (homeStall (d.padSet 0) (keyDigest key0) / 64) &&
    d.runnable x op && !x.awaits && x.plan == none && match d.findFor x [] with
    | (.hit _ _ _, _) => hit
    | (.absent _, _) => !hit
    | _ => false

/-- The store of WritesStore succeeds, and loses no write-buffer segment. -/
def stores (d : Dev) (x : Cmd) (loc : Option Loc) (w : WritePlan) (base : Nat) : Bool :=
  match d.store 0 (homeStall (d.padSet 0) (keyDigest key0)) key0 loc none x.made x.commit w with
  | .ok r d2 => poisonedSegs w.len base x.wbBase x.need ((d2.towCommit x r w base).readWb [] x).1 == []
  | _ => false

/-- The value the command's key has, and the device its lookup leaves. -/
def foundIn (d : Dev) (x : Cmd) : Option (Loc × Rec) × Dev :=
  match d.findFor x [] with
  | (.hit _ loc r, d1) => (some (loc, r), d1)
  | (_, d1) => (none, d1)

/-- PUT of a new key, over a value, and refused with IF_ABSENT; into a DURABLE paddock. -/
theorem test_put_hyps :
    let x := putCmd [5, 6]
    let y := { x with body := { x.body with flags := 0x20 } }
    let durable := { dev0 with paddocks := [(0, { pad0 with persist := persistDurable })] }
    writeHyps x Opcode.put.code dev0 false = true ∧ stores (foundIn (devC x) x).2 x none (wholePlan x.input) 0 = true ∧
      writeHyps x Opcode.put.code held4 true = true ∧
      stores (foundIn (dHas x) x).2 x ((foundIn (dHas x) x).1.map Prod.fst) (wholePlan x.input) 0 = true ∧
      y.body.ifAbsent = true ∧ writeHyps y Opcode.put.code held4 true = true ∧ writeHyps x Opcode.put.code durable false = true ∧
      stores (foundIn { durable with cmds := [x] } x).2 x none (wholePlan x.input) 0 = true := by decide +kernel

/-- A write into a stored value, as the last clauses of PUT_RANGE and APPEND ask: `base` is the offset it writes at. -/
def rangeStores (x : Cmd) (base : Nat) : Bool :=
  let d := dHas x
  let home := homeStall (d.padSet 0) (keyDigest key0)
  match foundIn d x with
  | (some (loc, o), d1) =>
    let parts := oldSegs o.len base (base + x.body.length)
    let y := d1.fetchSegs 1 [] home loc o parts []
    match fetchedOf y.1 o parts with
    | .done bs => stores (y.2.updCmd 1 fun v => { v with plan := some o, fetches := y.1, searching := true }) x (some loc)
        (rangePlan o.len base x.input parts bs) base
    | _ => false
  | _ => false

/-- PUT_RANGE: absent; an offset at the value's end writes, one beyond it does not. APPEND: absent, and after four bytes. -/
theorem test_put_range_append_hyps :
    let at_ := fun n => inCmd { body0 with opcode := Opcode.putRange.code, offset := n, length := 2 } [7, 8]
    let app := inCmd { body0 with opcode := Opcode.append.code, length := 2 } [7, 8]
    writeHyps (at_ 4) Opcode.putRange.code dev0 false = true ∧ writeHyps (at_ 4) Opcode.putRange.code held4 true = true ∧ rangeStores (at_ 4) 4 = true ∧
      writeHyps (at_ 5) Opcode.putRange.code held4 true = true ∧ writeHyps app Opcode.append.code dev0 false = true ∧
      writeHyps app Opcode.append.code held4 true = true ∧ rangeStores app 4 = true ∧
      stores (foundIn (devC app) app).2 app none (wholePlan app.input) 0 = true := by decide +kernel

/-- APPEND of two bytes to four: INFO is the offset written at (R306). -/
theorem test_append_ends : ((after (.append 1 []) (dHas (inCmd { body0 with opcode := Opcode.append.code, length := 2 } [7, 8]))).cmds.map
    fun c => (c.stage, c.status, c.bytes, c.info)) = [(.ended, Status.ok.code, 2, 4)] := by decide +kernel

/-- DeleteEnds: the key absent, and the key in a CAM entry. -/
theorem test_delete :
    let x := cmdOf { body0 with opcode := Opcode.delete.code }
    (devC x).runnable x Opcode.delete.code = true ∧ (dHas x).runnable x Opcode.delete.code = true ∧ (dHas x).findCmd 1 = some x ∧
      (devC x).barnStopped (homeStall ((devC x).padSet 0) (keyDigest key0) / 64) = false ∧
      (match ((devC x).find [] 0 key0).1 with | .absent _ => true | _ => false) = true ∧
      (match ((dHas x).find [] 0 key0).1 with | .hit _ (.cam _) _ => true | _ => false) = true := by decide +kernel

/-- Range plans keep what they do not write: a byte at offset 4,097 of a value of 4,098 (PiecesAndPlans). -/
theorem test_range_plan : (0 : Nat) ≤ 4098 ∧ (4096 : Nat) < 4098 ∧
    (cutPieces 8190 [1, 2, 3]).map (fun p => (p.off, p.bytes)) = [(8190, [1, 2]), (8192, [3])] := by decide +kernel

/-! ### Admission and completion -/

/-- A NOP waiting on session 3, of a class. -/
def waiting (cls : Nat) (b : Body) : Cmd := { cmdOf b with key := none, stage := .waiting, cls := cls }

def rolled (x : Cmd) : Dev :=
  let d := (devC x).rollWindow
  { d with arb := { d.arb with round := d.roundNow } }

/-- AdmitNextChooses: an URGENT choice that passes and one that fails its checks, a weighted choice of each kind, and no choice. -/
theorem test_admit :
    let bad := { body0 with subop := 1 }
    let loop (d : Dev) := d.weightedLoop (d.loopFuel d.arb.round) 0 d.arb.round
    (rolled (waiting CmdClass.urgent.code body0)).arb.urgentUsed < (rolled (waiting CmdClass.urgent.code body0)).urgentCap ∧
      (rolled (waiting CmdClass.urgent.code body0)).pickUrgent = some (waiting CmdClass.urgent.code body0) ∧
      ((rolled (waiting CmdClass.urgent.code body0)).admitCheck (waiting CmdClass.urgent.code body0)).isRight = true ∧
      (rolled (waiting CmdClass.urgent.code bad)).pickUrgent = some (waiting CmdClass.urgent.code bad) ∧
      ((rolled (waiting CmdClass.urgent.code bad)).admitCheck (waiting CmdClass.urgent.code bad)).isLeft = true ∧
      (rolled (waiting CmdClass.normal.code body0)).pickUrgent = none ∧ (loop (rolled (waiting CmdClass.normal.code body0))).1 = some (waiting CmdClass.normal.code body0) ∧
      (loop (rolled (waiting CmdClass.normal.code body0))).2 ≠ [] ∧
      (loop (rolled (waiting CmdClass.normal.code bad))).1 = some (waiting CmdClass.normal.code bad) ∧
      ((rolled (waiting CmdClass.normal.code bad)).admitCheck (waiting CmdClass.normal.code bad)).isLeft = true ∧ (loop (rolled (cmdOf body0))).1 = none := by
  decide +kernel

/-- CompleteRetires: a completable command with and without a path, one that its session's fault lost, and one that is not. -/
theorem test_complete :
    let x := { cmdOf body0 with stage := .ended, effected := true }
    let y := { x with ses := 4 }
    let z := { x with faulted := true }
    (devC x).completable x = true ∧ (devC y).findCmd 1 = some y ∧ (devC y).completable y = true ∧
      (devC y).hasPath y.ses y.qp = false ∧ y.linkLost = false ∧ ((devC y).ses y.ses).st ≠ .closing ∧ (devC z).findCmd 1 = some z ∧
      (devC z).completable z = true ∧ ((devC z).ses z.ses).st ≠ .closing ∧ (devC (cmdOf body0)).completable (cmdOf body0) = false := by
  decide +kernel

/-- The three parts of SpaceAndOutputGoOn. -/
theorem test_space_output :
    let x := { cmdOf { body0 with opcode := Opcode.put.code, length := 65536 } with need := 65536 }
    let d := { devC x with arb := { Arb.reset with wbufCur := 1 } }
    let pick := d.wbWaiting.findSome? fun i => (d.findCmd i).bind fun c => if d.stageHeld c then none else some c
    let y := { cmdOf { body0 with opcode := Opcode.get.code } with outLeft := [{ off := 0, bytes := [1], check := none, stored := 1 }], storedRead := 2 ^ 21 }
    let o : OldVal := { id := 8, recd := freshRec 0 1 key0 0 1, readers := [1], home := 0, ovfRec := none, bucket := none }
    (pick = some x ∧ ((({ d with arb := { d.arb with wbRound := d.wbWaiting.filter (fun i => i != 1) ++ [1] } } : Dev).wbGive x)).isSome = true) ∧
      (y.outLeft ≠ [] ∧ (devC y).held 3 = false ∧ ((devC y).ses 3).mayCharge 5000000 = true ∧ y.releasedTo < y.storedRead) ∧
      (let d := { devC (cmdOf body0) with old := [o] }
       d.old.find? (fun o => o.id == 8) = some o ∧ (o.readers.any fun i => (d.findCmd i).any fun c => !(c.stage == .ended && c.status == Status.thermalHold.code)) = true ∧
         (o.readers.any fun i => (dev0.findCmd i).any fun c => !(c.stage == .ended && c.status == Status.thermalHold.code)) = false) := by
  decide +kernel

/-- One ns before a window's end, and at it (R377). -/
theorem test_urgent_window :
    (let d := { dev0 with now := 9999 }; d.now < d.arb.windowStart + 10000) ∧ (let d := { dev0 with now := 10000 }; d.arb.windowStart + 10000 ≤ d.now) := by
  decide

/-! ### Packets -/

/-- A frame for session 3, queue pair 0, sent to the KS-480 by coordinate 5. -/
def frameOf (typ : Nat) (vc : Vc) (tag arg : Nat) (payload : List Byte) : List Byte :=
  encodePkt { typ := typ, vc := vc, olink := 0x3F, noses := false, ses := 3, qp := 0, dst := 9, src := 0, tag := tag, arg := arg,
              hdrs := [], payload := payload, owner := .none } 5 0x7E

/-- The base header of a NUDGE, byte by byte from its layout (R157): TYPE 06, VC and OLINK, NEXT 0, HCRC, PLEN 32, HLEN 32, DLEN 0,
SES 3 and QP 0, DST 9, SRC 5, TAG 1, ARG 0. -/
theorem test_frame_layout :
    frameOf 0x06 .req 1 0 [] = [0x06, 0xFC, 0x00, BitVec.ofNat 8 (crc8 (splice (frameOf 0x06 .req 1 0 []) 3 [0])), 32, 0, 32, 0, 0, 0, 3, 0,
      9, 0, 0, 0, 5, 0, 0, 0, 1, 0, 0, 0, 0, 0, 0, 0, 0, 0, 0, 0] := by decide +kernel

/-- The check values of the CRCs over "123456789", from their parameters: CRC-32C E306_9283. -/
theorem test_crc32c : crc32c [0x31, 0x32, 0x33, 0x34, 0x35, 0x36, 0x37, 0x38, 0x39] = 0xE3069283 := by decide +kernel

/-- What every packet statement asks. -/
def packetHyps (d : Dev) (typ : Nat) (vc : Vc) (f : List Byte) : Bool :=
  d.glb.resetN && (d.links.all fun l => l.2.rxHold.isEmpty) && (d.link 0).st == .active && frameTyp f == typ && d.parse 0 vc f == .ok

def cmdFrame : List Byte := frameOf 0x01 .req 8 0 (zeros 48)

def full64 : Dev := { dev0 with cmds := (List.range 64).map fun i => { waiting CmdClass.normal.code body0 with id := 10 + i, tag := 100 + i } }

/-- CommandPacket: taken; 64 places in use; a duplicate TAG; a queue pair that takes no packets. -/
theorem test_command_packet :
    (packetHyps dev0 0x01 .req cmdFrame = true ∧ (dev0.qp (dqp 3 0)).takesPackets = true ∧ (dev0.pushCmd 3 0 8).isSome = false ∧
      ¬ 64 ≤ dev0.pendUsed 3) ∧
    (packetHyps full64 0x01 .req cmdFrame = true ∧ (full64.pushCmd 3 0 8).isSome = false ∧ 64 ≤ full64.pendUsed 3) ∧
    (let d := devC (waiting CmdClass.normal.code body0)
     let f := frameOf 0x01 .req 7 0 (zeros 48)
     packetHyps d 0x01 .req f = true ∧ (d.pushCmd 3 0 7).isSome = true) ∧
    (let d := { dev0 with qps := [] }
     packetHyps d 0x01 .req cmdFrame = true ∧ (d.qp (dqp 3 0)).takesPackets = false) := by decide +kernel

/-- A write that waits for 8 bytes in one grant. -/
def granted : Cmd := { cmdOf { body0 with opcode := Opcode.put.code, length := 8 } with
  need := 8, wbGiven := 8, asked := 8, grants := [{ idx := 0, off := 0, len := 8, got := 0, due := some 25000000 }] }

/-- DataPacket: inside the grant, the last byte inside and the first outside, and no such command. -/
theorem test_data_packet :
    let fr := fun off tag => frameOf 0x04 .data tag off [1]
    (∀ off ∈ [0, 7, 8], packetHyps (devC granted) 0x04 .data (fr off 7) = true ∧ (devC granted).pushCmd 3 0 7 = some granted ∧
      (devC granted).findCmd 1 = some granted ∧ granted.stage = .admitted ∧ granted.arrived = false ∧
      frameArg (fr off 7) % 2 ^ 37 = off ∧ (framePayload (fr off 7)).length = 1 ∧
      inGrants granted.grants 5 off 1 = decide (off < 8) ∧ notGot granted.got off 1 = true) ∧
    packetHyps (devC granted) 0x04 .data (fr 0 9) = true ∧ (devC granted).pushCmd 3 0 9 = none := by decide +kernel

def ringQp : Qp := { qp0 with ctx := { QpCtx.none with dbAddr := 0x1000, sqLog := 4, cqLog := 4 } }

/-- NudgePacket: ring mode idle, with a doorbell read in flight, and push mode. -/
theorem test_nudge_packet :
    let f := frameOf 0x06 .req 1 0 []
    packetHyps { dev0 with qps := [(192, ringQp)] } 0x06 .req f = true ∧ ringQp.st = .active ∧ ringQp.ctx.push = false ∧ ringQp.dbBusy = false ∧
      packetHyps { dev0 with qps := [(192, { ringQp with dbBusy := true })] } 0x06 .req f = true ∧
      packetHyps dev0 0x06 .req f = true ∧ qp0.ctx.push = true := by decide +kernel

def readOf (what : ReadFor) (len : Nat) : OutRead :=
  { tag := 1, ses := 3, qp := 0, addr := 0, len := len, what := what, due := none, acked := true, link := 0 }

/-- ReadDataPacket: a context block that is right, one that is not, bytes of an admitted command, and no READ. -/
theorem test_read_data_packet :
    let ctx := fun (mode sqLog : Byte) => zeros 24 ++ [mode, sqLog, 4, 0, 1, 0, 0, 0] ++ zeros 32
    let d := { dev0 with qps := [(192, { Qp.reset with enable := true })], reads := [readOf (.context 192) 64] }
    (∀ c ∈ [ctx 0 4, ctx 0 3, ctx 8 4, ctx 1 0], packetHyps d 0x08 .data (frameOf 0x08 .data 1 0 c) = true ∧
      d.matchRead (frameOf 0x08 .data 1 0 c) = some (readOf (.context 192) 64)) ∧
    [ctx 0 4, ctx 0 3, ctx 8 4, ctx 1 0].map (fun c => ctxOk c false) = [true, false, false, true] ∧
    (d.qp 192).st = .idle ∧ (d.qp 192).enable = true ∧
    (let e := { devC granted with reads := [readOf (.value 1 0) 1] }
     packetHyps e 0x08 .data (frameOf 0x08 .data 1 0 [9]) = true ∧
       e.matchRead (frameOf 0x08 .data 1 0 [9]) = some (readOf (.value 1 0) 1) ∧ e.findCmd 1 = some granted) ∧
    packetHyps dev0 0x08 .data (frameOf 0x08 .data 1 0 [9]) = true ∧ dev0.matchRead (frameOf 0x08 .data 1 0 [9]) = none := by
  decide +kernel

def answered : Dev :=
  { dev0 with links := [(0, { link0 with pcred := Cred.zero, queue := [dev0.sesPkt 0x0B .rsp 3 0 1 0 [] [] .configRsp] })] }

theorem test_config_packet :
    let f := frameOf 0x0A .req 1 0x20 []
    packetHyps dev0 0x0A .req f = true ∧ ((dev0.link 0).queue.any fun p => p.owner == .configRsp) = false ∧
      packetHyps answered 0x0A .req f = true ∧ ((answered.link 0).queue.any fun p => p.owner == .configRsp) = true := by decide +kernel

/-- RejectPackets: of a READ, of a WRITE, of neither; a frame that is dropped, one rejected, and one too many. -/
theorem test_reject_packets :
    (let d := { devC granted with reads := [readOf (.value 1 0) 1], writes := [{ tag := 2, d := 192, cmd := some 1, len := 32 }] }
     (∀ t ∈ [(1, 0x07), (2, 0x09), (3, 0x01)], packetHyps d 0x0C .rsp (frameOf 0x0C .rsp t.1 (256 * t.2) []) = true ∧
       bits (frameArg (frameOf 0x0C .rsp t.1 (256 * t.2) [])) 8 8 = t.2) ∧
     d.reads.find? (fun r => r.tag == 1 && !(d.ses r.ses).pcie) = some (readOf (.value 1 0) 1) ∧ (d.findCmd 1).isSome = true ∧
     d.writes.find? (fun w => w.tag == 2) = some { tag := 2, d := 192, cmd := some 1, len := 32 } ∧
     ¬ (granted.stage = .ended ∧ addsTether granted.status = false)) ∧
    dev0.parse 0 .req [] = .drop ∧ dev0.parse 0 .req (frameOf 0x02 .req 1 0 []) = .reject fxBadType ∧
    dev0.parse 0 .data (frameOf 0x06 .req 1 0 []) = .reject fxBadVc ∧ (dev0.link 0).rejectsWaiting < 16 ∧
    (let d := { dev0 with links := [(0, { link0 with queue := List.replicate 16 (dev0.sesPkt 0x0C .rsp 3 0 1 0 [] [] .reject) })] }
     16 ≤ (d.link 0).rejectsWaiting ∧ d.parse 0 .req (frameOf 0x02 .req 1 0 []) = .reject fxBadType) := by decide +kernel

/-! ### Links -/

def pkt0 : Pkt := dev0.sesPkt 0x02 .rsp 3 0 7 0 [] (zeros 32) .none

def unacked (tries : Nat) : List TxFrame := (List.range 3).map fun i => { seq := 4 + i, pkt := pkt0, len := 64, tries := tries }

/-- `dev0` with link 0 changed. -/
def devL (f : Link → Link) : Dev := { dev0 with links := [(0, f link0)] }

/-- A packet behind one that has no credit may pass it only on another channel (R144). -/
theorem test_pick_order :
    (pickPkt { link0 with used := { Cred.zero with rsp := 64 } } [] [pkt0, { pkt0 with vc := .data }]).map (fun x => (x.1.vc, x.2)) =
      some (.data, [pkt0]) ∧ (pickPkt { link0 with used := { Cred.zero with rsp := 64 } } [] [pkt0, pkt0]).isNone = true ∧
      (pickPkt link0 [] [pkt0]).isSome = true := by decide +kernel

/-- LinkControl: a number that is not the one expected; fields changed, exactly 1 µs old, one ns younger. -/
theorem test_link_control :
    (dev0.link 0).st = .active ∧ (∀ q ∈ [1, 65535], q % 65536 ≠ (dev0.link 0).rxSeq) ∧
      ((devL fun l => { l with ctlDirty := true }).link 0).ctlDirty = true ∧
      (devL fun l => { l with ctlAt := 4999000 }).now = ((devL fun l => { l with ctlAt := 4999000 }).link 0).ctlAt + 1000 ∧
      (devL fun l => { l with ctlAt := 4999001 }).now < ((devL fun l => { l with ctlAt := 4999001 }).link 0).ctlAt + 1000 := by decide

/-- LinkStateSteps: each state at its limit (500 ms, 10 ms) and one ns before it. -/
theorem test_link_limits : ∀ x ∈ [(LinkSt.train, 500), (.align, 10), (.capx, 10)],
    let d := { devL (fun l => { l with st := x.1, since := 0 }) with now := x.2 * 1000000 }
    (d.link 0).st = x.1 ∧ (d.link 0).since + x.2 * 1000000 ≤ d.now ∧ ¬ (d.link 0).since + x.2 * 1000000 ≤ ({ d with now := d.now - 1 } : Dev).now := by
  decide

/-- ReplayOrDown: a NAK of the second of three frames; a frame sent again seven times, and one sent again eight times; 2 µs. -/
theorem test_replay :
    (splitSeq 5 (unacked 7)).2 ≠ [] ∧ (∀ f ∈ (splitSeq 5 (unacked 7)).2, f.tries < 8) ∧ (∃ f ∈ (splitSeq 5 (unacked 8)).2, 8 ≤ f.tries) ∧
      ((devL fun l => { l with unacked := unacked 7, ackAt := 4998000 }).link 0).ackAt + 2000 ≤ dev0.now ∧
      ¬ ((devL fun l => { l with unacked := unacked 7, ackAt := 4998001 }).link 0).ackAt + 2000 ≤ dev0.now ∧ (splitSeq 9 (unacked 0)).2 = [] := by
  decide

/-- CapabilityExchange: reasons 4, 5 and 6 and an acceptable block; the time of the next block, and one ns before it. -/
theorem test_cap :
    let mk := fun (b1 b2 data : Nat) =>
      let body := natLe 1 0x10 ++ natLe 1 b1 ++ natLe 1 b2 ++ natLe 1 3 ++ natLe 4 5 ++ natLe 4 0xFFFFFFFF ++ natLe 4 1 ++ natLe 2 64 ++
        natLe 2 data ++ natLe 2 64 ++ natLe 2 32 ++ natLe 2 8448 ++ natLe 2 0x7E ++ natLe 2 0
      body ++ natLe 2 (crc16 body)
    let d := devL fun l => { l with st := .capx, capSentAck := true, capAt := 5000000 }
    (∀ b ∈ [mk 0x02 3 256, mk 0x01 2 256, mk 0x01 3 32, mk 0x01 3 33], (parseCap b).crcOk = true) ∧ (parseCap (mk 0x02 3 256)).major ≠ 1 ∧
      (parseCap (mk 0x01 2 256)).role = false ∧ capCreditsOk (parseCap (mk 0x01 3 32)).cred = false ∧
      capCreditsOk (parseCap (mk 0x01 3 33)).cred = true ∧ (parseCap (mk 0x01 3 33)).maxLen = 8448 ∧ (parseCap (mk 0x01 3 33)).ack = true ∧
      (d.link 0).st = .capx ∧ (d.link 0).capSentAck = true ∧ d.lnkc.valid = true ∧ d.lnkc.epoch ≠ 0 ∧ (d.link 0).capAt ≤ d.now ∧
      ({ d with now := 4999999 } : Dev).now < (d.link 0).capAt := by decide +kernel

def hold0 : Hold := { since := 0, deadline := 5000000, epoch := 1, link := 0, frames := [] }

theorem test_hold : let d := { dev0 with sessions := [(3, { ses0 with hold := some hold0 })] }
    (d.ses 3).hold = some hold0 ∧ hold0.deadline ≤ d.now ∧ ({ d with now := 4999999 } : Dev).now < hold0.deadline ∧
      (d.ses 3).st = .opened := by decide

/-- FlitReplay: the seventh failure in a row and the eighth, of a barn's bundle and of a gatehouse's; bundle 87 is the last. -/
theorem test_flit : ∀ b ∈ [0, 63, 64, 87],
    let flit : Flit := { typ := 0, ch := 0, seq := 2, ack := 0, tag := 0, payload := [] }
    let d := { dev0 with bundles := [(2 * b, { fails := 7, seq := 2, next := 3, kept := [(0, { flit with seq := 1 }), (0, flit)] })], bru := { dev0.bru with bundles := List.replicate 88 (true, 0, 0, 0) } }
    let e := { d with bundles := [(2 * b, { fails := 6, seq := 2, next := 3, kept := [(0, flit)] })] }
    d.bundleIn b = true ∧ (SMap.get d.bundles (2 * b) BundleTx.reset).fails + 1 = 8 ∧ (SMap.get e.bundles (2 * b) BundleTx.reset).fails + 1 < 8 ∧
      (b < 64 ∨ ((List.range 12).any fun i => 64 + (b - 64) / 12 * 12 + i != b && d.bundleIn (64 + (b - 64) / 12 * 12 + i)) = true) ∧
      d.dieOk (bundleDie b) = true ∧ b < d.bru.bundles.length := by decide +kernel

/-- NotifyAndSweep: NOTIFY = 1, NOTIFY = 2 with as many entries as NCOUNT and with fewer, NTIME over; the sweep's interval. -/
theorem test_notify_sweep :
    let qp := fun notify ncount => { ringQp with unann := [(0, 4990000, false)], ctx := { ringQp.ctx with notify := notify, ncount := ncount, ntime := 10, sweepEn := true } }
    let d := fun notify ncount => { dev0 with qps := [(192, qp notify ncount)] }
    (∀ x ∈ [(1, 0), (2, 1), (2, 2)], (d x.1 x.2).noticePath 3 0 = true ∧ ((d x.1 x.2).announceable 192).length = 1) ∧
      (∀ v ∈ ((d 2 2).qp 192).unann.head?, v.2.1 + 10 * 1000 ≤ (d 2 2).now) ∧
      ((d 1 0).swept.any fun x => x.1 == 192) = true ∧ (d 1 0).arb.sweepUs ≠ 0 ∧
      (let e : Dev := d 1 0; (if e.arb.sweepUsAt = e.now / 1000 then e.arb.sweptInUs else 0) < e.sweepRate) ∧
      ((d 1 0).qp 192).sweptAt + (d 1 0).sweepEffective * 1000 ≤ (d 1 0).now ∧
      ({ d 1 0 with now := 99999 } : Dev).now < ((d 1 0).qp 192).sweptAt + (d 1 0).sweepEffective * 1000 := by decide +kernel

/-! ### Registers -/

/-- SessionOpenClose: CLOSED in READY and before it; OPEN without commands, with a waiting one of a queue pair in ERROR, and with one that
keeps it CLOSING. -/
theorem test_session :
    dev0.glb.resetN = true ∧ dev0.glb.blocks = true ∧ (dev0.ses 511).st = .closed ∧ dev0.bru.st = 11 ∧
      ({ dev0 with bru := { dev0.bru with st := 10 } } : Dev).bru.st ≠ 11 ∧ (dev0.ses 3).st = .opened ∧ (∀ c ∈ dev0.cmds, c.ses ≠ 3) ∧
      (let d := devC (waiting CmdClass.normal.code body0)
       let e := { d with qps := [(192, { qp0 with st := .error })] }
       (∀ c ∈ e.cmds, c.ses = 3 → false = false ∧ isPending c = true ∧ (e.qp (dqp c.ses c.qp)).st = .error) ∧
       (∃ c ∈ d.cmds, c.ses = 3 ∧ (true = true ∨ isPending c = false ∨ (d.qp (dqp c.ses c.qp)).st ≠ .error)) ∧
       (∃ c ∈ d.cmds, c.ses = 3 ∧ (false = true ∨ isPending c = false ∨ (d.qp (dqp c.ses c.qp)).st ≠ .error)) ∧
       d.findCmd 1 = some (waiting CmdClass.normal.code body0) ∧ (∀ z ∈ d.cmds, z.id = 1 → isPending z = true) ∧
       (let f := { d with cmds := { waiting CmdClass.normal.code body0 with id := 2, ses := 4 } :: d.cmds }
        (f.findCmd 2).any (fun y => y.ses == 4) = true ∧ ∀ z ∈ f.cmds, z.id = 2 → z.ses ≠ 3)) := by decide

/-- An OPEN of session 511 gives it epoch 1; its next epoch after 0xFFFF is 1 again (R211). -/
theorem test_session_epoch :
    ((after (.sessionOpen .pcie 511 true false) dev0).ses 511).epoch = 1 ∧
      ((after (.sessionOpen .pcie 511 true false) { dev0 with sessions := [(511, { Session.reset with epoch := 0xFFFF })] }).ses 511).epoch = 1 := by
  decide +kernel

/-- QueuePairControl: a free queue pair with a path, one of a session without, 4,096 in use, an ACTIVE one with and without
commands, a ring-mode one of a PCIe session. -/
theorem test_queue_pair :
    let full := { dev0 with qps := (List.range 4096).map fun i => (i, { Qp.reset with enable := true }) }
    let ring := { dev0 with qps := [(192, ringQp)], sessions := [(3, { ses0 with pcie := true })] }
    (dev0.qp 193).inUse = false ∧ (dev0.qps.filter fun x => x.2.inUse).length < 4096 ∧ (dev0.ses (193 / 64)).st = .opened ∧
      dev0.servingLinks (193 / 64) ≠ [] ∧ (dev0.qp 32767).inUse = false ∧ ¬ (dev0.ses (32767 / 64)).st = .opened ∧
      (full.qp 32767).inUse = false ∧ ¬ (full.qps.filter fun x => x.2.inUse).length < 4096 ∧
      (dev0.qp 192).st ≠ .idle ∧ (dev0.qp 192).st ≠ .stopping ∧
      (let e := { dev0 with qps := [(192, { Qp.reset with enable := true })] }; (e.qp 192).st = .idle ∧ (e.qp 192).enable = true) ∧
      dev0.qpCmds 3 0 = [] ∧ (devC (cmdOf body0)).qpCmds 3 0 ≠ [] ∧
      (ring.ses 3).pcie = true ∧ (ring.ses 3).st = .opened ∧ (ring.qp 192).st = .active ∧ (ring.qp 192).ctx.push = false ∧
      (ring.qp 192).dbBusy = false := by decide +kernel

/-- LinkControlRegister: the last link of each gatehouse; a DISABLED one, an ACTIVE one. -/
theorem test_link_register : (∀ n ∈ [0, 23, 24, 47], linkPresent dev0.variant n = true ∧ dev0.gatehousePath (n / 24) = true) ∧
    (dev0.link 47).st = .disabled ∧ dev0.linksOn = true ∧ (dev0.link 0).st = .active ∧ linkPresent dev0.variant 48 = false := by decide +kernel

/-- RegisterRows: shapes 1 and 1023, barns 15, an offset beyond the map, one that is not aligned, a root key and none. -/
theorem test_register_rows : dev0.glb.blocks = true ∧ dev0.chk.root = none ∧
    ({ dev0 with chk := { Chk.reset with root := some (zeros 32) } } : Dev).chk.root ≠ none ∧ offsetOk 0x400_0000 = false ∧
    offsetOk 0x22 = false ∧ offsetOk 0x3FF_FFFC = true ∧ bit 15 3 = true ∧ bit 7 3 = false := by decide

/-- GLB_SCRATCH0 reads as it was written, on another path. -/
theorem test_scratch : ((after (.registerWrite .pcie 0x20 0x12345678#32) dev0).regRead .pliop 0x20).1 = 0x12345678#32 := by decide +kernel

/-- A register that lies in no block reads as zero, and TTH_VAL_HI:LO sets a tether. -/
theorem test_tether_reg :
    (after (.tetherRegSet .pliop 0x00000001#32) { dev0 with paths := [(1, { PathSt.reset with tthSel := 5, tthLo := 2 })] }).tether 5 =
      0x0000000100000002#64 := by decide +kernel

/-- StoredCopies, MailboxOperations: DEGRADED with its count of items; a copy at the port; a mailbox operation at the port. -/
theorem test_flash_rows :
    let deg := { dev0 with bru := { dev0.bru with st := 10, items := [1] } }
    let copy : StoredCopy := { seq := 1, uid := 0, dieIds := [], temps := [], clrRemap := false, nextGib := 0, remaps := [] }
    3 < deg.bru.st ∧ 65537 % 65536 = deg.bru.items.length ∧ 65535 % 65536 ≠ deg.bru.items.length ∧ dev0.bru.storeDue = none ∧
      ({ dev0 with bru := { dev0.bru with storeDue := some 0 } } : Dev).bru.storeDue ≠ none ∧
      ({ dev0 with bru := { dev0.bru with xspi := [.store copy] } } : Dev).bru.xspi = .store copy :: [] ∧ dev0.bru.flBusy = false ∧
      ({ dev0 with bru := { dev0.bru with flBusy := true } } : Dev).bru.flBusy = true ∧ Memory.wf [(5, 0#8)] = true ∧ copyAt 0 = none ∧
      copyAt 0x2FFFF00 = none ∧ copyAt 0x3000000 = some 0 := by decide

/-- A program of zero bits clears them and an erase sets them again (R777). -/
theorem test_mailbox :
    (match Machine.exec (.mailboxDone true) { st { dev0 with bru := { dev0.bru with flBusy := true, xspi := [.program 0x100 [0x0F#8]] } } with
        flash := [(0x100, 0xAA#8)] } with
     | .next t => (t.flash, t.dev.bru.flBusy)
     | _ => ([], true)) = ([(0x100, 0x0A#8)], false) := by decide +kernel

/-- ResetAndBringup: the states its clauses ask for. -/
theorem test_bringup :
    let at_ (n : Nat) : Dev := { State.reset.dev with bru := { State.reset.dev.bru with st := n } }
    (st dev0).Up ∧ (∀ out ∈ [false, true],
      let d := { dev0 with glb := { dev0.glb with resetN := false, railOut := out } }; d.glb.resetN = false ∧ d.glb.railOut = out) ∧
      (∀ n ∈ [1, 2, 3, 9], (at_ n).glb.resetN = true ∧ ((at_ n).barns.any fun b => b.2.tripped) = false ∧ (at_ n).bru.st = n) ∧
      (at_ 3).bru.straps.boot ≠ 1 ∧ ((at_ 9).topoItems.any fun w => w.getLsbD 0) = false ∧
      (({ at_ 9 with bru := { (at_ 9).bru with dies := [0, 1] } } : Dev).topoItems.any fun w => w.getLsbD 0) = true := by decide +kernel

/-! ### Management, power, the shed -/

/-- WatermarkCrossings: WARM rises with NOTICE_UP and CROSSED 0, and falls with NOTICE_DOWN. -/
theorem test_watermark :
    let d := { dev0 with pwr := { Pwr.reset with warmLevel := true } }
    let e := { dev0 with wmks := [(0, { Wmk.reset 0 with level := true, noticeDown := true })] }
    (d.wmk 0).level = false ∧ d.wmkRises 0 = true ∧ (d.wmk 0).crossed = false ∧ (d.wmk 0).noticeUp = true ∧
      (e.wmk 0).level = true ∧ e.wmkFalls 0 = true ∧ (e.wmk 0).dcrossed = false ∧ (e.wmk 0).noticeDown = true ∧ d.ytRun = true := by decide

/-- The crossing count saturates at 0xFFFF (R846). -/
theorem test_watermark_saturates :
    ((after (.watermarkUp 0) { dev0 with pwr := { Pwr.reset with warmLevel := true }, wmks := [(0, { Wmk.reset 0 with up := 0xFFFF })] }).wmk 0).up =
      0xFFFF := by decide +kernel

def event0 : Event := { stamp := 4999000, code := 1, source := 0, seq := 0, d0 := 0, d1 := 0, d2 := 0 }

/-- EventQueue: a record exactly 1 µs old, one ns before, room for one record and none. -/
theorem test_event_queue :
    let d (n : Nat) : Dev := { dev0 with evq := { Evq.reset with staged := [event0], records := List.replicate n event0 } }
    nextEvent (d 0).evq.staged = some event0 ∧ event0.stamp + 1000 ≤ (d 0).now ∧ ({ d 0 with now := 4999999 } : Dev).now < event0.stamp + 1000 ∧
      (d 4095).evq.records.length < 4096 ∧ 4096 ≤ (d 4096).evq.records.length := by decide +kernel

def pliopOf (typ dst : Nat) (off : Nat) : List Byte :=
  pliopSeal (natLe 1 typ ++ natLe 1 dst ++ zeros 2 ++ natLe 4 off ++ zeros 8)

def plp1 : Plp := { Plp.reset with released := true, addr := 1, upNotices := [3] }

/-- PliopChain: every kind of frame, ENUM at its boundary addresses, and a notice. -/
theorem test_pliop :
    plp1.kind (pliopOf 1 0 1) = .enum ∧ plp1.kind (pliopOf 1 0 254) = .enum ∧ plp1.kind (pliopOf 1 0 255) = .enum ∧
      plp1.kind (pliopOf 1 0 0) = .enum ∧ plp1.kind (pliopOf 2 1 0x20) = .read ∧ plp1.kind (pliopOf 3 1 0x22) = .write ∧
      plp1.kind (pliopOf 3 255 0x20) = .broadcast ∧ plp1.kind (pliopOf 2 2 0) = .pass ∧ plp1.kind (zeros 16) = .bad ∧
      fieldAt (pliopOf 1 0 254) 4 1 = 254 ∧ fieldAt (pliopOf 2 1 0x20) 4 4 = 0x20 ∧ plp1.nextNotice = some (3, false) ∧
      ({ dev0 with plp := plp1 } : Dev).pliopIdle = true ∧ ({ dev0 with plp := plp1 } : Dev).Quiet := by decide +kernel

/-- PcieEndpoint: the link down with its strap set and not; up; a context READ of a PCIe session. -/
theorem test_pcie :
    let d := { dev0 with sessions := [(3, { ses0 with pcie := true })], reads := [readOf (.context 192) 64],
                         qps := [(192, { Qp.reset with enable := true })], pcie := { Pcie.reset with up := true }, clk := { Clk.reset with peclk := true } }
    dev0.pcie.up = false ∧ dev0.bru.straps.pexEn = true ∧ 3 ≤ dev0.bru.st ∧ dev0.pcie.perst = false ∧ d.pcie.up = true ∧
      d.pcie.busMaster = false ∧ d.clk.peclk = true ∧
      d.reads.find? (fun r => r.tag == 1 && (d.ses r.ses).pcie) = some (readOf (.context 192) 64) ∧ (d.qp 192).st = .idle ∧
      (d.qp 192).enable = true ∧ ctxOk (zeros 24 ++ [0, 4, 4, 0, 1, 4, 0, 0] ++ zeros 32) (d.ses (192 / 64)).pcie = true := by decide +kernel

/-- HeatRows: a sample that is due, a floor at TRIP_C and one below it, a yard sensor at 125 °C and above, a barn that resumes. -/
theorem test_heat :
    let d := { dev0 with barns := [(0, { Barn.reset with hot := true, hotCool := 10, bandCool := List.replicate 16 10 }),
                                   (1, { Barn.reset with tripped := true, resumeDue := true })] }
    dev0.pwr.sampledAt + 1000000 ≤ dev0.now ∧ ({ dev0 with now := 999999 } : Dev).now < dev0.pwr.sampledAt + 1000000 ∧
      overLimit [(144, some 500)] = false ∧ overLimit [(144, some 501)] = true ∧ overLimit [(0, some 501)] = false ∧
      dev0.dieOk 0 = true ∧ dev0.barnStopped 0 = false ∧
      ((after (.sensorSample [(0, some 460)]) dev0).barn 0).tripped = true ∧ ((after (.sensorSample [(0, some 459)]) dev0).barn 0).tripped = false ∧
      (d.barn 0).hot = true ∧ 10 ≤ (d.barn 0).hotCool ∧ 10 ≤ (d.barn 0).bandCool.getD 15 0 ∧
      (d.barn 1).tripped = true ∧ (d.barn 1).resumeDue = true ∧ (d.barn 1).sclkLost = false ∧ (d.barn 1).dclkLost = false := by decide +kernel

/-- PowerAndClocks: an estimate due, one ns before it; a measurement over, and one ns before it; locked PLLs. -/
theorem test_power :
    dev0.ytRun = true ∧ dev0.glb.ready = true ∧ ({ dev0 with glb := { dev0.glb with ready := false } } : Dev).glb.ready = false ∧
      ({ dev0 with now := 10000 } : Dev).pwr.estAt + 10000 ≤ ({ dev0 with now := 10000 } : Dev).now ∧
      ({ dev0 with now := 9999 } : Dev).now < dev0.pwr.estAt + 10000 ∧ (dev0.barn 3).dclkLost = false ∧ (dev0.barn 0).sclkLost = false ∧
      dev0.shd.nclkLost = false ∧
      (let d := { dev0 with clk := { Clk.reset with measuring := true, measAt := 4000000 } }
       d.clk.measAt + 1000000 ≤ d.now ∧ ({ d with now := 4999999 } : Dev).now < d.clk.measAt + 1000000) := by decide

/-- GroomerRows: a layer with a run due, none of it faulty; a pending list; a bucket that leaks. -/
theorem test_groomer :
    let d := { dev0 with barns := [(0, { Barn.reset with grmDue := List.replicate 16 1, bucketMode := true, level := 1 })],
                         stalls := [(0, { Stall.reset with pendList := [(5, 7)] })] }
    d.stallAvail 0 = true ∧ d.barnStopped 0 = false ∧
      ((d.groomTick 0).stall 0).grmDone.getD 15 0 < ((d.groomTick 0).barn 0).grmDue.getD 15 0 ∧
      faultsIn [] 0 (runGranule 0 15) 64 = [] ∧ (d.stall 0).pendList = (5, 7) :: [] ∧ 0 < (d.barn 0).leak ∧
      ({ d with now := 100000000 } : Dev).now = (d.barn 0).leakAt + 1000000000 / (d.barn 0).leak := by decide +kernel

/-- EntropyMapsTap: the source before and after its start-up test; a map period that is over, and one ns before. -/
theorem test_entropy_maps :
    dev0.chk.estate ≠ 1 ∧ dev0.chk.wantEpoch = true ∧ dev0.fab.enable = true ∧ ({ dev0 with now := 100000 } : Dev).now =
      dev0.fab.startAt + dev0.fab.periodUs * 1000 ∧ ({ dev0 with now := 99999 } : Dev).now < dev0.fab.startAt + dev0.fab.periodUs * 1000 ∧
      ({ dev0 with chk := { Chk.reset with estate := 1 } } : Dev).chk.estate = 1 := by decide

def pop0 : Population := { targets := 4, rate := 0, luns := 0, planes := 0, unit := 2, pages := 4, tReadNs := 40000 }

def shedAt (s : Nat) : Dev := { dev0 with shd := { Shed.reset with st := s, pop := some pop0 } }

/-- ShedControl: each state that SHED_FORMAT answers to; formatting with and without entropy; a checkpoint due and not. -/
theorem test_shed_control :
    (∀ s ∈ [shdReady, shdReadOnly], (shedAt s).shedPaddocks = false) ∧ (shedAt shdFormatting).shd.pop = some pop0 ∧
      (shedAt shdFormatting).chk.estate ≠ 1 ∧
      (let d := shedAt shdReady
       ¬ (d.shd.ckptAt + d.shd.ckptSec * 1000000000 ≤ d.now ∨ 65536 ≤ d.shd.jsince) ∧
       (let e := { d with now := 10000000000 }; e.shd.ckptAt + e.shd.ckptSec * 1000000000 ≤ e.now)) := by decide

def stripe0 (n : Nat) : Stripe := { kind := 1, off := n, bytes := [n], good := true, since := 4990000, pseq := n }

/-- A log superblock of logical block 0 with n stripes. -/
def shedLog (n : Nat) : Dev :=
  { shedAt shdReady with shd := { (shedAt shdReady).shd with
      logs := [(0, 5)], sblks := [(5, { Sblk.reset with use := .log 0, erased := true, openDurable := true, stripes := (List.range n).map stripe0 })] } }

def identity0 : Identity := { formatId := 0, variant := 0, pop := pop0, wbufGib := 0, nextGib := 0, epochs := [], formed := [] }

/-- NandReports: an identity page, in the active superblock and first in the other; an erase of the checkpoint region and of another
superblock; a full log block, and one not full. -/
theorem test_nand :
    let p : Prog := { id := 1, what := .identity identity0, tries := 0 }
    let d := fun other => { shedAt shdReady with shd := { (shedAt shdReady).shd with progs := [p], erasing := [5, 8], idOther := other } }
    (∀ other ∈ [none, some 0], (d other).shd.progs.find? (fun p => p.id == 1) = some p ∧ (d other).progIssued p = true ∧
      (d other).shd.progs.find? (fun p => p.id == 2) = none) ∧
    (∀ k ∈ [5, 8], (d none).shd.erasing.contains k = true ∧ ((d none).shd.reads.any fun r => r.sblk == k) = false) ∧
    (d none).shd.nclkLost = false ∧
    (SMap.find (shedLog 4).shd.logs 0 = some 5 ∧ ((shedLog 4).sblk 5).stripes.length = (shedLog 4).stripesPerSblk ∧
      0 < (shedLog 4).stripesPerSblk ∧ inPageOrder 0 ((shedLog 4).sblk 5).stripes = true ∧
      ((shedLog 4).sblk 5).stripes.all Stripe.good = true ∧ (shedLog 4).shd.merging.contains 0 = false) ∧
    ((shedLog 3).sblk 5).stripes.length < (shedLog 3).stripesPerSblk := by decide +kernel

/-- NandReports: a segment read for a command, of a replaced value and of one whose entry is gone (R55). -/
theorem test_nand_read :
    let v := { freshRec 0 1 key0 4 1 with lsns := [some 0], segs := [{ stall := 0, slot := 0, st := 1 }] }
    let r : NRead := { id := 1, lsn := 0, sblk := 5, len := 4, what := .cmd 1 0 key0 0 }
    let g : Fetch := { pos := 0, key := key0, seg := 0, wseq := 1, arrived := false, status := 0, bytes := [] }
    let x := { cmdOf { body0 with opcode := Opcode.get.code } with fetches := [g] }
    let y := { x with plan := some v }
    let e := { shedLog 1 with cmds := [x], shd := { (shedLog 1).shd with reads := [r] },
                              old := [{ id := 2, recd := v, readers := [1], home := 0, ovfRec := none, bucket := none }] }
    let f := { e with cmds := [y], old := [] }
    e.shd.reads.find? (fun y => y.id == 1) = some r ∧ e.locateLsn 0 = some (5, stripe0 0) ∧ e.findCmd 1 = some x ∧
      e.fetchOf 1 key0 0 = some g ∧ (e.recOf 0 key0 1).or (e.capturedRec 1 key0 1) = some v ∧ v.tagged = false ∧ (e.pad 0).residency ≠ 1 ∧
      f.recOf 0 key0 1 = none ∧ f.findCmd 1 = some y ∧ (f.recOf 0 key0 1).or (f.capturedRec 1 key0 1) = some v := by decide +kernel

/-- A value whose one segment only the shed holds. -/
def shedRec : Rec := { freshRec 0 1 key0 5000 1 with lsns := [some 0], segs := [{ stall := 0, slot := 0, st := 1 }] }

def shedHeld : Dev := { dev0 with stalls := [(homeStall (dev0.padSet 0) (keyDigest key0), { Stall.reset with cam := [(0, shedRec)] })] }

/-- ShedSmallSteps: a program unit exactly 10 µs old; 32 stripes; a journal unit at 4 µs; staged work; a segment of the shed. -/
theorem test_shed_steps :
    let big := { shedLog 33 with shd := { (shedLog 33).shd with pop := some { pop0 with pages := 64 } } }
    let g : JRec := { seq := 1, sblk := 0, page := 0, off := 0, body := .jretire 9 }
    let j := { shedAt shdReady with shd := { (shedAt shdReady).shd with gather := [g], gatherAt := 4996000, jhead := 3, jpages := 0 } }
    let sd : StagedDel := { pad := 0, epoch := 1, key := key0, wseq := 1, staging := { due := 0, by_ := [] } }
    let q := { shedAt shdReady with shd := { (shedAt shdReady).shd with delq := [sd] } }
    ((big.sblk 5).stripes.drop (33 - 33 % big.progUnit) = [stripe0 32] ∧ (stripe0 32).since + 10000 ≤ big.now ∧
        ({ big with now := 4999999 } : Dev).now < (stripe0 32).since + 10000) ∧
      (big.canJournal = true ∧ (big.sblk 5).ptr + 32 ≤ ((big.sblk 5).stripes.filter Stripe.good).length) ∧
      (j.shd.gatherAt + 4000 ≤ j.now ∧ ({ j with now := 4999999 } : Dev).now < j.shd.gatherAt + 4000 ∧ j.shd.gather ≠ [] ∧
        (j.shd.units.filter fun u => !u.complete).length < 4 ∧
        (j.journalHead (ceilDiv (pagesTo (fillUnit j.progUnit (0, 0) j.shd.gather).2.1) j.progUnit * j.progUnit)).isSome = true) ∧
      (q.shd.delq.find? (fun x => x.pad == 0 && x.key == key0) = some sd ∧ q.keyBusy 0 key0 = false ∧ q.findJob q.nextId = none ∧
        q.canJournal = true) ∧
      (shedHeld.peek 0 key0 = some shedRec ∧ (shedHeld.pad 0).residency = 0 ∧ (shedRec.segs[0]?).any (fun v => v.st == 1) = true ∧
        shedRec.lsns.getD 0 none = some 0 ∧ shedHeld.shd.nclkLost = false ∧ shedHeld.reloading 0 key0 0 = false) := by decide +kernel

/-- EntropyMapsTap: an instruction of each kind; the codes of BYPASS and IDCODE are R908's. -/
theorem test_tap_codes : dev0.glb.railOut = false ∧ scanOf 0xFF#8 .extest = .bypass ∧ scanOf 0x01#8 .extest = .idcode ∧
    scanDrives (scanOf 0x02#8 .extest) = true ∧ scanDrives (scanOf 0x02#8 .sample) = false := by decide

/-- The test port: an instruction that gives the scan register the pins stops a device that runs (R910); SAMPLE captures DEV_READY (R909). -/
theorem test_tap :
    (match Machine.exec (.tapInstruction 0x02#8 { op := .extest, cells := [] }) (st dev0) with
     | .fault f => some f
     | _ => none) = some .tapPinsWhileRunning ∧
    (match Machine.exec (.tapInstruction 0x02#8 { op := .sample, cells := [] }) (st dev0) with
     | .next t => t.dev.tap.captured.contains (.devReady, .high)
     | _ => false) = true := by decide +kernel

/-! ### Layouts -/

/-- Blocks of a 33-byte frame, byte by byte from R135 and R136: START on DATA with L 33 and sequence number 0x0102, two data blocks, END. -/
theorem test_blocks :
    let c : Ctl := { ack := 0x0304, freed := { req := 5, data := 6, rsp := 7, urg := 8 } }
    let fields : List Byte := [0x04, 0x03, 0, 0, 5, 0, 6, 0, 7, 0, 8, 0, 0, 0, 0, 0]
    let f : List Byte := List.replicate 33 0xAA
    frameBlocks .data 0x0102 f c = [{ data := false, bytes := [0x01, 0x01, 33, 0, 0x02, 0x01] ++ zeros 10 ++ fields },
      { data := true, bytes := List.replicate 32 0xAA }, { data := true, bytes := 0xAA :: zeros 31 },
      { data := false, bytes := [0x02, 0, 0, 0] ++ natLe 4 (crc32c f) ++ zeros 8 ++ fields }] ∧
    nakBlock 0x0506 c = { data := false, bytes := [0x03, 0, 0, 0, 0x06, 0x05] ++ zeros 10 ++ fields } := by decide +kernel

/-- A flit with two valid bytes, from R105: start and end (4) on RSP (2), sequence number 0x0102, 0x0304 received, route tag 47. -/
theorem test_flit_layout :
    let f : Flit := { typ := 4, ch := 2, seq := 0x0102, ack := 0x0304, tag := 47, payload := [9, 8] }
    f.bytes.take 10 = [0x24, 2, 0x02, 0x01, 0x04, 0x03, 47, 0, 9, 8] := by decide +kernel

/-- The ways of the package: links 24 + 4p to 27 + 4p at port p of the east gatehouse (R100), its crossbar ports from 22 on and the stalls'
(R93, R110); a gatehouse port without a bundle hands its traffic to the next higher, 5 to 0 (R101), an edge port to its neighbour (R94). -/
theorem test_ways :
    let d := fun (out : List Nat) => { dev0 with bru := { dev0.bru with bundles := (List.range 88).map fun b => (!out.contains b, 0, 0, 0) } }
    linkPort 47 = 27 ∧ linkPort 24 = 22 ∧ linkPort 3 = 16 ∧ linkPort 4 = 17 ∧ stallPort 66 = 5 ∧ portBundles 21 = [74, 75] ∧
      portBundles 5 = [20, 21, 22, 23] ∧ (d []).servedPort 21 = some 21 ∧ (d [74, 75]).servedPort 21 = some 16 ∧
      (d [20, 21, 22, 23]).servedPort 5 = some 4 ∧ (d [20]).bundleFor 5 4 = some 22 := by decide +kernel

/-- Places in a manger, by hand from R437, R438 and R441; a column's banks all differ (R439); a matrix in a tile of each width and through
the network of a slalom unit comes out transposed (R440, R443). -/
theorem test_manger :
    linearPlace 0x1234 = { bank := 1, off := 308 } ∧ tilePlace 2 3 14 = { bank := 1, off := 70 } ∧ highPlace 2 3 14 = { bank := 9, off := 102 } ∧
      ((List.range 16).map fun r => (tilePlace 0 r 5).bank).Nodup ∧
      (∀ w ∈ [1, 2, 4], mangerTurn w 3 [[1, 2, 3], [4, 5, 6]] = [[1, 4], [2, 5], [3, 6]]) ∧ slalomFrom 16 (3, 14) = (14, 3) ∧
      slalomTurn 2 [[1, 2], [3, 4]] = [[1, 3], [2, 4]] := by decide +kernel

/-- A tow descriptor, from R536: loft to port with CHK and LAST, to gatehouse link 47, 65,536 bytes. -/
theorem test_tow_layout :
    let t : TowDesc := { op := 3, hb := false, chk := true, last := true, kind := 4, dest := 47, len := 65536, src := 64, dst := 0, ctx := 5, seg := 1 }
    t.bytes = [0x63, 4, 47, 0, 0, 0, 1, 0, 64, 0, 0, 0, 0, 0, 0, 0] ++ zeros 8 ++ [5, 0, 1, 0, 0, 0, 0, 0] ∧ towOfBytes t.bytes = t := by
  decide +kernel

/-- A JRETIRE record's one piece, from R562 and R563: type 8, COMMIT, 32 bytes with its header. -/
theorem test_journal_layout :
    ({ seq := 0x0102, sblk := 0, page := 0, off := 0, body := JBody.jretire 9 } : JRec).pieces =
      [[0x08, 0x01, 32, 0, 0, 0, 0, 0, 0x02, 0x01, 0, 0, 0, 0, 0, 0, 9] ++ zeros 15] := by decide +kernel

/-- An index record, from R67 and R68: paddock 5, a small value of 4 bytes in slot 2 of stall 7, granule 3. -/
theorem test_record_layout :
    let r := { freshRec 5 6 key0 4 8 with small := true, bin := some { stall := 7, slot := 2, first := 3, count := 1 },
                                          segs := [{ stall := 7, slot := 2, st := 0 }] }
    slice 8 16 (encodeRec r) = [5, 0x10, 1, 1, 6, 0, 0, 0, 4, 0, 0, 0, 0, 0, 0, 0] ∧ slice 32 1 (encodeRec r) = [8] ∧
      slice 48 2 (encodeRec r) = [3, 0] ∧ slice 64 2 (encodeRec r) = [0x61, 0] ∧ slice 320 4 (encodeRec r) = [7, 8, 0, 0] ∧
      (encodeRec r).length = 512 := by decide +kernel

/-- Nothing of the table has bits (Decode). -/
theorem test_no_words : decodeTableWord 32 0 = none := by decide

/-- The queue's front is taken by a step, and the rest waits. -/
theorem test_step : (match step { st dev0 with pending := [.urgentWindow, .waiterRelease] } with
    | .next t => t.pending
    | _ => []) = [.waiterRelease] := by decide +kernel

end Sys2Proof.Tests
end

section
/-! Sessions that open and close (R209, R211, R217–R220, R236, R773): what a write of SES_CTRL does to a CLOSED and to an OPEN session, what
ABORT leaves of a session's commands, and when a closing session settles. -/

namespace Sys2Proof.Machine

open Sys2Proof

/-! ### The register -/

/-- SES_CTRL as SESSION_OPEN writes it. -/
theorem sesOpenWord_bits : ∀ abort pcie : Bool, let v := (BitVec.ofNat 32 (1 + 2 * b2n abort + 4 * b2n pcie)).toNat
    bit v 0 = true ∧ bit v 1 = abort ∧ bit v 2 = pcie := by decide

/-- SES_CTRL as SESSION_CLOSE writes it. -/
theorem sesCloseWord_bits : ∀ abort pcie : Bool, let v := (BitVec.ofNat 32 (2 * b2n abort + 4 * b2n pcie)).toNat
    bit v 0 = false ∧ bit v 1 = abort ∧ bit v 2 = pcie := by decide

/-- A command that writes SES_CTRL of session n while the blocks are out of reset. -/
theorem doesThen_sesCtrl (i : Instr) (s : State) (p : Path) (n v : Nat) (P : Dev → Prop) (hu : s.Up) (hb : s.dev.glb.blocks = true)
    (hn : n < 512) (he : exec i s = s.writeReg p (sesCtrlOff n) v)
    (h : P (s.dev.counted.sesCtrlWrite n (BitVec.ofNat 32 v).toNat)) : DoesThen i s P := by
  obtain ⟨ho, hset, hw⟩ := sesOff n hn
  refine writeReg_then i s p _ v P hu hb he ho ?_
  rw [hset, hw]
  exact h

/-- The fields of SES_CTRL but OPEN: ABORT holds as written, PCIE only where the session is CLOSED (R209, R212). -/
def Dev.setCtrl (d : Dev) (n : Nat) (abort pcie : Bool) : Dev :=
  d.updSes n fun x => { x with abort := abort, pcie := if x.st = .closed then pcie else x.pcie }

@[simp] theorem Dev.setCtrl_self (d : Dev) (n : Nat) (abort pcie : Bool) : (d.setCtrl n abort pcie).ses n =
    { d.ses n with abort := abort, pcie := if (d.ses n).st = .closed then pcie else (d.ses n).pcie } := Dev.updSes_self _ _ _

theorem Dev.setCtrl_other (d : Dev) (n m : Nat) (abort pcie : Bool) (h : m ≠ n) : (d.setCtrl n abort pcie).ses m = d.ses m :=
  Dev.updSes_other _ _ _ _ h

/-- OPEN = 1 in READY opens a CLOSED session (R211). -/
theorem sesCtrlWrite_opens (d : Dev) (n v : Nat) (hst : (d.ses n).st = .closed) (ho : bit v 0 = true) (hr : d.bru.st = 11) :
    d.sesCtrlWrite n v = (d.setCtrl n (bit v 1) (bit v 2)).sesOpen n := by
  simp [Dev.sesCtrlWrite, Dev.setCtrl, hst, ho, hr]

/-- Before READY a CLOSED session takes the fields alone (R773). -/
theorem sesCtrlWrite_notReady (d : Dev) (n v : Nat) (hst : (d.ses n).st = .closed) (hr : d.bru.st ≠ 11) :
    d.sesCtrlWrite n v = d.setCtrl n (bit v 1) (bit v 2) := by
  simp [Dev.sesCtrlWrite, Dev.setCtrl, hst, hr]

/-- OPEN = 0 closes an OPEN session (R217). -/
theorem sesCtrlWrite_closes (d : Dev) (n v : Nat) (hst : (d.ses n).st = .opened) (ho : bit v 0 = false) :
    d.sesCtrlWrite n v = (d.setCtrl n (bit v 1) (bit v 2)).sesClose n := by
  simp [Dev.sesCtrlWrite, Dev.setCtrl, hst, ho]

section Rows

variable (s : State) (p : Path) (n : Nat) (pcie abort : Bool) (P : Dev → Prop) (hu : s.Up) (hb : s.dev.glb.blocks = true) (hn : n < 512)

include hu hb hn

/-- SESSION_OPEN of a CLOSED session in READY (R211). -/
theorem doesThen_sessionOpen (hst : (s.dev.ses n).st = .closed) (hr : s.dev.bru.st = 11)
    (h : P ((s.dev.counted.setCtrl n abort pcie).sesOpen n)) : DoesThen (.sessionOpen p n pcie abort) s P := by
  refine doesThen_sesCtrl _ s p n _ P hu hb hn rfl ?_
  obtain ⟨h0, h1, h2⟩ := sesOpenWord_bits abort pcie
  rw [sesCtrlWrite_opens s.dev.counted n _ hst h0 hr, h1, h2]
  exact h

/-- SESSION_OPEN of a CLOSED session before READY (R773). -/
theorem doesThen_sessionOpen_notReady (hst : (s.dev.ses n).st = .closed) (hr : s.dev.bru.st ≠ 11)
    (h : P (s.dev.counted.setCtrl n abort pcie)) : DoesThen (.sessionOpen p n pcie abort) s P := by
  refine doesThen_sesCtrl _ s p n _ P hu hb hn rfl ?_
  obtain ⟨_, h1, h2⟩ := sesOpenWord_bits abort pcie
  rw [sesCtrlWrite_notReady s.dev.counted n _ hst hr, h1, h2]
  exact h

/-- SESSION_CLOSE of an OPEN session (R217). -/
theorem doesThen_sessionClose (hst : (s.dev.ses n).st = .opened) (h : P ((s.dev.counted.setCtrl n abort pcie).sesClose n)) :
    DoesThen (.sessionClose p n pcie abort) s P := by
  refine doesThen_sesCtrl _ s p n _ P hu hb hn rfl ?_
  obtain ⟨h0, h1, h2⟩ := sesCloseWord_bits abort pcie
  rw [sesCtrlWrite_closes s.dev.counted n _ hst h0, h1, h2]
  exact h

end Rows

/-! ### A session that settles -/

/-- The queue pairs of a session that leave STOPPING when it settles (R235). -/
def Dev.emptied (d : Dev) (n : Nat) : List Nat :=
  (d.qps.filter fun q => q.1 / 64 == n && q.2.st == .stopping && (d.qpCmds n (q.1 % 64)).isEmpty).map Prod.fst

/-- A session leaves CLOSING: its commands are discarded and counted, its queue pairs go IDLE (R220, R221). -/
def Dev.shut (d : Dev) (n : Nat) : Dev :=
  let e := (((d.cmds.filter fun c => c.ses == n).foldl (fun d c => (d.dropCmd c.id).countLost n) d).leaveRound).updSes n
    fun x => { x with st := .closed, hold := none, clinkNone := true }
  ((e.qps.filter fun q => q.1 / 64 == n).map Prod.fst).foldl Dev.qpIdle e

theorem settleSession_eq (d : Dev) (n : Nat) : d.settleSession n =
    let e := (d.emptied n).foldl Dev.qpIdle d
    if (e.ses n).st = .closing ∧ !(e.cmds.any (e.keepsOpen n)) then e.shut n else e := rfl

/-- The queue pair of a command is not empty. -/
theorem dqp_notMem_emptied (d : Dev) (n : Nat) (c : Cmd) (hc : c ∈ d.cmds) (hs : c.ses = n) : dqp c.ses c.qp ∉ d.emptied n := by
  intro hm
  obtain ⟨⟨q, y⟩, hq, hqc⟩ := List.mem_map.1 hm
  obtain ⟨_, hq⟩ := List.mem_filter.1 hq
  simp only [Bool.and_eq_true, beq_iff_eq, List.isEmpty_iff] at hq
  obtain ⟨⟨hses, _⟩, hnone⟩ := hq
  have hqp : q % 64 = c.qp := by simp only [dqp] at hqc; omega
  have hmem : c ∈ d.qpCmds n (q % 64) := List.mem_filter.2 ⟨hc, by simp [hs, hqp]⟩
  rw [hnone] at hmem
  exact List.not_mem_nil hmem

/-- Queue pairs that leave STOPPING change nothing in whether a command keeps its session open. -/
theorem keepsOpen_emptied (d : Dev) (n : Nat) (c : Cmd) (hc : c ∈ d.cmds) :
    ((d.emptied n).foldl Dev.qpIdle d).keepsOpen n c = d.keepsOpen n c := by
  unfold Dev.keepsOpen
  by_cases hs : c.ses = n
  · rw [(qpIdle_frame (d.emptied n) d).2.2.1 _ (dqp_notMem_emptied d n c hc hs)]
  · rw [beq_false_of_ne hs, Bool.false_and, Bool.false_and]

/-- While a command keeps a session open, settling it changes no session and no command (R220). -/
theorem settleSession_stays (d : Dev) (n : Nat) (h : ∃ c ∈ d.cmds, d.keepsOpen n c = true) :
    (∀ m, (d.settleSession n).ses m = d.ses m) ∧ (d.settleSession n).cmds = d.cmds := by
  obtain ⟨c, hc, hk⟩ := h
  have hframe := (qpIdle_frame (d.emptied n) d).1
  have hkeep := keepsOpen_emptied d n c hc
  rw [settleSession_eq]
  generalize (d.emptied n).foldl Dev.qpIdle d = e at hframe hkeep
  have hcmds : e.cmds = d.cmds := by rw [hframe]
  have hany : e.cmds.any (e.keepsOpen n) = true := List.any_eq_true.2 ⟨c, hcmds ▸ hc, hkeep.trans hk⟩
  simp only [hany, Bool.not_true, Bool.false_eq_true, and_false, if_false]
  exact ⟨fun m => by rw [hframe]; rfl, hcmds⟩

/-- Commands discarded by their identifiers are gone. -/
theorem mem_discard (n : Nat) (l : List Cmd) (d : Dev) (z : Cmd) (h : z ∈ (l.foldl (fun d c => (d.dropCmd c.id).countLost n) d).cmds) :
    z ∈ d.cmds ∧ z ∉ l := by
  induction l generalizing d with
  | nil => exact ⟨h, List.not_mem_nil⟩
  | cons a l ih =>
    obtain ⟨hz, hl⟩ := ih _ h
    obtain ⟨hz, hid⟩ := List.mem_filter.1 (show z ∈ d.cmds.filter fun x => x.id != a.id from hz)
    refine ⟨hz, fun hm => ?_⟩
    rcases List.mem_cons.1 hm with rfl | hm
    · simp at hid
    · exact hl hm

/-- Every queue pair of a session goes IDLE, those not listed too: they are at their reset values. -/
theorem qpIdle_all (d : Dev) (n q : Nat) (hq : q / 64 = n) :
    (((d.qps.filter fun q => q.1 / 64 == n).map Prod.fst).foldl Dev.qpIdle d).qp q = (d.qp q).idle := by
  obtain ⟨_, hin, hout, _⟩ := qpIdle_frame ((d.qps.filter fun q => q.1 / 64 == n).map Prod.fst) d
  by_cases hm : q ∈ (d.qps.filter fun q => q.1 / 64 == n).map Prod.fst
  · exact hin q hm
  · have hreset : d.qp q = Qp.reset := (SMap.get_mem d.qps q Qp.reset).resolve_right fun h =>
      hm (List.mem_map.2 ⟨_, List.mem_filter.2 ⟨h, by simpa using hq⟩, rfl⟩)
    rw [hout q hm, hreset]
    rfl

/-- What a session is when it has left CLOSING (R220). -/
theorem shut_spec (d : Dev) (n : Nat) : ((d.shut n).ses n).st = .closed ∧ ((d.shut n).ses n).hold = none ∧
    (∀ q, q / 64 = n → (d.shut n).qp q = (d.qp q).idle) ∧ ∀ c ∈ (d.shut n).cmds, c.ses ≠ n := by
  unfold Dev.shut
  dsimp only
  have hqps := (discard_frame n (d.cmds.filter fun c => c.ses == n) d).2
  have hmem := mem_discard n (d.cmds.filter fun c => c.ses == n) d
  generalize (d.cmds.filter fun c => c.ses == n).foldl (fun d c => (d.dropCmd c.id).countLost n) d = f at hqps hmem ⊢
  have hses := Dev.updSes_self f.leaveRound n fun x => { x with st := .closed, hold := none, clinkNone := true }
  have hqp : ∀ q, (f.leaveRound.updSes n fun x => { x with st := .closed, hold := none, clinkNone := true }).qp q = d.qp q := fun q => by
    unfold Dev.qp
    rw [← hqps]
    rfl
  have hcmds : (f.leaveRound.updSes n fun x => { x with st := .closed, hold := none, clinkNone := true }).cmds = f.cmds := rfl
  generalize f.leaveRound.updSes n (fun x => { x with st := .closed, hold := none, clinkNone := true }) = e at hses hqp hcmds ⊢
  have hall := qpIdle_all e n
  have hframe := (qpIdle_frame ((e.qps.filter fun q => q.1 / 64 == n).map Prod.fst) e).1
  generalize ((e.qps.filter fun q => q.1 / 64 == n).map Prod.fst).foldl Dev.qpIdle e = t at hall hframe ⊢
  have ht : t.ses n = e.ses n := by rw [hframe]; rfl
  refine ⟨by rw [ht, hses], by rw [ht, hses], fun q hq => by rw [hall q hq, hqp], fun c hc hn => ?_⟩
  rw [hframe] at hc
  obtain ⟨hd, hl⟩ := hmem c (hcmds ▸ hc)
  exact hl (List.mem_filter.2 ⟨hd, by simpa using hn⟩)

/-- A closing session that no command keeps open is CLOSED by settling (R220, R221). -/
theorem settleSession_shuts (d : Dev) (n : Nat) (hst : (d.ses n).st = .closing) (h : ∀ c ∈ d.cmds, d.keepsOpen n c = false) :
    ((d.settleSession n).ses n).st = .closed ∧ ((d.settleSession n).ses n).hold = none ∧
    (∀ q, q / 64 = n → (d.settleSession n).qp q = (d.qp q).idle) ∧ ∀ c ∈ (d.settleSession n).cmds, c.ses ≠ n := by
  obtain ⟨hframe, hin, hout, _⟩ := qpIdle_frame (d.emptied n) d
  have hkeep := keepsOpen_emptied d n
  rw [settleSession_eq]
  generalize (d.emptied n).foldl Dev.qpIdle d = e at hframe hin hout hkeep
  have hses : (e.ses n).st = .closing := by rw [hframe]; exact hst
  have hnone : e.cmds.any (e.keepsOpen n) = false := by
    refine List.any_eq_false.2 fun c hc => ?_
    rw [hframe] at hc
    rw [hkeep c hc, h c hc]
    exact Bool.false_ne_true
  have hidle : ∀ q, (e.qp q).idle = (d.qp q).idle := fun q => by
    by_cases hq : q ∈ d.emptied n
    · rw [hin q hq, Qp.idle_idle]
    · rw [hout q hq]
  dsimp only
  rw [if_pos ⟨hses, by rw [hnone]; rfl⟩]
  obtain ⟨h1, h2, h3, h4⟩ := shut_spec e n
  exact ⟨h1, h2, fun q hq => (h3 q hq).trans (hidle q), h4⟩

/-! ### ABORT -/

/-- The end of a command is in its own records (those of its identifier). -/
theorem finish_cmds (d : Dev) (c st b i : Nat) : (d.finish c st b i).cmds = (d.updCmd c fun x => x.done st b i).cmds := by
  unfold Dev.finish
  cases h : d.findCmd c with
  | none =>
    refine List.map_congr_left fun x hx => ?_
    have hid : x.id ≠ c := by simpa using List.find?_eq_none.1 h x hx
    rw [if_neg hid, if_neg hid]
  | some y =>
    have hrel : (d.releaseWb y true).cmds = _ := congrArg Dev.cmds (Dev.releaseWb_frame d y true).1
    rw [Dev.findCmd_id d c y h] at hrel
    change (d.releaseWb y true).cmds.map _ = _
    rw [hrel]
    simp only [Dev.updCmd, List.map_map]
    refine List.map_congr_left fun x _ => ?_
    by_cases hid : x.id = c
    · simp only [Function.comp_apply, if_pos hid]
      rfl
    · simp only [Function.comp_apply, if_neg hid]

/-- The early end of a command is in its own records. -/
theorem abort_cmds (d : Dev) (c st : Nat) : ∃ b i, (d.abort c st).cmds =
    (d.updCmd c fun x => ({ x with outLeft := [] } : Cmd).done st b i).cmds := by
  obtain ⟨b, i, h⟩ : ∃ b i, d.abort c st =
      ((d.undelete c).updCmd c fun x => { x with outLeft := [], effected := true }).finish c st b i := ⟨_, _, rfl⟩
  refine ⟨b, i, ?_⟩
  rw [h, finish_cmds, d.undelete_frame c]
  simp only [Dev.updCmd, List.map_map]
  refine List.map_congr_left fun x _ => ?_
  by_cases hid : x.id = c
  · simp only [Function.comp_apply, if_pos hid]
    rfl
  · simp only [Function.comp_apply, if_neg hid]

/-- Closing with ABORT either leaves every record or ends those of the command's identifier, and it leaves no command that was
not yet admitted (R218, R219). -/
theorem closeCmd_cmds (d : Dev) (c : Cmd) : ((d.closeCmd c).cmds = d.cmds ∧ isPending c = false) ∨
    ∃ f : Cmd → Cmd, (d.closeCmd c).cmds = (d.updCmd c.id f).cmds ∧ ∀ x, (f x).id = x.id ∧ (f x).ses = x.ses ∧ (f x).stage = .ended := by
  unfold Dev.closeCmd
  split
  · exact .inr ⟨_, finish_cmds _ _ _ _ _, fun _ => ⟨rfl, rfl, rfl⟩⟩
  · rename_i hp
    split
    · exact .inl ⟨rfl, by simpa using hp⟩
    · obtain ⟨b, i, h⟩ := abort_cmds d c.id Status.aborted.code
      exact .inr ⟨_, h, fun _ => ⟨rfl, rfl, rfl⟩⟩

/-- A command after the close: it has ended, or its record is one of before, of no command in `l` that was not yet admitted. -/
def Survives (l : List Cmd) (d : Dev) (z : Cmd) : Prop := z.stage = .ended ∨ z ∈ d.cmds ∧ ∀ c ∈ l, isPending c = true → z.id ≠ c.id

theorem closeCmd_survives (d : Dev) (c z : Cmd) (hz : z ∈ (d.closeCmd c).cmds) : Survives [c] d z := by
  rcases closeCmd_cmds d c with ⟨hsame, hp⟩ | ⟨f, hf, hend⟩
  · refine .inr ⟨hsame ▸ hz, fun k hk hpk => ?_⟩
    rw [List.mem_singleton.1 hk, hp] at hpk
    cases hpk
  · rw [hf] at hz
    obtain ⟨x, hx, rfl⟩ := List.mem_map.1 (show z ∈ d.cmds.map fun x => if x.id = c.id then f x else x from hz)
    by_cases hid : x.id = c.id
    · rw [if_pos hid]
      exact .inl (hend x).2.2
    · rw [if_neg hid]
      exact .inr ⟨hx, fun k hk _ => by rw [List.mem_singleton.1 hk]; exact hid⟩

theorem closeAll_survives (l : List Cmd) (d : Dev) (z : Cmd) (hz : z ∈ (l.foldl (fun d c => d.closeCmd c) d).cmds) : Survives l d z := by
  induction l generalizing d with
  | nil => exact .inr ⟨hz, fun _ h => absurd h List.not_mem_nil⟩
  | cons a l ih =>
    rcases ih (d.closeCmd a) hz with he | ⟨hm, hl⟩
    · exact .inl he
    · rcases closeCmd_survives d a z hm with he | ⟨hd, ha⟩
      · exact .inl he
      · refine .inr ⟨hd, fun c hc => ?_⟩
        rcases List.mem_cons.1 hc with rfl | hc
        · exact ha c (List.mem_singleton.2 rfl)
        · exact hl c hc

/-- After a close with ABORT no command of the session is left that was not admitted (R218). -/
theorem closeAll_notPending (d : Dev) (n : Nat) (z : Cmd)
    (hz : z ∈ ((d.cmds.filter fun c => c.ses == n).foldl (fun d c => d.closeCmd c) d).cmds) (hn : z.ses = n) : isPending z = false := by
  rcases closeAll_survives _ d z hz with he | ⟨hd, hl⟩
  · simp [isPending, he]
  · by_contra hp
    exact hl z (List.mem_filter.2 ⟨hd, by simpa using hn⟩) (by simpa using hp) rfl

/-! ### A session that closes -/

/-- CLOSE_MODE is ABORT: every command of the session has been closed before it settles (R218, R219). -/
theorem closeRun_abort (d : Dev) (n : Nat) (h : (d.ses n).abort = true) :
    d.closeRun n = ((d.cmds.filter fun c => c.ses == n).foldl (fun d c => d.closeCmd c) d).settleSession n := by
  simp [Dev.closeRun, h]

/-- CLOSE_MODE is DRAIN, or no command is there to close: the session settles as it is. -/
theorem closeRun_settles (d : Dev) (n : Nat) (h : (d.ses n).abort = true → ∀ c ∈ d.cmds, c.ses ≠ n) :
    d.closeRun n = d.settleSession n := by
  cases ha : (d.ses n).abort with
  | false => simp [Dev.closeRun, ha]
  | true =>
    have hnil : (d.cmds.filter fun c => c.ses == n) = [] := List.filter_eq_nil_iff.2 fun c hc => by simpa using h ha c hc
    rw [closeRun_abort d n ha, hnil]
    rfl

/-- With ABORT a closing session that has commands keeps CLOSING, and those not yet admitted have ended (R218–R220). -/
theorem closeRun_aborts (d : Dev) (n : Nat) (ha : (d.ses n).abort = true) (hc : ∃ c ∈ d.cmds, c.ses = n) :
    (∀ m, (d.closeRun n).ses m = d.ses m) ∧
    (∀ c y, d.findCmd c = some y → y.ses = n → (∀ z ∈ d.cmds, z.id = c → isPending z = true) → (d.closeRun n).Ended c Status.aborted.code 0 0) ∧
    ∀ c, (∀ z ∈ d.cmds, z.id = c → z.ses ≠ n) → (d.closeRun n).findCmd c = d.findCmd c := by
  rw [closeRun_abort d n ha]
  have hmem : ∀ c, c ∈ (d.cmds.filter fun c => c.ses == n) ↔ c ∈ d.cmds ∧ c.ses = n := fun c => by simp
  obtain ⟨hother, hses, hend⟩ := closeAll (d.cmds.filter fun c => c.ses == n) d
    fun c hm => findCmd_some_of_mem d c ((hmem c).1 hm).1
  have hpend := closeAll_notPending d n
  have hmap := closeAll_ses (d.cmds.filter fun c => c.ses == n) d
  generalize (d.cmds.filter fun c => c.ses == n).foldl (fun d c => d.closeCmd c) d = e at hother hses hend hpend hmap ⊢
  have hkeep : ∃ c ∈ e.cmds, e.keepsOpen n c = true := by
    obtain ⟨c, hcd, hcn⟩ := hc
    have hin : n ∈ e.cmds.map Cmd.ses := hmap ▸ List.mem_map.2 ⟨c, hcd, hcn⟩
    obtain ⟨z, hz, hzn⟩ := List.mem_map.1 hin
    exact ⟨z, hz, by simp [Dev.keepsOpen, hzn, hpend z hz hzn]⟩
  obtain ⟨hst, hcmds⟩ := settleSession_stays e n hkeep
  have hfind : ∀ c, (e.settleSession n).findCmd c = e.findCmd c := fun c => by unfold Dev.findCmd; rw [hcmds]
  refine ⟨fun m => (hst m).trans (hses m), fun c y hy hyn hz => ?_, fun c hz => ?_⟩
  · unfold Dev.Ended
    rw [hfind]
    exact hend c (fun z hm => hz z ((hmem z).1 hm).1)
      (.inl ⟨y, (hmem y).2 ⟨Dev.findCmd_mem d c y hy, hyn⟩, Dev.findCmd_id d c y hy⟩)
  · rw [hfind]
    exact hother c fun z hm hid => hz z ((hmem z).1 hm).1 hid ((hmem z).1 hm).2

/-- An OPEN session none of whose commands will still be admitted or complete is CLOSED at once (R217, R220). -/
theorem sesClose_shuts (d : Dev) (n : Nat)
    (h : ∀ c ∈ d.cmds, c.ses = n → (d.ses n).abort = false ∧ isPending c = true ∧ (d.qp (dqp c.ses c.qp)).st = .error) :
    ((d.sesClose n).ses n).st = .closed ∧ ((d.sesClose n).ses n).hold = none ∧ (∀ q, q / 64 = n → (d.sesClose n).qp q = (d.qp q).idle) ∧
    (∀ c ∈ (d.sesClose n).cmds, c.ses ≠ n) ∧ ∀ m, m ≠ n → (d.sesClose n).ses m = d.ses m := by
  have habort : (d.ses n).abort = true → ∀ c ∈ d.cmds, c.ses ≠ n := fun ha c hc hn => by
    rw [(h c hc hn).1] at ha
    cases ha
  have hkeep : ∀ c ∈ d.cmds, d.keepsOpen n c = false := fun c hc => by
    unfold Dev.keepsOpen
    by_cases hn : c.ses = n
    · obtain ⟨_, hp, he⟩ := h c hc hn
      simp [hp, he]
    · rw [beq_false_of_ne hn, Bool.false_and]
  unfold Dev.sesClose
  rw [closeRun_settles _ n (by rw [Dev.updSes_self]; exact habort)]
  obtain ⟨h1, h2, h3, h4⟩ := settleSession_shuts (d.updSes n fun x => { x with st := .closing }) n (by rw [Dev.updSes_self]) hkeep
  exact ⟨h1, h2, h3, h4, fun m hm => ((settle_spec _ n).1 m hm).trans (Dev.updSes_other _ _ _ _ hm)⟩

/-- With DRAIN a session that a command keeps open waits in CLOSING, its commands as they were (R218, R220). -/
theorem sesClose_drains (d : Dev) (n : Nat) (ha : (d.ses n).abort = false) (h : ∃ c ∈ d.cmds, d.keepsOpen n c = true) :
    ((d.sesClose n).ses n).st = .closing ∧ (d.sesClose n).cmds = d.cmds ∧ ∀ m, m ≠ n → (d.sesClose n).ses m = d.ses m := by
  unfold Dev.sesClose
  rw [closeRun_settles _ n (by rw [Dev.updSes_self]; exact fun h => absurd (ha.symm.trans h) Bool.false_ne_true)]
  obtain ⟨hses, hcmds⟩ := settleSession_stays (d.updSes n fun x => { x with st := .closing }) n h
  exact ⟨by rw [hses, Dev.updSes_self], hcmds, fun m hm => (hses m).trans (Dev.updSes_other _ _ _ _ hm)⟩

/-- With ABORT a session that has commands waits in CLOSING, those not yet admitted ended with ST_ABORTED (R218–R220). -/
theorem sesClose_aborts (d : Dev) (n : Nat) (ha : (d.ses n).abort = true) (h : ∃ c ∈ d.cmds, c.ses = n) :
    ((d.sesClose n).ses n).st = .closing ∧ (∀ m, m ≠ n → (d.sesClose n).ses m = d.ses m) ∧
    (∀ c y, d.findCmd c = some y → y.ses = n → (∀ z ∈ d.cmds, z.id = c → isPending z = true) →
      (d.sesClose n).Ended c Status.aborted.code 0 0) ∧
    ∀ c, (∀ z ∈ d.cmds, z.id = c → z.ses ≠ n) → (d.sesClose n).findCmd c = d.findCmd c := by
  obtain ⟨hses, hend, hother⟩ := closeRun_aborts (d.updSes n fun x => { x with st := .closing }) n (by rw [Dev.updSes_self]; exact ha) h
  exact ⟨(congrArg Session.st (hses n)).trans (by rw [Dev.updSes_self]), fun m hm => (hses m).trans (Dev.updSes_other _ _ _ _ hm),
    hend, hother⟩

/-- What keeps a session open when it is closed without ABORT (R220). -/
theorem keepsOpen_of (d : Dev) (n : Nat) (c : Cmd) (hn : c.ses = n) (h : isPending c = false ∨ (d.qp (dqp c.ses c.qp)).st ≠ .error) :
    d.keepsOpen n c = true := by
  unfold Dev.keepsOpen
  rcases h with h | h
  · simp [hn, h]
  · rw [beq_false_of_ne h]
    simp [hn]

/-- Settles O42: a write of SES_CTRL to a CLOSED session opens it in READY and sets its fields alone before; one to an OPEN session closes
it, and the commands there are decide between CLOSED and CLOSING: no command keeps it open, one does under DRAIN, or ABORT has ended
those not yet admitted and they wait for their completions. -/
theorem sessionOpenClose : Obligations.SessionOpenClose := by
  unfold Obligations.SessionOpenClose
  intro s p n pcie abort hu hb hn
  dsimp only
  have hctrl := s.dev.counted.setCtrl_self n abort pcie
  have hother := fun m => s.dev.counted.setCtrl_other n m abort pcie
  refine ⟨fun hst hr => ?_, fun hst hr => ?_, fun hst hgone => ?_, fun hst hkeep => ?_⟩
  · refine doesThen_sessionOpen s p n pcie abort _ hu hb hn hst hr ?_
    have hpcie : (s.dev.counted.setCtrl n abort pcie |>.ses n).pcie = pcie := by rw [hctrl]; exact if_pos hst
    obtain ⟨h1, h2, h3, h4, h5, h6, h7⟩ := sesOpen_spec (s.dev.counted.setCtrl n abort pcie) n
    refine ⟨h1, h2.trans hpcie, by rw [h3, hctrl], h4, by rw [h5, hctrl]; rfl, fun q hq => ?_, fun m hm => (h6 m hm).trans (hother m hm), h7⟩
    rw [h7]
    exact find_filter_mod s.dev.qps n q hq
  · refine doesThen_sessionOpen_notReady s p n pcie abort _ hu hb hn hst hr ⟨?_, rfl⟩
    rw [hctrl]
    exact hst
  · refine doesThen_sessionClose s p n pcie abort _ hu hb hn hst ?_
    obtain ⟨h1, h2, h3, h4, h5⟩ := sesClose_shuts (s.dev.counted.setCtrl n abort pcie) n (by rw [hctrl]; exact hgone)
    exact ⟨h1, h2, h3, h4, fun m hm => (h5 m hm).trans (hother m hm)⟩
  · refine doesThen_sessionClose s p n pcie abort _ hu hb hn hst ?_
    obtain ⟨c, hc, hcn, hwhy⟩ := hkeep
    have habort : ((s.dev.counted.setCtrl n abort pcie).ses n).abort = abort := by rw [hctrl]
    cases abort with
    | false =>
      have hopen := keepsOpen_of s.dev n c hcn (hwhy.resolve_left Bool.false_ne_true)
      obtain ⟨h1, h2, h3⟩ := sesClose_drains (s.dev.counted.setCtrl n false pcie) n habort ⟨c, hc, hopen⟩
      refine ⟨h1, fun _ => h2, fun m hm => (h3 m hm).trans (hother m hm), fun h => absurd h Bool.false_ne_true, fun k y hy _ _ => ?_⟩
      unfold Dev.findCmd at hy ⊢
      rw [h2]
      exact hy
    | true =>
      obtain ⟨h1, h2, h3, h4⟩ := sesClose_aborts (s.dev.counted.setCtrl n true pcie) n habort ⟨c, hc, hcn⟩
      exact ⟨h1, fun h => absurd h.symm Bool.false_ne_true, fun m hm => (h2 m hm).trans (hother m hm), fun _ => h3,
        fun k y hy _ hz => (h4 k hz).trans hy⟩

end Sys2Proof.Machine
end

section
/-! Commands that end and leave (R334, R342, R371, R473–R476): the end of a command in the form of `EndFrame`, what delivering a completion
leaves alone, that a command that leaves is found no more, and what a completion adds to its tether. -/

namespace Sys2Proof.Machine

open Sys2Proof

/-! ### A command that ends -/

/-- A command that acts on the device alone, while the device runs (R729). -/
theorem does_run (i : Instr) (s : State) (f : Dev → Dev) (P : Dev → Prop) (hu : s.Up) (he : exec i s = s.run f) (hp : P (f s.dev)) :
    Does i s P := by
  refine ⟨f s.dev, ?_, hp⟩
  rw [he, State.run, show s.dev.glb.resetN = true from hu]
  rfl

/-- A flow stays in the weighted round while a command of it still waits (R379). -/
theorem finish_round (d : Dev) (c st b i : Nat) : (d.finish c st b i).arb.round =
    d.arb.round.filter fun f => (d.finish c st b i).cmds.any fun k => k.stage == .waiting && k.ses == f.1 && k.cls == f.2.1 := by
  unfold Dev.finish
  cases d.findCmd c with
  | none => rfl
  | some x =>
    have hround : (d.releaseWb x true).arb.round = d.arb.round := by rw [(Dev.releaseWb_frame d x true).1]
    rw [← hround]
    rfl

/-- The end of a command changes nothing but what `EndFrame` names. -/
theorem finish_endFrame (d : Dev) (c st b i : Nat) : EndFrame c d (d.finish c st b i) := by
  obtain ⟨hframe, hbarns, hcmds⟩ := d.finish_frame c st b i
  exact ⟨hframe, finish_round d c st b i, fun k hk => (hcmds k).trans (if_neg hk), hbarns⟩

/-! ### What keeps the tether unit -/

theorem Traffic.tth {d e : Dev} (h : Traffic d e) : e.tth = d.tth := by rw [h.frame]

theorem Fetches.tth {d e : Dev} (h : Fetches d e) : e.tth = d.tth := by rw [h.frame]

theorem SettleOnly.tth {d e : Dev} (h : SettleOnly d e) : e.tth = d.tth := by
  unfold SettleOnly at h
  rw [h]

/-- A completion entry takes a place in its ring and is sent (R254). -/
theorem writeEntry_fetches (d : Dev) (c : Cmd) : Fetches d (d.writeEntry c) := by
  unfold Dev.writeEntry
  dsimp only
  split
  · exact (updQp_fetches d _ _).trans (pcieSend_traffic _ _).fetches
  · refine Fetches.trans ?_ (sendSes_sends _ _ _).traffic.fetches
    exact ⟨rfl, fun _ => rfl, fun _ => rfl, rfl, ⟨[], (List.append_nil _).symm⟩, ⟨[], (List.append_nil _).symm⟩, rfl⟩

/-- A completion that goes out, or is counted as lost, leaves the tether unit alone. -/
theorem deliver_tth (d : Dev) (c : Cmd) : (d.deliver c).tth = d.tth := by
  unfold Dev.deliver
  split
  · split <;> rfl
  · split
    · exact (sendRsp_sends _ _ _ _ _ _ _).traffic.tth
    · exact (writeEntry_fetches d c).tth

/-! ### A command that leaves -/

/-- A session that leaves CLOSING gains no command. -/
theorem mem_cmds_of_shut (d : Dev) (n : Nat) (z : Cmd) (hz : z ∈ (d.shut n).cmds) : z ∈ d.cmds := by
  unfold Dev.shut at hz
  dsimp only at hz
  rw [(qpIdle_frame _ _).1] at hz
  exact (mem_discard n (d.cmds.filter fun c => c.ses == n) d z hz).1

/-- Settling a session adds no command. -/
theorem mem_cmds_of_settleSession (d : Dev) (n : Nat) (z : Cmd) (hz : z ∈ (d.settleSession n).cmds) : z ∈ d.cmds := by
  have hcmds : ((d.emptied n).foldl Dev.qpIdle d).cmds = d.cmds := by rw [(qpIdle_frame (d.emptied n) d).1]
  rw [settleSession_eq] at hz
  dsimp only at hz
  rw [← hcmds]
  split at hz
  · exact mem_cmds_of_shut _ n z hz
  · exact hz

/-- Settling a session brings no command back. -/
theorem findCmd_settleSession_none (d : Dev) (n c : Nat) (h : d.findCmd c = none) : (d.settleSession n).findCmd c = none :=
  List.find?_eq_none.2 fun z hz => List.find?_eq_none.1 h z (mem_cmds_of_settleSession d n z hz)

/-- Fetching brings no command by itself. -/
theorem Fetches.findCmd_none {d e : Dev} (h : Fetches d e) {c : Nat} (hd : d.findCmd c = none) : e.findCmd c = none := by
  have hmap := h.findCmd c
  rw [hd] at hmap
  exact Option.map_eq_none_iff.1 hmap

/-- What leaves before its session settles: the refund, the command's WRITEs, and the command itself (R371). -/
def Dev.refundAndDrop (d : Dev) (c : Cmd) : Dev :=
  let d := if c.slotHeld then d.updSes c.ses fun x => x.refund d.now (c.charged - c.body.actualCost (c.via == .push) c.storedRead c.bytes) else d
  ({ d with writes := d.writes.filter fun w => w.cmd != some c.id } : Dev).dropCmd c.id

theorem retireCmd_eq (d : Dev) (c : Cmd) : d.retireCmd c = ((d.refundAndDrop c).settleSession c.ses).wakeFetch c.ses := rfl

theorem refundAndDrop_tth (d : Dev) (c : Cmd) : (d.refundAndDrop c).tth = d.tth := by
  unfold Dev.refundAndDrop
  split <;> rfl

/-- A command that leaves changes nothing in the tether unit. -/
theorem retireCmd_tth (d : Dev) (c : Cmd) : (d.retireCmd c).tth = d.tth := by
  rw [retireCmd_eq, (wakeFetch_fetches _ _).tth, (settleSession_frame _ _).1.tth, refundAndDrop_tth]

/-- A command that leaves is found no more. -/
theorem findCmd_retireCmd_self (d : Dev) (c : Cmd) : (d.retireCmd c).findCmd c.id = none := by
  rw [retireCmd_eq]
  refine (wakeFetch_fetches _ _).findCmd_none (findCmd_settleSession_none _ _ _ ?_)
  exact (Dev.findCmd_dropCmd _ _ _).trans (if_pos rfl)

/-! ### The completion point -/

theorem tether_of_tth {d e : Dev} (h : e.tth = d.tth) (t : Nat) : e.tether t = d.tether t := by
  unfold Dev.tether
  rw [h]

/-- An add changes its counter and no other (R469). -/
theorem tether_tetherAddTo (d : Dev) (u n t : Nat) :
    (d.tetherAddTo u n).tether t = if t = u then d.tether u + BitVec.ofNat 64 n else d.tether t :=
  SMap.get_put _ _ _ _ _

/-- A command that completes is found no more. -/
theorem findCmd_completeCmd_self (d : Dev) (c : Cmd) : (d.completeCmd c).findCmd c.id = none := findCmd_retireCmd_self _ c

/-- A completion adds TADD to the tether it names where TETH = 1 and its status adds, and changes no other counter (R473–R476). -/
theorem tether_completeCmd (d : Dev) (c : Cmd) (t : Nat) : (d.completeCmd c).tether t =
    if c.body.teth = true ∧ addsTether c.status = true ∧ t = c.body.teth14 then d.tether t + BitVec.ofNat 64 c.body.tadd
    else d.tether t := by
  unfold Dev.completeCmd
  dsimp only
  rw [tether_of_tth ((retireCmd_tth _ c).trans (deliver_tth _ c))]
  by_cases hadd : c.body.teth = true ∧ addsTether c.status = true
  · obtain ⟨hteth, hst⟩ := hadd
    rw [if_pos ⟨hteth, hst⟩, tether_tetherAddTo]
    by_cases ht : t = c.body.teth14
    · rw [if_pos ht, if_pos ⟨hteth, hst, ht⟩, ht]
    · rw [if_neg ht, if_neg fun h => ht h.2.2]
  · rw [if_neg hadd, if_neg fun h => hadd ⟨h.1, h.2.1⟩]

/-- COMPLETE of a command that may complete, before what waited is let go on (R387). -/
theorem doesThen_complete (s : State) (c : Nat) (x : Cmd) (P : Dev → Prop) (hu : s.Up) (hx : s.dev.findCmd c = some x)
    (hc : s.dev.completable x = true) (h : P (s.dev.completeCmd x)) : DoesThen (.complete c) s P := by
  refine doesThen_run _ s (fun d => (d.completeOp c).letGo) (fun d => d.completeOp c) P hu rfl rfl ?_
  rw [Dev.completeOp, hx]
  dsimp only
  rw [if_pos hc]
  exact h

/-! ### NOP -/

/-- A NOP whose turn has come ends with ST_OK (R334). -/
theorem nopOp_ends (d : Dev) (c : Nat) (x : Cmd) (hx : d.findCmd c = some x) (hr : d.runnable x Opcode.nop.code = true) :
    d.nopOp c = d.finish c Status.ok.code 0 0 := by
  rw [Dev.nopOp, hx]
  exact if_pos hr

/-- Settles O8: a NOP only ends, which is the frame of every end; its completion, as that of any command with ST_OK, adds to the tether
it names and retires it. -/
theorem nopEnds : Obligations.NopEnds := by
  unfold Obligations.NopEnds
  intro s c x hu hx _
  refine ⟨fun hr => ?_, fun hst hc => ?_⟩
  · refine does_run _ s (fun d => d.nopOp c) _ hu rfl ?_
    rw [nopOp_ends s.dev c x hx hr]
    exact ⟨ended_finish _ _ _ _ _ x hx, finish_endFrame _ _ _ _ _⟩
  · refine doesThen_complete s c x _ hu hx hc ⟨Dev.findCmd_id _ _ _ hx ▸ findCmd_completeCmd_self s.dev x, fun t => ?_⟩
    have hadds : addsTether x.status = true := by rw [hst]; decide
    simp [tether_completeCmd, hadds]

end Sys2Proof.Machine
end

section
/-! The windows of the URGENT cap (R376, R377, R395): within a window nothing changes; past its end the window that holds the present
moment begins, aligned, with nothing used and the percentage written before it. -/

namespace Sys2Proof.Machine

open Sys2Proof

/-- Within its window the arbiter stays as it is (R377). -/
theorem rollWindow_of_lt (d : Dev) (h : d.now < d.arb.windowStart + 10000) : d.rollWindow = d := if_neg (by omega)

/-- A window that has ended gives way to the aligned one that holds the present moment (R377, R395). -/
theorem rollWindow_of_le (d : Dev) (h : d.arb.windowStart + 10000 ≤ d.now) :
    d.rollWindow = { d with arb := { d.arb with
      windowStart := d.now / 10000 * 10000, urgentUsed := 0, ucapNow := d.arb.ucapPct } } := if_pos h

/-- URGENT_WINDOW rolls the window of a device that runs, and does nothing else (R377). -/
theorem exec_urgentWindow (s : State) (hu : s.Up) : exec .urgentWindow s = .next (s.withDev s.dev.rollWindow) :=
  s.run_up Dev.rollWindow hu

/-- Settles O25: URGENT_WINDOW is one roll of the window, and the window that begins starts at the last multiple of 10,000 ns, which is
at most the present moment and less than 10,000 ns before it. -/
theorem urgentWindowAligned : Obligations.UrgentWindowAligned := by
  unfold Obligations.UrgentWindowAligned
  intro s hu
  rw [exec_urgentWindow s hu]
  refine ⟨fun hin => ?_, fun hover => ?_⟩
  · rw [rollWindow_of_lt s.dev hin]
    rfl
  · refine ⟨s.dev.now / 10000 * 10000, Nat.mul_mod_left _ _, Nat.div_mul_le_self _ _, Nat.lt_div_mul_add (by decide), ?_⟩
    rw [rollWindow_of_le s.dev hover]

end Sys2Proof.Machine
end

section
/-! Watermarks and the event queue (R838–R840, R846–R848, R905): what a crossing leaves, when a staged record enters the queue, and what
writes of WMK_EQ_POP and WMK_STATn do. -/

namespace Sys2Proof.Machine

open Sys2Proof

/-! ### Crossings -/

/-- A watermark whose LEVEL rises (R846). -/
def Wmk.risen (w : Wmk) : Wmk := { w with level := true, crossed := true, up := min (w.up + 1) 0xFFFF }

/-- A watermark whose LEVEL falls (R847). -/
def Wmk.fallen (w : Wmk) : Wmk := { w with level := false, dcrossed := true, down := min (w.down + 1) 0xFFFF }

/-- LEVEL rises where its condition holds, with a notice at a first crossing that asks for one (R846). -/
theorem watermarkUp_rises (d : Dev) (n : Nat) (hy : d.ytRun = true) (hl : (d.wmk n).level = false) (hr : d.wmkRises n = true) :
    d.watermarkUp n =
      if (d.wmk n).crossed = false ∧ (d.wmk n).noticeUp = true then (d.updWmk n Wmk.risen).notice n false else d.updWmk n Wmk.risen := by
  unfold Wmk.risen
  simp [Dev.watermarkUp, satAdd_16, hy, hl, hr]

/-- LEVEL falls where its condition holds, with a notice at a first crossing that asks for one (R847). -/
theorem watermarkDown_falls (d : Dev) (n : Nat) (hy : d.ytRun = true) (hl : (d.wmk n).level = true) (hf : d.wmkFalls n = true) :
    d.watermarkDown n =
      if (d.wmk n).dcrossed = false ∧ (d.wmk n).noticeDown = true then (d.updWmk n Wmk.fallen).notice n true else d.updWmk n Wmk.fallen := by
  unfold Wmk.fallen
  simp [Dev.watermarkDown, satAdd_16, hy, hl, hf]

/-- A change of watermark n by `f`, with a notice of it where `first` and `ask` call for one: the other watermarks stay, the notice waits
for its Pliop frame and stages its event record, and without it nothing but the watermarks changes. -/
theorem crossing_spec (d : Dev) (n : Nat) (f : Wmk → Wmk) (down first ask : Bool) :
    let e := if first = false ∧ ask = true then (d.updWmk n f).notice n down else d.updWmk n f
    e.wmk n = f (d.wmk n) ∧ (∀ m, m ≠ n → e.wmk m = d.wmk m) ∧
    (first = false → ask = true → n ∈ (if down then e.plp.downNotices else e.plp.upNotices) ∧
      ∃ v ∈ e.evq.staged, v.code = 0x0002 ∧ v.d0 = n) ∧
    (first = true ∨ ask = false → e = { d with wmks := e.wmks }) := by
  by_cases h : first = false ∧ ask = true
  · obtain ⟨hw, hn, hv⟩ := notice_spec (d.updWmk n f) n down
    simp only [if_pos h]
    refine ⟨?_, fun m hm => ?_, fun _ _ => ⟨hn, hv⟩, fun hno => ?_⟩
    · rw [wmk_of hw, Dev.updWmk_self]
    · rw [wmk_of hw, Dev.updWmk_other _ _ _ _ hm]
    · simp [h] at hno
  · simp only [if_neg h]
    exact ⟨d.updWmk_self n f, d.updWmk_other n f, fun h1 h2 => absurd ⟨h1, h2⟩ h, fun _ => d.updWmk_eq n f⟩

/-- The pins follow READY and LEVEL of watermark 2 while RESET_N is high (R905). -/
theorem pins_follow (d : Dev) (h : d.glb.resetN = true) : d.pinDevReady = d.glb.ready ∧ d.pinCritN = !(d.wmk 2).level := by
  simp [Dev.pinDevReady, Dev.pinCritN, h]

/-- Settles O50: a crossing is one change of its own watermark, followed by a notice only at a first crossing that asks for one. -/
theorem watermarkCrossings : Obligations.WatermarkCrossings := by
  unfold Obligations.WatermarkCrossings
  refine ⟨pins_follow, fun s n hu hy => ⟨fun hl hr => ?_, fun hl hf => ?_⟩⟩
  · refine does_run _ s (fun d => d.watermarkUp n) _ hu rfl ?_
    rw [watermarkUp_rises s.dev n hy hl hr]
    exact crossing_spec s.dev n Wmk.risen false _ _
  · refine does_run _ s (fun d => d.watermarkDown n) _ hu rfl ?_
    rw [watermarkDown_falls s.dev n hy hl hf]
    exact crossing_spec s.dev n Wmk.fallen true _ _

/-! ### Records enter the event queue -/

/-- The event queue without the staged record `v`. -/
def Evq.unstage (q : Evq) (v : Event) : Evq := { q with staged := q.staged.filter fun x => x.seq != v.seq }

section Enqueue

variable (d : Dev) (v : Event) (hv : nextEvent d.evq.staged = some v)

include hv

/-- The next record waits until it is 1 µs old (R838). -/
theorem eventEnqueue_waits (ht : d.now < v.stamp + 1000) : d.eventEnqueue = d := by
  simp [Dev.eventEnqueue, hv, ht]

/-- A record that finds the queue full is discarded and counted, and sets LOST (R839). -/
theorem eventEnqueue_full (ht : v.stamp + 1000 ≤ d.now) (hf : 4096 ≤ d.evq.records.length) :
    d.eventEnqueue = { d with evq := { d.evq.unstage v with lost := true, dropped := sat1 d.evq.dropped } } := by
  simp [Dev.eventEnqueue, Evq.unstage, hv, Nat.not_lt.2 ht, hf]

/-- A record that finds room enters behind the others; only one that finds the queue empty raises its interrupt (R838, R829). -/
theorem eventEnqueue_enters (ht : v.stamp + 1000 ≤ d.now) (hr : d.evq.records.length < 4096) :
    d.eventEnqueue =
      let d' : Dev := { d with evq := { d.evq.unstage v with records := d.evq.records ++ [v] } }
      if d.evq.records = [] then d'.msix 1 else d' := by
  simp [Dev.eventEnqueue, Evq.unstage, hv, Nat.not_lt.2 ht, Nat.not_le.2 hr]

end Enqueue

/-- EVENT_ENQUEUE of a device that runs. -/
theorem exec_eventEnqueue (s : State) (hu : s.Up) : exec .eventEnqueue s = .next (s.withDev s.dev.eventEnqueue) :=
  s.run_up Dev.eventEnqueue hu

/-! ### The registers -/

/-- WMK_EQ_POP drops the oldest record (R840). -/
theorem writeBlock_eqPop (d : Dev) (p : Path) :
    d.writeBlock p 0xB0004 (BitVec.ofNat 32 1) = { d with evq := { d.evq with records := d.evq.records.tail } } :=
  writeBlock_wmk d p _ _ (by decide) (by decide)

/-- A watermark whose CROSSED with UPCNT, and DCROSSED with DOWNCNT, are cleared as `up` and `down` ask (R848). -/
def Wmk.cleared (w : Wmk) (up down : Bool) : Wmk :=
  { w with crossed := w.crossed && !up, up := if up then 0 else w.up,
           dcrossed := w.dcrossed && !down, down := if down then 0 else w.down }

/-- WMK_STATn as WMK_CLEAR writes it. -/
theorem wmkClearWord_bits : ∀ up down : Bool, let v := (BitVec.ofNat 32 (2 ^ 30 * b2n up + 2 ^ 29 * b2n down)).toNat
    bit v 30 = up ∧ bit v 29 = down := by decide

/-- A write of WMK_STATn clears what its bits 30 and 29 name (R848). -/
theorem writeWmkN_stat (d : Dev) (n v : Nat) : d.writeWmkN n 8 v = d.updWmk n fun w => w.cleared (bit v 30) (bit v 29) := by
  unfold Dev.writeWmkN Wmk.cleared
  cases bit v 30 <;> cases bit v 29 <;> simp

/-- WMK_STAT of watermark n: its write reaches the watermark, and is no set-up write (R835). -/
theorem wmkStatOff_write (n : Nat) (hn : n < 17) : offsetOk (wmkStatOff n) = true ∧ notSetUp (wmkStatOff n) = true ∧
    ∀ (d : Dev) (p : Path) (w : Word), d.writeBlock p (wmkStatOff n) w = d.writeWmkN n 8 w.toNat := by
  have hk : wmkStatOff n = 0xB0108 + n * 16 := by rw [wmkStatOff, Nat.mod_eq_of_lt hn]
  rw [hk]
  refine ⟨by simp [offsetOk]; omega, by simp [notSetUp]; omega, fun d p w => ?_⟩
  rw [writeBlock_wmk d p _ w (by omega) (by omega), show (0xB0108 + n * 16) % 0x10000 = n * 16 + 0x108 by omega]
  have hnum : (n * 16 + 0x108 - 0x100) / 16 = n := by omega
  have hreg : (n * 16 + 0x108) % 16 = 8 := by omega
  simp only [Dev.writeWmk, hnum, hreg]
  exact if_pos (by omega)

/-- Settles O51: the three cases of a staged record are those of its age and of the room in the queue; neither register is a set-up
register, so its write changes nothing else. -/
theorem eventQueue : Obligations.EventQueue := by
  unfold Obligations.EventQueue
  refine ⟨fun s v hu hv => ⟨fun ht => ?_, fun ht hf => ?_, fun ht hr => ?_⟩, fun s p hu hb => ⟨?_, fun n up down hn => ?_⟩⟩
  · rw [exec_eventEnqueue s hu, eventEnqueue_waits s.dev v hv ht]
    rfl
  · rw [exec_eventEnqueue s hu, eventEnqueue_full s.dev v hv ht hf]
    rfl
  · refine ⟨_, exec_eventEnqueue s hu, ?_⟩
    rw [eventEnqueue_enters s.dev v hv ht hr]
    by_cases hq : s.dev.evq.records = []
    · rw [if_pos hq]
      exact ⟨(msix_rest _ 1).2.2, fun h => absurd hq h⟩
    · rw [if_neg hq]
      exact ⟨rfl, fun _ => rfl⟩
  · exact writeReg_then _ s p _ _ _ hu hb rfl rfl (writeBlock_eqPop s.dev p)
  · obtain ⟨ho, hset, hw⟩ := wmkStatOff_write n hn
    obtain ⟨hup, hdown⟩ := wmkClearWord_bits up down
    refine writeReg_then _ s p _ _ _ hu hb rfl ho ?_
    rw [hset, if_pos rfl, hw, writeWmkN_stat, hup, hdown]
    exact ⟨s.dev.updWmk_self n _, s.dev.updWmk_eq n _⟩

end Sys2Proof.Machine
end

section
/-! The whole step (R712, R729, R730, R766, R777, R795, R806): what each command can do to the queue, the boot flash and the stored copies,
and where a step stops. -/

namespace Sys2Proof.Machine

open Sys2Proof

/-! ### The shape of a step -/

/-- A command that acts on the device alone answers a next state with another device, or the device is held (R729, R730). -/
theorem exec_of_not_special (c : Instr) (s : State) (h : ¬ Instr.special c) :
    (∃ d, s.Up ∧ exec c s = .next { s with dev := d }) ∨ s.dev.glb.resetN = false ∧ exec c s = s.held := by
  obtain ⟨d, hd⟩ := exec_device c s h
  cases hr : s.dev.glb.resetN with
  | true => exact .inl ⟨d, hr, by rw [hd, hr]; rfl⟩
  | false => exact .inr ⟨rfl, by rw [hd, hr]; rfl⟩

/-- What a held device answers is the state it was in. -/
theorem eq_of_held (s t : State) (h : s.held = .next t) : t = s := by
  rcases s.held_cases with hh | hh <;> rw [hh] at h
  · exact (Host.Outcome.next.inj h).symm
  · cases h

/-- A row of the xSPI port answers what its function makes of the state, or the state it was in. -/
theorem runAll_cases (s t : State) (f : State → State) (h : s.runAll f = .next t) : t = f s ∨ t = s := by
  unfold State.runAll at h
  split at h
  · exact .inl (Host.Outcome.next.inj h).symm
  · exact .inr (eq_of_held s t h)

/-! ### The boot flash -/

theorem setFlash_wf (s : State) (a : Nat) (m : List Host.Cell) (hs : Memory.wf s.flash = true) (hm : Memory.wf m = true) :
    Memory.wf (s.setFlash a m).flash = true := by
  unfold State.setFlash
  split
  · exact hs
  · exact hm

@[simp] theorem mailboxOver_flash (s : State) (ok : Bool) (n : Nat) : (s.mailboxOver ok n).flash = s.flash := rfl

/-- A mailbox operation keeps the canonical form of the flash, whether it succeeds or not (R777). -/
theorem mailboxEnd_wf (s : State) (ok : Bool) (h : Memory.wf s.flash = true) : Memory.wf (s.mailboxEnd ok).flash = true := by
  unfold State.mailboxEnd
  dsimp only
  split
  · exact h
  · rw [mailboxOver_flash]
    refine setFlash_wf s _ _ h ?_
    split
    · exact Memory.wf_program _ _ _ h
    · exact Memory.wf_writeBytes _ _ _ h
  · rw [mailboxOver_flash]
    refine setFlash_wf s _ _ h ?_
    split
    · exact Memory.wf_erase _ _ _ h
    · exact Memory.wf_writeBytes _ _ _ h
  · exact h

/-- An operation torn by reset keeps the canonical form of the flash (R806). -/
theorem tearFlash_wf (s : State) (h : Memory.wf s.flash = true) : Memory.wf s.tearFlash.flash = true := by
  unfold State.tearFlash
  dsimp only
  split
  · exact h
  · exact setFlash_wf s _ _ h (Memory.wf_writeBytes _ _ _ h)
  · exact setFlash_wf s _ _ h (Memory.wf_writeBytes _ _ _ h)
  · exact h

/-! ### What a command leaves outside the device -/

@[simp] theorem setFlash_pending (s : State) (a : Nat) (m : List Host.Cell) : (s.setFlash a m).pending = s.pending := by
  unfold State.setFlash
  split <;> rfl

theorem mailboxEnd_pending (s : State) (ok : Bool) : (s.mailboxEnd ok).pending = s.pending := by
  unfold State.mailboxEnd
  dsimp only
  split
  · rfl
  · exact setFlash_pending s _ _
  · exact setFlash_pending s _ _
  · rfl

theorem copyWritten_rest (s : State) (ok : Bool) : (s.copyWritten ok).pending = s.pending ∧ (s.copyWritten ok).flash = s.flash := by
  unfold State.copyWritten
  split <;> exact ⟨rfl, rfl⟩

/-- Where RESET_N or a supply is lost, the flash is what the torn operation leaves, or as it was. -/
def TornAtMost (s t : State) : Prop :=
  t.pending = s.pending ∧ (t.flash = s.tearFlash.flash ∨ t.flash = s.flash)

theorem stop_torn (s : State) : TornAtMost s s.stop := ⟨(tear_dev s).2, .inl rfl⟩

/-- Every command but the end of a mailbox operation and the losses of RESET_N and of supply leaves queue and flash as they were; only
the end of a stored copy's write changes the copies. -/
theorem exec_outside (c : Instr) (s t : State) (h : exec c s = .next t) (hm : ∀ ok, c ≠ .mailboxDone ok) (hr : c ≠ .resetAssert)
    (hl : c ≠ .supplyLoss) :
    t.pending = s.pending ∧ t.flash = s.flash ∧ ((∀ ok, c ≠ .storedCopyWritten ok) → t.copies = s.copies) := by
  by_cases hs : Instr.special c
  · cases c <;> first | exact absurd hs id | skip
    case mailboxDone ok => exact absurd rfl (hm ok)
    case resetAssert => exact absurd rfl hr
    case supplyLoss => exact absurd rfl hl
    case storedCopyWritten ok =>
      rcases runAll_cases s t (fun s => s.copyWritten ok) h with rfl | rfl
      · exact ⟨(copyWritten_rest s ok).1, (copyWritten_rest s ok).2, fun hno => absurd rfl (hno ok)⟩
      · exact ⟨rfl, rfl, fun _ => rfl⟩
    case bringupStepDone r =>
      rcases runAll_cases s t (fun s => { s with dev := s.stepReport r }) h with rfl | rfl <;> exact ⟨rfl, rfl, fun _ => rfl⟩
    case resetRelease x =>
      change execResetRelease x s = _ at h
      unfold execResetRelease at h
      split at h
      · cases h; exact ⟨rfl, rfl, fun _ => rfl⟩
      · split at h <;> cases h
        exact ⟨rfl, rfl, fun _ => rfl⟩
    case sensorSample rs =>
      change execSensorSample rs s = _ at h
      unfold execSensorSample at h
      split at h
      · cases h
      · split at h
        · cases h; exact ⟨rfl, rfl, fun _ => rfl⟩
        · unfold State.run at h
          split at h
          · cases h; exact ⟨rfl, rfl, fun _ => rfl⟩
          · rw [eq_of_held s t h]; exact ⟨rfl, rfl, fun _ => rfl⟩
    case tapInstruction ir p =>
      change execTapInstruction ir p s = _ at h
      unfold execTapInstruction at h
      split at h
      · cases h
      · split at h <;> cases h
        exact ⟨rfl, rfl, fun _ => rfl⟩
  · rcases exec_of_not_special c s hs with ⟨d, _, hd⟩ | ⟨_, hd⟩ <;> rw [hd] at h
    · cases h; exact ⟨rfl, rfl, fun _ => rfl⟩
    · rw [eq_of_held s t h]; exact ⟨rfl, rfl, fun _ => rfl⟩

/-- RESET_ASSERT and SUPPLY_LOSS leave the queue, and tear at most the operation at the head of the port (R806). -/
theorem exec_stops (c : Instr) (s t : State) (h : exec c s = .next t) (hc : c = .resetAssert ∨ c = .supplyLoss) : TornAtMost s t := by
  rcases hc with rfl | rfl
  · change Host.Outcome.next (if s.dev.glb.resetN || s.dev.glb.railOut then s.stop else s) = _ at h
    cases h
    split
    · exact stop_torn s
    · exact ⟨rfl, .inr rfl⟩
  · change execSupplyLoss s = _ at h
    unfold execSupplyLoss at h
    cases h
    exact stop_torn s

/-- Settles O4: the three commands that are excepted are the only ones whose effect on the flash or, but for the end of a copy's write,
on the copies is not that of a device alone; those three leave the queue too. -/
theorem queueFlashAndCopiesKept : Obligations.QueueFlashAndCopiesKept := by
  unfold Obligations.QueueFlashAndCopiesKept
  refine ⟨fun c s t h => ?_, fun c s t h hm hr hl => (exec_outside c s t h hm hr hl).2⟩
  by_cases hst : c = .resetAssert ∨ c = .supplyLoss
  · exact (exec_stops c s t h hst).1
  · by_cases hm : ∃ ok, c = .mailboxDone ok
    · obtain ⟨ok, rfl⟩ := hm
      rcases runAll_cases s t (fun s => s.mailboxEnd ok) h with rfl | rfl
      · exact mailboxEnd_pending s ok
      · rfl
    · obtain ⟨hr, hl⟩ := not_or.1 hst
      exact (exec_outside c s t h (not_exists.1 hm) hr hl).1

/-- Every command keeps the canonical form of the flash. -/
theorem exec_keeps_flash_wf (c : Instr) (s t : State) (hw : Memory.wf s.flash = true) (h : exec c s = .next t) :
    Memory.wf t.flash = true := by
  by_cases hst : c = .resetAssert ∨ c = .supplyLoss
  · rcases (exec_stops c s t h hst).2 with hf | hf <;> rw [hf]
    · exact tearFlash_wf s hw
    · exact hw
  · by_cases hm : ∃ ok, c = .mailboxDone ok
    · obtain ⟨ok, rfl⟩ := hm
      rcases runAll_cases s t (fun s => s.mailboxEnd ok) h with rfl | rfl
      · exact mailboxEnd_wf s ok hw
      · exact hw
    · obtain ⟨hr, hl⟩ := not_or.1 hst
      rw [(exec_outside c s t h (not_exists.1 hm) hr hl).2.1]
      exact hw

/-- Settles O5: a tick leaves the flash, and so does every command but the end of a mailbox operation and the losses of RESET_N and of
supply, whose programs, erases and torn writes keep the form. -/
theorem stepKeepsFlashForm : Obligations.StepKeepsFlashForm := by
  unfold Obligations.StepKeepsFlashForm
  intro s t hw h
  unfold step at h
  split at h
  · cases h
    unfold tick
    split <;> exact hw
  · rename_i c rest _
    exact exec_keeps_flash_wf c { s with pending := rest } t hw h

/-- Settles O1: both clauses are the two branches of a step. -/
theorem stepTakesFront : Obligations.StepTakesFront := by
  unfold Obligations.StepTakesFront
  refine ⟨fun c rest s h => ?_, fun s h => ?_⟩
  · unfold step
    rw [h]
  · unfold step
    rw [h]
    unfold tick
    rfl

/-- Settles O2: reset lists no record, so each number has the record of reset. -/
theorem resetState : Obligations.ResetState := by
  unfold Obligations.ResetState
  refine ⟨rfl, rfl, rfl, rfl, rfl, rfl, rfl, fun n => ⟨rfl, rfl, rfl⟩, fun n => ⟨rfl, rfl, rfl⟩, fun q => rfl, fun t => rfl, fun p => rfl,
    fun k => rfl, ?_⟩
  exact ⟨rfl, rfl, rfl, rfl, rfl, rfl, rfl, rfl, rfl, rfl, rfl, rfl, fun b => rfl⟩

/-! ### Where a step stops -/

/-- A command other than the four whose behaviour depends on the pins acts as `run` does: not at all in reset. -/
theorem exec_in_reset (c : Instr) (s : State) (h : s.dev.glb.resetN = false) (h1 : ∀ x, c ≠ .resetRelease x) (h2 : c ≠ .supplyLoss)
    (h3 : ∀ ir p, c ≠ .tapInstruction ir p) (h4 : c ≠ .resetAssert) : exec c s = s.held := by
  by_cases hs : Instr.special c
  · cases c <;> first | exact absurd hs id | skip
    case mailboxDone ok => simp [exec, execMailboxDone, State.runAll, h]
    case storedCopyWritten ok => simp [exec, execStoredCopyWritten, State.runAll, h]
    case bringupStepDone r => simp [exec, execBringupStepDone, State.runAll, h]
    case sensorSample rs => simp [exec, execSensorSample, State.run, h]
    case resetAssert => exact absurd rfl h4
    case supplyLoss => exact absurd rfl h2
    case resetRelease x => exact absurd rfl (h1 x)
    case tapInstruction ir p => exact absurd rfl (h3 ir p)
  · rcases exec_of_not_special c s hs with ⟨_, hu, _⟩ | ⟨_, hd⟩
    · rw [hu] at h; cases h
    · exact hd

/-- An outcome is no refusal, and where it is a fault it is one that the spec leaves undefined (R759, R910, R914). -/
def StopsAsSaid (c : Instr) (s : State) (o : Host.Outcome State Fault Refusal) : Prop :=
  (∃ t, o = .next t) ∨ ∃ f, o = .fault f ∧
    ((f = .tapPinsWhileRunning ∧ s.Up ∧ ∃ ir sc, c = .tapInstruction ir sc ∧ scanDrives (scanOf ir sc.op) = true) ∨
     (f = .junctionAbove125 ∧ s.Up ∧ ∃ rs, c = .sensorSample rs ∧ overLimit rs = true) ∨
     (f = .railAbsent ∧ s.dev.glb.railOut = true))

theorem held_stops (c : Instr) (s : State) : StopsAsSaid c s s.held := by
  unfold State.held
  split
  · rename_i h
    exact .inr ⟨_, rfl, .inr (.inr ⟨rfl, h⟩)⟩
  · exact .inl ⟨s, rfl⟩

theorem runAll_stops (c : Instr) (s : State) (f : State → State) : StopsAsSaid c s (s.runAll f) := by
  unfold State.runAll
  split
  · exact .inl ⟨_, rfl⟩
  · exact held_stops c s

/-- Every command goes on or stops where the spec leaves its behaviour undefined. -/
theorem exec_stopsAsSaid (c : Instr) (s : State) : StopsAsSaid c s (exec c s) := by
  by_cases hs : Instr.special c
  · cases c <;> first | exact absurd hs id | skip
    case mailboxDone ok => exact runAll_stops _ s fun s => s.mailboxEnd ok
    case storedCopyWritten ok => exact runAll_stops _ s fun s => s.copyWritten ok
    case bringupStepDone r => exact runAll_stops _ s fun s => { s with dev := s.stepReport r }
    case resetAssert => exact .inl ⟨_, rfl⟩
    case supplyLoss => exact .inl ⟨_, rfl⟩
    case resetRelease x =>
      change StopsAsSaid _ s (execResetRelease x s)
      unfold execResetRelease
      split
      · exact .inl ⟨_, rfl⟩
      · split
        · rename_i h
          exact .inr ⟨_, rfl, .inr (.inr ⟨rfl, h⟩)⟩
        · exact .inl ⟨_, rfl⟩
    case sensorSample rs =>
      change StopsAsSaid _ s (execSensorSample rs s)
      unfold execSensorSample
      split
      · rename_i h
        simp only [Bool.and_eq_true] at h
        obtain ⟨⟨⟨hu, _⟩, _⟩, ho⟩ := h
        exact .inr ⟨_, rfl, .inr (.inl ⟨rfl, hu, rs, rfl, ho⟩)⟩
      · split
        · exact .inl ⟨_, rfl⟩
        · unfold State.run
          split
          · exact .inl ⟨_, rfl⟩
          · exact held_stops _ s
    case tapInstruction ir p =>
      change StopsAsSaid _ s (execTapInstruction ir p s)
      unfold execTapInstruction
      split
      · rename_i h
        exact .inr ⟨_, rfl, .inr (.inr ⟨rfl, h⟩)⟩
      · split
        · rename_i h
          obtain ⟨hu, hd⟩ := Bool.and_eq_true_iff.1 h
          exact .inr ⟨_, rfl, .inl ⟨rfl, hu, ir, p, rfl, hd⟩⟩
        · exact .inl ⟨_, rfl⟩
  · rcases exec_of_not_special c s hs with ⟨d, _, hd⟩ | ⟨_, hd⟩ <;> rw [hd]
    · exact .inl ⟨_, rfl⟩
    · exact held_stops c s

/-- Settles O6: in reset a command answers what a held device answers; whatever it answers otherwise, it stops only as `StopsAsSaid`
says. -/
theorem stopsAndReset : Obligations.StopsAndReset := by
  unfold Obligations.StopsAndReset
  refine ⟨fun c s h h1 h2 h3 => ⟨fun hrail => ?_, fun hrail hc => ?_⟩, fun c s => ?_⟩
  · by_cases hc : c = .resetAssert
    · subst hc
      simp [exec, execResetAssert, h, hrail]
    · rw [exec_in_reset c s h h1 h2 h3 hc]
      simp [State.held, hrail]
  · rw [exec_in_reset c s h h1 h2 h3 hc]
    simp [State.held, hrail]
  · rcases exec_stopsAsSaid c s with ⟨t, ht⟩ | ⟨f, hf, hwhy⟩
    · rw [ht]
      exact ⟨fun r hr => (nomatch hr), fun f hf => (nomatch hf)⟩
    · rw [hf]
      refine ⟨fun r hr => (nomatch hr), fun g hg => ?_⟩
      cases hg
      exact hwhy

/-- Settles O3: with no queue pair held back no session is woken, and with every receive buffer empty the draining ends at once. -/
theorem quietLetsNothingGo : Obligations.QuietLetsNothingGo := by
  unfold Obligations.QuietLetsNothingGo
  intro d ⟨hq, hl⟩
  have hwake : d.wakeHeld = d := by
    have hnone : d.heldBackSes = [] := by
      unfold Dev.heldBackSes
      rw [List.filter_eq_nil_iff.2 fun q hm => by simp [hq q hm]]
      rfl
    unfold Dev.wakeHeld
    rw [hnone]
    rfl
  have hrx : d.rxWaiting = 0 := by
    unfold Dev.rxWaiting
    rw [List.sum_eq_zero_iff]
    intro n hn
    obtain ⟨l, hl', rfl⟩ := List.mem_map.1 hn
    rw [hl l hl']
    rfl
  unfold Dev.letGo Dev.drainRx
  rw [hwake, hrx]
  rfl

end Sys2Proof.Machine
end

section
/-! A command before its turn (R353, R358, R359): a GATHER with a malformed list, ordered behind an earlier command of a STRICT queue pair,
is ended by its row all the same. -/

namespace Sys2Proof.Machine

open Sys2Proof

/-- A body with nothing but an opcode. -/
def opBody (op : Nat) : Body :=
  { opcode := op, subop := 0, flags := 0, param := 0, paddock := 0, tether := 0, offset := 0, length := 0, addr := 0, tadd := 0,
    ilen := 0, arg := 0 }

/-- The first command of queue pair 0 of session 0: a NOP that waits. -/
def strictFirst : Cmd := State.reset.dev.mkCmd 1 0 0 .push false 1 (opBody Opcode.nop.code) [] .waiting none

/-- The command behind it: a GATHER that is admitted and whose list, which has arrived, has no key where PARAM asks for one (R319). -/
def strictGather : Cmd :=
  { State.reset.dev.mkCmd 2 0 0 .push false 2 (opBody Opcode.gather.code) [] .admitted none with subSeq := 1 }

/-- A running device whose queue pair 0 is STRICT and holds the two commands. -/
def strictDev : Dev :=
  { State.reset.dev with
    glb := { State.reset.dev.glb with resetN := true }, cmds := [strictFirst, strictGather],
    qps := [(0, { Qp.reset with ctx := { QpCtx.none with strict := true } })] }

def strictState : State := { State.reset with dev := strictDev }

theorem strictGather_found : strictDev.findCmd 2 = some strictGather := rfl

/-- The GATHER is ordered behind the NOP (R358, R359). -/
theorem strictGather_waits : strictDev.mayEffect strictGather = false := by decide

/-- Its row ends it with ST_BAD_LENGTH. -/
theorem strictGather_ends : strictDev.gatherOp 2 [] = strictDev.abort 2 Status.badLength.code := by
  have hready : (!strictDev.ready strictGather Opcode.gather.code || !strictGather.arrived) = false := by decide
  have hbad : strictGather.listBad = true := by decide
  rw [Dev.gatherOp, strictGather_found]
  simp [hready, hbad]

/-- Refutes O7: GATHER (as SCORE) is judged on its list before its turn: the malformed GATHER of `strictDev` may not take effect, as the
NOP before it has not, and its row ends it. (Without a rail and with RESET_N high every row stops, too, rather than leave the state.) -/
theorem not_commandsAwaitTheirTurn : ¬ Obligations.CommandsAwaitTheirTurn := by
  unfold Obligations.CommandsAwaitTheirTurn
  intro h
  have hturn : ∀ x op, strictDev.findCmd 2 = some x → strictDev.runnable x op = false := by
    intro x op hx
    cases hx
    change (_ && strictDev.mayEffect strictGather && _) = false
    rw [strictGather_waits, Bool.and_false, Bool.false_and]
  have hrun : exec (.gather 2 []) strictState = .next { strictState with dev := strictDev.gatherOp 2 [] } :=
    State.run_up strictState (fun d => d.gatherOp 2 []) rfl
  have hstay := h strictState 2 [] hturn (.gather 2 []) (by simp)
  rw [hrun, strictGather_ends] at hstay
  obtain ⟨n, ⟨y, hy, hended, _⟩, _⟩ := ended_abort strictDev 2 Status.badLength.code strictGather strictGather_found
  have hdev : strictDev.abort 2 Status.badLength.code = strictDev := congrArg State.dev (Host.Outcome.next.inj hstay)
  rw [hdev, strictGather_found] at hy
  cases hy
  exact absurd hended (by decide)

end Sys2Proof.Machine
end

section
/-! The tether unit (R281, R294, R297, R468–R483): what SET, ADD, READ and WAIT_GE leave, the release of satisfied waiters, and what a time-out
ends. -/

namespace Sys2Proof.Machine

open Sys2Proof

/-- A command that is there, after a change to it that keeps its identifier. -/
theorem findCmd_updCmd_some {d : Dev} {c : Nat} {x : Cmd} (f : Cmd → Cmd) (h : d.findCmd c = some x) (hf : ∀ y, (f y).id = y.id) :
    (d.updCmd c f).findCmd c = some (f x) := by
  rw [d.findCmd_updCmd_self c f hf, h]
  rfl

/-! ### A TETHER command whose turn has come -/

theorem findCmd_of_tetherCmd {d : Dev} {c sub : Nat} {x : Cmd} (h : d.tetherCmd c sub = some x) : d.findCmd c = some x := by
  unfold Dev.tetherCmd at h
  cases hx : d.findCmd c with
  | none => rw [hx] at h; cases h
  | some y =>
    rw [hx] at h
    dsimp only at h
    split at h <;> cases h
    rfl

/-- A counter is what was left in it, and every other one as it was (R469). -/
theorem tether_tetherSetTo (d : Dev) (t u : Nat) (v : DWord) : (d.tetherSetTo t v).tether u = if u = t then v else d.tether u :=
  SMap.get_put _ _ _ _ _

/-- A waiter that an operation satisfies awaits its release (R481). -/
theorem ready_tetherSetTo (d : Dev) (t : Nat) (v : DWord) (w : Waiter) (hw : w ∈ d.tth.waiters) (ht : w.tether = t) (hv : w.target ≤ v) :
    (w.cmd, v) ∈ (d.tetherSetTo t v).tth.ready :=
  List.mem_append_right _ (List.mem_map.2 ⟨w, List.mem_filter.2 ⟨hw, by simp [ht, hv]⟩, rfl⟩)

/-- Only the counters, the waiters and those that await release differ. -/
def TetherOnly (d e : Dev) : Prop :=
  e = { d with tth := { d.tth with counters := e.tth.counters, waiters := e.tth.waiters, ready := e.tth.ready } }

/-- What a TETHER command that leaves counter `t` at `v` leaves otherwise: it has ended with that value, and only waiters may differ. -/
def TetherDone (c t : Nat) (v : DWord) (d e : Dev) : Prop :=
  e.Ended c Status.ok.code 0 v.toNat ∧ e.tether t = v ∧ (∀ u, u ≠ t → e.tether u = d.tether u) ∧ OtherCmds c d e ∧ BarnsButWb d e ∧
  e = { d with cmds := e.cmds, reads := e.reads, barns := e.barns,
               tth := { d.tth with counters := e.tth.counters, waiters := e.tth.waiters, ready := e.tth.ready },
               arb := { d.arb with wbRound := e.arb.wbRound, round := e.arb.round } }

theorem tetherDone_finish {d m : Dev} {c t : Nat} {v : DWord} {x : Cmd} (hx : d.findCmd c = some x) (hm : TetherOnly d m)
    (hv : m.tether t = v) (ho : ∀ u, u ≠ t → m.tether u = d.tether u) : TetherDone c t v d (m.finish c Status.ok.code 0 v.toNat) := by
  have hcmd : ∀ k, m.findCmd k = d.findCmd k := fun k => by rw [hm]; rfl
  have hbarn : ∀ b, m.barn b = d.barn b := fun b => by rw [hm]; rfl
  obtain ⟨hframe, _, hother, hbarns⟩ := finish_endFrame m c Status.ok.code 0 v.toNat
  have htether : ∀ u, (m.finish c Status.ok.code 0 v.toNat).tether u = m.tether u :=
    fun u => by simp
  refine ⟨ended_finish m c _ _ _ x ((hcmd c).trans hx), (htether t).trans hv, fun u hu => (htether u).trans (ho u hu),
    fun k hk => (hother k hk).trans (hcmd k), fun b => by rw [hbarns b, hbarn], hframe.trans ?_⟩
  generalize m.finish c Status.ok.code 0 v.toNat = e at hframe
  rw [hm] at hframe ⊢
  rw [hframe]

/-- SET and ADD, which leave counter `t` at `v`: the waiters they satisfy await their release (R481). -/
theorem tetherDone_set {d : Dev} {c : Nat} {x : Cmd} (hx : d.findCmd c = some x) (t : Nat) (v : DWord) :
    let e := (d.tetherSetTo t v).finish c Status.ok.code 0 v.toNat
    TetherDone c t v d e ∧ ∀ w ∈ d.tth.waiters, w.tether = t → w.target ≤ v → w.cmd ≠ c → (w.cmd, v) ∈ e.tth.ready := by
  refine ⟨tetherDone_finish hx rfl ((tether_tetherSetTo d t t v).trans (if_pos rfl))
    (fun u hu => (tether_tetherSetTo d t u v).trans (if_neg hu)), fun w hw ht hv hc => ?_⟩
  rw [(Dev.finish_frame _ _ _ _ _).1]
  exact List.mem_filter.2 ⟨ready_tetherSetTo d t v w hw ht hv, by simpa using hc⟩

theorem tetherSetOp_eq {d : Dev} {c : Nat} {x : Cmd} (h : d.tetherCmd c 0 = some x) : d.tetherSetOp c =
    (d.tetherSetTo x.body.teth14 (BitVec.ofNat 64 x.body.arg)).finish c Status.ok.code 0 (BitVec.ofNat 64 x.body.arg).toNat := by
  rw [Dev.tetherSetOp, h]

theorem tetherAddOp_eq {d : Dev} {c : Nat} {x : Cmd} (h : d.tetherCmd c 1 = some x) : d.tetherAddOp c =
    (d.tetherSetTo x.body.teth14 (d.tether x.body.teth14 + BitVec.ofNat 64 x.body.arg)).finish c Status.ok.code 0
      (d.tether x.body.teth14 + BitVec.ofNat 64 x.body.arg).toNat := by
  rw [Dev.tetherAddOp, h]
  dsimp only
  rw [tether_tetherAddTo, if_pos rfl, Dev.tetherAddTo]

theorem tetherReadOp_eq {d : Dev} {c : Nat} {x : Cmd} (h : d.tetherCmd c 3 = some x) :
    d.tetherReadOp c = d.finish c Status.ok.code 0 (d.tether x.body.teth14).toNat := by
  rw [Dev.tetherReadOp, h]

/-- Settles O10: SET and ADD each leave one counter at a value, which satisfies waiters; READ leaves every counter; then the command ends
with the counter's value. -/
theorem tetherSetAddRead : Obligations.TetherSetAddRead := by
  unfold Obligations.TetherSetAddRead
  intro s c x hu i hi
  simp only [List.mem_cons, List.not_mem_nil, or_false] at hi
  rcases hi with rfl | rfl | rfl <;> intro ht <;> have hx := findCmd_of_tetherCmd ht
  · obtain ⟨⟨h1, h2, h3, h4⟩, hw⟩ := tetherDone_set hx x.body.teth14 (BitVec.ofNat 64 x.body.arg)
    refine does_run _ s (fun d => d.tetherSetOp c) _ hu rfl ?_
    rw [tetherSetOp_eq ht]
    exact ⟨h1, h2, h3, fun _ => hw, h4⟩
  · obtain ⟨⟨h1, h2, h3, h4⟩, hw⟩ := tetherDone_set hx x.body.teth14 (s.dev.tether x.body.teth14 + BitVec.ofNat 64 x.body.arg)
    refine does_run _ s (fun d => d.tetherAddOp c) _ hu rfl ?_
    rw [tetherAddOp_eq ht]
    exact ⟨h1, h2, h3, fun _ => hw, h4⟩
  · obtain ⟨h1, h2, h3, h4⟩ := tetherDone_finish (m := s.dev) (t := x.body.teth14) hx rfl rfl (fun _ _ => rfl)
    refine does_run _ s (fun d => d.tetherReadOp c) _ hu rfl ?_
    rw [tetherReadOp_eq ht]
    exact ⟨h1, h2, h3, fun hne => absurd rfl hne, h4⟩

/-! ### WAIT_GE -/

section WaitGe

variable {d : Dev} {c : Nat} {x : Cmd} (h : d.tetherCmd c 2 = some x)

include h

/-- WAIT_GE whose counter has reached its target ends at once (R479). -/
theorem tetherWaitOp_reached (hv : BitVec.ofNat 64 x.body.arg ≤ d.tether x.body.teth14) :
    d.tetherWaitOp c = d.finish c Status.ok.code 0 (d.tether x.body.teth14).toNat := by
  rw [Dev.tetherWaitOp, h]
  exact if_pos hv

/-- WAIT_GE without a wait slot is refused and counted (R480). -/
theorem tetherWaitOp_full (hv : ¬ BitVec.ofNat 64 x.body.arg ≤ d.tether x.body.teth14)
    (hf : d.tth.perSes ≤ d.waitSlots x.ses ∨ 65536 ≤ d.tth.waiters.length) :
    d.tetherWaitOp c = ({ d with tth := { d.tth with cntFull := sat1 d.tth.cntFull } } : Dev).finish c Status.tetherFull.code 0
      (d.tether x.body.teth14).toNat := by
  rw [Dev.tetherWaitOp, h]
  exact (if_neg hv).trans (if_pos hf)

/-- WAIT_GE with a wait slot waits until its deadline (R479, R480). -/
theorem tetherWaitOp_waits (hv : ¬ BitVec.ofNat 64 x.body.arg ≤ d.tether x.body.teth14)
    (hf : ¬ (d.tth.perSes ≤ d.waitSlots x.ses ∨ 65536 ≤ d.tth.waiters.length)) :
    d.tetherWaitOp c = { d.updCmd c fun x => { x with isWaiter := true } with tth := { d.tth with waiters := d.tth.waiters ++
      [{ cmd := c, ses := x.ses, tether := x.body.teth14, target := BitVec.ofNat 64 x.body.arg, deadline := d.now + x.body.length * 1000 }] } } := by
  rw [Dev.tetherWaitOp, h]
  exact (if_neg hv).trans (if_neg hf)

end WaitGe

/-- Settles O11: the three branches of WAIT_GE. -/
theorem waitGe : Obligations.WaitGe := by
  unfold Obligations.WaitGe
  intro s c x hu ht
  have hx := findCmd_of_tetherCmd ht
  refine ⟨fun hv => ?_, fun hv hf => ?_, fun hv hf => ?_⟩
  · refine does_run _ s (fun d => d.tetherWaitOp c) _ hu rfl ?_
    rw [tetherWaitOp_reached ht hv]
    exact ⟨ended_finish _ _ _ _ _ x hx, finish_endFrame _ _ _ _ _⟩
  · refine does_run _ s (fun d => d.tetherWaitOp c) _ hu rfl ?_
    rw [tetherWaitOp_full ht hv hf]
    refine ⟨ended_finish _ _ _ _ _ x hx, ?_, ?_, (finish_endFrame _ _ _ _ _).2.2.1⟩ <;> rw [(Dev.finish_frame _ _ _ _ _).1]
  · refine does_run _ s (fun d => d.tetherWaitOp c) _ hu rfl ?_
    rw [tetherWaitOp_waits ht hv hf]
    refine ⟨?_, fun k hk => s.dev.findCmd_updCmd_other c k _ hk fun _ => rfl, rfl⟩
    exact findCmd_updCmd_some (fun x => { x with isWaiter := true }) hx fun _ => rfl

/-! ### The release of satisfied waiters -/

/-- The end of the commands of some satisfied waiters, in their order (R482). -/
def Dev.releaseList (d : Dev) (l : List (Nat × DWord)) : Dev :=
  l.foldl (fun (d : Dev) w => d.finish w.1 Status.ok.code 0 w.2.toNat) d

theorem findCmd_releaseList_other (l : List (Nat × DWord)) (d : Dev) (k : Nat) (h : k ∉ l.map Prod.fst) :
    (d.releaseList l).findCmd k = d.findCmd k := by
  induction l generalizing d with
  | nil => rfl
  | cons w l ih =>
    obtain ⟨hw, hl⟩ := not_or.1 (mt List.mem_cons.2 h)
    refine (ih (d.finish w.1 Status.ok.code 0 w.2.toNat) hl).trans ?_
    rw [Dev.findCmd_finish, if_neg hw]

/-- A command that is there and is released has ended with a value that one of its waiters was satisfied with. -/
theorem ended_releaseList (l : List (Nat × DWord)) (d : Dev) (k : Nat) (h : k ∈ l.map Prod.fst) (hd : (d.findCmd k).isSome = true) :
    ∃ v, (k, v) ∈ l ∧ (d.releaseList l).Ended k Status.ok.code 0 v.toNat := by
  induction l generalizing d with
  | nil => cases h
  | cons w l ih =>
    obtain ⟨x, hx⟩ := Option.isSome_iff_exists.1 hd
    by_cases hl : k ∈ l.map Prod.fst
    · have hsome : ((d.finish w.1 Status.ok.code 0 w.2.toNat).findCmd k).isSome = true := by
        rw [Dev.findCmd_finish]
        split
        · rename_i hk
          rw [← hk, hx]
          rfl
        · exact hd
      obtain ⟨v, hv, he⟩ := ih _ hl hsome
      exact ⟨v, List.mem_cons_of_mem _ hv, he⟩
    · obtain rfl : k = w.1 := (List.mem_cons.1 h).resolve_right hl
      obtain ⟨y, hy, hend⟩ := ended_finish d w.1 Status.ok.code 0 w.2.toNat x hx
      exact ⟨w.2, List.mem_cons_self, y, (findCmd_releaseList_other l _ w.1 hl).trans hy, hend⟩

/-- Releasing takes what waited for release of those commands off the list, and changes no counter. -/
theorem releaseList_tth (l : List (Nat × DWord)) (d : Dev) :
    (d.releaseList l).tth.ready = d.tth.ready.filter (fun w => !(l.map Prod.fst).contains w.1) ∧
    (d.releaseList l).tth.counters = d.tth.counters := by
  induction l generalizing d with
  | nil => exact ⟨by simp [Dev.releaseList], rfl⟩
  | cons a l ih =>
    obtain ⟨hr, hc⟩ := ih (d.finish a.1 Status.ok.code 0 a.2.toNat)
    refine ⟨hr.trans ?_, hc.trans ?_⟩ <;> rw [(Dev.finish_frame _ _ _ _ _).1]
    rw [List.filter_filter]
    refine List.filter_congr fun w _ => ?_
    by_cases hw : w.1 = a.1 <;> simp [hw]

/-- WAITER_RELEASE ends the first four (R482). -/
theorem releaseWaiters_eq (d : Dev) :
    d.releaseWaiters = ({ d with tth := { d.tth with ready := d.tth.ready.drop 4 } } : Dev).releaseList (d.tth.ready.take 4) := rfl

/-! ### Time-outs -/

/-- BYTES of a command that ends early (R281, R297). -/
def Cmd.bytesNow (x : Cmd) : Nat := if x.body.isWrite then x.gotBytes else x.sent

/-- The early end of a command that is there: its record, and no other one. -/
theorem findCmd_abort (d : Dev) (c st : Nat) (x : Cmd) (h : d.findCmd c = some x) :
    (d.abort c st).findCmd c = some (({ x with outLeft := [] } : Cmd).done st x.bytesNow (d.infoNow x)) := by
  have hund : (d.undelete c).findCmd c = some x := by
    rw [d.undelete_frame c]
    exact h
  unfold Dev.abort Dev.abortWith
  dsimp only
  rw [Dev.findCmd_finish, if_pos rfl, findCmd_updCmd_some _ hund (by simp), hund, h]
  rfl

/-- The early end of a command fixes its outcome: BYTES is what it has received or delivered, INFO what it has reached. -/
theorem ended_abort_bytes (d : Dev) (c st : Nat) (x : Cmd) (h : d.findCmd c = some x) :
    (d.abort c st).Ended c st x.bytesNow (d.infoNow x) :=
  ⟨_, findCmd_abort d c st x h, rfl, rfl, rfl, rfl⟩

theorem abort_otherCmds (d : Dev) (c st : Nat) : OtherCmds c d (d.abort c st) := fun k hk => d.findCmd_abort_other c st k hk

/-- A command that has ended early has no READ left (R294). -/
theorem reads_abort (d : Dev) (c st : Nat) : ∀ r ∈ (d.abort c st).reads, readOfCmd c r = false := by
  intro r hr
  obtain ⟨_, _, hframe, _⟩ := d.abort_frame c st
  rw [hframe] at hr
  simpa using (List.mem_filter.1 hr).2

/-- DATA_TIMEOUT ends a command whose grant or READ is overdue (R294). -/
theorem dataTimeoutOp_ends (d : Dev) (c : Nat) (x : Cmd) (hx : d.findCmd c = some x) (ho : d.overdue x = true) (he : x.effected = false)
    (hs : x.stage ≠ .ended) (hh : d.held x.ses = false) : d.dataTimeoutOp c = d.abort c Status.timeout.code := by
  rw [Dev.dataTimeoutOp, hx]
  exact if_pos (by simp [ho, he, hs, hh])

/-- A waiter before its deadline stays (R483). -/
theorem waitTimeout_early (d : Dev) (c : Nat) (w : Waiter) (hw : d.tth.waiters.find? (fun w => w.cmd == c) = some w)
    (ht : d.now < w.deadline) : d.waitTimeout c = d := by
  rw [Dev.waitTimeout, hw]
  exact if_pos ht

/-- A waiter at its deadline is counted and ends (R483). -/
theorem waitTimeout_due (d : Dev) (c : Nat) (w : Waiter) (hw : d.tth.waiters.find? (fun w => w.cmd == c) = some w)
    (ht : w.deadline ≤ d.now) : d.waitTimeout c =
    ({ d with tth := { d.tth with cntTimeout := sat1 d.tth.cntTimeout } } : Dev).finish c Status.tetherTimeout.code 0 (d.tether w.tether).toNat := by
  rw [Dev.waitTimeout, hw]
  exact if_neg (by omega)

/-- Settles O12: a release is the end of the first four; a time-out is the end of its command, early for data, and counted for a
waiter. -/
theorem waitersAndTimeouts : Obligations.WaitersAndTimeouts := by
  unfold Obligations.WaitersAndTimeouts
  refine ⟨fun s hu => ?_, fun s c w hu hw => ⟨fun ht => ?_, fun ht hx => ?_⟩, fun s c x hu hx ho he hs hh => ?_⟩
  · refine does_run _ s Dev.releaseWaiters _ hu rfl ?_
    rw [releaseWaiters_eq]
    exact ⟨fun k hk hd => ended_releaseList _ _ k hk hd, fun k hk => findCmd_releaseList_other _ _ k hk, releaseList_tth _ _⟩
  · rw [show exec (.waitGeTimeout c) s = _ from s.run_up (fun d => d.waitTimeout c) hu, waitTimeout_early s.dev c w hw ht]
  · obtain ⟨x, hx⟩ := Option.isSome_iff_exists.1 hx
    refine does_run _ s (fun d => d.waitTimeout c) _ hu rfl ?_
    rw [waitTimeout_due s.dev c w hw ht]
    refine ⟨ended_finish _ _ _ _ _ x hx, ?_, ?_, ?_, (finish_endFrame _ _ _ _ _).2.2.1⟩ <;> rw [(Dev.finish_frame _ _ _ _ _).1]
    intro y hy
    simpa using (List.mem_filter.1 hy).2
  · refine does_run _ s (fun d => d.dataTimeoutOp c) _ hu rfl ?_
    rw [dataTimeoutOp_ends s.dev c x hx ho he hs hh]
    obtain ⟨_, _, hframe, _⟩ := s.dev.abort_frame c Status.timeout.code
    refine ⟨ended_abort_bytes _ _ _ x hx, reads_abort _ _ _, abort_otherCmds _ _ _, ?_, ?_, ?_⟩ <;> rw [hframe]

end Sys2Proof.Machine
end

section
/-! Paddocks (R42, R46, R276, R336, R339–R341, R525, R575, R917): what CREATE, ALTER, DELETE and STAT leave, with the outcome of a command
that delivers output. -/

namespace Sys2Proof.Machine

open Sys2Proof

/-! ### The outcome of a command whose output leaves -/

/-- The outcome of a command survives the sending of output (R279). -/
theorem ended_sendOutput {d : Dev} {k st b i : Nat} (c : Nat) (h : d.Ended k st b i) : (d.sendOutput c).Ended k st b i := by
  obtain ⟨x, hx, h1, h2, h3, h4⟩ := h
  obtain ⟨y, hy, hcore⟩ := sendOutput_findCmd d c k x hx
  exact ⟨y, hy, (congrArg Cmd.stage hcore).trans h1, (congrArg Cmd.status hcore).trans h2, (congrArg Cmd.bytes hcore).trans h3,
    (congrArg Cmd.info hcore).trans h4⟩

/-- The read that has its output and its outcome, before its output leaves. -/
def Dev.readReady (d : Dev) (c : Nat) (outs : List OutPiece) (st b i n : Nat) : Dev :=
  (d.updCmd c fun x => { x with outLeft := outs, outTotal := piecesEnd outs, storedRead := n, releasedTo := 1048576 }).finish c st b i

theorem readDone_eq (d : Dev) (c : Nat) (outs : List OutPiece) (st b i n : Nat) :
    d.readDone c outs st b i n = (d.readReady c outs st b i n).sendOutput c := rfl

/-- The record of a read that has its outcome: it holds the pieces of its output. -/
theorem findCmd_readReady {d : Dev} {c : Nat} {x : Cmd} (hx : d.findCmd c = some x) (outs : List OutPiece) (st b i n : Nat) :
    (d.readReady c outs st b i n).findCmd c =
      some (({ x with outLeft := outs, outTotal := piecesEnd outs, storedRead := n, releasedTo := 1048576 } : Cmd).done st b i) := by
  unfold Dev.readReady
  rw [Dev.findCmd_finish, if_pos rfl, findCmd_updCmd_some _ hx (by simp)]
  rfl

theorem ended_readDone {d : Dev} {c : Nat} {x : Cmd} (hx : d.findCmd c = some x) (outs : List OutPiece) (st b i n : Nat) :
    (d.readDone c outs st b i n).Ended c st b i :=
  ended_sendOutput c ⟨_, findCmd_readReady hx outs st b i n, rfl, rfl, rfl, rfl⟩

/-- What leaves at the end of a read is the pieces of its output. -/
theorem readDone_sends {d : Dev} {c : Nat} {x : Cmd} (hx : d.findCmd c = some x) (outs : List OutPiece) (st b i n : Nat) :
    ∃ m : Dev, d.readDone c outs st b i n = m.sendOutput c ∧ ∃ y, m.findCmd c = some y ∧ y.outLeft = outs :=
  ⟨_, readDone_eq d c outs st b i n, _, findCmd_readReady hx outs st b i n, rfl⟩

/-- The end of a read changes no paddock and no stall. -/
theorem readDone_rest (d : Dev) (c : Nat) (outs : List OutPiece) (st b i n : Nat) :
    (d.readDone c outs st b i n).paddocks = d.paddocks ∧ (d.readDone c outs st b i n).stalls = d.stalls := by
  rw [readDone_eq, sendOutput_frame, Dev.readReady, (Dev.finish_frame _ _ _ _ _).1]
  exact ⟨rfl, rfl⟩

/-! ### A PADDOCK command whose turn has come -/

theorem of_padCmd {d : Dev} {c sub : Nat} {x : Cmd} (h : d.padCmd c sub = some x) : d.findCmd c = some x ∧ x.body.subop = sub := by
  unfold Dev.padCmd at h
  cases hx : d.findCmd c with
  | none => rw [hx] at h; cases h
  | some y =>
    rw [hx] at h
    dsimp only at h
    split at h <;> cases h
    rename_i hy
    simp only [Bool.and_eq_true, beq_iff_eq] at hy
    exact ⟨rfl, hy.1.2⟩

/-- Only a DELETE is taken back when it ends early (R339). -/
theorem undelete_of_subop {d : Dev} {c : Nat} {x : Cmd} (hx : d.findCmd c = some x) (h : x.body.subop ≠ 1) : d.undelete c = d := by
  unfold Dev.undelete
  rw [hx]
  exact if_neg fun hp => h hp.2.1

/-- A CREATE or ALTER that is refused ends with INFO as given, and leaves every paddock and every other command (R276). -/
theorem abortWith_refused {d : Dev} {c : Nat} {x : Cmd} (hx : d.findCmd c = some x) (hs : x.body.subop ≠ 1) (st info : Nat) :
    (d.abortWith c st info).Ended c st x.bytesNow info ∧ (d.abortWith c st info).paddocks = d.paddocks ∧
    OtherCmds c d (d.abortWith c st info) := by
  have hund := undelete_of_subop hx hs
  obtain ⟨_, _, hframe, _, hcmds⟩ := d.abortWith_frame c st info
  refine ⟨⟨({ x with outLeft := [] } : Cmd).done st x.bytesNow info, ?_, rfl, rfl, rfl, rfl⟩, by rw [hframe, hund], fun k hk =>
    (hcmds k).trans (if_neg hk)⟩
  unfold Dev.abortWith
  dsimp only
  rw [hund, Dev.findCmd_finish, if_pos rfl, findCmd_updCmd_some _ hx (by simp), hx]
  rfl

/-- The shed record of a PADDOCK command: the command keeps its outcome but for a final failure of the shed, and neither paddocks nor
stalls change (R337, R386, R575). -/
theorem recordPad_spec {d : Dev} {c : Nat} {x : Cmd} (hx : d.findCmd c = some x) (hs : x.status = Status.ok.code)
    (sub pad epoch old new : Nat) (p : Paddock) :
    let e := d.recordPad c sub pad epoch old new p
    e.paddocks = d.paddocks ∧ e.stalls = d.stalls ∧ ∃ z, e.findCmd c = some z ∧ z.stage = x.stage ∧ z.bytes = x.bytes ∧ z.info = x.info ∧
      (if decide (old ≠ 0 ∨ new ≠ 0) then z.job.isSome = true ∧ (z.status = Status.ok.code ∨ z.status = Status.mediaError.code)
        else z.status = Status.ok.code) := by
  unfold Dev.recordPad
  by_cases hn : old = 0 ∧ new = 0
  · obtain ⟨rfl, rfl⟩ := hn
    exact ⟨rfl, rfl, x, hx, rfl, rfl, rfl, hs⟩
  · obtain ⟨hwork, hstalls⟩ := startPaddockRec_jobWork d sub pad epoch p
    obtain ⟨y, hy, hkept, _⟩ := storeWork_kept hwork.storeWork c x hx
    obtain ⟨st, hst, hz⟩ := Dev.awaitJob_cmd _ c (d.startPaddockRec sub pad epoch p).1 y hy
    have hshed : old ≠ 0 ∨ new ≠ 0 := by omega
    simp only [if_neg hn, hshed, decide_true, if_true]
    refine ⟨?_, hstalls, _, hz, hkept.stage, hkept.bytes, hkept.info, rfl, ?_⟩
    · change (d.startPaddockRec sub pad epoch p).2.paddocks = _
      rw [hwork.frame]
    · rcases hst with rfl | rfl
      · exact hkept.status hs
      · exact .inr rfl

/-- What a CREATE, ALTER or DELETE that succeeds leaves: the paddock, and the outcome of the command, which awaits its shed record if it
has one. -/
theorem recordPad_finish {d : Dev} {c : Nat} {x : Cmd} (hx : d.findCmd c = some x) (f : Dev → Dev) (hf : ∀ d, ShedOnly d (f d))
    (pad info sub epoch old new : Nat) (p rec : Paddock) :
    let e := (f ((d.updPad pad fun _ => p).finish c Status.ok.code 0 info)).recordPad c sub pad epoch old new rec
    e.pad pad = p ∧ (∀ q, q ≠ pad → e.pad q = d.pad q) ∧ e.stalls = d.stalls ∧
    ∃ z, e.findCmd c = some z ∧ z.stage = .ended ∧ z.bytes = 0 ∧ z.info = info ∧
      (if decide (old ≠ 0 ∨ new ≠ 0) then z.job.isSome = true ∧ (z.status = Status.ok.code ∨ z.status = Status.mediaError.code)
        else z.status = Status.ok.code) := by
  have hend : ((d.updPad pad fun _ => p).finish c Status.ok.code 0 info).findCmd c = some (x.done Status.ok.code 0 info) := by
    rw [Dev.findCmd_finish, if_pos rfl]
    change Option.map _ (d.findCmd c) = _
    rw [hx]
    rfl
  have hpads : ((d.updPad pad fun _ => p).finish c Status.ok.code 0 info).paddocks = (d.updPad pad fun _ => p).paddocks := by simp
  have hstalls : ((d.updPad pad fun _ => p).finish c Status.ok.code 0 info).stalls = d.stalls := by simp
  generalize (d.updPad pad fun _ => p).finish c Status.ok.code 0 info = m at hend hpads hstalls
  have hm := (hf m).gets
  obtain ⟨hcmds, hms, hmp, _⟩ := hm
  have hfound : (f m).findCmd c = some (x.done Status.ok.code 0 info) := by
    rw [← hend]
    unfold Dev.findCmd
    rw [hcmds]
  obtain ⟨hp, hs, z, hz, h1, h2, h3, h4⟩ := recordPad_spec hfound rfl sub pad epoch old new rec
  have hpad : ∀ q, ((f m).recordPad c sub pad epoch old new rec).pad q = (d.updPad pad fun _ => p).pad q := fun q => by
    unfold Dev.pad
    rw [hp, hmp, hpads]
  exact ⟨(hpad pad).trans (d.updPad_self pad _), fun q hq => (hpad q).trans (d.updPad_other pad _ q hq), hs.trans (hms.trans hstalls), z, hz,
    h1, h2, h3, h4⟩

/-! ### CREATE and ALTER -/

/-- The paddock that a CREATE makes (R336). -/
def Dev.created (d : Dev) (x : Cmd) : Paddock :=
  (parseDesc x.input).apply (fun _ => true)
    { Paddock.reset with live := true, epoch := (d.pad x.body.pad).mark + 1, mark := (d.pad x.body.pad).mark + 1 }

/-- The paddock that an ALTER leaves (R340). -/
def Dev.altered (d : Dev) (x : Cmd) : Paddock := (parseDesc x.input).apply (bit (parseDesc x.input).mask) (d.pad x.body.pad)

theorem createOp_eq {d : Dev} {c : Nat} {x : Cmd} (h : d.padCmd c 0 = some x) : d.createOp c =
    if d.createFails x.body.pad (parseDesc x.input) (d.created x) ≠ 0 then
      d.abortWith c (d.createFails x.body.pad (parseDesc x.input) (d.created x))
        (if d.createFails x.body.pad (parseDesc x.input) (d.created x) = Status.keyExists.code then (d.pad x.body.pad).epoch else 0)
    else (((d.updPad x.body.pad fun _ => d.created x).finish c Status.ok.code 0 (d.created x).epoch).writeIdentity
        fun i => { i with epochs := SMap.put i.epochs x.body.pad (d.created x).epoch }).recordPad c subCreate x.body.pad
          (d.created x).epoch 0 (d.created x).persist (d.created x) := by
  rw [Dev.createOp, h]
  rfl

theorem alterOp_eq {d : Dev} {c : Nat} {x : Cmd} (h : d.padCmd c 2 = some x) : d.alterOp c =
    if d.alterFails x.body.pad (parseDesc x.input) (d.altered x) ≠ 0 then
      d.abortWith c (d.alterFails x.body.pad (parseDesc x.input) (d.altered x)) (d.pad x.body.pad).epoch
    else ((d.updPad x.body.pad fun _ => d.altered x).finish c Status.ok.code 0 (d.altered x).epoch).recordPad c subAlter x.body.pad
      (d.pad x.body.pad).epoch (d.pad x.body.pad).persist (d.altered x).persist (d.altered x) := by
  rw [Dev.alterOp, h]
  rfl

/-- Settles O13: the first check that fails refuses the command; one that passes every check makes its paddock, ends, and records it. -/
theorem paddockCreateAlter : Obligations.PaddockCreateAlter := by
  unfold Obligations.PaddockCreateAlter
  intro s c x hu
  refine ⟨fun ht => ?_, fun ht => ?_⟩ <;> obtain ⟨hx, hsub⟩ := of_padCmd ht <;> constructor
  · intro (hf : s.dev.createFails x.body.pad (parseDesc x.input) (s.dev.created x) = 0)
    refine does_run _ s (fun d => d.createOp c) _ hu rfl ?_
    rw [createOp_eq ht, if_neg (not_not.2 hf)]
    obtain ⟨h1, h2, h3, z, h4⟩ := recordPad_finish hx (fun d => d.writeIdentity fun i =>
      { i with epochs := SMap.put i.epochs x.body.pad (s.dev.created x).epoch }) (fun d => writeIdentity_shedOnly d _) x.body.pad
      (s.dev.created x).epoch subCreate (s.dev.created x).epoch 0 (s.dev.created x).persist (s.dev.created x) (s.dev.created x)
    rw [show decide (0 ≠ 0 ∨ (s.dev.created x).persist ≠ 0) = decide ((s.dev.created x).persist ≠ 0) by simp] at h4
    exact ⟨h1, h2, h3, z, h4⟩
  · intro (hf : s.dev.createFails x.body.pad (parseDesc x.input) (s.dev.created x) ≠ 0)
    refine does_run _ s (fun d => d.createOp c) _ hu rfl ?_
    rw [createOp_eq ht, if_pos hf]
    exact abortWith_refused hx (by rw [hsub]; decide) _ _
  · intro (hf : s.dev.alterFails x.body.pad (parseDesc x.input) (s.dev.altered x) = 0)
    refine does_run _ s (fun d => d.alterOp c) _ hu rfl ?_
    rw [alterOp_eq ht, if_neg (not_not.2 hf)]
    exact recordPad_finish hx id ShedOnly.refl x.body.pad (s.dev.altered x).epoch subAlter (s.dev.pad x.body.pad).epoch
      (s.dev.pad x.body.pad).persist (s.dev.altered x).persist (s.dev.altered x) (s.dev.altered x)
  · intro (hf : s.dev.alterFails x.body.pad (parseDesc x.input) (s.dev.altered x) ≠ 0)
    refine does_run _ s (fun d => d.alterOp c) _ hu rfl ?_
    rw [alterOp_eq ht, if_pos hf]
    exact abortWith_refused hx (by rw [hsub]; decide) _ _

/-! ### DELETE -/

theorem camPerform_cam (x : Stall) (u : CamUpd) (j : Nat) (r : Rec) (h : SMap.find (camPerform x u).cam j = some r) :
    SMap.find x.cam j = some r := by
  unfold camPerform at h
  cases u with
  | write _ => exact h
  | clear i =>
    by_cases hj : j = i
    · subst hj
      exact absurd (SMap.find_del_self x.cam j ▸ h) (by simp)
    · exact SMap.find_del_of_ne x.cam i j hj ▸ h

/-- An update that enters the queue brings no CAM entry and changes none. -/
theorem camPush_cam (x : Stall) (u : CamUpd) (j : Nat) (r : Rec) (h : SMap.find (camPush x u).cam j = some r) :
    SMap.find x.cam j = some r := by
  unfold camPush at h
  dsimp only at h
  split at h
  · unfold camStepQueue at h
    split at h
    · exact h
    · rename_i u rest _
      exact camPerform_cam { x with updq := rest } u j r h
  · exact h

theorem unlinkBucket_cam (x : Stall) (q : Nat) (g : DWord) : (unlinkBucket x q g).cam = x.cam := by
  unfold unlinkBucket
  dsimp only
  split
  · split <;> rfl
  · rfl

theorem dropOverflow_cam (x : Stall) : (dropOverflow x).cam = x.cam := by
  unfold dropOverflow
  split <;> rfl

/-- A cleared entry: each CAM entry is as it was, or its record awaits release; the one named does, if it is there (R525). -/
theorem clearEntry_cam (x : Stall) (l : Loc) (j : Nat) (r : Rec) (h : SMap.find (clearEntry x l).cam j = some r) :
    SMap.find x.cam j = some r ∧ l ≠ .cam j ∨ r.st = 3 := by
  unfold clearEntry at h
  cases l with
  | ovf q p =>
    refine .inl ⟨?_, fun hl => nomatch hl⟩
    dsimp only at h
    split at h
    · exact h
    · rw [dropOverflow_cam, unlinkBucket_cam] at h
      exact h
  | cam i =>
    dsimp only at h
    split at h
    · rename_i hnone
      refine .inl ⟨h, fun hl => ?_⟩
      cases hl
      rw [hnone] at h
      cases h
    · have hput := camPush_cam _ _ j r h
      rw [SMap.find_put] at hput
      split at hput
      · cases hput
        exact .inr rfl
      · rename_i hj
        exact .inl ⟨hput, fun hl => hj (Loc.cam.inj hl).symm⟩

theorem entryRec_cam (x : Stall) (i : Nat) : entryRec x (.cam i) = SMap.find x.cam i := rfl

/-- Dropping a key leaves each CAM entry as it was, or with a record that awaits release; the key's own is never as it was. -/
theorem dropKey_cam (d : Dev) (home k j : Nat) (l : Loc) (r : Rec) (h : SMap.find ((d.dropKey home l).stall k).cam j = some r) :
    SMap.find (d.stall k).cam j = some r ∧ (home, l) ≠ (k, .cam j) ∨ r.st = 3 := by
  unfold Dev.dropKey at h
  split at h
  · rename_i hnone
    refine .inl ⟨h, fun hl => ?_⟩
    cases hl
    rw [entryRec_cam, h] at hnone
    cases hnone
  · unfold Dev.removeEntry at h
    rw [Dev.stall_updStall] at h
    split at h
    · rename_i hk
      subst hk
      exact (clearEntry_cam _ l j r h).imp (fun hc => ⟨hc.1, fun hl => hc.2 (Prod.mk.inj hl).2⟩) id
    · rename_i hk
      exact .inl ⟨h, fun hl => hk (Prod.mk.inj hl).1.symm⟩

theorem dropKeys_cam (l : List (Nat × Loc × Rec)) (d : Dev) (k j : Nat) (r : Rec)
    (h : SMap.find ((l.foldl (fun (d : Dev) e => d.dropKey e.1 e.2.1) d).stall k).cam j = some r) :
    SMap.find (d.stall k).cam j = some r ∧ (∀ e ∈ l, (e.1, e.2.1) ≠ (k, .cam j)) ∨ r.st = 3 := by
  induction l generalizing d with
  | nil => exact .inl ⟨h, fun _ he => nomatch he⟩
  | cons a l ih =>
    rcases ih (d.dropKey a.1 a.2.1) h with ⟨hd, hl⟩ | h3
    · refine (dropKey_cam d a.1 k j a.2.1 r hd).imp (fun ha => ⟨ha.1, fun e he => ?_⟩) id
      rcases List.mem_cons.1 he with rfl | he
      · exact ha.2
      · exact hl e he
    · exact .inr h3

/-- A CAM entry with a live record of the paddock is among the paddock's records. -/
theorem mem_padRecs (d : Dev) (pad k j : Nat) (r : Rec) (h : SMap.find (d.stall k).cam j = some r) (hp : r.pad = pad) (hs : r.st ≠ 3) :
    (k, .cam j, r) ∈ d.padRecs pad := by
  have hstall : (k, d.stall k) ∈ d.stalls := by
    refine (SMap.get_mem d.stalls k Stall.reset).resolve_left fun hr => ?_
    rw [show d.stall k = Stall.reset from hr] at h
    cases h
  refine List.mem_filter.2 ⟨List.mem_flatMap.2 ⟨_, hstall, List.mem_map.2 ⟨(.cam j, r), ?_, rfl⟩⟩, by simp [hp]⟩
  exact List.mem_append_left _ (List.mem_map.2 ⟨(j, r), List.mem_filter.2 ⟨SMap.find_mem _ _ _ h, by simp [hs]⟩, rfl⟩)

/-- Once its keys are gone every CAM entry of a paddock awaits release (R42, R525). -/
theorem clearPad_cam (d : Dev) (pad k j : Nat) (r : Rec) (h : SMap.find ((d.clearPad pad).stall k).cam j = some r) (hp : r.pad = pad) :
    r.st = 3 := by
  by_contra hs
  obtain ⟨hd, hl⟩ := (dropKeys_cam _ d k j r h).resolve_right hs
  exact hl _ (mem_padRecs d pad k j r hd hp hs) rfl

/-- Dropping keys touches stalls, values that await release, and the identifier counter alone. -/
def DropOnly (d e : Dev) : Prop := e = { d with stalls := e.stalls, old := e.old, nextId := e.nextId }

theorem DropOnly.trans {a b c : Dev} (h1 : DropOnly a b) (h2 : DropOnly b c) : DropOnly a c := by
  unfold DropOnly at *
  rw [h2, h1]

theorem dropKey_dropOnly (d : Dev) (home : Nat) (l : Loc) : DropOnly d (d.dropKey home l) := by
  unfold Dev.dropKey
  split <;> rfl

theorem clearPad_dropOnly (d : Dev) (pad : Nat) : DropOnly d (d.clearPad pad) := by
  unfold Dev.clearPad
  generalize d.padRecs pad = l
  induction l generalizing d with
  | nil => rfl
  | cons a l ih => exact (dropKey_dropOnly d a.1 a.2.1).trans (ih (d.dropKey a.1 a.2.1))

/-- A DELETE whose turn has come: its keys and its staged deletions go, then the id is free (R339). -/
def Dev.emptyPad (d : Dev) (pad : Nat) : Dev :=
  { d.clearPad pad with shd := { (d.clearPad pad).shd with delq := (d.clearPad pad).shd.delq.filter fun x => x.pad != pad } }

theorem deletePadOp_waits {d : Dev} {c : Nat} {x : Cmd} (h : d.padCmd c 1 = some x) (hb : d.padBefore x = true) : d.deletePadOp c = d := by
  rw [Dev.deletePadOp, h]
  simp [hb]

theorem deletePadOp_eq {d : Dev} {c : Nat} {x : Cmd} (h : d.padCmd c 1 = some x) (hb : d.padBefore x = false)
    (hs : ((d.padSet x.body.pad).any fun k => d.barnStopped (k / 64)) = false) : d.deletePadOp c =
    let p := d.pad x.body.pad
    (((d.emptyPad x.body.pad).updPad x.body.pad fun _ => { Paddock.reset with epoch := p.mark, mark := p.mark }).finish c Status.ok.code 0
      (if p.live then d.padKeys x.body.pad else p.heldKeys)).recordPad c subDelete x.body.pad p.epoch p.persist 0 p := by
  rw [Dev.deletePadOp, h]
  dsimp only
  rw [if_neg (by simp [hb, hs])]
  rfl

theorem natLe_length (k n : Nat) : (natLe k n).length = k := by
  induction k generalizing n with
  | zero => rfl
  | succ k ih => exact congrArg (· + 1) (ih (n / 256))

/-- The record of STAT has 128 bytes (R341). -/
theorem statRecord_length (d : Dev) (pad : Nat) : (d.statRecord pad).length = 128 := by
  simp [Dev.statRecord, Paddock.descriptor, natLe_length, padTo, zeros]
  omega

/-- Settles O14: a DELETE waits for the earlier commands; its turn come, the keys go, the id is freed and the record is made. STAT is a
read of one piece. -/
theorem paddockDeleteStat : Obligations.PaddockDeleteStat := by
  unfold Obligations.PaddockDeleteStat
  intro s c x hu
  refine ⟨fun ht => ⟨fun hb => ?_, fun hb hs => ?_⟩, fun ht => ?_⟩
  · rw [show exec (.paddockDelete c) s = _ from s.run_up (fun d => d.deletePadOp c) hu, deletePadOp_waits ht hb]
  · obtain ⟨hx, _⟩ := of_padCmd ht
    have honly : DropOnly s.dev (s.dev.clearPad x.body.pad) := clearPad_dropOnly s.dev x.body.pad
    have hfound : (s.dev.emptyPad x.body.pad).findCmd c = some x := by
      rw [← hx]
      change (s.dev.clearPad x.body.pad).findCmd c = _
      rw [honly]
      rfl
    refine does_run _ s (fun d => d.deletePadOp c) _ hu rfl ?_
    rw [deletePadOp_eq ht hb hs]
    obtain ⟨h1, h2, h3, z, hz, h4, h5, h6, _⟩ := recordPad_finish hfound id ShedOnly.refl x.body.pad
      (if (s.dev.pad x.body.pad).live then s.dev.padKeys x.body.pad else (s.dev.pad x.body.pad).heldKeys) subDelete
      (s.dev.pad x.body.pad).epoch (s.dev.pad x.body.pad).persist 0
      { Paddock.reset with epoch := (s.dev.pad x.body.pad).mark, mark := (s.dev.pad x.body.pad).mark } (s.dev.pad x.body.pad)
    refine ⟨h1, fun q hq => (h2 q hq).trans ?_, fun k i r hr => ?_, z, hz, h4, h5, h6⟩
    · change (s.dev.clearPad x.body.pad).pad q = _
      rw [honly]
      rfl
    · have hcam := congrArg (fun m => SMap.find (SMap.get m k Stall.reset).cam i) h3
      exact clearPad_cam s.dev x.body.pad k i r (hcam.symm.trans hr)
  · obtain ⟨hx, _⟩ := of_padCmd ht
    refine does_run _ s (fun d => d.statOp c) _ hu rfl ?_
    have hstat : s.dev.statOp c = s.dev.readDone c [{ off := 0, bytes := s.dev.statRecord x.body.pad, check := none, stored := 0 }]
        Status.ok.code 128 (s.dev.padKeys x.body.pad) 0 := by
      rw [Dev.statOp, ht]
    rw [hstat]
    obtain ⟨hp, hstalls⟩ := readDone_rest s.dev c [{ off := 0, bytes := s.dev.statRecord x.body.pad, check := none, stored := 0 }]
      Status.ok.code 128 (s.dev.padKeys x.body.pad) 0
    exact ⟨ended_readDone hx _ _ _ _ _, hp, hstalls, statRecord_length s.dev x.body.pad⟩

end Sys2Proof.Machine
end

section
/-! Output pieces and write plans (R279, R303, R305–R307): the bytes that slices, splices and chunks hold, place by place. -/

namespace Sys2Proof.Machine

open Sys2Proof

/-! ### Slices and splices, byte by byte -/

theorem slice_getElem? (o n k : Nat) (l : List Byte) : (slice o n l)[k]? = if k < n then l[o + k]? else none := by
  unfold slice
  split
  · rw [List.getElem?_take_of_lt ‹_›, List.getElem?_drop]
  · rw [List.getElem?_eq_none]
    simp
    omega

theorem slice_length (o n : Nat) (l : List Byte) : (slice o n l).length = min n (l.length - o) := by
  simp [slice]

/-- A list cut or filled to its own length is itself. -/
theorem padTo_self {n : Nat} {l : List Byte} (h : l.length = n) : padTo n l = l := by
  subst h
  simp [padTo, zeros]

theorem padTo_of_le {n : Nat} {l : List Byte} (h : n ≤ l.length) : padTo n l = l.take n := by
  rw [padTo, List.take_append_of_le_length h]

/-- New bytes within or at the end of a list: they stand in their place, and every other byte is as it was. -/
theorem splice_getElem? (old new : List Byte) (off k : Nat) (h : off ≤ old.length) :
    (splice old off new)[k]? = if off ≤ k ∧ k < off + new.length then new[k - off]? else old[k]? := by
  unfold splice
  rw [padTo_of_le h]
  have htake : (old.take off).length = off := by simp [h]
  by_cases h1 : k < off
  · rw [if_neg (by omega), List.append_assoc, List.getElem?_append_left (by omega), List.getElem?_take_of_lt h1]
  · by_cases h2 : k < off + new.length
    · rw [if_pos (by omega), List.append_assoc, List.getElem?_append_right (by omega), List.getElem?_append_left (by omega), htake]
    · rw [if_neg (by omega), List.getElem?_append_right (by simp; omega), List.getElem?_drop, List.length_append, htake,
        show off + new.length + (k - (off + new.length)) = k by omega]

/-! ### Chunks -/

theorem chunksFuel_flatten (k : Nat) (hk : 0 < k) (f : Nat) (l : List Byte) (h : l.length ≤ f) : (chunksFuel k f l).flatten = l := by
  induction f generalizing l with
  | zero => rw [List.length_eq_zero_iff.1 (Nat.le_zero.1 h)]; rfl
  | succ f ih =>
    cases l with
    | nil => rfl
    | cons b bs =>
      rw [chunksFuel, List.flatten_cons, ih _ (by simp only [List.length_drop, List.length_cons] at *; omega), List.take_append_drop]

/-- The chunks of a list are the list. -/
theorem chunks_flatten (k : Nat) (hk : 0 < k) (l : List Byte) : (chunks k l).flatten = l := chunksFuel_flatten k hk _ l le_rfl

/-- The chunk at a place is the slice there, and starts within the list. -/
theorem chunksFuel_getElem (k : Nat) (f : Nat) (l : List Byte) (i : Nat) (c : List Byte) (h : (chunksFuel k f l)[i]? = some c) :
    c = slice (k * i) k l ∧ k * i < l.length := by
  induction f generalizing l i with
  | zero => simp [chunksFuel] at h
  | succ f ih =>
    cases l with
    | nil => simp [chunksFuel] at h
    | cons b bs =>
      cases i with
      | zero =>
        refine ⟨(Option.some.inj h).symm.trans ?_, by simp⟩
        simp [slice]
      | succ i =>
        obtain ⟨hc, hlt⟩ := ih _ i h
        refine ⟨hc.trans ?_, ?_⟩
        · simp [slice, Nat.mul_succ, Nat.add_comm]
        · simp only [List.length_drop, List.length_cons] at hlt ⊢
          rw [Nat.mul_succ]
          omega

/-! ### Output pieces -/

/-- A piece as R279 has it: not empty, at most 8,192 bytes, cut at a multiple of 8,192 or at the end, and the bytes of its place. -/
def PieceOf (off : Nat) (b : List Byte) (p : Piece) : Prop :=
  p.bytes ≠ [] ∧ p.bytes.length ≤ 8192 ∧ off ≤ p.off ∧
    ((p.off + p.bytes.length) % 8192 = 0 ∨ p.off + p.bytes.length = off + b.length) ∧ p.bytes = slice (p.off - off) p.bytes.length b

/-- A slice that starts within the bytes and ends at a multiple of 8,192, or past their end, makes a piece. -/
theorem pieceOf_slice (off : Nat) (b : List Byte) (o n : Nat) (hn : 0 < n) (hn2 : n ≤ 8192) (ho : o < b.length)
    (hcut : (off + o + n) % 8192 = 0) : PieceOf off b { off := off + o, bytes := slice o n b } := by
  refine ⟨?_, ?_, by simp, ?_, ?_⟩
  · rw [← List.length_pos_iff, slice_length]
    omega
  · simp only [slice_length]
    omega
  · simp only [slice_length]
    omega
  · refine List.ext_getElem? fun k => ?_
    simp only [slice_getElem?, slice_length, Nat.add_sub_cancel_left]
    by_cases hk : k < min n (b.length - o)
    · rw [if_pos hk, if_pos (by omega)]
    · rw [if_neg hk]
      split
      · exact List.getElem?_eq_none (by omega)
      · rfl

theorem mem_cutPieces (off : Nat) (b : List Byte) (p : Piece) (h : p ∈ cutPieces off b) : PieceOf off b p := by
  unfold cutPieces at h
  dsimp only at h
  split at h
  · cases h
  · rename_i hb
    have hlen : 0 < b.length := by
      rw [List.length_pos_iff]
      simpa using hb
    rcases List.mem_cons.1 h with rfl | h
    · exact pieceOf_slice off b 0 (8192 - off % 8192) (by omega) (by omega) hlen (by omega)
    · obtain ⟨⟨i, c⟩, hi, rfl⟩ := List.mem_map.1 h
      obtain ⟨j, hj⟩ := List.mem_iff_getElem?.1 hi
      obtain ⟨h1, h2⟩ := List.getElem?_zip_eq_some.1 hj
      obtain rfl : j = i := by
        have hr := h1
        rw [List.getElem?_range (by
          by_contra hlt
          rw [List.getElem?_eq_none (by simpa using hlt)] at hr
          cases hr)] at h1
        exact Option.some.inj h1
      obtain ⟨hc, hlt⟩ := chunksFuel_getElem 8192 _ _ j c h2
      rw [List.length_drop] at hlt
      have hpiece := pieceOf_slice off b (8192 - off % 8192 + 8192 * j) 8192 (by decide) le_rfl (by omega) (by omega)
      have hslice : slice (8192 * j) 8192 (b.drop (8192 - off % 8192)) = slice (8192 - off % 8192 + 8192 * j) 8192 b := by
        simp [slice, Nat.add_comm]
      rw [hc, hslice]
      simpa [Nat.add_assoc] using hpiece

theorem cutPieces_bytes (off : Nat) (b : List Byte) : (cutPieces off b).flatMap Piece.bytes = b := by
  unfold cutPieces
  dsimp only
  split
  · rename_i hb
    rw [List.isEmpty_iff.1 hb]
    rfl
  · rw [List.flatMap_cons, List.flatMap_map]
    change _ ++ List.flatMap Prod.snd _ = _
    rw [List.flatMap_def, List.map_snd_zip (by simp), chunks_flatten 8192 (by decide), List.take_append_drop]

/-! ### Write plans -/

theorem segmentsOf_flatten (b : List Byte) : (segmentsOf b).flatten = b := by
  unfold segmentsOf
  split
  · split
    · rename_i hb
      rw [List.isEmpty_iff.1 hb]
      rfl
    · simp
  · exact chunks_flatten 65536 (by decide) b

/-- The plan of a whole new value stores its bytes (R303). -/
theorem wholePlan_written (b : List Byte) : (wholePlan b).written.flatMap Prod.snd = b := by
  unfold wholePlan
  rw [List.flatMap_def, List.map_snd_zip (by simp), segmentsOf_flatten]

/-- The segments whose old bytes a write of [lo, hi) reads: those of its range that it covers in part. -/
theorem mem_oldSegs (old lo hi i : Nat) (ho : 4096 < old) : i ∈ (oldSegs old lo hi).map Prod.fst ↔
    (lo / 65536 ≤ i ∧ i < ceilDiv hi 65536) ∧ 65536 * i < old ∧ ¬ (lo ≤ 65536 * i ∧ min old (65536 * (i + 1)) ≤ hi) := by
  unfold oldSegs
  dsimp only
  rw [if_neg (by omega), if_neg (by omega), List.map_map]
  change i ∈ List.map id _ ↔ _
  rw [List.map_id, List.mem_filterMap]
  constructor
  · rintro ⟨k, hk, hi⟩
    rw [List.mem_range] at hk
    split at hi <;> cases hi
    rename_i hpart
    exact ⟨⟨by omega, by omega⟩, hpart⟩
  · rintro ⟨⟨h1, h2⟩, hpart⟩
    refine ⟨i - lo / 65536, List.mem_range.2 (by omega), ?_⟩
    rw [show lo / 65536 + (i - lo / 65536) = i by omega]
    exact if_pos hpart

/-- The old bytes of a segment, as read, where each segment asked for is read whole. -/
theorem oldSegBytes_eq (old : List Byte) (parts : List (Nat × Nat × Nat)) (i : Nat) :
    oldSegBytes parts (parts.map fun p => slice (65536 * p.1) 65536 old) i =
      if i ∈ parts.map Prod.fst then slice (65536 * i) 65536 old else [] := by
  unfold oldSegBytes
  induction parts with
  | nil => rfl
  | cons p ps ih =>
    rw [List.map_cons, List.zip_cons_cons, List.find?_cons]
    by_cases hp : p.1 = i
    · subst hp
      simp
    · rw [show (p.1 == i) = false from beq_false_of_ne hp]
      exact ih.trans (if_congr (by rw [List.map_cons, List.mem_cons, or_iff_right (Ne.symm hp)]) rfl rfl)

/-- What is kept of the old value in a segment that is written: its old bytes where the write covers it in part, no byte of it past the
end of the old value, and bytes that the write covers all of otherwise. -/
theorem keptBytes_spec (old : List Byte) (lo hi i : Nat) (ho : 4096 < old.length) (hi1 : lo / 65536 ≤ i)
    (hi2 : i < ceilDiv hi 65536) :
    let parts := oldSegs old.length lo hi
    let keep := if 65536 * i < old.length then
      padTo (segLen old.length i) (oldSegBytes parts (parts.map fun p => slice (65536 * p.1) 65536 old) i) else []
    keep = slice (65536 * i) 65536 old ∨
      lo ≤ 65536 * i ∧ 65536 * i + keep.length ≤ min hi (65536 * (i + 1)) ∧ old.length ≤ 65536 * i + keep.length ∨
      lo ≤ 65536 * i ∧ 65536 * i + keep.length ≤ min hi (65536 * (i + 1)) ∧ keep.length = 65536 := by
  dsimp only
  have hlen : segLen old.length i = min 65536 (old.length - 65536 * i) := if_neg (by omega)
  rw [oldSegBytes_eq]
  split
  · rename_i hs
    split
    · left
      exact padTo_self (by rw [slice_length, hlen])
    · rename_i hno
      right
      rw [mem_oldSegs _ _ _ _ ho] at hno
      have hpad : (padTo (segLen old.length i) []).length = segLen old.length i := by simp [padTo, zeros]
      rw [hpad, hlen]
      have hcov : lo ≤ 65536 * i ∧ min old.length (65536 * (i + 1)) ≤ hi := by
        by_contra hc
        exact hno ⟨⟨hi1, hi2⟩, hs, hc⟩
      omega
  · left
    refine (List.eq_nil_of_length_eq_zero ?_).symm
    rw [slice_length]
    omega

/-- A segment that a write into a range stores: the bytes there of the old value with the data in their place (R305–R307). -/
theorem rangeSeg_eq (old data keep : List Byte) (lo i : Nat) (hlo : lo ≤ old.length) (hi1 : lo / 65536 ≤ i)
    (hi2 : i < ceilDiv (lo + data.length) 65536)
    (hk : keep = slice (65536 * i) 65536 old ∨
      lo ≤ 65536 * i ∧ 65536 * i + keep.length ≤ min (lo + data.length) (65536 * (i + 1)) ∧ old.length ≤ 65536 * i + keep.length ∨
      lo ≤ 65536 * i ∧ 65536 * i + keep.length ≤ min (lo + data.length) (65536 * (i + 1)) ∧ keep.length = 65536) :
    splice keep (max lo (65536 * i) - 65536 * i)
        (slice (max lo (65536 * i) - lo) (min (lo + data.length) (65536 * (i + 1)) - max lo (65536 * i)) data) =
      slice (65536 * i) 65536 (splice old lo data) := by
  have hstart : max lo (65536 * i) - 65536 * i ≤ keep.length := by
    rcases hk with rfl | hk | hk
    · rw [slice_length]
      omega
    · omega
    · omega
  have hroom : max lo (65536 * i) ≤ min (lo + data.length) (65536 * (i + 1)) := by
    unfold ceilDiv at hi2
    omega
  refine List.ext_getElem? fun k => ?_
  rw [splice_getElem? _ _ _ _ hstart, slice_getElem? _ _ _ data, slice_getElem? _ _ _ (splice old lo data),
    splice_getElem? _ _ _ _ hlo, slice_length]
  have hdata : min (min (lo + data.length) (65536 * (i + 1)) - max lo (65536 * i)) (data.length - (max lo (65536 * i) - lo)) =
      min (lo + data.length) (65536 * (i + 1)) - max lo (65536 * i) := by omega
  rw [hdata]
  by_cases hin : max lo (65536 * i) ≤ 65536 * i + k ∧ 65536 * i + k < min (lo + data.length) (65536 * (i + 1))
  · rw [if_pos (by omega), if_pos (by omega), if_pos (by omega), if_pos (by omega)]
    congr 1
    omega
  · rw [if_neg (by omega)]
    by_cases hk6 : k < 65536
    · rw [if_pos hk6, if_neg (by omega)]
      rcases hk with rfl | hk | hk
      · rw [slice_getElem?, if_pos hk6]
      · rw [List.getElem?_eq_none (by omega), List.getElem?_eq_none (by omega)]
      · omega
    · rw [if_neg hk6, List.getElem?_eq_none]
      rcases hk with rfl | hk | hk
      · rw [slice_length]
        omega
      · omega
      · omega

/-- Settles O15: pieces are slices that end at multiples of 8,192; a whole plan is the chunks of its bytes; a segment of a range plan is
what is kept of the old one with its part of the data. -/
theorem piecesAndPlans : Obligations.PiecesAndPlans := by
  unfold Obligations.PiecesAndPlans
  refine ⟨fun off b => ⟨cutPieces_bytes off b, fun p hp => mem_cutPieces off b p hp⟩, fun b => ⟨rfl, wholePlan_written b⟩, ?_⟩
  intro old data lo i seg hlo ho
  dsimp only
  intro h
  unfold rangePlan at h
  dsimp only at h
  rw [if_neg (by omega)] at h
  obtain ⟨k, hk, heq⟩ := List.mem_map.1 h
  rw [List.mem_range] at hk
  obtain ⟨rfl, rfl⟩ := Prod.mk.inj heq
  exact rangeSeg_eq old data _ lo _ hlo (by omega) (by omega)
    (keptBytes_spec old lo (lo + data.length) _ ho (by omega) (by omega))

end Sys2Proof.Machine
end

section
/-! Reads of one value (R279, R298–R302, R312–R318, R364, R365, R423, R459): GET, GET_RANGE, SHAPE_GET, EXISTS and SCAN. -/

namespace Sys2Proof.Machine

open Sys2Proof

/-- A read has its outcome, its pieces leave, and nothing outside the data plane differs. -/
def Delivers (c st b i : Nat) (outs : List OutPiece) (d e : Dev) : Prop :=
  e.Ended c st b i ∧ DataPlane d e ∧ ∃ m : Dev, e = m.sendOutput c ∧ ∃ y, m.findCmd c = some y ∧ y.outLeft = outs

theorem delivers_readDone {d : Dev} {c : Nat} {x : Cmd} (hx : d.findCmd c = some x) (outs : List OutPiece) (st b i n : Nat) :
    Delivers c st b i outs d (d.readDone c outs st b i n) :=
  ⟨ended_readDone hx outs st b i n, readDone_plane d c outs st b i n, readDone_sends hx outs st b i n⟩

theorem Delivers.after {c st b i : Nat} {outs : List OutPiece} {d m e : Dev} (h : Delivers c st b i outs m e) (hm : DataPlane d m) :
    Delivers c st b i outs d e :=
  ⟨h.1, hm.trans h.2.1, h.2.2⟩

/-! ### The view of a value -/

/-- The view's record has the length of the value as the read sees it. -/
theorem viewed_len {d : Dev} {pad len lo hi : Nat} {key : List Byte} {base : Option Rec} {ls : List Layer} {fet : List Fetch}
    {bs : List (List Byte)} {v : View} (h : d.viewed pad key base ls fet len lo hi = (.done bs, v)) (hl : viewLen base ls = some len) :
    v.r.len = len := by
  unfold Dev.viewed at h
  dsimp only at h
  split at h
  · split at h <;> obtain ⟨-, rfl⟩ := Prod.mk.inj h
    · rename_i hls
      rw [List.isEmpty_iff.1 hls] at hl
      exact Option.some.inj hl
    · rfl
  · obtain ⟨-, rfl⟩ := Prod.mk.inj h
    rfl
  · rename_i hsome hnone
    obtain ⟨hgot, -⟩ := Prod.mk.inj h
    exact (hnone _ hgot (Option.eq_none_iff_forall_ne_some.2 fun r => hsome _ r hgot)).elim

theorem readOn_done {d : Dev} {x : Cmd} {base : Option Rec} {ls : List Layer} {fet : List Fetch} {len : Nat} {bs : List (List Byte)} {v : View}
    (hl : viewLen base ls = some len)
    (hv : d.viewed x.body.pad (x.key.getD []) base ls fet len (x.readRange len).1 (x.readRange len).2.1 = (.done bs, v)) :
    d.readOn x base ls fet = d.deliverRead x v (viewStall base ls) := by
  unfold Dev.readOn
  rw [hl]
  dsimp only
  rw [hv]

theorem readOn_absent {d : Dev} {x : Cmd} {fet : List Fetch} : d.readOn x none [] fet = d.finish x.id Status.notFound.code 0 0 := rfl

/-- What a read has found before it goes on: the value's record and layers, the segments it has fetched, and the device then. -/
def Dev.Finds (d : Dev) (x : Cmd) (fs : List Finding) (base : Option Rec) (ls : List Layer) (fet : List Fetch) (e : Dev) : Prop :=
  ∃ (b : Option (Nat × Loc × Rec)) (d1 : Dev), b.map (fun b => b.2.2) = base ∧ d.see x fs 0 (x.key.getD []) = (.value b ls, d1) ∧
    match b with
    | none => (fet, e) = ([], d1)
    | some (h, loc, r) =>
      d1.fetchSegs x.id fs h loc r (viewParts (some r) ls (x.readRange ((viewLen (some r) ls).getD 0)).1
        (x.readRange ((viewLen (some r) ls).getD 0)).2.1) [] = (fet, e)

theorem Dev.Finds.storeWork {d e : Dev} {x : Cmd} {fs : List Finding} {base : Option Rec} {ls : List Layer} {fet : List Fetch}
    (h : d.Finds x fs base ls fet e) : StoreWork d e := by
  obtain ⟨b, d1, _, hsee, hm⟩ := h
  have h1 : StoreWork d d1 := by
    have := see_storeWork d x fs 0 (x.key.getD [])
    rwa [hsee] at this
  cases b with
  | none => cases hm; exact h1
  | some b =>
    obtain ⟨home, loc, r⟩ := b
    have h2 := fetchSegs_storeWork (viewParts (some r) ls (x.readRange ((viewLen (some r) ls).getD 0)).1
      (x.readRange ((viewLen (some r) ls).getD 0)).2.1) d1 x.id fs home loc r []
    rw [show d1.fetchSegs x.id fs home loc r _ [] = (fet, e) from hm] at h2
    exact h1.trans h2

/-- A read whose turn has come and that has not looked its key up does so, and goes on with what it finds. -/
theorem readValue_finds {d e : Dev} {c op : Nat} {x : Cmd} {fs : List Finding} {base : Option Rec} {ls : List Layer} {fet : List Fetch}
    (hx : d.findCmd c = some x) (hr : d.runnable x op = true) (hl : x.looked = false) (hf : d.Finds x fs base ls fet e) :
    ∃ g : Cmd → Cmd, (∀ y, (g y).id = y.id) ∧ d.readValue c op fs = (e.updCmd c g).readOn x base ls fet := by
  obtain ⟨b, d1, hb, hsee, hm⟩ := hf
  obtain rfl := d.findCmd_id c x hx
  unfold Dev.readValue
  rw [hx]
  dsimp only
  rw [hr, hl, hsee]
  cases b with
  | none =>
    cases hm
    subst hb
    exact ⟨fun y => { y with layers := ls }, fun _ => rfl, rfl⟩
  | some b =>
    obtain ⟨home, loc, r⟩ := b
    subst hb
    refine ⟨fun y => { y with plan := some r, layers := ls, fetches := fet }, fun _ => rfl, ?_⟩
    simp only [Bool.not_true, if_neg Bool.false_ne_true]
    rw [show d1.fetchSegs x.id fs home loc r _ [] = (fet, e) from hm]
    rfl

/-! ### Delivery -/

section Deliver

variable {d : Dev} {x y : Cmd} (hy : d.findCmd x.id = some y) (v : View) (at_ : Nat → Option Nat)

include hy

/-- The status of a read of the value's bytes: cut short or not (R298, R299). -/
def Cmd.readStatus (x : Cmd) (len : Nat) : Nat := if (x.readRange len).2.2 then Status.truncated.code else Status.ok.code

theorem deliverRead_raw (hs : x.shape = none) :
    Delivers x.id (x.readStatus v.r.len) ((x.readRange v.r.len).2.1 - (x.readRange v.r.len).1) v.r.len
      (rawPieces v.r 0 (x.readRange v.r.len).1 (segsOfRange v.r.len (x.readRange v.r.len).1 (x.readRange v.r.len).2.1) v.segs)
      d (d.deliverRead x v at_) := by
  unfold Dev.deliverRead
  rw [hs]
  exact delivers_readDone hy _ _ _ _ _

theorem deliverRead_empty {sh : Shape} (hs : x.shape = some sh) (hn : (x.readRange v.r.len).2.1 - (x.readRange v.r.len).1 = 0) :
    Delivers x.id (x.readStatus v.r.len) 0 v.r.len [] d (d.deliverRead x v at_) := by
  unfold Dev.deliverRead
  rw [hs]
  dsimp only
  rw [if_pos hn]
  exact delivers_readDone hy _ _ _ _ _

/-- A shape whose barns take its work: its pieces leave (R300, R423, R459). -/
theorem deliverRead_shaped {sh : Shape} (hs : x.shape = some sh) (hn : (x.readRange v.r.len).2.1 - (x.readRange v.r.len).1 ≠ 0)
    {rows : List (List Byte)} (hrows : rows = sh.rowsOf (cutRange v.r.len (x.readRange v.r.len).1 (x.readRange v.r.len).2.1 v.segs))
    {stalls : List (Option Nat)} (hstalls : stalls = (List.range rows.length).map fun i => at_ ((x.readRange v.r.len).1 + i * sh.rowLen))
    (hw : d.macWaits sh.usesMac (sh.workBarns stalls (sh.bagStalls stalls)) = false) :
    Delivers x.id (x.readStatus v.r.len) (sh.outBytes (sh.outRows rows.length)) v.r.len
      (shapedPieces sh d.free ((x.readRange v.r.len).2.1 - (x.readRange v.r.len).1) (rows.map some)) d (d.deliverRead x v at_) := by
  subst hrows hstalls
  unfold Dev.deliverRead
  rw [hs]
  dsimp only
  rw [if_neg hn, hw]
  have hfree : ∀ l, (d.slalom sh l).free = d.free := fun l => by rw [slalom_barns]
  rw [if_neg Bool.false_ne_true, hfree]
  refine (delivers_readDone (x := y) ?_ _ _ _ _ _).after ((slalom_plane d sh _).trans (free_plane _ _))
  exact (slalom_findCmd d sh _ x.id).trans hy

end Deliver

/-- Settles O16: the read looks its key up and goes on with what it finds; a key that is not there ends it, and a value whose segments are
there is delivered, raw or shaped. -/
theorem readsDeliver : Obligations.ReadsDeliver := by
  unfold Obligations.ReadsDeliver
  intro s c f x op i hu hi hx hr hl
  have hrun : exec i s = s.run fun d => d.readValue c op f := by
    simp only [List.mem_cons, List.not_mem_nil, or_false, Prod.mk.injEq] at hi
    rcases hi with ⟨rfl, rfl⟩ | ⟨rfl, rfl⟩ | ⟨rfl, rfl⟩ <;> rfl
  have hid := s.dev.findCmd_id c x hx
  refine ⟨fun d1 hsee => ?_, fun base ls d1 len fet d2 bs v hsee hlen => ?_⟩
  · have hf : s.dev.Finds x f none [] [] d1 := ⟨none, d1, rfl, hsee, rfl⟩
    obtain ⟨g, hg, heq⟩ := readValue_finds hx hr hl hf
    obtain ⟨z, hz, _⟩ := storeWork_kept hf.storeWork c x hx
    refine does_run i s (fun d => d.readValue c op f) _ hu hrun ?_
    rw [heq, readOn_absent, hid]
    obtain ⟨hframe, hround, hother, hbarns⟩ := finish_endFrame (d1.updCmd c g) c Status.notFound.code 0 0
    exact ⟨ended_finish _ _ _ _ _ (g z) (findCmd_updCmd_some g hz hg),
      ⟨hframe, hround, fun k hk => (hother k hk).trans (d1.findCmd_updCmd_other c k g hk hg), hbarns⟩,
      (hf.storeWork.plane.trans (updCmd_plane d1 c g hg)).trans (finish_plane _ _ _ _ _)⟩
  · dsimp only
    intro hfetch hview
    have hf : s.dev.Finds x f (base.map fun b => b.2.2) ls fet d2 := by
      refine ⟨base, d1, rfl, hsee, ?_⟩
      cases base with
      | none => exact hfetch
      | some b =>
        obtain ⟨home, loc, r⟩ := b
        dsimp only
        rw [show viewLen (some r) ls = some len from hlen, hid]
        exact hfetch
    obtain ⟨g, hg, heq⟩ := readValue_finds hx hr hl hf
    obtain ⟨z, hz, _⟩ := storeWork_kept hf.storeWork c x hx
    have hz2 : (d2.updCmd c g).findCmd x.id = some (g z) := by
      rw [hid]
      exact findCmd_updCmd_some g hz hg
    have hplane := hf.storeWork.plane.trans (updCmd_plane d2 c g hg)
    have hgo : s.dev.readValue c op f = (d2.updCmd c g).deliverRead x v (viewStall (base.map fun b => b.2.2) ls) := by
      rw [heq]
      exact readOn_done hlen hview
    obtain rfl := viewed_len hview hlen
    obtain rfl := hid
    refine ⟨fun hs => ?_, fun sh hs hn => ?_, fun sh hs hn hw => ?_⟩ <;> refine does_run i s (fun d => d.readValue x.id op f) _ hu hrun ?_ <;>
      rw [hgo]
    · exact (deliverRead_raw hz2 v _ hs).after hplane
    · obtain ⟨h1, h2, _⟩ := (deliverRead_empty hz2 v (viewStall (base.map fun b => b.2.2) ls) hs hn).after hplane
      exact ⟨h1, h2⟩
    · exact (deliverRead_shaped hz2 v _ hs hn rfl rfl hw).after hplane

/-! ### EXISTS and SCAN -/

/-- The end of a command whose key has been looked up: the lookup, and its frame. -/
theorem finish_after {d d1 : Dev} {c : Nat} {x : Cmd} (hx : d.findCmd c = some x) (hw : StoreWork d d1) (st b i : Nat) :
    (d1.finish c st b i).Ended c st b i ∧ EndFrame c d1 (d1.finish c st b i) ∧ DataPlane d (d1.finish c st b i) := by
  obtain ⟨y, hy, _⟩ := storeWork_kept hw c x hx
  exact ⟨ended_finish _ _ _ _ _ y hy, finish_endFrame _ _ _ _ _, hw.plane.trans (finish_plane _ _ _ _ _)⟩

theorem existsOp_eq {d d1 : Dev} {c : Nat} {x : Cmd} {f : List Finding} {base : Option (Nat × Loc × Rec)} {ls : List Layer}
    (hx : d.findCmd c = some x) (hr : d.runnable x Opcode.existsKey.code = true) (hsee : d.see x f 0 (x.key.getD []) = (.value base ls, d1)) :
    d.existsOp c f = match viewLen (base.map fun b => b.2.2) ls with
      | none => d1.finish c Status.notFound.code 0 0
      | some len => d1.finish c Status.ok.code 0 len := by
  unfold Dev.existsOp
  rw [hx]
  dsimp only
  rw [hr, hsee]
  rfl

/-- What a SCAN has delivered: whole records of keys it selects, and their number (R313, R316). -/
def Scanned (x : Cmd) (a : ScanAt) : Prop :=
  ∃ recs : List Rec, a.bytes = recs.flatMap scanRecord ∧ a.count = recs.length ∧ ∀ r ∈ recs, x.selects r = true

theorem scanned_add {x : Cmd} {a : ScanAt} {r : Rec} (h : Scanned x a) (hr : x.selects r = true) :
    Scanned x { a with bytes := a.bytes ++ scanRecord r, count := a.count + 1 } := by
  obtain ⟨recs, h1, h2, h3⟩ := h
  refine ⟨recs ++ [r], ?_, ?_, ?_⟩
  · simp [h1]
  · simp [h2]
  · simpa [or_imp, forall_and] using ⟨h3, hr⟩

theorem scanEntries_scanned (l : List (Loc × Rec)) (d : Dev) (fs : List Finding) (x : Cmd) (p s : Nat) (a : ScanAt) (h : Scanned x a) :
    Scanned x (d.scanEntries fs x p s l a).1 := by
  induction l generalizing d a with
  | nil => exact h
  | cons y es ih =>
    obtain ⟨loc, r⟩ := y
    unfold Dev.scanEntries
    split
    · exact h
    · dsimp only
      generalize (if ((x.body.subop == 0 || x.selects r) && !r.quarantined) = true then _ else (_, d)) = g
      split
      · exact ih _ _ h
      · split
        · exact ih _ _ h
        · rename_i hsel
          split
          · exact h
          · exact ih _ _ (scanned_add h (by simpa using hsel))

theorem scanCam_scanned (d : Dev) (fs : List Finding) (x : Cmd) (p e s : Nat) (a : ScanAt) (h : Scanned x a) :
    Scanned x (d.scanCam fs x p e s a).1 := by
  unfold Dev.scanCam
  split
  · exact h
  · exact scanEntries_scanned _ _ _ _ _ _ _ h

theorem scanBuckets_scanned (l : List Nat) (d : Dev) (fs : List Finding) (x : Cmd) (p e s : Nat) (a : ScanAt) (h : Scanned x a) :
    Scanned x (d.scanBuckets fs x p e s l a).1 := by
  induction l generalizing d a with
  | nil => exact h
  | cons q qs ih =>
    unfold Dev.scanBuckets
    split
    · exact h
    · exact ih _ _ (scanEntries_scanned _ _ _ _ _ _ _ h)

theorem scanStalls_scanned (l : List Nat) (d : Dev) (fs : List Finding) (x : Cmd) (p e : Nat) (a : ScanAt) (h : Scanned x a) :
    ∀ b ∈ (d.scanStalls fs x p e l a).1, Scanned x b := by
  induction l generalizing d p e a with
  | nil => intro b hb; cases hb; exact h
  | cons s ss ih =>
    unfold Dev.scanStalls
    split
    · intro b hb; cases hb; exact h
    · split
      · intro b hb; cases hb
      · exact ih _ _ _ _ (scanBuckets_scanned _ _ _ _ _ _ _ _ (scanCam_scanned _ _ _ _ _ _ _ h))

/-- The pieces of a SCAN's output. -/
def scanPieces (b : List Byte) : List OutPiece :=
  (cutPieces 0 b).map fun q => { off := q.off, bytes := q.bytes, check := none, stored := 0 : OutPiece }

theorem scanPieces_bytes (b : List Byte) : (scanPieces b).flatMap OutPiece.bytes = b := by
  rw [scanPieces, List.flatMap_map]
  exact cutPieces_bytes 0 b

theorem scan_eq {d d1 : Dev} {c sub : Nat} {x : Cmd} {f : List Finding} {a : ScanAt} (hx : d.findCmd c = some x)
    (hr : d.runnable x Opcode.scan.code = true) (hsub : x.body.subop = sub)
    (hall : ((d.padSet x.body.pad).all fun k => d.barnReached (k / 64)) = true)
    (hscan : d.scanStalls f x (x.body.ilen / 2 ^ 24) (x.body.ilen % 2 ^ 24) ((d.padSet x.body.pad).drop (x.body.ilen / 2 ^ 24))
      { bytes := [], count := 0, stop := none } = (some a, d1)) :
    d.scan c sub f = match a.stop with
      | some cur => d1.readDone c (scanPieces a.bytes) Status.truncated.code a.bytes.length (cur + 2 ^ 32 * a.count) 0
      | none => d1.readDone c (scanPieces a.bytes) Status.ok.code a.bytes.length (0xFFFFFFFF + 2 ^ 32 * a.count) 0 := by
  have hany : ((d.padSet x.body.pad).any fun k => !d.barnReached (k / 64)) = false := by
    rw [List.all_eq_true] at hall
    exact List.any_eq_false.2 fun k hk => by simp [hall k hk]
  unfold Dev.scan
  rw [hx]
  dsimp only
  rw [hr, hsub, hany, hscan]
  simp only [Bool.not_true, bne_self_eq_false, Bool.or_self, if_neg Bool.false_ne_true]
  rfl

/-- Settles O17: EXISTS ends with what the lookup gives; the walk of a SCAN adds whole selected records, and then they leave. -/
theorem existsScanEnd : Obligations.ExistsScanEnd := by
  unfold Obligations.ExistsScanEnd
  refine ⟨fun s c f x d1 base ls hu hx hr hsee => ?_, fun s c f x a d1 sub i hu hi hx hr hsub hall hscan => ?_⟩
  · have hw : StoreWork s.dev d1 := by
      have := see_storeWork s.dev x f 0 (x.key.getD [])
      rwa [hsee] at this
    refine ⟨fun len hlen => ?_, fun hlen => ?_⟩ <;> refine does_run _ s (fun d => d.existsOp c f) _ hu rfl ?_ <;>
      rw [existsOp_eq hx hr hsee, hlen]
    · exact finish_after hx hw _ _ _
    · exact finish_after hx hw _ _ _
  · have hrun : exec i s = s.run fun d => d.scan c sub f := by
      simp only [List.mem_cons, List.not_mem_nil, or_false, Prod.mk.injEq] at hi
      rcases hi with ⟨rfl, rfl⟩ | ⟨rfl, rfl⟩ <;> rfl
    obtain ⟨hw, hlen⟩ := scanStalls_work ((s.dev.padSet x.body.pad).drop (x.body.ilen / 2 ^ 24)) s.dev f x (x.body.ilen / 2 ^ 24)
      (x.body.ilen % 2 ^ 24) { bytes := [], count := 0, stop := none }
    have hrecs := scanStalls_scanned ((s.dev.padSet x.body.pad).drop (x.body.ilen / 2 ^ 24)) s.dev f x (x.body.ilen / 2 ^ 24)
      (x.body.ilen % 2 ^ 24) { bytes := [], count := 0, stop := none } ⟨[], rfl, rfl, by simp⟩
    rw [hscan] at hw hlen hrecs
    obtain ⟨y, hy, _⟩ := storeWork_kept hw c x hx
    have hdone := fun st i => (delivers_readDone hy (scanPieces a.bytes) st a.bytes.length i 0).after hw.plane
    refine ⟨hrecs a rfl, hlen (Nat.zero_le _) a rfl, does_run i s (fun d => d.scan c sub f) _ hu hrun ?_⟩
    rw [scan_eq hx hr hsub hall hscan]
    cases a.stop with
    | none =>
      obtain ⟨hend, hplane, m, hm, z, hz, hout⟩ := hdone Status.ok.code (0xFFFFFFFF + 2 ^ 32 * a.count)
      exact ⟨hplane, ⟨m, hm, z, hz, by rw [hout, scanPieces_bytes]⟩, hend⟩
    | some cur =>
      obtain ⟨hend, hplane, m, hm, z, hz, hout⟩ := hdone Status.truncated.code (cur + 2 ^ 32 * a.count)
      exact ⟨hplane, ⟨m, hm, z, hz, by rw [hout, scanPieces_bytes]⟩, hend⟩

end Sys2Proof.Machine
end

section
/-! Lists of keys (R319–R330, R424): how GATHER and SCORE end once every key of their list has been looked up. -/

namespace Sys2Proof.Machine

open Sys2Proof

/-! ### The lookups keep the command's body -/

/-- The body of a command is the same in both devices. -/
def SameBody (c : Nat) (d e : Dev) : Prop := (e.findCmd c).map Cmd.body = (d.findCmd c).map Cmd.body

theorem StoreWork.sameBody {d e : Dev} (h : StoreWork d e) (c : Nat) : SameBody c d e := by
  unfold SameBody
  rcases h.cmd c with he | ⟨x, hx, _, _, he⟩
  · rw [he]
  · rw [hx, he]
    rfl

theorem updCmd_sameBody (d : Dev) (c k : Nat) (f : Cmd → Cmd) (hid : ∀ x, (f x).id = x.id) (hf : ∀ x, (f x).body = x.body) :
    SameBody c d (d.updCmd k f) := by
  unfold SameBody
  rw [d.findCmd_updCmd k c f hid]
  split
  · rename_i hk
    rw [hk, Option.map_map]
    exact congrArg (fun g => Option.map g (d.findCmd k)) (funext hf)
  · rfl

theorem lookKey_sameBody (d : Dev) (c : Nat) (fs : List Finding) (range : Nat → Nat × Nat) (i : Nat) (k : List Byte) :
    SameBody c d (d.lookKey c fs range i k).2 := by
  unfold Dev.lookKey
  split
  · rfl
  · rename_i x _
    split
    · rfl
    · dsimp only
      have h := (see_storeWork d x fs i k).sameBody c
      split
      · exact h
      · exact (updCmd_sameBody _ c c _ (by intro y; rfl) (by intro y; rfl)).trans h
      · exact ((updCmd_sameBody _ c c _ (by intro y; rfl) (by intro y; rfl)).trans ((fetchSegs_storeWork _ _ _ _ _ _ _ _).sameBody c)).trans h

theorem lookKeys_sameBody (l : List (Nat × List Byte)) (d : Dev) (c : Nat) (fs : List Finding) (range : Nat → Nat × Nat) :
    SameBody c d (d.lookKeys c fs range l).2 := by
  induction l generalizing d with
  | nil => rfl
  | cons x ks ih =>
    obtain ⟨i, k⟩ := x
    unfold Dev.lookKeys
    have h := lookKey_sameBody d c fs range i k
    split
    · rename_i st e he
      rw [he] at h
      exact h
    · rename_i e he
      rw [he] at h
      exact (ih e).trans h

/-! ### A list whose keys have been looked up -/

/-- The device in which a list starts: its keys are still to be looked up. -/
def Dev.listStart (d : Dev) (c : Nat) (x : Cmd) (ks : List (List Byte)) : Dev :=
  if x.keyRecs.isEmpty then d.updCmd c fun z => { z with keyRecs := ks.map fun _ => none } else d

theorem listStart_plane (d : Dev) (c : Nat) (x : Cmd) (ks : List (List Byte)) : DataPlane d (d.listStart c x ks) := by
  unfold Dev.listStart
  split
  · exact updCmd_plane _ _ _ fun _ => rfl
  · exact DataPlane.refl d

theorem listStart_sameBody (d : Dev) (c : Nat) (x : Cmd) (ks : List (List Byte)) : SameBody c d (d.listStart c x ks) := by
  unfold Dev.listStart
  split
  · exact updCmd_sameBody _ _ _ _ (fun _ => rfl) fun _ => rfl
  · rfl

/-- What becomes of a list whose keys have all been looked up: it is judged, and is done once its bytes are there (R324). -/
def Dev.listEnd (d : Dev) (c : Nat) (judge : Option Nat) (got : Fetched) (done : Dev) : Dev :=
  match judge with
  | some st => d.abort c st
  | none =>
    match got with
    | .fail st => d.abort c st
    | .wait => d
    | .done _ => done

section Looked

variable {d d1 : Dev} {x y : Cmd} {fs : List Finding} {range : Nat → Nat × Nat} {ks : List (List Byte)} {got : Fetched}
  {ss : List (Option Seat)}
  (hlook : (d.listStart x.id x ks).lookKeys x.id fs range (List.zip (List.range ks.length) ks) = (none, d1))

include hlook

theorem looked_plane : DataPlane d d1 := by
  have h := lookKeys_plane (List.zip (List.range ks.length) ks) (d.listStart x.id x ks) x.id fs range
  rw [hlook] at h
  exact (listStart_plane d x.id x ks).trans h

theorem looked_sameBody : SameBody x.id d d1 := by
  have h := lookKeys_sameBody (List.zip (List.range ks.length) ks) (d.listStart x.id x ks) x.id fs range
  rw [hlook] at h
  exact h.trans (listStart_sameBody d x.id x ks)

variable (hy : d1.findCmd x.id = some y) (hall : y.keyRecs.any Option.isNone = false)
  (hseats : d1.seats y range (List.zip (List.range ks.length) ks) = (got, ss))

include hy hall hseats

theorem runList_looked (judge : List (Option Seat) → Option Nat) (done : Dev → List (Option Seat) → Dev) :
    d.runList x fs ks range judge done = d1.listEnd x.id (judge ss) got (done d1 ss) := by
  have hid := d1.findCmd_id x.id y hy
  unfold Dev.runList
  dsimp only
  rw [show (if x.keyRecs.isEmpty then d.updCmd x.id fun x => { x with keyRecs := ks.map fun _ => none } else d) = d.listStart x.id x ks
    from rfl, hlook]
  dsimp only
  rw [hy]
  dsimp only
  rw [hall, hseats, hid]
  rfl

end Looked

/-! ### GATHER -/

section Deliver

variable {d : Dev} {x y : Cmd} (hy : d.findCmd x.id = some y) (ss : List (Option Seat))

/-- The status of a GATHER (R320, R321). -/
def gatherStatus (x : Cmd) (ss : List (Option Seat)) : Nat :=
  if (ss.filter Option.isSome).length < ss.length then Status.notFound.code
  else if (ss.filter fun z => z.any fun v => decide (v.r.len < x.body.offset + x.body.length)).length ≠ 0 then Status.truncated.code
  else Status.ok.code

/-- INFO of a GATHER: the keys found and those too short (R323). -/
def gatherInfo (x : Cmd) (ss : List (Option Seat)) : Nat :=
  (ss.filter Option.isSome).length + 2 ^ 16 * (ss.filter fun z => z.any fun v => decide (v.r.len < x.body.offset + x.body.length)).length

include hy

theorem deliverGather_raw (hs : x.shape = none) :
    (d.deliverGather x ss).Ended x.id (gatherStatus x ss) ((ss.map fun z => ((z.map Seat.bytes).getD []).length).sum + 32) (gatherInfo x ss) ∧
    DataPlane d (d.deliverGather x ss) := by
  unfold Dev.deliverGather
  rw [hs]
  exact ⟨ended_readDone hy _ _ _ _ _, readDone_plane _ _ _ _ _ _ _⟩

theorem deliverGather_shaped {sh : Shape} (hs : x.shape = some sh)
    (hw : d.macWaits sh.usesMac (sh.workBarns (ss.map fun z => z.bind Seat.stall) (d.gatherBags x sh)) = false) :
    (d.deliverGather x ss).Ended x.id (gatherStatus x ss) (sh.outBytes (sh.outRows ss.length) + 32) (gatherInfo x ss) ∧
    DataPlane d (d.deliverGather x ss) := by
  unfold Dev.deliverGather
  rw [hs]
  dsimp only
  rw [hw, if_neg Bool.false_ne_true, List.length_map]
  refine ⟨ended_readDone (x := y) ?_ _ _ _ _ _, ((slalom_plane d sh _).trans (free_plane _ _)).trans (readDone_plane _ _ _ _ _ _ _)⟩
  exact (slalom_findCmd d sh _ x.id).trans hy

/-- A SCORE whose barns take its work (R330). -/
theorem deliverScore_ends (sh : Shape)
    (hw : d.macWaits true (ss.flatMap fun z => (z.map fun v => v.r.barns (d.homeOf x.body.pad v.r.key)).getD []) = false) :
    (d.deliverScore x sh ss).Ended x.id (if (ss.filter Option.isNone).length = 0 then Status.ok.code else Status.notFound.code)
      (scoreOutput x sh ss).length (ss.length - (ss.filter Option.isNone).length + 2 ^ 16 * (ss.filter Option.isNone).length) ∧
    DataPlane d (d.deliverScore x sh ss) := by
  unfold Dev.deliverScore
  rw [hw, if_neg Bool.false_ne_true]
  exact ⟨ended_readDone hy _ _ _ _ _, readDone_plane _ _ _ _ _ _ _⟩

end Deliver

theorem gatherOp_eq {d : Dev} {c : Nat} {x : Cmd} {f : List Finding} (hx : d.findCmd c = some x)
    (hr : d.ready x Opcode.gather.code = true) (ha : x.arrived = true) (hb : x.listBad = false) :
    d.gatherOp c f = d.runList x f (x.listed.getD []) (fun len => (x.body.offset, min len (x.body.offset + x.body.length))) (fun _ => none)
      fun d ss => d.deliverGather x ss := by
  unfold Dev.gatherOp
  rw [hx]
  dsimp only
  rw [hr, ha, hb]
  rfl

/-- Settles O18: the list whose keys have all been looked up, and whose bytes are there, is delivered, raw or shaped. -/
theorem gatherEnds : Obligations.GatherEnds := by
  unfold Obligations.GatherEnds
  intro s c f x y d1 bs ss hu hx hr ha hb
  dsimp only
  intro hlook hy hall hseats
  obtain rfl := s.dev.findCmd_id c x hx
  have hgo : s.dev.gatherOp x.id f = d1.deliverGather x ss := by
    rw [gatherOp_eq hx hr ha hb, runList_looked hlook hy hall hseats]
    rfl
  have hplane := looked_plane hlook
  refine ⟨fun hs => ?_, fun sh hs hw => ?_⟩ <;> refine does_run _ s (fun d => d.gatherOp x.id f) _ hu rfl ?_ <;> rw [hgo]
  · obtain ⟨h1, h2⟩ := deliverGather_raw hy ss hs
    exact ⟨h1, hplane.trans h2⟩
  · obtain ⟨h1, h2⟩ := deliverGather_shaped hy ss hs hw
    exact ⟨h1, hplane.trans h2⟩

/-! ### SCORE -/

/-- A page of another length than the shape's ends a SCORE (R326). -/
def scoreJudge (sh : Shape) (ss : List (Option Seat)) : Option Nat :=
  if ss.any fun z => z.any fun v => v.r.len != sh.pageLen then some Status.badShape.code else none

theorem scoreOp_eq {d : Dev} {c sub : Nat} {x : Cmd} {f : List Finding} {sh : Shape} (hx : d.findCmd c = some x)
    (hr : d.ready x Opcode.score.code = true) (hsub : x.body.subop = sub) (ha : x.arrived = true) (hb : x.listBad = false)
    (hs : x.shape = some sh) :
    d.scoreOp c sub f = d.runList x f (x.listed.getD []) (fun len => (0, len)) (scoreJudge sh) fun d ss => d.deliverScore x sh ss := by
  unfold Dev.scoreOp
  rw [hx]
  dsimp only
  rw [hr, ha, hb, hsub, hs]
  simp only [Bool.not_true, bne_self_eq_false, Bool.or_self, if_neg Bool.false_ne_true]
  rfl

theorem opcode_of_ready {d : Dev} {x : Cmd} {op : Nat} (h : d.ready x op = true) : x.body.opcode = op := by
  unfold Dev.ready at h
  simp only [Bool.and_eq_true, beq_iff_eq] at h
  exact h.1.2

/-- Settles O19: the list whose keys have all been looked up is judged by the length of its pages; the output of a right one leaves. -/
theorem scoreEnds : Obligations.ScoreEnds := by
  unfold Obligations.ScoreEnds
  intro s c f x y sh d1 got ss sub i hu hi hx hr hsub ha hb hs
  dsimp only
  intro hlook hy hall hseats
  have hrun : exec i s = s.run fun d => d.scoreOp c sub f := by
    simp only [List.mem_cons, List.not_mem_nil, or_false, Prod.mk.injEq] at hi
    rcases hi with ⟨rfl, rfl⟩ | ⟨rfl, rfl⟩ <;> rfl
  obtain rfl := s.dev.findCmd_id c x hx
  have hplane := looked_plane hlook
  have hbody : y.body = x.body := by
    have h := looked_sameBody hlook
    rw [SameBody, hx, hy] at h
    exact Option.some.inj h
  have hgo := (scoreOp_eq (f := f) hx hr hsub ha hb hs).trans (runList_looked hlook hy hall hseats _ _)
  refine ⟨fun hwrong => ?_, fun hwrong bs hgot hw => ?_⟩ <;> refine does_run i s (fun d => d.scoreOp x.id sub f) _ hu hrun ?_ <;> rw [hgo]
  · rw [show scoreJudge sh ss = some Status.badShape.code from if_pos hwrong]
    refine ⟨ended_abort_bytes d1 x.id _ y hy, hplane.trans (abort_plane d1 _ _ fun z hz => ?_)⟩
    obtain rfl : y = z := Option.some.inj (hy.symm.trans hz)
    rw [hbody, opcode_of_ready hr]
    decide
  · rw [show scoreJudge sh ss = none from if_neg (by rw [hwrong]; exact Bool.false_ne_true), hgot]
    obtain ⟨h1, h2⟩ := deliverScore_ends hy ss sh hw
    exact ⟨h1, hplane.trans h2⟩

end Sys2Proof.Machine
end

section
/-! DELETE (R42, R310, R386, R525): the key's entry is cleared, then its record is made. -/

namespace Sys2Proof.Machine

open Sys2Proof

/-! ### The cleared entry -/

theorem bucketGet_bucketSet (b : Bucket) (p : Nat) (e : Option OvfEnt) : bucketGet (bucketSet b p e) p = e := by
  match p with
  | 0 => rfl
  | 1 => rfl
  | _ + 2 => rfl

/-- An entry whose place in its bucket is free has no record. -/
theorem entryRec_ovf_none (x : Stall) (q p : Nat) (h : bucketGet (SMap.get x.buckets q Bucket.empty) p = none) :
    entryRec x (.ovf q p) = none := by
  simp only [entryRec, h]

theorem bucketGet_link (b : Bucket) (p n : Nat) : bucketGet { b with next := n } p = bucketGet b p := by
  unfold bucketGet
  split <;> rfl

/-- The unlinking of a bucket changes links alone. -/
theorem bucketGet_unlinkBucket (x : Stall) (q a p : Nat) (g : DWord) :
    bucketGet (SMap.get (unlinkBucket x q g).buckets a Bucket.empty) p = bucketGet (SMap.get x.buckets a Bucket.empty) p := by
  unfold unlinkBucket
  dsimp only
  split
  · split
    · rfl
    · rw [SMap.upd, SMap.get_put]
      split
      · rename_i h
        rw [bucketGet_link, h]
      · rfl
  · rfl

/-- The end of the overflow area only takes entries away. -/
theorem bucketGet_dropOverflow (x : Stall) (q p : Nat) (h : bucketGet (SMap.get x.buckets q Bucket.empty) p = none) :
    bucketGet (SMap.get (dropOverflow x).buckets q Bucket.empty) p = none := by
  unfold dropOverflow
  split
  · change bucketGet Bucket.empty p = none
    unfold bucketGet
    split <;> rfl
  · exact h

/-- A cleared entry is dead (R525). -/
theorem clearEntry_dead (x : Stall) (l : Loc) : DeadAt (clearEntry x l) l := by
  intro y hy
  cases l with
  | cam i => exact (clearEntry_cam x (.cam i) i y hy).resolve_left fun h => h.2 rfl
  | ovf q p =>
    have hfree : entryRec (clearEntry x (.ovf q p)) (.ovf q p) = none := by
      unfold clearEntry
      dsimp only
      split
      · rename_i hnone
        exact entryRec_ovf_none x q p hnone
      · refine entryRec_ovf_none _ q p (bucketGet_dropOverflow _ q p ?_)
        rw [bucketGet_unlinkBucket, SMap.get_put_self, bucketGet_bucketSet]
    rw [hfree] at hy
    cases hy

theorem dropKey_dead (d : Dev) (home : Nat) (l : Loc) : DeadAt ((d.dropKey home l).stall home) l := by
  unfold Dev.dropKey
  split
  · rename_i hnone
    intro y hy
    rw [hnone] at hy
    cases hy
  · unfold Dev.removeEntry
    rw [Dev.stall_updStall, if_pos rfl]
    exact clearEntry_dead _ l

theorem dropKey_storeWork (d : Dev) (home : Nat) (l : Loc) : StoreWork d (d.dropKey home l) := by
  unfold Dev.dropKey
  split
  · exact StoreWork.refl d
  · exact (retireEntry_storeWork _ _ _ _).trans (removeEntry_storeWork _ _ _)

/-! ### The end of a DELETE -/

theorem StoreWork.pad {d e : Dev} (h : StoreWork d e) (p : Nat) : e.pad p = d.pad p := by
  rw [h.frame]
  rfl

/-- The device of a DELETE that has found its key: the key is gone, with the next write sequence number. -/
def Dev.deleted (d : Dev) (home : Nat) (l : Loc) : Dev := ({ d with shd := { d.shd with wseq := d.shd.wseq + 1 } } : Dev).dropKey home l

theorem deleted_storeWork (d : Dev) (home : Nat) (l : Loc) : StoreWork d (d.deleted home l) :=
  (ShedOnly.storeWork (show ShedOnly d { d with shd := { d.shd with wseq := d.shd.wseq + 1 } } from rfl)).trans (dropKey_storeWork _ home l)

section

variable {d d1 : Dev} {c : Nat} {x : Cmd} {f : List Finding} {o : Found} (hx : d.findCmd c = some x)
  (hr : d.runnable x Opcode.delete.code = true)
  (hs : d.barnStopped (homeStall (d.padSet x.body.pad) (keyDigest (x.key.getD [])) / 64) = false)
  (hf : d.find f x.body.pad (x.key.getD []) = (o, d1))

include hx hr hs hf

theorem deleteOp_absent {h : Nat} (ho : o = .absent h) : d.deleteOp c f = d1.finish c Status.notFound.code 0 0 := by
  unfold Dev.deleteOp
  rw [hx]
  dsimp only
  rw [hr, hs, hf, ho]
  rfl

theorem deleteOp_hit {h : Nat} {l : Loc} {r : Rec} (ho : o = .hit h l r) :
    d.deleteOp c f = ((d1.deleted (homeStall (d.padSet x.body.pad) (keyDigest (x.key.getD []))) l).finish c Status.ok.code 0 r.len).persistDelete
      x x.body.pad (x.key.getD []) d1.shd.wseq (some r) := by
  unfold Dev.deleteOp
  rw [hx]
  dsimp only
  rw [hr, hs, hf, ho]
  rfl

end

/-- Settles O21: an absent key ends the DELETE; the entry of one that is found is cleared, and the record made for it brings no entry
back. -/
theorem deleteEnds : Obligations.DeleteEnds := by
  unfold Obligations.DeleteEnds
  intro s c f x hu hx hr
  dsimp only
  intro hs
  have hwork : ∀ {o d1}, s.dev.find f x.body.pad (x.key.getD []) = (o, d1) → StoreWork s.dev d1 := fun hf => by
    have h := find_storeWork s.dev f x.body.pad (x.key.getD [])
    rwa [hf] at h
  refine ⟨fun h d1 hf => ?_, fun h loc r d1 hf => ?_⟩ <;> refine does_run _ s (fun d => d.deleteOp c f) _ hu rfl ?_
  · rw [deleteOp_absent hx hr hs hf rfl]
    exact finish_after hx (hwork hf) _ _ _
  · rw [deleteOp_hit hx hr hs hf rfl]
    have hwork2 := (hwork hf).trans (deleted_storeWork d1 (homeStall (s.dev.padSet x.body.pad) (keyDigest (x.key.getD []))) loc)
    have hdead := dropKey_dead { d1 with shd := { d1.shd with wseq := d1.shd.wseq + 1 } }
      (homeStall (s.dev.padSet x.body.pad) (keyDigest (x.key.getD []))) loc
    change DeadAt ((d1.deleted _ loc).stall _) loc at hdead
    generalize homeStall (s.dev.padSet x.body.pad) (keyDigest (x.key.getD [])) = home at hwork2 hdead ⊢
    generalize d1.deleted home loc = m at hwork2 hdead ⊢
    obtain ⟨y, hy, _⟩ := storeWork_kept hwork2 c x hx
    obtain rfl := s.dev.findCmd_id c x hx
    have hdone : (m.finish x.id Status.ok.code 0 r.len).findCmd x.id = some (y.done Status.ok.code 0 r.len) := by
      rw [Dev.findCmd_finish, if_pos rfl, hy]
      rfl
    have hpad : (m.finish x.id Status.ok.code 0 r.len).pad x.body.pad = s.dev.pad x.body.pad := by
      rw [← hwork2.pad]
      simp
    obtain ⟨hplane, hkeeps, z, hz, hkept, hvol, hdur⟩ := persistDelete_spec (m.finish x.id Status.ok.code 0 r.len) x _ x.body.pad
      (x.key.getD []) d1.shd.wseq (some r) hdone rfl
    rw [hpad] at hvol hdur
    refine ⟨hkeeps home loc ?_, (hwork2.plane.trans (finish_plane _ _ _ _ _)).trans hplane, z, hz, hkept.stage, hkept.bytes, hkept.info, hvol,
      fun hp => ⟨hdur hp, hkept.status rfl⟩⟩
    rw [show (m.finish x.id Status.ok.code 0 r.len).stall home = m.stall home by simp]
    exact hdead

end Sys2Proof.Machine
end

section
/-! Admission and completion (R42, R348, R361, R369–R379, R387): what the arbiter's choice leaves, what a completion counts, and what the
space of the write buffer, paused output and replaced storage do. -/

namespace Sys2Proof.Machine

open Sys2Proof

/-! ### The round -/

/-- A flow still has a waiting command (R379). -/
def Dev.flowOpen (d : Dev) (f : Nat × Nat × Nat) : Bool := d.cmds.any fun k => k.stage == .waiting && k.ses == f.1 && k.cls == f.2.1

theorem leaveRound_eq (d : Dev) : d.leaveRound = { d with arb := { d.arb with round := d.arb.round.filter d.flowOpen } } := rfl

/-- What the flow of an admitted command pays (R379). -/
def payFlow (x : Cmd) (n : Nat) (w : Nat × Nat × Nat) : Nat × Nat × Nat := if w.1 = x.ses ∧ w.2.1 = x.cls then (w.1, w.2.1, w.2.2 - n) else w

theorem flowOpen_payFlow (d : Dev) (x : Cmd) (n : Nat) (w : Nat × Nat × Nat) : d.flowOpen (payFlow x n w) = d.flowOpen w := by
  unfold payFlow Dev.flowOpen
  split <;> rfl

theorem payFlow_zero (x : Cmd) : payFlow x 0 = id := by
  funext w
  unfold payFlow
  split <;> rfl

/-- A round that has lost its closed flows loses none again. -/
theorem filter_payFlow (d : Dev) (x : Cmd) (n : Nat) (l m : List (Nat × Nat × Nat)) (h : m = l ∨ m = l.filter d.flowOpen) :
    (m.map (payFlow x n)).filter d.flowOpen = (l.map (payFlow x n)).filter d.flowOpen := by
  rcases h with rfl | rfl
  · rfl
  · rw [List.filter_map, List.filter_map, List.filter_filter]
    congr 2
    funext w
    simp only [Function.comp_apply, flowOpen_payFlow, Bool.and_self]

/-! ### The command chosen is there -/

theorem firstOf_mem {d : Dev} {s cls : Nat} {x : Cmd} (h : d.firstOf s cls = some x) : x ∈ d.cmds := List.mem_of_find?_eq_some h

theorem pickUrgent_mem {d : Dev} {x : Cmd} (h : d.pickUrgent = some x) : x ∈ d.cmds := by
  obtain ⟨s, _, hs⟩ := List.exists_of_findSome?_eq_some h
  obtain ⟨y, hy, hadm⟩ := Option.bind_eq_some_iff.1 hs
  split at hadm <;> cases hadm
  exact firstOf_mem hy

theorem weightedLoop_mem {d : Dev} (k visited : Nat) (round : List (Nat × Nat × Nat)) {x : Cmd}
    (h : (d.weightedLoop k visited round).1 = some x) : x ∈ d.cmds := by
  induction k generalizing visited round with
  | zero => cases h
  | succ k ih =>
    cases round with
    | nil => cases h
    | cons f rest =>
      obtain ⟨s, cls, deficit⟩ := f
      unfold Dev.weightedLoop at h
      split at h
      · cases h
      · split at h
        · rename_i c hc
          split at h
          · split at h
            · cases h
              exact firstOf_mem hc
            · exact ih _ _ h
          · exact ih _ _ h
        · exact ih _ _ h

theorem findCmd_of_mem {d : Dev} {x : Cmd} (h : x ∈ d.cmds) : ∃ y, d.findCmd x.id = some y :=
  Option.isSome_iff_exists.1 (List.find?_isSome.2 ⟨x, h, beq_self_eq_true x.id⟩)

/-- A command replaced by a record with its identifier is found as that record. -/
theorem findCmd_replace {d : Dev} {x y : Cmd} (h : x ∈ d.cmds) (hy : y.id = x.id) : (d.updCmd x.id fun _ => y).findCmd x.id = some y := by
  have hsome : ∃ z, (d.updCmd x.id fun _ => y).findCmd x.id = some z := by
    refine Option.isSome_iff_exists.1 (List.find?_isSome.2 ⟨y, ?_, by simp [hy]⟩)
    exact List.mem_map.2 ⟨x, h, if_pos rfl⟩
  obtain ⟨z, hz⟩ := hsome
  obtain ⟨w, _, hw⟩ := List.mem_map.1 (Dev.findCmd_mem _ _ _ hz)
  have hid := Dev.findCmd_id _ _ _ hz
  by_cases hwx : w.id = x.id
  · rw [if_pos hwx] at hw
    rw [hz, ← hw]
  · rw [if_neg hwx] at hw
    exact absurd (hw ▸ hid) hwx

/-! ### Beginning an admitted command -/

/-- The admission of a command holds in its record: its slot, its number, its cost and the bytes it needs. -/
def Cmd.admission (x : Cmd) : Bool × Nat × Nat × Nat := (x.slotHeld, x.admSeq, x.cost, x.need)

/-- What begins keeps the admission of command c, the arbiter and the admission numbers. -/
structure AdmKept (c : Nat) (d e : Dev) : Prop where
  seq : e.admSeq = d.admSeq
  arb : e.arb = d.arb
  cmd : (e.findCmd c).map Cmd.admission = (d.findCmd c).map Cmd.admission

theorem AdmKept.refl (c : Nat) (d : Dev) : AdmKept c d d := ⟨rfl, rfl, rfl⟩

theorem AdmKept.trans {c : Nat} {a b e : Dev} (h1 : AdmKept c a b) (h2 : AdmKept c b e) : AdmKept c a e :=
  ⟨h2.seq.trans h1.seq, h2.arb.trans h1.arb, h2.cmd.trans h1.cmd⟩

theorem StoreWork.admKept {d e : Dev} (h : StoreWork d e) (c : Nat) : AdmKept c d e := by
  refine ⟨by rw [h.frame], by rw [h.frame], ?_⟩
  rcases h.cmd c with he | ⟨x, hx, _, _, he⟩
  · rw [he]
  · rw [hx, he]
    rfl

theorem Asks.admKept {d e : Dev} (h : Asks d e) (c : Nat) : AdmKept c d e := by
  refine ⟨by rw [h.frame], by rw [h.frame], ?_⟩
  have hplain := congrArg (Option.map Cmd.admission) (h.findCmd c)
  rw [Option.map_map, Option.map_map] at hplain
  exact hplain

/-- A command that begins goes on, or is ended early (R71, R304, R752). -/
theorem begin_spec (d : Dev) (x : Cmd) :
    ∃ m, AdmKept x.id d m ∧ (d.begin x = m ∨ ∃ st info, d.begin x = m.abortWith x.id st info) := by
  unfold Dev.begin
  dsimp only
  have h1 : AdmKept x.id d (if x.body.opcode = Opcode.paddock.code ∧ x.body.subop = 1 ∧ (d.pad x.body.pad).live = true then
      d.updPad x.body.pad fun p => { p with st := 2 } else d) := by
    split <;> exact ⟨rfl, rfl, rfl⟩
  generalize (if x.body.opcode = Opcode.paddock.code ∧ x.body.subop = 1 ∧ (d.pad x.body.pad).live = true then
      d.updPad x.body.pad fun p => { p with st := 2 } else d) = m at h1 ⊢
  split
  · exact ⟨m, h1, .inr ⟨_, _, rfl⟩⟩
  · split
    · exact ⟨m, h1, .inr ⟨_, _, rfl⟩⟩
    · split
      · have h2 := h1.trans ((find_storeWork m [] x.body.pad (x.key.getD [])).admKept x.id)
        generalize m.find [] x.body.pad (x.key.getD []) = o at h2 ⊢
        obtain ⟨o, m2⟩ := o
        cases o with
        | hit h l r => exact ⟨m2, h2, .inr ⟨_, _, rfl⟩⟩
        | absent h => exact ⟨_, h2.trans ((askInput_asks m2 x.id).admKept x.id), .inl rfl⟩
        | bad h l => exact ⟨_, h2.trans ((askInput_asks m2 x.id).admKept x.id), .inl rfl⟩
        | broken => exact ⟨_, h2.trans ((askInput_asks m2 x.id).admKept x.id), .inl rfl⟩
      · exact ⟨_, h1.trans ((askInput_asks m x.id).admKept x.id), .inl rfl⟩

/-- The early end of a command keeps its admission; the flows that it leaves without a waiting command leave the round. -/
theorem abortWith_adm (d : Dev) (c st info : Nat) :
    (d.abortWith c st info).admSeq = d.admSeq ∧ (d.abortWith c st info).arb.urgentUsed = d.arb.urgentUsed ∧
    (d.abortWith c st info).arb.round = d.arb.round.filter (d.abortWith c st info).flowOpen ∧
    ((d.abortWith c st info).findCmd c).map Cmd.admission = (d.findCmd c).map Cmd.admission := by
  obtain ⟨n, _, hframe, _, hcmd⟩ := d.abortWith_frame c st info
  have hround : (d.abortWith c st info).arb.round = d.arb.round.filter (d.abortWith c st info).flowOpen := by
    unfold Dev.abortWith
    refine (finish_round _ _ _ _ _).trans ?_
    rw [d.undelete_frame c]
    rfl
  refine ⟨by rw [hframe], by rw [hframe], hround, ?_⟩
  rw [hcmd c, if_pos rfl, Option.map_map]
  rfl

/-! ### Taking a command in -/

theorem takeIn_refused {d : Dev} {x : Cmd} {st : Nat} (h : d.admitCheck x = .inl st) : d.takeIn x = (false, d.finish x.id st 0 0) := by
  rw [Dev.takeIn, h]

/-- What a command that passes the checks leaves once it has begun (R348, R369, R375). -/
structure TakenIn (x : Cmd) (d e : Dev) : Prop where
  seq : e.admSeq = d.admSeq + 1
  used : e.arb.urgentUsed = d.arb.urgentUsed
  round : e.arb.round = d.arb.round ∨ e.arb.round = d.arb.round.filter e.flowOpen
  cmd : ∃ y, e.findCmd x.id = some y ∧ y.slotHeld = true ∧ y.admSeq = d.admSeq ∧ y.cost = x.admitCost ∧ y.need = x.body.inbound

theorem begin_takenIn {d m : Dev} {x y : Cmd} (hid : y.id = x.id) (hm : m.findCmd x.id = some y) (hseq : m.admSeq = d.admSeq + 1)
    (harb : m.arb = d.arb) (hy : y.admission = (true, d.admSeq, x.admitCost, x.body.inbound)) : TakenIn x d (m.begin y) := by
  have hcmd : ∀ {e : Dev}, (e.findCmd x.id).map Cmd.admission = some y.admission →
      ∃ z, e.findCmd x.id = some z ∧ z.slotHeld = true ∧ z.admSeq = d.admSeq ∧ z.cost = x.admitCost ∧ z.need = x.body.inbound := by
    intro e h
    obtain ⟨z, hz, hadm⟩ := Option.map_eq_some_iff.1 h
    rw [hy] at hadm
    unfold Cmd.admission at hadm
    simp only [Prod.mk.injEq] at hadm
    exact ⟨z, hz, hadm⟩
  obtain ⟨b, hb, hend⟩ := begin_spec m y
  have hbegun : (b.findCmd x.id).map Cmd.admission = some y.admission := by
    have h := hb.cmd
    rw [hid] at h
    rw [h, hm]
    rfl
  rcases hend with h | ⟨st, info, h⟩
  · rw [h]
    exact ⟨hb.seq.trans hseq, by rw [hb.arb, harb], .inl (by rw [hb.arb, harb]), hcmd hbegun⟩
  · obtain ⟨hs, hu, hr, hc⟩ := abortWith_adm b y.id st info
    rw [h]
    rw [hb.arb, harb] at hu hr
    rw [hid] at hs hu hr hc ⊢
    exact ⟨(hs.trans hb.seq).trans hseq, hu, .inr hr, hcmd (hc.trans hbegun)⟩

theorem takeIn_taken {d : Dev} {x : Cmd} {sh : Option Shape} (h : d.admitCheck x = .inr sh) (hx : x ∈ d.cmds) :
    (d.takeIn x).1 = true ∧ TakenIn x d (d.takeIn x).2 := by
  rw [Dev.takeIn, h]
  exact ⟨rfl, begin_takenIn rfl (findCmd_replace hx rfl) rfl rfl rfl⟩

/-! ### The arbiter's choice -/

/-- The device as the arbiter makes its choice: its window and its round are those of the moment (R377, R379). -/
def Dev.choosing (d : Dev) : Dev := { d.rollWindow with arb := { d.rollWindow.arb with round := d.rollWindow.roundNow } }

/-- The URGENT command chosen (R376). -/
def Dev.urgentChoice (d : Dev) : Option Cmd := if d.arb.urgentUsed < d.urgentCap then d.pickUrgent else none

/-- The weighted round's choice (R379). -/
def Dev.weightedChoice (d : Dev) : Option Cmd × List (Nat × Nat × Nat) := d.weightedLoop (d.loopFuel d.arb.round) 0 d.arb.round

/-- The device with another weighted round. -/
def Dev.withRound (d : Dev) (r : List (Nat × Nat × Nat)) : Dev := { d with arb := { d.arb with round := r } }

/-- The URGENT round robin goes on from the session served, and its window is charged `n` bytes (R376, R377). -/
def Dev.urgentServed (d : Dev) (x : Cmd) (n : Nat) : Dev := { d with arb := { d.arb with urgRr := x.ses, urgentUsed := d.arb.urgentUsed + n } }

/-- The choice of the arbiter: the URGENT command, or that of the weighted round, which its flow pays for (R379). -/
def Dev.choose (d : Dev) : Dev :=
  match d.urgentChoice with
  | some c => (d.takeIn c).2.urgentServed c (if (d.takeIn c).1 then c.admitCost else 0)
  | none =>
    let m := d.withRound d.weightedChoice.2
    match d.weightedChoice.1 with
    | none => m
    | some c => (m.takeIn c).2.withRound ((m.takeIn c).2.arb.round.map (payFlow c (if (m.takeIn c).1 then c.admitCost else 0)))

theorem chooseNext_eq (d : Dev) : d.chooseNext = d.choosing.choose := by
  unfold Dev.chooseNext
  extract_lets d1 arb d2 under arb2
  rw [show d.choosing = d2 from rfl]
  clear_value d2
  unfold Dev.choose Dev.urgentChoice Dev.weightedChoice
  simp only [under, arb2, decide_eq_true_eq]
  generalize (if d2.arb.urgentUsed < d2.urgentCap then d2.pickUrgent else none) = o
  cases o with
  | some c =>
    dsimp only
    generalize d2.takeIn c = t
    obtain ⟨ok, e⟩ := t
    cases ok <;> rfl
  | none =>
    dsimp only
    generalize d2.weightedLoop (d2.loopFuel d2.arb.round) 0 d2.arb.round = w
    obtain ⟨o, round⟩ := w
    cases o with
    | none => rfl
    | some c =>
      dsimp only
      rw [show ({ d2 with arb := { d2.arb with round := round } } : Dev) = d2.withRound round from rfl]
      generalize (d2.withRound round).takeIn c = t
      obtain ⟨ok, e⟩ := t
      cases ok with
      | true => rfl
      | false =>
        dsimp only
        rw [if_neg Bool.false_ne_true, if_neg Bool.false_ne_true, payFlow_zero, List.map_id]
        rfl

theorem urgentChoice_mem {d : Dev} {x : Cmd} (h : d.urgentChoice = some x) : x ∈ d.cmds := by
  unfold Dev.urgentChoice at h
  split at h
  · exact pickUrgent_mem h
  · cases h

theorem doesThen_admitNext (s : State) (P : Dev → Prop) (hu : s.Up) (h : P s.dev.chooseNext.leaveRound) : DoesThen .admitNext s P :=
  doesThen_run _ s (fun d => d.admitNext.letGo) Dev.admitNext P hu rfl rfl h

/-- The end of a command admits nothing and charges nothing. -/
theorem finish_adm (d : Dev) (c st b i : Nat) :
    (d.finish c st b i).admSeq = d.admSeq ∧ (d.finish c st b i).arb.urgentUsed = d.arb.urgentUsed := by
  obtain ⟨hframe, _⟩ := d.finish_frame c st b i
  exact ⟨by rw [hframe], by rw [hframe]⟩

/-- Settles O22: the command chosen is one of the device's; it is refused, which ends it, or taken in, and its flow pays in the weighted
round. -/
theorem admitNextChooses : Obligations.AdmitNextChooses := by
  unfold Obligations.AdmitNextChooses
  intro s hu d pick loop taken round
  have hd : s.dev.choosing = d := rfl
  have hpick : d.urgentChoice = pick := rfl
  have hloop : d.weightedChoice = loop := rfl
  have hgo : ∀ P : Dev → Prop, P d.choose.leaveRound → DoesThen .admitNext s P := fun P h => by
    refine doesThen_admitNext s P hu ?_
    rw [chooseNext_eq, hd]
    exact h
  clear_value d
  refine ⟨fun x hx => ⟨fun sh hc => hgo _ ?_, fun st hc => hgo _ ?_⟩,
    fun hno x hx => ⟨fun sh (hc : (d.withRound loop.2).admitCheck x = .inr sh) => hgo _ ?_,
      fun st (hc : (d.withRound loop.2).admitCheck x = .inl st) => hgo _ ?_⟩, fun hno hx => hgo _ ?_⟩ <;> rw [Dev.choose, hpick]
  · obtain ⟨htrue, htaken⟩ := takeIn_taken hc (urgentChoice_mem (hpick.trans hx))
    rw [hx]
    dsimp only
    rw [htrue]
    generalize (d.takeIn x).2 = e at htaken
    exact ⟨⟨htaken.seq, htaken.cmd⟩, rfl, congrArg (· + x.admitCost) htaken.used⟩
  · obtain ⟨y, hy⟩ := findCmd_of_mem (urgentChoice_mem (hpick.trans hx))
    obtain ⟨hseq, hused⟩ := finish_adm d x.id st 0 0
    have hend := ended_finish d x.id st 0 0 y hy
    rw [hx]
    dsimp only
    rw [takeIn_refused hc]
    dsimp only
    generalize d.finish x.id st 0 0 = e at hseq hused hend
    exact ⟨hend, rfl, hused, hseq⟩
  · have hmem : x ∈ d.cmds := weightedLoop_mem _ _ _ ((congrArg Prod.fst hloop).trans hx)
    obtain ⟨htrue, htaken⟩ := takeIn_taken hc hmem
    rw [hno, hloop]
    dsimp only
    rw [hx]
    dsimp only
    rw [htrue]
    generalize ((d.withRound loop.2).takeIn x).2 = e at htaken
    exact ⟨⟨htaken.seq, htaken.cmd⟩, filter_payFlow e x x.admitCost _ _ htaken.round, htaken.used⟩
  · have hmem : x ∈ d.cmds := weightedLoop_mem _ _ _ ((congrArg Prod.fst hloop).trans hx)
    obtain ⟨y, hy⟩ := findCmd_of_mem hmem
    obtain ⟨hseq, _⟩ := finish_adm (d.withRound loop.2) x.id st 0 0
    have hend := ended_finish (d.withRound loop.2) x.id st 0 0 y hy
    have hround := finish_round (d.withRound loop.2) x.id st 0 0
    rw [hno, hloop]
    dsimp only
    rw [hx]
    dsimp only
    rw [takeIn_refused hc]
    dsimp only
    generalize (d.withRound loop.2).finish x.id st 0 0 = e at hseq hend hround
    exact ⟨hend, filter_payFlow e x 0 _ _ (.inr hround), hseq⟩
  · rw [hno, hloop]
    dsimp only
    rw [hx]
    rfl

/-! ### Completion -/

/-- What sending leaves of a session: its state, its lost completions, its flow and its balance (R194, R370). -/
theorem Session.of_core {x y : Session} (h : y.core = x.core) : y.st = x.st ∧ y.lost = x.lost ∧ y.bal = x.bal :=
  ⟨(congrArg Session.st h :), (congrArg Session.lost h :), (congrArg Session.bal h :)⟩

theorem refund_keeps (x : Session) (now n : Nat) : (x.refund now n).st = x.st ∧ (x.refund now n).lost = x.lost := by
  unfold Session.refund Session.refill
  split
  · exact ⟨rfl, rfl⟩
  · split <;> exact ⟨rfl, rfl⟩

/-- A command that leaves a session which is not CLOSING counts nothing as lost (R221). -/
theorem retireCmd_lost (d : Dev) (x : Cmd) (h : (d.ses x.ses).st ≠ .closing) : ((d.retireCmd x).ses x.ses).lost = (d.ses x.ses).lost := by
  have hdrop : ((d.refundAndDrop x).ses x.ses).st = (d.ses x.ses).st ∧ ((d.refundAndDrop x).ses x.ses).lost = (d.ses x.ses).lost := by
    unfold Dev.refundAndDrop
    dsimp only
    split
    · have hr := refund_keeps (d.ses x.ses) d.now (x.charged - x.body.actualCost (x.via == .push) x.storedRead x.bytes)
      rw [← d.updSes_self x.ses fun y => y.refund d.now (x.charged - x.body.actualCost (x.via == .push) x.storedRead x.bytes)] at hr
      exact hr
    · exact ⟨rfl, rfl⟩
  obtain ⟨hst, hlost⟩ := hdrop
  rw [retireCmd_eq, (Session.of_core ((wakeFetch_fetches _ x.ses).ses x.ses)).2.1]
  obtain ⟨_, _, hses⟩ := settleSession_frame (d.refundAndDrop x) x.ses
  rcases hses with hses | ⟨hclosing, _⟩
  · rw [hses, hlost]
  · exact absurd (hst ▸ hclosing) h

/-- A completion that has no path, or whose command its session's fault lost, is counted (R194, R216). -/
theorem deliver_lost (d : Dev) (x : Cmd) (h : x.faulted = true ∨ d.hasPath x.ses x.qp = false ∧ x.linkLost = false) :
    d.deliver x = d.countLost x.ses := by
  unfold Dev.deliver
  have hno : (x.faulted || !d.hasPath x.ses x.qp) = true := by
    rcases h with h | ⟨h, _⟩ <;> simp [h]
  have hses : ¬ (x.linkLost && !x.faulted) = true := by
    rcases h with h | ⟨_, h⟩ <;> simp [h]
  rw [if_pos hno, if_neg hses]

/-- A completion that is not delivered is counted in its session's SES_LOST (R194, R216, R221). -/
theorem completeCmd_lost (d : Dev) (x : Cmd) (h : x.faulted = true ∨ d.hasPath x.ses x.qp = false ∧ x.linkLost = false)
    (hst : (d.ses x.ses).st ≠ .closing) : ((d.completeCmd x).ses x.ses).lost = sat1 (d.ses x.ses).lost := by
  have hcount : ∀ m : Dev, m.sessions = d.sessions → m.hasPath x.ses x.qp = d.hasPath x.ses x.qp →
      (((m.deliver x).retireCmd x).ses x.ses).lost = sat1 (d.ses x.ses).lost := fun m hm hp => by
    have hses : m.ses x.ses = d.ses x.ses := congrArg (fun l => SMap.get l x.ses Session.reset) hm
    have hself := m.updSes_self x.ses fun y => { y with lost := sat1 y.lost }
    rw [deliver_lost m x (by rwa [hp]), retireCmd_lost _ x ?_]
    · rw [Dev.countLost, hself, hses]
    · rw [Dev.countLost, hself]
      rwa [← hses] at hst
  unfold Dev.completeCmd
  dsimp only
  split
  · exact hcount _ rfl rfl
  · exact hcount _ rfl rfl

/-- Settles O23: what a completion adds is the tether's rule; the command leaves, and nothing after its delivery counts a loss. -/
theorem completeRetires : Obligations.CompleteRetires := by
  unfold Obligations.CompleteRetires
  intro s c x hu hx
  refine ⟨fun hc => doesThen_complete s c x _ hu hx hc ?_, fun hc => ?_⟩
  · refine ⟨s.dev.findCmd_id c x hx ▸ findCmd_completeCmd_self s.dev x, fun hadds => ?_, fun t ht => ?_, completeCmd_lost s.dev x⟩
    · rw [tether_completeCmd, if_pos ⟨hadds.1, hadds.2, rfl⟩]
    · rw [tether_completeCmd, if_neg fun h => ht ⟨⟨h.1, h.2.1⟩, h.2.2⟩]
  · rw [show exec (.complete c) s = _ from s.run_up (fun d => (d.completeOp c).letGo) hu, Dev.completeOp, hx]
    dsimp only
    rw [hc]
    rfl

/-! ### Space, paused output, replaced storage -/

/-- The piece given to a command is its next 1 MiB, and what follows asks for input only (R361). -/
theorem wbGive_spec {d e : Dev} {x y : Cmd} (hy : d.findCmd x.id = some y) (h : d.wbGive x = some e) :
    e.arb = d.arb ∧ DataPlane d e ∧ ∃ z, e.findCmd x.id = some z ∧ z.wbGiven = min x.need (x.wbGiven + 1048576) := by
  unfold Dev.wbGive at h
  dsimp only at h
  split at h
  · cases h
  · split at h <;> cases h
    rename_i es _ _
    have hask := askInput_asks (d.updCmd x.id fun z => { z with wb := z.wb ++ es, wbGiven := min x.need (x.wbGiven + 1048576) }) x.id
    obtain ⟨z, hz, hplain⟩ := hask.found x.id _ (findCmd_updCmd_some _ hy fun _ => rfl)
    refine ⟨by rw [hask.frame]; rfl, (updCmd_plane d x.id _ (by intro y; rfl)).trans hask.plane, z, hz, ?_⟩
    exact (congrArg Cmd.wbGiven hplain).trans rfl

/-- The command whose turn it is, is there. -/
theorem wbTurn_found {d : Dev} {x : Cmd}
    (h : (d.wbWaiting.findSome? fun i => (d.findCmd i).bind fun c => if d.stageHeld c then none else some c) = some x) :
    d.findCmd x.id = some x := by
  obtain ⟨i, _, hi⟩ := List.exists_of_findSome?_eq_some h
  obtain ⟨y, hy, hheld⟩ := Option.bind_eq_some_iff.1 hi
  split at hheld <;> cases hheld
  rw [d.findCmd_id i x hy, hy]

/-- The write-buffer turns of a device. -/
def Dev.withTurns (d : Dev) (r : List Nat) : Dev := { d with arb := { d.arb with wbRound := r } }

theorem withTurns_plane (d : Dev) (r : List Nat) : DataPlane d (d.withTurns r) := ⟨rfl, rfl⟩

/-- The command whose turn it is gets space, and its turn passes (R361). -/
theorem wbAllocate_gives {d e : Dev} {x : Cmd}
    (h : (d.wbWaiting.findSome? fun i => (d.findCmd i).bind fun c => if d.stageHeld c then none else some c) = some x)
    (hg : (d.withTurns (d.wbWaiting.filter (fun i => i != x.id) ++ [x.id])).wbGive x = some e) : d.wbAllocate = e := by
  unfold Dev.withTurns at hg
  simp only [Dev.wbAllocate, h, hg]

/-- The device after 1 MiB more of paused output is charged, before it leaves (R370). -/
def Dev.resumed (d : Dev) (x : Cmd) : Dev :=
  let n := min 1048576 (x.storedRead - x.releasedTo)
  (d.updSes x.ses fun y => y.charge d.now n).updCmd x.id fun y =>
    { y with releasedTo := y.releasedTo + n, charged := y.charged + (if (d.ses x.ses).rate = unshapedRate then 0 else n) }

theorem outputResume_eq {d : Dev} {c : Nat} {x : Cmd} (hx : d.findCmd c = some x) (hout : x.outLeft ≠ []) (hh : d.held x.ses = false)
    (hm : (d.ses x.ses).mayCharge d.now = true) (hr : x.releasedTo < x.storedRead) : d.outputResume c = (d.resumed x).sendOutput c := by
  obtain rfl := d.findCmd_id c x hx
  unfold Dev.outputResume
  rw [hx]
  dsimp only
  rw [if_neg]
  · rfl
  · simp [hout, hh, hm, hr]

/-- What sending output leaves of a session (R279). -/
theorem sendOutput_ses (d : Dev) (c n : Nat) : ((d.sendOutput c).ses n).core = (d.ses n).core := by
  rcases sendOutput_traffic d c with ⟨_, h⟩ | ⟨x, stay, k, _, h⟩
  · rw [h]
  · exact h.ses n

theorem outputResume_spec {d : Dev} {x : Cmd} (hx : d.findCmd x.id = some x) :
    DataPlane d ((d.resumed x).sendOutput x.id) ∧ (∃ y, ((d.resumed x).sendOutput x.id).findCmd x.id = some y ∧
      y.releasedTo = x.releasedTo + min 1048576 (x.storedRead - x.releasedTo) ∧
      y.charged = x.charged + (if (d.ses x.ses).rate = unshapedRate then 0 else min 1048576 (x.storedRead - x.releasedTo))) ∧
    (((d.resumed x).sendOutput x.id).ses x.ses).bal = ((d.ses x.ses).charge d.now (min 1048576 (x.storedRead - x.releasedTo))).bal := by
  have hplane : DataPlane d (d.resumed x) := by
    unfold Dev.resumed
    exact (show DataPlane d (d.updSes x.ses _) from ⟨rfl, rfl⟩).trans (updCmd_plane _ _ _ fun _ => rfl)
  have hfound : (d.resumed x).findCmd x.id = some _ := findCmd_updCmd_some _ (show (d.updSes x.ses _).findCmd x.id = some x from hx) fun _ => rfl
  obtain ⟨y, hy, hcore⟩ := sendOutput_findCmd _ x.id x.id _ hfound
  refine ⟨hplane.trans (sendOutput_plane _ _), ⟨y, hy, (congrArg Cmd.releasedTo hcore).trans rfl, (congrArg Cmd.charged hcore).trans rfl⟩, ?_⟩
  rw [(Session.of_core (sendOutput_ses _ x.id x.ses)).2.2]
  exact congrArg Session.bal (d.updSes_self x.ses fun y => y.charge d.now (min 1048576 (x.storedRead - x.releasedTo)))

/-- Only stalls and the shed differ. -/
def StorageOnly (d e : Dev) : Prop := e = { d with stalls := e.stalls, shd := e.shd, nextId := e.nextId }

theorem StorageOnly.trans {a b c : Dev} (h1 : StorageOnly a b) (h2 : StorageOnly b c) : StorageOnly a c := by
  unfold StorageOnly at *
  rw [h2, h1]

theorem StallsOnly.storageOnly {d e : Dev} (h : StallsOnly d e) : StorageOnly d e := by
  unfold StorageOnly
  rw [h.1]

theorem ShedOnly.storageOnly {d e : Dev} (h : ShedOnly d e) : StorageOnly d e := by
  unfold StorageOnly
  unfold ShedOnly at h
  rw [h]

theorem releaseValue_storageOnly (d : Dev) (r : Rec) : StorageOnly d (d.releaseValue r) :=
  (freeStorage_stallsOnly d r).storageOnly.trans (releaseLsns_shedOnly _ _).storageOnly

section

variable {d : Dev} {v : Nat} {o : OldVal} (ho : d.old.find? (fun o => o.id == v) = some o)

/-- A reader of a replaced value still runs (R42). -/
def Dev.readersRun (d : Dev) (o : OldVal) : Bool :=
  o.readers.any fun i => (d.findCmd i).any fun c => !(c.stage == .ended && c.status == Status.thermalHold.code)

include ho

theorem storageRelease_waits (h : d.readersRun o = true) : d.storageRelease v = d := by
  unfold Dev.storageRelease
  rw [ho]
  exact if_pos h

theorem storageRelease_releases (h : d.readersRun o = false) :
    StorageOnly { d with old := d.old.filter fun y => y.id != v } (d.storageRelease v) := by
  have hfree := releaseValue_storageOnly { d with old := d.old.filter fun x => x.id != v } o.recd
  have hstall : ∀ m : Dev, StorageOnly m (m.updStall o.home fun x => releaseEntry x o.ovfRec o.bucket) := fun _ => rfl
  have hall := hfree.trans (hstall _)
  unfold Dev.storageRelease
  rw [ho]
  dsimp only
  split
  · rename_i hrun
    exact absurd (show d.readersRun o = true from hrun) (by rw [h]; exact Bool.false_ne_true)
  · split
    · exact hall
    · exact hall.trans (updKey_stallsOnly _ _ _ _).storageOnly

end

/-- Settles O24: the space given, the output charged, and the storage released each follow from one operation's frame. -/
theorem spaceAndOutputGoOn : Obligations.SpaceAndOutputGoOn := by
  unfold Obligations.SpaceAndOutputGoOn
  refine ⟨fun s x d1 hu hturn hgive => ?_, fun s c x hu hx hout hh hm hr => ?_, fun s v o hu ho => ⟨fun hrun => ?_, fun hrun => ?_⟩⟩
  · refine does_run _ s Dev.wbAllocate _ hu rfl ?_
    have hx : (s.dev.withTurns (s.dev.wbWaiting.filter (fun i => i != x.id) ++ [x.id])).findCmd x.id = some x := wbTurn_found (d := s.dev) hturn
    obtain ⟨harb, hplane, hz⟩ := wbGive_spec hx hgive
    rw [wbAllocate_gives hturn hgive]
    exact ⟨harb, (withTurns_plane _ _).trans hplane, hz⟩
  · refine does_run _ s (fun d => d.outputResume c) _ hu rfl ?_
    rw [outputResume_eq hx hout hh hm hr]
    obtain rfl := s.dev.findCmd_id c x hx
    obtain ⟨hplane, ⟨y, hy, h1, h2⟩, h3⟩ := outputResume_spec hx
    exact ⟨hplane, y, hy, h1, h2, h3⟩
  · rw [show exec (.storageRelease v) s = _ from s.run_up (fun d => d.storageRelease v) hu, storageRelease_waits ho hrun]
  · exact does_run _ s (fun d => d.storageRelease v) _ hu rfl (storageRelease_releases ho hrun)

end Sys2Proof.Machine
end

section
/-! Packets received while every receive buffer is empty (R146, R241–R243, R261–R264, R284–R289, R367, R924): COMMAND, DATA and NUDGE. -/

namespace Sys2Proof.Machine

open Sys2Proof

/-! ### A frame that parses -/

/-- The device after a delivered frame has left the receive buffer of link n, and its credits have come back (R146). -/
def Dev.taken (d : Dev) (n : Nat) (vc : Vc) (f : List Byte) : Dev := (d.freeCredits n vc f.length).setHold n []

theorem credGet_credBump (c : Cred) (v : Vc) (n : Nat) : credGet (credBump c v n) v = (credGet c v + n) % 65536 := by
  cases v <;> rfl

theorem taken_link (d : Dev) (n : Nat) (vc : Vc) (f : List Byte) :
    ((d.taken n vc f).link n).rxHold = [] ∧ ((d.taken n vc f).link n).rxSeq = (d.link n).rxSeq ∧
    ((d.taken n vc f).link n).cnt = (d.link n).cnt ∧ ((d.taken n vc f).link n).lastRejType = (d.link n).lastRejType ∧
    ((d.taken n vc f).link n).lastRejCode = (d.link n).lastRejCode ∧ ((d.taken n vc f).link n).queue = (d.link n).queue ∧
    ((d.taken n vc f).link n).unacked = (d.link n).unacked := by
  obtain ⟨_, _, hlink⟩ := freed_frame d n vc f.length []
  unfold Dev.taken
  rw [hlink]
  exact ⟨rfl, rfl, rfl, rfl, rfl, rfl, rfl⟩

theorem taken_freed {d e : Dev} {n : Nat} {vc : Vc} (f : List Byte) (h : (e.link n).freed = (d.link n).freed) :
    Freed d (e.taken n vc f) n vc f.length := by
  obtain ⟨_, _, hlink⟩ := freed_frame e n vc f.length []
  unfold Freed Dev.taken
  rw [hlink]
  dsimp only
  rw [credGet_credBump, h]

theorem arrive_link (d : Dev) (n : Nat) (vc : Vc) (f : List Byte) :
    ((d.arrive n vc f).link n).rxSeq = ((d.link n).rxSeq + 1) % 65536 ∧ ((d.arrive n vc f).link n).freed = (d.link n).freed ∧
    ((d.arrive n vc f).link n).cnt = (d.link n).cnt ∧ ((d.arrive n vc f).link n).queue = (d.link n).queue ∧
    ((d.arrive n vc f).link n).st = (d.link n).st := by
  obtain ⟨_, _, hlink⟩ := arrive_frame d n vc f
  rw [hlink]
  exact ⟨rfl, rfl, rfl, rfl, rfl⟩

section

variable {i : Instr} {s : State} {n t : Nat} {vc : Vc} {f : List Byte} {P : Dev → Prop} (hu : s.Up) (hrx : s.RxEmpty)
  (ha : (s.dev.link n).st = .active) (ht : frameTyp f = t) (hp : s.dev.parse n vc f = .ok)
  (he : exec i s = s.run fun d => d.receiveType t n vc f)

include hu hrx ha ht hp he

/-- A frame that is delivered leaves the buffer, and its credits come back. -/
theorem does_frame {e : Dev} (hd : (s.dev.arrive n vc f).deliverFrame n vc f = some e) (h : P (e.taken n vc f)) : Does i s P := by
  refine does_run i s (fun d => d.receiveType t n vc f) P hu he ?_
  rw [Dev.receiveType, if_pos ht, receive_ok s.dev n vc f hrx ha hp, hd]
  exact h

/-- A frame that must wait stays in the buffer, parsed; a CONFIG gives its credits back (R367, R834). -/
theorem does_frame_kept (hd : (s.dev.arrive n vc f).deliverFrame n vc f = none)
    (h : P (if t != 0x0A then (s.dev.arrive n vc f).setHold n [{ vc := vc, frame := f, counts := true, parsed := true }]
      else ((s.dev.arrive n vc f).freeCredits n vc f.length).setHold n [{ vc := vc, frame := f, counts := false, parsed := true }])) :
    Does i s P := by
  refine does_run i s (fun d => d.receiveType t n vc f) P hu he ?_
  rw [Dev.receiveType, if_pos ht, receive_ok s.dev n vc f hrx ha hp, hd, ht]
  exact h

end

/-! ### COMMAND -/

section

variable {d : Dev} {vc : Vc} {f : List Byte}

theorem commandIn_submits (ht : (d.qp (dqp (frameSes f) (frameQp f))).takesPackets = true)
    (hd : (d.pushCmd (frameSes f) (frameQp f) (frameTag f)).isSome = false) (hr : ¬ 64 ≤ d.pendUsed (frameSes f)) :
    d.commandIn vc f = some (({ d with nextId := d.nextId + 1 } : Dev).submit (d.mkCmd d.nextId (frameSes f) (frameQp f) .push (vc == .urg)
      (frameTag f) (parseBody (framePayload f)) (frameHdrs f) .waiting none)) := by
  unfold Dev.commandIn
  dsimp only
  rw [ht, hd, if_neg (by simp), if_neg (by simp), if_neg hr]
  rfl

theorem commandIn_waits (ht : (d.qp (dqp (frameSes f) (frameQp f))).takesPackets = true)
    (hd : (d.pushCmd (frameSes f) (frameQp f) (frameTag f)).isSome = false) (hr : 64 ≤ d.pendUsed (frameSes f)) : d.commandIn vc f = none := by
  unfold Dev.commandIn
  dsimp only
  rw [ht, hd, if_neg (by simp), if_neg (by simp), if_pos hr]

/-- A COMMAND that is turned away is only answered (R262, R264). -/
theorem commandIn_refuses (h : (d.qp (dqp (frameSes f) (frameQp f))).takesPackets = false ∨
    (d.pushCmd (frameSes f) (frameQp f) (frameTag f)).isSome = true) : ∃ e, d.commandIn vc f = some e ∧ Sends d e := by
  unfold Dev.commandIn
  dsimp only
  split
  · exact ⟨_, rfl, sendRsp_sends _ _ _ _ _ _ _⟩
  · rename_i ht
    have hd := h.resolve_left fun hno => ht (by rw [hno]; rfl)
    rw [if_pos hd]
    exact ⟨_, rfl, sendRsp_sends _ _ _ _ _ _ _⟩

end

theorem Sends.cmds_length {d e : Dev} (h : Sends d e) : e.cmds.length = d.cmds.length := by
  simpa using congrArg List.length h.cmds

/-- A device with other links. -/
def Dev.withLinks (d : Dev) (l : SMap Link) : Dev := { d with links := l }

theorem arrive_eq (d : Dev) (n : Nat) (vc : Vc) (f : List Byte) : ∃ l, d.arrive n vc f = d.withLinks l := ⟨_, rfl⟩

theorem taken_eq (d : Dev) (n : Nat) (vc : Vc) (f : List Byte) : ∃ l, d.taken n vc f = d.withLinks l := ⟨_, rfl⟩

/-- Settles O26: the frame is accepted; a COMMAND then takes a pending place, or waits for one, or is turned away with an answer. -/
theorem commandPacket : Obligations.CommandPacket := by
  unfold Obligations.CommandPacket
  intro s n vc f hu hrx ha ht hp
  have hgo : (s.dev.arrive n vc f).deliverFrame n vc f = (s.dev.arrive n vc f).commandIn vc f := (deliverFrame_eq _ n vc f).1 ht
  obtain ⟨hseq, hfreed, _⟩ := arrive_link s.dev n vc f
  have hdo := fun P e => @does_frame (.command n vc f) s n 0x01 vc f P hu hrx ha ht hp rfl e
  have hkept := fun P => @does_frame_kept (.command n vc f) s n 0x01 vc f P hu hrx ha ht hp rfl
  obtain ⟨l, hl⟩ := arrive_eq s.dev n vc f
  rw [hl] at hgo hseq hfreed hdo hkept
  refine ⟨fun htake hdup hroom => hdo _ _ (hgo.trans (commandIn_submits htake hdup hroom)) ?_,
    fun htake hdup hfull => hkept _ (hgo.trans (commandIn_waits htake hdup hfull)) ?_, fun hno => ?_⟩
  · generalize he : ({ s.dev.withLinks l with nextId := _ } : Dev).submit _ = e
    have hlink : e.link n = (s.dev.withLinks l).link n := by rw [← he]; rfl
    refine ⟨?_, ?_, (taken_link _ n vc f).1, taken_freed f (by rw [hlink]; exact hfreed), ?_⟩
    · rw [← he]
      rfl
    · rw [(taken_link e n vc f).2.1, hlink]
      exact hseq
    · rw [← he]
      rfl
  · refine ⟨?_, ?_, rfl⟩
    · simp [Dev.setHold]
    · simp [Dev.setHold, hfreed]
  · obtain ⟨e, he, hsends⟩ := commandIn_refuses (d := s.dev.withLinks l) (vc := vc) hno
    refine hdo _ _ (hgo.trans he) ⟨hsends.cmds_length, ?_⟩
    change e.subSeq = _
    rw [hsends.frame]
    rfl

theorem withLinks_plane (d : Dev) (l : SMap Link) : DataPlane d (d.withLinks l) := ⟨rfl, rfl⟩

theorem taken_plane (d : Dev) (n : Nat) (vc : Vc) (f : List Byte) : DataPlane d (d.taken n vc f) := by
  obtain ⟨l, hl⟩ := taken_eq d n vc f
  rw [hl]
  exact withLinks_plane d l

/-! ### Inbound bytes -/

/-- What follows the arrival of bytes keeps them, and changes the data plane only. -/
structure InputKept (c : Nat) (d e : Dev) : Prop where
  plane : DataPlane d e
  cmd : ∀ x, d.findCmd c = some x → ∃ y, e.findCmd c = some y ∧ y.got = x.got ∧ y.gotBytes = x.gotBytes ∧ y.body = x.body

theorem InputKept.refl (c : Nat) (d : Dev) : InputKept c d d := ⟨DataPlane.refl d, fun x hx => ⟨x, hx, rfl, rfl, rfl⟩⟩

theorem InputKept.trans {c : Nat} {a b e : Dev} (h1 : InputKept c a b) (h2 : InputKept c b e) : InputKept c a e := by
  refine ⟨h1.plane.trans h2.plane, fun x hx => ?_⟩
  obtain ⟨y, hy, hgot, hbytes, hbody⟩ := h1.cmd x hx
  obtain ⟨z, hz, hgot2, hbytes2, hbody2⟩ := h2.cmd y hy
  exact ⟨z, hz, hgot2.trans hgot, hbytes2.trans hbytes, hbody2.trans hbody⟩

theorem StoreWork.inputKept {d e : Dev} (h : StoreWork d e) (c : Nat) : InputKept c d e := by
  refine ⟨h.plane, fun x hx => ?_⟩
  rcases h.cmd c with he | ⟨y, hy, _, _, he⟩
  · exact ⟨x, he.trans hx, rfl, rfl, rfl⟩
  · obtain rfl : y = x := Option.some.inj (hy.symm.trans hx)
    exact ⟨_, he, rfl, rfl, rfl⟩

theorem Asks.inputKept {d e : Dev} (h : Asks d e) (c : Nat) : InputKept c d e := by
  refine ⟨h.plane, fun x hx => ?_⟩
  obtain ⟨y, hy, hplain⟩ := h.found c x hx
  exact ⟨y, hy, (congrArg Cmd.got hplain :), (congrArg Cmd.gotBytes hplain :), (congrArg Cmd.body hplain :)⟩

theorem updCmd_inputKept (d : Dev) (c : Nat) (f : Cmd → Cmd) (hid : ∀ x, (f x).id = x.id)
    (hf : ∀ x, (f x).got = x.got ∧ (f x).gotBytes = x.gotBytes ∧ (f x).body = x.body) : InputKept c d (d.updCmd c f) :=
  ⟨updCmd_plane d c f hid, fun x hx => ⟨f x, findCmd_updCmd_some f hx hid, hf x⟩⟩

/-- The early end of a command that is no PADDOCK command keeps the bytes it has received. -/
theorem abortWith_inputKept (d : Dev) (c st info : Nat) (h : ∀ x, d.findCmd c = some x → x.body.opcode ≠ Opcode.paddock.code) :
    InputKept c d (d.abortWith c st info) := by
  obtain ⟨n, _, _, _, hcmd⟩ := d.abortWith_frame c st info
  refine ⟨?_, fun x hx => by rw [hcmd c, if_pos rfl, hx]; exact ⟨_, rfl, rfl, rfl, rfl⟩⟩
  unfold Dev.abortWith
  dsimp only
  rw [d.undelete_of_ne c h]
  exact (updCmd_plane d c _ (by intro y; rfl)).trans (finish_plane _ _ _ _ _)

theorem makeTags_inputKept (d : Dev) (c : Nat) : InputKept c d (d.makeTags c) := by
  unfold Dev.makeTags
  split
  · exact InputKept.refl c d
  · dsimp only
    split
    · exact InputKept.refl c d
    · rename_i x hx _
      have hchk : ∀ (l : List Nat) (k : Chk), l.foldl Chk.draws k = { k with maskCount := (l.foldl Chk.draws k).maskCount } := by
        intro l
        induction l with
        | nil => exact fun _ => rfl
        | cons a l ih =>
          intro k
          rw [List.foldl_cons, ih (k.draws a)]
          rfl
      rw [hchk]
      have hdrawn : ∀ k m, InputKept c d { d with chk := { d.chk with maskCount := k, make := m } } := fun k m =>
        ⟨⟨rfl, rfl⟩, fun z hz => ⟨z, hz, rfl, rfl, rfl⟩⟩
      refine (hdrawn _ _).trans (updCmd_inputKept _ c _ ?_ ?_)
      · intro y
        rfl
      · intro y
        exact ⟨rfl, rfl, rfl⟩

/-- Only the list of a GATHER or a SCORE is judged (R319, R326). -/
theorem listBad_opcode {x : Cmd} (h : x.listBad = true) : x.body.opcode = Opcode.gather.code ∨ x.body.opcode = Opcode.score.code := by
  unfold Cmd.listBad at h
  split at h
  · exact .inl ‹_›
  · split at h
    · exact .inr ‹_›
    · cases h

theorem checkList_inputKept (d : Dev) (c : Nat) : InputKept c d (d.checkList c) := by
  unfold Dev.checkList
  split
  · exact InputKept.refl c d
  · rename_i x hx
    split
    · rename_i hbad
      refine abortWith_inputKept d c _ _ fun y hy => ?_
      obtain rfl : x = y := Option.some.inj (hx.symm.trans hy)
      simp only [Bool.and_eq_true] at hbad
      rcases listBad_opcode hbad.2 with h | h <;> rw [h] <;> decide
    · exact InputKept.refl c d

/-- Only a write of a value commits (R303–R306). -/
theorem commitPlan_opcode {x : Cmd} {cur : Option Rec} {w : WritePlan} (h : x.commitPlan cur = some w) :
    x.body.opcode ≠ Opcode.paddock.code := by
  intro hp
  unfold Cmd.commitPlan at h
  dsimp only at h
  rw [hp, if_neg (by decide), if_neg (by decide), if_neg (by decide)] at h
  cases h

theorem commitWrite_inputKept (d : Dev) (c : Nat) : InputKept c d (d.commitWrite c) := by
  unfold Dev.commitWrite
  split
  · exact InputKept.refl c d
  · rename_i x hx
    dsimp only
    split
    · exact InputKept.refl c d
    · split
      · exact InputKept.refl c d
      · rename_i w hw
        have hres := fun loc bad => reserve_work d x.body.pad (d.homeOf x.body.pad (x.key.getD [])) (x.key.getD []) loc bad w
        split
        · rename_i r m hr
          have hm : Reserved.Work d (.ok r m) := hr ▸ hres _ _
          refine (StoreWork.inputKept hm c).trans (updCmd_inputKept _ c _ ?_ ?_)
          · intro y
            rfl
          · intro y
            exact ⟨rfl, rfl, rfl⟩
        · rename_i m hr
          have hm : Reserved.Work d (.wait m) := hr ▸ hres _ _
          exact StoreWork.inputKept hm c
        · rename_i st m hr
          have hm : Reserved.Work d (.fail st m) := hr ▸ hres _ _
          have hk := StoreWork.inputKept hm c
          refine hk.trans (abortWith_inputKept m c _ _ fun y hy => ?_)
          obtain ⟨z, hz, _, _, hbody⟩ := hk.cmd x hx
          obtain rfl : z = y := Option.some.inj (hz.symm.trans hy)
          rw [hbody]
          exact commitPlan_opcode hw

/-- What bytes that have arrived let happen: tags, further input, the judgement of a list, the commit point (R284–R291, R363). -/
def Dev.afterInput (d : Dev) (c : Nat) : Dev := (((d.makeTags c).askInput c).checkList c).commitWrite c

theorem afterInput_inputKept (d : Dev) (c : Nat) : InputKept c d (d.afterInput c) :=
  (((makeTags_inputKept d c).trans ((askInput_asks _ c).inputKept c)).trans (checkList_inputKept _ c)).trans (commitWrite_inputKept _ c)

/-! ### DATA -/

section

variable {d : Dev} {x : Cmd} (hx : d.findCmd x.id = some x) (off : Nat) (b : List Byte)

include hx

theorem dataFor_takes (h : inGrants x.grants 5 off b.length = true) (h2 : notGot x.got off b.length = true) :
    DataPlane d (d.dataFor x off b) ∧ ∃ y, (d.dataFor x off b).findCmd x.id = some y ∧ y.got = x.got ++ [{ off := off, bytes := b }] ∧
      y.gotBytes = x.gotBytes + b.length := by
  have heq : d.dataFor x off b = (d.updCmd x.id fun z =>
      { z with got := z.got ++ [{ off := off, bytes := b }], gotBytes := z.gotBytes + b.length,
               grants := takeGrants z.grants off b.length }).afterInput x.id := by
    unfold Dev.dataFor
    rw [h, h2]
    rfl
  have hkept := afterInput_inputKept (d.updCmd x.id fun z =>
      { z with got := z.got ++ [{ off := off, bytes := b }], gotBytes := z.gotBytes + b.length,
               grants := takeGrants z.grants off b.length }) x.id
  obtain ⟨y, hy, hgot, hbytes, _⟩ := hkept.cmd _ (findCmd_updCmd_some _ hx (by intro z; rfl))
  rw [heq]
  exact ⟨(updCmd_plane d x.id _ (by intro z; rfl)).trans hkept.plane, y, hy, hgot, hbytes⟩

end

theorem dataFor_refuses (d : Dev) (x : Cmd) (off : Nat) (b : List Byte) (h : (inGrants x.grants 5 off b.length && notGot x.got off b.length) = false) :
    d.dataFor x off b = d.abort x.id Status.badLength.code := by
  unfold Dev.dataFor
  rw [h]
  rfl

section

variable {d : Dev} {f : List Byte} (ht : (d.qp (dqp (frameSes f) (frameQp f))).takesPackets = true)

include ht

theorem dataIn_for {x : Cmd} (hx : d.pushCmd (frameSes f) (frameQp f) (frameTag f) = some x) (hs : x.stage = .admitted)
    (ha : x.arrived = false) : d.dataIn f = d.dataFor x (frameArg f % 2 ^ 37) (framePayload f) := by
  unfold Dev.dataIn
  dsimp only
  rw [ht, hx]
  dsimp only
  rw [if_neg (by simp), if_neg (by simp [hs, ha])]

theorem dataIn_stray (h : ∀ x, d.pushCmd (frameSes f) (frameQp f) (frameTag f) = some x → x.stage ≠ .admitted ∨ x.arrived = true) :
    d.dataIn f = d.strayData := by
  unfold Dev.dataIn
  dsimp only
  rw [ht, if_neg (by simp)]
  cases hx : d.pushCmd (frameSes f) (frameQp f) (frameTag f) with
  | none => rfl
  | some x =>
    dsimp only
    rw [if_pos (h x hx)]

end

/-- Settles O27: DATA of a command that still takes bytes joins its input or ends it; any other is counted. -/
theorem dataPacket : Obligations.DataPacket := by
  unfold Obligations.DataPacket
  intro s n vc f hu hrx ha ht hp htake
  have hgo : (s.dev.arrive n vc f).deliverFrame n vc f = some ((s.dev.arrive n vc f).dataIn f) := (deliverFrame_eq _ n vc f).2.1 ht
  have hdo := fun P e => @does_frame (.data n vc f) s n 0x04 vc f P hu hrx ha ht hp rfl e
  obtain ⟨l, hl⟩ := arrive_eq s.dev n vc f
  rw [hl] at hgo hdo
  refine ⟨fun x hx hfound hst harr => ⟨fun hin hnew => hdo _ _ hgo ?_, fun hbad => hdo _ _ hgo ?_⟩, fun hno => hdo _ _ hgo ?_⟩
  · rw [dataIn_for (d := s.dev.withLinks l) htake hx hst harr]
    obtain ⟨hplane, y, hy, hgot, hbytes⟩ := dataFor_takes (d := s.dev.withLinks l) hfound (frameArg f % 2 ^ 37) (framePayload f) hin hnew
    exact ⟨y, hy, hgot, hbytes, ((withLinks_plane _ l).trans hplane).trans (taken_plane _ n vc f)⟩
  · rw [dataIn_for (d := s.dev.withLinks l) htake hx hst harr, dataFor_refuses (s.dev.withLinks l) x _ _ hbad]
    obtain ⟨m, hm⟩ := taken_eq ((s.dev.withLinks l).abort x.id Status.badLength.code) n vc f
    rw [hm]
    refine ⟨ended_abort_bytes (s.dev.withLinks l) x.id Status.badLength.code x hfound, ?_, ?_⟩
    · exact abort_otherCmds (s.dev.withLinks l) x.id Status.badLength.code
    · have hst := (s.dev.withLinks l).abort_fields x.id Status.badLength.code
      obtain ⟨-, -, -, -, -, -, -, -, -, -, -, -, -, -, -, -, hstalls, -⟩ := hst
      exact hstalls
  · rw [dataIn_stray (d := s.dev.withLinks l) htake hno]
    rfl

/-! ### NUDGE -/

/-- The order of waiting frames is all that an urgent doorbell READ changes besides (R244). -/
theorem hoistDoorbell_frame (d : Dev) (q : Nat) :
    d.hoistDoorbell q = { d with links := (d.hoistDoorbell q).links, sessions := (d.hoistDoorbell q).sessions } := by
  unfold Dev.hoistDoorbell
  dsimp only
  split <;> rfl

/-- What a NUDGE of an ACTIVE ring-mode queue pair leaves (R241–R244). -/
structure Nudged (q : Nat) (d e : Dev) : Prop where
  others : ∀ k, k ≠ q → e.qp k = d.qp k
  stalls : e.stalls = d.stalls
  busy : (e.qp q).dbBusy = true
  again : (d.qp q).dbBusy = true → (e.qp q).dbAgain = true ∧ e = { d with qps := e.qps, links := e.links, sessions := e.sessions }
  reads : (d.qp q).dbBusy = false → ∃ r ∈ e.reads, r.what = .doorbell q ∧ r.addr = (d.qp q).ctx.dbAddr ∧ r.len = 8

theorem doorbell_nudged (d : Dev) (q : Nat) : Nudged q d (d.doorbell q) := by
  obtain ⟨hf, hothers, hself, _, hread⟩ := doorbell_fetches d q
  refine ⟨hothers, by rw [hf.frame], by rw [hself], fun hb => ⟨by rw [hself, if_pos hb], ?_⟩, fun hb => ?_⟩
  · unfold Dev.doorbell
    rw [if_pos hb]
    rfl
  · have hmem : (d.newRead (q / 64) (q % 64) (d.qp q).ctx.dbAddr 8 (.doorbell q)).core ∈ (d.doorbell q).reads.map OutRead.core := by
      rw [hread hb]
      simp
    obtain ⟨r, hr, hcore⟩ := List.mem_map.1 hmem
    exact ⟨r, hr, (congrArg OutRead.what hcore :), (congrArg OutRead.addr hcore :), (congrArg OutRead.len hcore :)⟩

theorem hoist_nudged {d e : Dev} {q : Nat} (h : Nudged q d e) : Nudged q d (e.hoistDoorbell q) := by
  have hframe := hoistDoorbell_frame e q
  have hqp : ∀ k, (e.hoistDoorbell q).qp k = e.qp k := fun k => by rw [hframe]; rfl
  refine ⟨fun k hk => (hqp k).trans (h.others k hk), ?_, by rw [hqp, h.busy], fun hb => ⟨by rw [hqp, (h.again hb).1], ?_⟩, fun hb => ?_⟩
  · rw [hframe]
    exact h.stalls
  · rw [hframe, (h.again hb).2]
  · obtain ⟨r, hr, hw⟩ := h.reads hb
    exact ⟨r, by rw [hframe]; exact hr, hw⟩

theorem urgentDoorbell_nudged (d : Dev) (q : Nat) : Nudged q d (d.urgentDoorbell q) := by
  unfold Dev.urgentDoorbell
  dsimp only
  split
  · rename_i hb
    have h := hoist_nudged (doorbell_nudged (d.updQp q fun x => { x with dbUrg := true }) q)
    have hself : (d.updQp q fun x => { x with dbUrg := true }).qp q = { d.qp q with dbUrg := true } := by simp
    refine ⟨fun k hk => (h.others k hk).trans (d.updQp_other q _ k hk), h.stalls, h.busy, fun _ => ?_, fun hno => ?_⟩
    · obtain ⟨hagain, hframe⟩ := h.again (by rw [hself]; exact hb)
      exact ⟨hagain, by rw [hframe]; rfl⟩
    · rw [hno] at hb
      cases hb
  · exact hoist_nudged (doorbell_nudged d q)

theorem nudgeQp_nudged {d : Dev} {q : Nat} (h : (d.qp q).st = .active ∧ (d.qp q).ctx.push = false) (urg : Bool) :
    Nudged q d (d.nudgeQp q urg) := by
  unfold Dev.nudgeQp
  rw [if_pos h]
  cases urg with
  | true => exact urgentDoorbell_nudged d q
  | false => exact doorbell_nudged d q

theorem nudgeQp_noEffect {d : Dev} {q : Nat} (h : ¬ ((d.qp q).st = .active ∧ (d.qp q).ctx.push = false)) (urg : Bool) :
    d.nudgeQp q urg = d.noEffect (q / 64) := if_neg h

/-- Settles O28: on an ACTIVE ring-mode queue pair the NUDGE is a doorbell READ, on any other it is counted. -/
theorem nudgePacket : Obligations.NudgePacket := by
  unfold Obligations.NudgePacket
  intro s n vc f hu hrx ha ht hp
  dsimp only
  have hgo : (s.dev.arrive n vc f).deliverFrame n vc f = some ((s.dev.arrive n vc f).nudgeQp (dqp (frameSes f) (frameQp f)) (vc == .urg)) :=
    (deliverFrame_eq _ n vc f).2.2.1 ht
  have hdo := fun P e => @does_frame (.nudge n vc f) s n 0x06 vc f P hu hrx ha ht hp rfl e
  obtain ⟨l, hl⟩ := arrive_eq s.dev n vc f
  rw [hl] at hgo hdo
  generalize dqp (frameSes f) (frameQp f) = q at hgo ⊢
  refine ⟨fun hring hb => hdo _ _ hgo ?_, fun hring hb => hdo _ _ hgo ?_, fun hno => hdo _ _ hgo ?_⟩
  · obtain ⟨hothers, hstalls, hbusy, _, hread⟩ := nudgeQp_nudged (d := s.dev.withLinks l) hring (vc == .urg)
    exact ⟨hbusy, hothers, hstalls, hread hb⟩
  · obtain ⟨hothers, _, _, hagain, _⟩ := nudgeQp_nudged (d := s.dev.withLinks l) hring (vc == .urg)
    obtain ⟨h1, h2⟩ := hagain hb
    refine ⟨h1, hothers, ?_⟩
    obtain ⟨m, hm⟩ := taken_eq ((s.dev.withLinks l).nudgeQp q (vc == .urg)) n vc f
    rw [hm, h2]
    rfl
  · rw [nudgeQp_noEffect (d := s.dev.withLinks l) hno]
    refine ⟨?_, rfl⟩
    exact congrArg Session.nudge ((s.dev.withLinks l).updSes_self (q / 64) fun x => { x with nudge := satAdd 16 x.nudge 1 })

end Sys2Proof.Machine
end

section
/-! Packets received while every receive buffer is empty (R146, R150, R162, R163, R169–R171, R228, R232–R234, R291, R832–R834, R921):
READ_DATA, CONFIG, REJECT, and frames that the parser drops or rejects. -/

namespace Sys2Proof.Machine

open Sys2Proof

/-! ### READ_DATA -/

/-- The device once an answered READ is no longer outstanding. -/
def Dev.readGone (d : Dev) (r : OutRead) : Dev := { d with reads := d.reads.filter fun x => x.tag != r.tag }

theorem readDataIn_answers {d : Dev} {f : List Byte} {r : OutRead} (h : d.matchRead f = some r) :
    d.readDataIn f = d.answerRead r (framePayload f) := by
  unfold Dev.readDataIn
  rw [h]

theorem readDataIn_stray {d : Dev} {f : List Byte} (h : d.matchRead f = none) :
    d.readDataIn f = d.updSes (frameSes f) fun x => { x with stray := satAdd 16 x.stray 1 } := by
  unfold Dev.readDataIn
  rw [h]

theorem answerRead_context {d : Dev} {r : OutRead} {q : Nat} (h : r.what = .context q) (b : List Byte) :
    d.answerRead r b = (d.readGone r).contextIn q b := by
  unfold Dev.answerRead
  rw [h]
  rfl

theorem answerRead_value {d : Dev} {r : OutRead} {c off : Nat} (h : r.what = .value c off) (b : List Byte) :
    d.answerRead r b = (d.readGone r).pullIn c off b := by
  unfold Dev.answerRead
  rw [h]
  rfl

/-- A context block makes its queue pair ACTIVE, or puts it in ERROR with code 2 (R233, R234). -/
theorem contextIn_spec (d : Dev) (q : Nat) (b : List Byte) (hst : (d.qp q).st = .idle) (hen : (d.qp q).enable = true) :
    d.contextIn q b = { d with qps := (d.contextIn q b).qps } ∧ (∀ k, k ≠ q → (d.contextIn q b).qp k = d.qp k) ∧
    (ctxOk b (d.ses (q / 64)).pcie = true → ((d.contextIn q b).qp q).st = .active ∧ ((d.contextIn q b).qp q).enable = true ∧
      ((parseCtx b).push = false → ((d.contextIn q b).qp q).ctx = parseCtx b)) ∧
    (ctxOk b (d.ses (q / 64)).pcie = false → ((d.contextIn q b).qp q).st = .error ∧ ((d.contextIn q b).qp q).err = 2) := by
  unfold Dev.contextIn
  dsimp only
  rw [if_neg (by simp [hst, hen])]
  cases hok : ctxOk b (d.ses (q / 64)).pcie with
  | false =>
    refine ⟨rfl, fun k hk => d.updQp_other q _ k hk, fun h => (Bool.noConfusion h), fun _ => ?_⟩
    simp [Dev.qpError]
  | true =>
    refine ⟨rfl, fun k hk => d.updQp_other q _ k hk, fun _ => ?_, fun h => (Bool.noConfusion h)⟩
    rw [if_neg (by simp), d.updQp_self]
    exact ⟨rfl, rfl, fun hp => if_neg (by simp [hp])⟩

/-- Bytes pulled for an admitted command join its input (R291). -/
theorem pullIn_spec {d : Dev} {c : Nat} {x : Cmd} (hx : d.findCmd c = some x) (hs : x.stage = .admitted) (off : Nat) (b : List Byte) :
    DataPlane d (d.pullIn c off b) ∧ ∃ y, (d.pullIn c off b).findCmd c = some y ∧ y.got = x.got ++ [{ off := off, bytes := b }] ∧
      y.gotBytes = x.gotBytes + b.length := by
  have hid : ∀ y : Cmd, (if y.stage = .admitted then
      ({ y with got := y.got ++ [{ off := off, bytes := b }], gotBytes := y.gotBytes + b.length } : Cmd) else y).id = y.id := by
    intro y
    split <;> rfl
  have hfound := findCmd_updCmd_some _ hx hid
  rw [if_pos hs] at hfound
  have hkept := afterInput_inputKept (d.updCmd c fun y => if y.stage = .admitted then
      { y with got := y.got ++ [{ off := off, bytes := b }], gotBytes := y.gotBytes + b.length } else y) c
  obtain ⟨y, hy, hgot, hbytes, _⟩ := hkept.cmd _ hfound
  exact ⟨(updCmd_plane d c _ hid).trans hkept.plane, y, hy, hgot, hbytes⟩

theorem DataPlane.keeps {d e : Dev} (h : DataPlane d e) : e.qps = d.qps ∧ e.tth.counters = d.tth.counters := by
  rw [h.1]
  exact ⟨rfl, rfl⟩

/-- Settles O29: READ_DATA that names a READ answers it, with a context block or with bytes; any other is counted. -/
theorem readDataPacket : Obligations.ReadDataPacket := by
  unfold Obligations.ReadDataPacket
  intro s n vc f hu hrx ha ht hp
  have hgo : (s.dev.arrive n vc f).deliverFrame n vc f = some ((s.dev.arrive n vc f).readDataIn f) := (deliverFrame_eq _ n vc f).2.2.2.1 ht
  have hdo := fun P e => @does_frame (.readData n vc f) s n 0x08 vc f P hu hrx ha ht hp rfl e
  obtain ⟨l, hl⟩ := arrive_eq s.dev n vc f
  rw [hl] at hgo hdo
  refine ⟨fun r q hr hw hst hen => hdo _ _ hgo ?_, fun r c off x hr hw hx hst => hdo _ _ hgo ?_, fun hno => hdo _ _ hgo ?_⟩
  · rw [readDataIn_answers (d := s.dev.withLinks l) hr, answerRead_context hw]
    obtain ⟨hframe, hothers, hok, hbad⟩ := contextIn_spec ((s.dev.withLinks l).readGone r) q (framePayload f) hst hen
    generalize ((s.dev.withLinks l).readGone r).contextIn q (framePayload f) = e at hframe hothers hok hbad
    obtain ⟨m, hm⟩ := taken_eq e n vc f
    rw [hm]
    refine ⟨?_, ?_, hothers, hok, hbad⟩
    · change e.reads = _
      rw [hframe]
      rfl
    · rw [hframe]
      rfl
  · rw [readDataIn_answers (d := s.dev.withLinks l) hr, answerRead_value hw]
    obtain ⟨hplane, y, hy, hgot, hbytes⟩ := pullIn_spec (d := (s.dev.withLinks l).readGone r) hx hst off (framePayload f)
    obtain ⟨hq, ht⟩ := hplane.keeps
    generalize ((s.dev.withLinks l).readGone r).pullIn c off (framePayload f) = e at hy hq ht
    obtain ⟨m, hm⟩ := taken_eq e n vc f
    rw [hm]
    exact ⟨y, hy, hgot, hbytes, hq, ht⟩
  · rw [readDataIn_stray (d := s.dev.withLinks l) hno]
    refine ⟨?_, rfl⟩
    exact congrArg Session.stray ((s.dev.withLinks l).updSes_self (frameSes f) fun x => { x with stray := satAdd 16 x.stray 1 })

/-! ### CONFIG -/

theorem configIn_waits {d : Dev} {n : Nat} {f : List Byte} (h : (d.link n).queue.any (fun p => p.owner == .configRsp) = true) :
    d.configIn n f = none := if_pos h

/-- The word that a CONFIG carries back, and the device after its access (R832, R833). -/
theorem configAccess_eq (d : Dev) (n : Nat) (f : List Byte) : d.configAccess n f =
    (if offsetOk (frameArg f % 2 ^ 32) && !bit (frameArg f) 32 then (d.regRead (.link n) (frameArg f % 2 ^ 32)).1 else 0,
      if !offsetOk (frameArg f % 2 ^ 32) then d
      else if bit (frameArg f) 32 then
        (d.regWrite (.link n) (frameArg f % 2 ^ 32) (BitVec.ofNat 32 (leNat (framePayload f)))).wakeHeld
      else (d.regRead (.link n) (frameArg f % 2 ^ 32)).2) := by
  unfold Dev.configAccess
  dsimp only
  by_cases ho : offsetOk (frameArg f % 2 ^ 32) = true
  · have hin : ¬ (frameArg f % 2 ^ 32 % 4 ≠ 0 ∨ 0x400_0000 ≤ frameArg f % 2 ^ 32) := by
      unfold offsetOk at ho
      simp only [Bool.and_eq_true, beq_iff_eq, decide_eq_true_eq] at ho
      omega
    rw [if_neg hin, ho]
    cases bit (frameArg f) 32 <;> rfl
  · have hout : frameArg f % 2 ^ 32 % 4 ≠ 0 ∨ 0x400_0000 ≤ frameArg f % 2 ^ 32 := by
      unfold offsetOk at ho
      simp only [Bool.and_eq_true, beq_iff_eq, decide_eq_true_eq] at ho
      omega
    rw [Bool.not_eq_true] at ho
    rw [if_pos hout, ho]
    rfl

theorem configIn_answers {d : Dev} {n : Nat} {f : List Byte} (h : (d.link n).queue.any (fun p => p.owner == .configRsp) = false) :
    d.configIn n f = some ((d.configAccess n f).2.sendOn n (answerPkt f 0x0B (frameArg f) (natLe 4 (d.configAccess n f).1.toNat) .configRsp)) :=
  if_neg (by rw [h]; exact Bool.false_ne_true)

/-- A packet that a live link gets is on it; nothing but the link, timers and what leaves changes. -/
theorem sendOn_spec (d : Dev) (n : Nat) (p : Pkt) :
    d.sendOn n p = { d with links := (d.sendOn n p).links, out := (d.sendOn n p).out, reads := (d.sendOn n p).reads,
                            cmds := (d.sendOn n p).cmds } ∧
    ((d.link n).st = .active → onLink (d.sendOn n p) n p) ∧ Sends d (d.sendOn n p) := by
  unfold Dev.sendOn
  split
  · exact ⟨enqueue_frame d n p, fun _ => enqueue_on d n p, enqueue_sends d n p⟩
  · exact ⟨rfl, fun h => absurd h ‹_›, Sends.refl d⟩

/-- A packet on a link stays there when a frame leaves its receive buffer. -/
theorem taken_on {d : Dev} {n : Nat} {p : Pkt} (vc : Vc) (f : List Byte) (h : onLink d n p) :
    p ∈ ((d.taken n vc f).link n).queue ∨ p ∈ ((d.taken n vc f).link n).unacked.map TxFrame.pkt := by
  obtain ⟨_, _, _, _, _, hqueue, hunacked⟩ := taken_link d n vc f
  rw [hqueue, hunacked]
  exact h

/-- Settles O30: while an answer waits the CONFIG is set aside; else its access is made and answered on its link. -/
theorem configPacket : Obligations.ConfigPacket := by
  unfold Obligations.ConfigPacket
  intro s n vc f hu hrx ha ht hp
  have hgo : (s.dev.arrive n vc f).deliverFrame n vc f = (s.dev.arrive n vc f).configIn n f := (deliverFrame_eq _ n vc f).2.2.2.2.1 ht
  obtain ⟨_, hfreed, _, hqueue, _⟩ := arrive_link s.dev n vc f
  have hdo := fun P e => @does_frame (.config n vc f) s n 0x0A vc f P hu hrx ha ht hp rfl e
  have hkept := fun P => @does_frame_kept (.config n vc f) s n 0x0A vc f P hu hrx ha ht hp rfl
  obtain ⟨l, hl⟩ := arrive_eq s.dev n vc f
  rw [hl] at hgo hfreed hqueue hdo hkept
  refine ⟨fun hq => hkept _ (hgo.trans (configIn_waits (by rw [hqueue]; exact hq))) ?_,
    fun hq => hdo _ _ (hgo.trans (configIn_answers (by rw [hqueue]; exact hq))) ?_⟩
  · obtain ⟨_, _, hlink⟩ := freed_frame (s.dev.withLinks l) n vc f.length [{ vc := vc, frame := f, counts := false, parsed := true }]
    refine ⟨?_, ?_, rfl⟩
    · exact congrArg Link.rxHold hlink
    · unfold Freed
      refine (congrArg (fun x : Link => credGet x.freed vc) hlink).trans ?_
      rw [credGet_credBump, hfreed]
  · refine ⟨s.dev.withLinks l, rfl, ?_⟩
    dsimp only
    rw [configAccess_eq]
    generalize (if offsetOk (frameArg f % 2 ^ 32) && !bit (frameArg f) 32 then
      ((s.dev.withLinks l).regRead (.link n) (frameArg f % 2 ^ 32)).1 else 0) = w
    generalize (if (!offsetOk (frameArg f % 2 ^ 32)) = true then s.dev.withLinks l
      else if bit (frameArg f) 32 = true then
        ((s.dev.withLinks l).regWrite (.link n) (frameArg f % 2 ^ 32) (BitVec.ofNat 32 (leNat (framePayload f)))).wakeHeld
      else ((s.dev.withLinks l).regRead (.link n) (frameArg f % 2 ^ 32)).2) = d2
    obtain ⟨hframe, hon, _⟩ := sendOn_spec d2 n (answerPkt f 0x0B (frameArg f) (natLe 4 w.toNat) .configRsp)
    refine ⟨?_, fun hst => ⟨_, rfl, rfl, rfl, rfl, taken_on vc f (hon hst)⟩⟩
    generalize d2.sendOn n (answerPkt f 0x0B (frameArg f) (natLe 4 w.toNat) .configRsp) = e at hframe
    obtain ⟨m, hm⟩ := taken_eq e n vc f
    rw [hm, hframe]
    rfl

/-! ### REJECT -/

section

variable {d : Dev} {n : Nat} {f : List Byte}

/-- A REJECT of a READ that pulled for a command ends it (R163). -/
theorem rejectIn_read {r : OutRead} {c off : Nat} (ht : bits (frameArg f) 8 8 = 0x07)
    (hr : d.reads.find? (fun r => r.tag == frameTag f && !(d.ses r.ses).pcie) = some r) (hw : r.what = .value c off) :
    d.rejectIn n f = (d.readGone r).abort c Status.aborted.code := by
  unfold Dev.rejectIn
  dsimp only
  rw [if_pos ht, hr]
  dsimp only
  rw [hw]
  unfold Dev.failRead
  rw [hw]
  rfl

/-- The device once a refused WRITE is no longer outstanding: its bytes were not delivered (R281). -/
def Dev.writeGone (d : Dev) (tag c len : Nat) : Dev :=
  ({ d with writes := d.writes.filter fun w => w.tag != tag } : Dev).updCmd c fun x => { x with sent := x.sent - len }

/-- A REJECT of a WRITE that carried a command's output ends it, unless it has failed already (R163). -/
theorem rejectIn_write {w : OutWrite} {c : Nat} {x : Cmd} (ht : bits (frameArg f) 8 8 = 0x09)
    (hw : d.writes.find? (fun w => w.tag == frameTag f) = some w) (hc : w.cmd = some c) (hx : d.findCmd c = some x)
    (hno : ¬ (x.stage = .ended ∧ addsTether x.status = false)) :
    d.rejectIn n f = (d.writeGone (frameTag f) c w.len).abort c Status.aborted.code := by
  have hfound : (d.writeGone (frameTag f) c w.len).findCmd c = some { x with sent := x.sent - w.len } :=
    findCmd_updCmd_some (d := { d with writes := d.writes.filter fun w => w.tag != frameTag f }) _ hx (by intro y; rfl)
  unfold Dev.rejectIn
  dsimp only
  rw [if_neg (by rw [ht]; decide), if_pos ht, hw]
  dsimp only
  rw [hc]
  unfold Dev.rejectedOutput
  dsimp only
  rw [show ({ d with writes := d.writes.filter fun w => w.tag != frameTag f } : Dev).updCmd c (fun x => { x with sent := x.sent - w.len }) =
    d.writeGone (frameTag f) c w.len from rfl, hfound]
  exact if_neg hno

theorem rejectIn_other (h7 : bits (frameArg f) 8 8 ≠ 0x07) (h9 : bits (frameArg f) 8 8 ≠ 0x09) : d.rejectIn n f = d.countInRej n := by
  unfold Dev.rejectIn
  dsimp only
  rw [if_neg h7, if_neg h9]

end

/-! ### Frames that the parser drops or rejects -/

/-- The device once link n has accepted a frame that does not parse. -/
def Dev.accepted (d : Dev) (n : Nat) (vc : Vc) (f : List Byte) : Dev :=
  d.updLink n fun l => l.accept d.now { vc := vc, frame := f, counts := true, parsed := false }

theorem accepted_link (d : Dev) (n : Nat) (vc : Vc) (f : List Byte) :
    ((d.accepted n vc f).link n).cnt = (d.link n).cnt ∧ ((d.accepted n vc f).link n).freed = (d.link n).freed ∧
    ((d.accepted n vc f).link n).queue = (d.link n).queue ∧ ((d.accepted n vc f).link n).st = (d.link n).st := by
  unfold Dev.accepted
  rw [d.updLink_self]
  unfold Link.accept
  rw [touch_fields]
  exact ⟨rfl, rfl, rfl, rfl⟩

theorem accepted_eq (d : Dev) (n : Nat) (vc : Vc) (f : List Byte) : ∃ l, d.accepted n vc f = d.withLinks l := ⟨_, rfl⟩

section

variable {d : Dev} {n : Nat} {vc : Vc} {f : List Byte} (hrx : ∀ l ∈ d.links, l.2.rxHold = []) (ha : (d.link n).st = .active)

include hrx ha

theorem receiveBad_drop (hp : d.parse n vc f = .drop) :
    d.receiveBad n vc f = ((d.accepted n vc f).updLink n fun l => { l with cnt := { l.cnt with drop := sat1 l.cnt.drop } }).taken n vc f := by
  unfold Dev.receiveBad
  rw [hp]
  dsimp only
  rw [receive_eq d n vc f hrx ha]
  unfold Dev.takeFrame
  simp only [Bool.false_eq_true, if_false, accept_parse, hp, if_true]
  rfl

theorem receiveBad_reject {code : Nat} (hp : d.parse n vc f = .reject code) :
    d.receiveBad n vc f = ((d.accepted n vc f).rejectFrame n f code).taken n vc f := by
  unfold Dev.receiveBad
  rw [hp]
  dsimp only
  rw [receive_eq d n vc f hrx ha]
  unfold Dev.takeFrame
  simp only [Bool.false_eq_true, if_false, accept_parse, hp, if_true]
  rfl

end

/-- What the rejection of a frame leaves: the type and code kept, a REJECT on the link and counted while fewer than 16 wait, and
nothing of registers, sessions, queue pairs and commands changed (R162, R170, R171). -/
structure Rejected (d e : Dev) (n : Nat) (f : List Byte) (code : Nat) : Prop where
  glb : e.glb = d.glb
  sessions : e.sessions = d.sessions
  qps : e.qps = d.qps
  cmds : e.cmds.length = d.cmds.length
  keptType : (e.link n).lastRejType = frameTyp f
  keptCode : (e.link n).lastRejCode = code
  freed : (e.link n).freed = (d.link n).freed
  queued : frameTyp f ≠ 0x0C → (d.link n).rejectsWaiting < 16 →
    (e.link n).cnt.reject = sat1 (d.link n).cnt.reject ∧ onLink e n (answerPkt f 0x0C (code + 256 * frameTyp f) [] .reject)
  suppressed : frameTyp f ≠ 0x0C → 16 ≤ (d.link n).rejectsWaiting →
    (e.link n).cnt.rejSup = sat1 (d.link n).cnt.rejSup ∧ (e.link n).cnt.reject = (d.link n).cnt.reject

/-- A link that has rejected a frame and queues a REJECT for it. -/
def Link.rejecting (l : Link) (f : List Byte) (code : Nat) : Link :=
  { l with lastRejType := frameTyp f, lastRejCode := code, cnt := { l.cnt with reject := sat1 l.cnt.reject } }

theorem rejectFrame_spec {d : Dev} {n : Nat} (f : List Byte) (code : Nat) (ha : (d.link n).st = .active) :
    Rejected d (d.rejectFrame n f code) n f code := by
  unfold Dev.rejectFrame
  dsimp only
  rw [d.updLink_self]
  split
  · rename_i h
    refine ⟨rfl, rfl, rfl, rfl, ?_, ?_, ?_, fun hn => absurd h hn, fun hn => absurd h hn⟩ <;> rw [d.updLink_self]
  · split
    · rename_i h
      refine ⟨rfl, rfl, rfl, rfl, ?_, ?_, ?_, fun _ hlt => absurd hlt (Nat.not_lt.mpr h), fun _ _ => ?_⟩ <;>
        rw [Dev.updLink_self, Dev.updLink_self]
      exact ⟨rfl, rfl⟩
    · rename_i h
      obtain ⟨l, hl⟩ : ∃ l, (d.updLink n fun l => { l with lastRejType := frameTyp f, lastRejCode := code }).updLink n
        (fun l => { l with cnt := { l.cnt with reject := sat1 l.cnt.reject } }) = d.withLinks l := ⟨_, rfl⟩
      have hlink : (d.withLinks l).link n = (d.link n).rejecting f code := by
        rw [← hl, Dev.updLink_self, Dev.updLink_self]
        rfl
      rw [hl]
      obtain ⟨hframe, hon, hsends⟩ := sendOn_spec (d.withLinks l) n (answerPkt f 0x0C (code + 256 * frameTyp f) [] .reject)
      have hcore := hsends.link n
      rw [hlink] at hon hcore
      refine ⟨by rw [hframe]; rfl, by rw [hframe]; rfl, by rw [hframe]; rfl, hsends.cmds_length, (congrArg Link.lastRejType hcore :),
        (congrArg Link.lastRejCode hcore :), (congrArg Link.freed hcore :), fun _ _ => ⟨?_, hon ha⟩, fun _ hge => absurd hge h⟩
      exact congrArg LinkCnt.reject (congrArg Link.cnt hcore :)

/-- Settles O31: a REJECT of a READ or a WRITE ends its command, another is counted; frames that do not parse are dropped or rejected. -/
theorem rejectPackets : Obligations.RejectPackets := by
  unfold Obligations.RejectPackets
  refine ⟨fun s n vc f hu hrx ha ht hp => ?_, fun s n vc f hu hrx ha => ⟨fun hdrop => ?_, fun code hrej => ?_⟩⟩
  · have hgo : (s.dev.arrive n vc f).deliverFrame n vc f = some ((s.dev.arrive n vc f).rejectIn n f) :=
      (deliverFrame_eq _ n vc f).2.2.2.2.2 ht
    obtain ⟨_, _, hcnt, _, _⟩ := arrive_link s.dev n vc f
    have hdo := fun P e => @does_frame (.reject n vc f) s n 0x0C vc f P hu hrx ha ht hp rfl e
    obtain ⟨l, hl⟩ := arrive_eq s.dev n vc f
    rw [hl] at hgo hdo hcnt
    refine ⟨fun r c off x h7 hr hw hx => hdo _ _ hgo ?_, fun w c x h9 hw hc hx hno => hdo _ _ hgo ?_, fun h7 h9 => hdo _ _ hgo ?_⟩
    · rw [rejectIn_read (d := s.dev.withLinks l) h7 hr hw]
      have hend := ended_abort_bytes ((s.dev.withLinks l).readGone r) c Status.aborted.code x hx
      generalize ((s.dev.withLinks l).readGone r).abort c Status.aborted.code = e at hend
      obtain ⟨m, hm⟩ := taken_eq e n vc f
      rw [hm]
      exact hend
    · rw [rejectIn_write (d := s.dev.withLinks l) h9 hw hc hx hno]
      have hend := ended_abort_bytes ((s.dev.withLinks l).writeGone (frameTag f) c w.len) c Status.aborted.code
        { x with sent := x.sent - w.len } (findCmd_updCmd_some
          (d := { s.dev.withLinks l with writes := s.dev.writes.filter fun w => w.tag != frameTag f }) _ hx (by intro y; rfl))
      generalize ((s.dev.withLinks l).writeGone (frameTag f) c w.len).abort c Status.aborted.code = e at hend
      obtain ⟨m, hm⟩ := taken_eq e n vc f
      rw [hm]
      exact hend
    · rw [rejectIn_other h7 h9]
      refine ⟨?_, rfl⟩
      rw [(taken_link _ n vc f).2.2.1]
      unfold Dev.countInRej
      rw [Dev.updLink_self, hcnt]
  · refine does_run _ s (fun d => d.receiveBad n vc f) _ hu rfl ?_
    rw [receiveBad_drop hrx ha hdrop]
    obtain ⟨hcnt, hfreed, _, _⟩ := accepted_link s.dev n vc f
    refine ⟨?_, taken_freed f ?_, rfl⟩
    · rw [(taken_link _ n vc f).2.2.1, Dev.updLink_self, hcnt]
    · rw [Dev.updLink_self]
      exact hfreed
  · refine does_run _ s (fun d => d.receiveBad n vc f) _ hu rfl ?_
    rw [receiveBad_reject hrx ha hrej]
    obtain ⟨hcnt, hfreed, hqueue, hst⟩ := accepted_link s.dev n vc f
    have hwait : ((s.dev.accepted n vc f).link n).rejectsWaiting = (s.dev.link n).rejectsWaiting := by
      unfold Link.rejectsWaiting
      rw [hqueue]
    obtain ⟨l, hl⟩ := accepted_eq s.dev n vc f
    have hrejected := rejectFrame_spec (n := n) f code (hst.trans ha)
    have hcnts := (taken_link ((s.dev.accepted n vc f).rejectFrame n f code) n vc f)
    obtain ⟨_, _, hcntE, htypE, hcodeE, _, _⟩ := hcnts
    have htaken := taken_freed (d := s.dev) (vc := vc) f (hrejected.freed.trans hfreed)
    have hqueued := hrejected.queued
    have hsupp := hrejected.suppressed
    rw [hwait, hcnt] at hqueued hsupp
    have hon := fun p => @taken_on ((s.dev.accepted n vc f).rejectFrame n f code) n p vc f
    rw [hl] at hrejected hcntE htypE hcodeE htaken hqueued hsupp hon ⊢
    generalize (s.dev.withLinks l).rejectFrame n f code = e at *
    obtain ⟨m, hm⟩ := taken_eq e n vc f
    refine ⟨htypE.trans hrejected.keptType, hcodeE.trans hrejected.keptCode, htaken, ?_, ?_, ?_, ?_, fun hn hlt => ?_, fun hn hge => ?_⟩
    · rw [hm]; exact hrejected.glb
    · rw [hm]; exact hrejected.sessions
    · rw [hm]; exact hrejected.qps
    · rw [hm]; exact hrejected.cmds
    · obtain ⟨hc, hp⟩ := hqueued hn hlt
      exact ⟨(congrArg LinkCnt.reject hcntE).trans hc, _, rfl, rfl, rfl, hon _ hp⟩
    · obtain ⟨hs, hc⟩ := hsupp hn hge
      exact ⟨(congrArg LinkCnt.rejSup hcntE).trans hs, (congrArg LinkCnt.reject hcntE).trans hc⟩

end Sys2Proof.Machine
end

section
/-! Links: what is sent, resent and freed, and the states without a partner (R134–R147, R180, R183, R229, R842). -/

namespace Sys2Proof.Machine

open Sys2Proof

/-! ### What may be sent next (R141, R144, R147) -/

/-- The packet picked is the first of its channel outside the channels blocked, the others keep their order, and there is credit and room. -/
theorem pickPkt_spec (l : Link) (q : List Pkt) : ∀ (blocked : List Vc) (p : Pkt) (rest : List Pkt), pickPkt l blocked q = some (p, rest) →
    ∃ pre post, q = pre ++ p :: post ∧ rest = pre ++ post ∧ (∀ x ∈ pre, x.vc ≠ p.vc) ∧ p.vc ∉ blocked ∧
      creditCost (pktLen p l.pexts) ≤ l.credit p.vc ∧ l.replayRoom (pktLen p l.pexts) = true := by
  induction q with
  | nil => exact fun blocked p rest h => (Option.some_ne_none _ h.symm).elim
  | cons y r ih =>
    intro blocked p rest h
    unfold pickPkt at h
    split at h
    · rename_i hgo
      simp only [Bool.and_eq_true, Bool.not_eq_true', decide_eq_true_eq] at hgo
      obtain ⟨⟨hfree, hcredit⟩, hroom⟩ := hgo
      obtain ⟨rfl, rfl⟩ := Prod.mk.inj (Option.some.inj h)
      exact ⟨[], r, rfl, rfl, by simp, by simpa using hfree, hcredit, hroom⟩
    · obtain ⟨⟨p', rest'⟩, hpick, heq⟩ := Option.map_eq_some_iff.1 h
      obtain ⟨rfl, rfl⟩ := Prod.mk.inj heq
      obtain ⟨pre, post, hq, hrest, hfirst, hblocked, hcredit, hroom⟩ := ih _ _ _ hpick
      rw [List.mem_cons, not_or] at hblocked
      refine ⟨y :: pre, post, by rw [hq]; rfl, by rw [hrest]; rfl, ?_, hblocked.2, hcredit, hroom⟩
      rintro x (_ | ⟨_, hx⟩)
      · exact fun hv => hblocked.1 hv.symm
      · exact hfirst x hx

/-- Settles O32: the packet picked, among no blocked channels, has every property claimed. -/
theorem packetsKeepOrderAndCredit : Obligations.PacketsKeepOrderAndCredit := by
  unfold Obligations.PacketsKeepOrderAndCredit
  intro l q p rest h
  obtain ⟨pre, post, hq, hrest, hfirst, _, hcredit, hroom⟩ := pickPkt_spec l q [] p rest h
  unfold Link.replayRoom at hroom
  simp only [Bool.and_eq_true, decide_eq_true_eq] at hroom
  exact ⟨pre, post, hq, hrest, hfirst, hcredit, hroom.1, hroom.2⟩

/-! ### Link control (R134, R136, R138, R142) -/

/-- The device once a failed block, where there is one, has been counted (R134). -/
def Dev.countDiscard (d : Dev) (n : Nat) (why : Discard) : Dev :=
  if why = .badBlock then d.updLink n fun l => { l with cnt := { l.cnt with fecUnc := sat1 l.cnt.fecUnc } } else d

theorem countDiscard_spec (d : Dev) (n : Nat) (why : Discard) :
    (d.countDiscard n why).link n =
      { d.link n with cnt := if why = .badBlock then { (d.link n).cnt with fecUnc := sat1 (d.link n).cnt.fecUnc } else (d.link n).cnt } ∧
    (∀ m, m ≠ n → (d.countDiscard n why).link m = d.link m) ∧ d.countDiscard n why = { d with links := (d.countDiscard n why).links } := by
  unfold Dev.countDiscard
  by_cases h : why = .badBlock
  · rw [if_pos h, if_pos h]
    exact ⟨d.updLink_self n _, fun m hm => d.updLink_other n _ m hm, rfl⟩
  · rw [if_neg h, if_neg h]
    exact ⟨rfl, fun _ _ => rfl, rfl⟩

theorem frameDiscard_eq {d : Dev} {n : Nat} {why : Discard} (ha : (d.link n).st = .active) (hbad : ∀ q, why = .badSeq q → q % 65536 ≠ (d.link n).rxSeq) :
    d.frameDiscard n why = if (d.link n).nakOut then d.countDiscard n why
      else ((d.countDiscard n why).updLink n fun l => { l with nakOut := true, ctlDirty := false, ctlAt := (d.countDiscard n why).now }).emit
        (.control n (nakBlock (d.link n).rxSeq (d.link n).ctl)) := by
  unfold Dev.frameDiscard
  dsimp only
  rw [if_neg]
  · rfl
  · rw [not_or]
    refine ⟨fun h => h ha, ?_⟩
    cases why with
    | badSeq q => simpa using hbad q rfl
    | _ => exact Bool.false_ne_true

/-- Settles O33: a frame discarded sends its NAK unless one is out, and link control is sent when due. -/
theorem linkControl : Obligations.LinkControl := by
  unfold Obligations.LinkControl
  refine ⟨fun s n why hu ha hbad => does_run _ s (fun d => d.frameDiscard n why) _ hu rfl ?_, fun s n hu => ⟨fun hdue => ?_, fun hdue => ?_⟩⟩
  · dsimp only
    rw [frameDiscard_eq ha hbad]
    obtain ⟨hself, hother, hframe⟩ := countDiscard_spec s.dev n why
    generalize s.dev.countDiscard n why = d at hself hother hframe
    cases hnak : (s.dev.link n).nakOut with
    | true =>
      refine ⟨by rw [if_pos rfl, hself, ← hnak], by rw [if_pos rfl, hself], by rw [if_pos rfl, hself], ?_, hother, ?_⟩
      · rw [if_pos rfl, if_pos rfl, List.append_nil, hframe]
      · rw [if_pos rfl]
        exact hframe.trans (by rw [hframe])
    | false =>
      simp only [Bool.false_eq_true, if_false]
      rw [(Dev.emit_gets _ _ _).1, Dev.updLink_self, hself]
      refine ⟨rfl, rfl, rfl, ?_, fun m hm => ?_, ?_⟩
      · rw [hframe]
        rfl
      · rw [(Dev.emit_gets _ _ _).1, Dev.updLink_other _ _ _ _ hm, hother m hm]
      · rw [hframe]
        rfl
  · refine (s.run_up (fun d => d.controlSend n) hu).trans ?_
    unfold Dev.controlSend
    dsimp only
    rw [if_pos hdue]
    rfl
  · refine (s.run_up (fun d => d.controlSend n) hu).trans ?_
    unfold Dev.controlSend
    dsimp only
    rw [if_neg hdue]

/-! ### States without a partner (R180, R183, R837, R842) -/

/-- A link that is not ACTIVE goes DOWN: its record, the event, and nothing else. -/
theorem linkDown_idle {d : Dev} {n : Nat} (r : Nat) (h : (d.link n).st ≠ .active) :
    (d.linkDown n r).link n = { d.link n with st := .down, reason := r, since := d.now } ∧
    (∀ m, m ≠ n → (d.linkDown n r).link m = d.link m) ∧
    d.linkDown n r = { d with links := (d.linkDown n r).links, evq := (d.event Ev.linkDown.code (0x300 + n) r 0 0).evq } := by
  unfold Dev.linkDown
  dsimp only
  rw [if_neg h]
  refine ⟨?_, fun m hm => ?_, rfl⟩
  · rw [Dev.updLink_self, (Dev.event_gets _ _ _ _ _ _ _).1, Dev.updLink_self]
    rfl
  · rw [Dev.updLink_other _ _ _ _ hm, (Dev.event_gets _ _ _ _ _ _ _).1, Dev.updLink_other _ _ _ _ hm]

section

variable {s : State} {n ms reason : Nat} {st : LinkSt} {i : Instr} (hu : s.Up)
  (he : exec i s = s.run fun d => d.stateTimeout n st ms reason)

include hu he

theorem stateTimeout_early (h : ¬ ((s.dev.link n).st = st ∧ (s.dev.link n).since + ms * 1000000 ≤ s.dev.now)) : exec i s = .next s := by
  rw [he, s.run_up (fun d => d.stateTimeout n st ms reason) hu]
  unfold Dev.stateTimeout
  rw [if_neg h]

theorem stateTimeout_due (hst : st ≠ .active) (h : (s.dev.link n).st = st ∧ (s.dev.link n).since + ms * 1000000 ≤ s.dev.now) :
    Does i s fun e =>
      e.link n = { s.dev.link n with st := .down, reason := reason, since := s.dev.now } ∧ (∀ m, m ≠ n → e.link m = s.dev.link m) ∧
      e.evq.staged = s.dev.evq.staged ++
        [{ stamp := s.dev.now % 2 ^ 64, code := 0x0012, source := 0x300 + n, seq := s.dev.evq.seq, d0 := reason, d1 := 0, d2 := 0 }] ∧
      e = { s.dev with links := e.links, evq := e.evq } := by
  refine does_run _ s (fun d => d.stateTimeout n st ms reason) _ hu he ?_
  unfold Dev.stateTimeout
  rw [if_pos h]
  obtain ⟨hself, hother, hframe⟩ := linkDown_idle reason (d := s.dev) (n := n) (by rw [h.1]; exact hst)
  refine ⟨hself, hother, ?_, ?_⟩
  · rw [hframe]
    rfl
  · rw [hframe]

end

/-- Settles O34: each step changes its link's record from the state named, and a state kept too long ends in DOWN. -/
theorem linkStateSteps : Obligations.LinkStateSteps := by
  unfold Obligations.LinkStateSteps
  refine ⟨fun s n hu => ⟨?_, ?_, ?_⟩, fun s n hu i hi => ?_⟩
  · refine (s.run_up (fun d => d.trainingComplete n) hu).trans ?_
    unfold Dev.trainingComplete
    split <;> rfl
  · refine (s.run_up (fun d => d.alignLocked n) hu).trans ?_
    unfold Dev.alignLocked
    split <;> rfl
  · refine (s.run_up (fun d => d.linkRestart n) hu).trans ?_
    unfold Dev.linkRestart
    dsimp only
    split <;> rfl
  · simp only [List.mem_cons, List.not_mem_nil, or_false] at hi
    obtain rfl | rfl | rfl := hi
    · exact ⟨stateTimeout_early hu rfl, stateTimeout_due hu rfl nofun⟩
    · exact ⟨stateTimeout_early hu rfl, stateTimeout_due hu rfl nofun⟩
    · exact ⟨stateTimeout_early hu rfl, stateTimeout_due hu rfl nofun⟩

/-! ### Replay (R139–R143, R145) -/

/-- The device once more has been sent. -/
def Dev.withOut (d : Dev) (o : List Output) : Dev := { d with out := o }

/-- Outputs that do not depend on what has been sent leave in order. -/
theorem foldl_emit {α : Type} (g : Dev → α → Output) (hg : ∀ (d : Dev) o a, g (d.withOut o) a = g d a) (l : List α) (d : Dev) :
    l.foldl (fun d a => d.emit (g d a)) d = d.withOut (d.out ++ l.map (g d)) := by
  induction l generalizing d with
  | nil => simp [Dev.withOut]
  | cons a r ih =>
    have hsame : ∀ b, g (d.emit (g d a)) b = g d b := fun b => hg d _ b
    rw [List.foldl_cons, ih, funext hsame, List.map_cons]
    unfold Dev.withOut Dev.emit
    rw [List.append_assoc, List.singleton_append]

/-- A link that sends `new` again after `old` (R139, R140, R143). -/
def Link.resending (l : Link) (now : Nat) (old new : List TxFrame) : Link :=
  { l with unacked := old ++ new.map (fun f => { f with tries := f.tries + 1 }), ackAt := now, ctlDirty := false, ctlAt := now,
           cnt := { l.cnt with replay := min (l.cnt.replay + new.length) (2 ^ 32 - 1) } }

/-- The frame that link `l`, numbered n, sends again for an unacknowledged one. -/
def resentFrame (n : Nat) (l : Link) (d : Dev) (f : TxFrame) : Output :=
  .frame n (frameBlocks f.pkt.vc f.seq (encodePkt f.pkt (d.srcOf n) l.pexts) l.ctl)

theorem resendFrom_sends {d : Dev} {n : Nat} {old new : List TxFrame} (h : ∀ f ∈ new, f.tries < 8) :
    d.resendFrom n old new = { d.updLink n (fun l => l.resending d.now old new) with
      out := d.out ++ new.map (resentFrame n (d.link n) d) } := by
  have hany : (new.any fun f => decide (8 ≤ f.tries)) = false := by
    rw [List.any_eq_false]
    exact fun f hf => by simpa using h f hf
  unfold Dev.resendFrom
  rw [hany, if_neg Bool.false_ne_true]
  change List.foldl (fun e f => e.emit (resentFrame n ((d.updLink n fun l => l.resending d.now old new).link n) e f))
    (d.updLink n fun l => l.resending d.now old new) new = _
  rw [d.updLink_self, foldl_emit _ (fun _ _ _ => rfl)]
  rfl

theorem resendFrom_down {d : Dev} {n : Nat} {old new : List TxFrame} (h : ∃ f ∈ new, 8 ≤ f.tries) :
    d.resendFrom n old new = d.linkDown n 8 := by
  unfold Dev.resendFrom
  rw [if_pos]
  · rfl
  · obtain ⟨f, hf, h8⟩ := h
    exact List.any_eq_true.2 ⟨f, hf, by simpa using h8⟩

theorem nakIn_resends {d : Dev} {n seq : Nat} (ha : (d.link n).st = .active) (hne : (splitSeq seq (d.link n).unacked).2 ≠ []) :
    d.nakIn n seq = d.resendFrom n (splitSeq seq (d.link n).unacked).1 (splitSeq seq (d.link n).unacked).2 := by
  unfold Dev.nakIn
  dsimp only
  rw [if_neg]
  rw [not_or]
  exact ⟨fun h => h ha, by simpa using hne⟩

theorem replayTimeout_resends {d : Dev} {n : Nat} (ha : (d.link n).st = .active) (hne : (d.link n).unacked ≠ [])
    (hdue : (d.link n).ackAt + 2000 ≤ d.now) : d.replayTimeout n = d.resendFrom n [] (d.link n).unacked := by
  unfold Dev.replayTimeout
  dsimp only
  rw [if_neg]
  rw [not_or, not_or]
  exact ⟨fun h => h ha, by simpa using hne, Nat.not_lt.mpr hdue⟩

/-- A row that resends: in order and at no cost in credit, or the link goes DOWN with reason 8. -/
theorem doesThen_resend {i : Instr} {s : State} {n : Nat} {g : Dev → Dev} {old new : List TxFrame} (hu : s.Up) (ha : (s.dev.link n).st = .active)
    (he : exec i s = s.run fun d => (g d).letGo) (hg : g s.dev = s.dev.resendFrom n old new) :
    ((∀ f ∈ new, f.tries < 8) → DoesThen i s fun e =>
      (e.link n).unacked = old ++ new.map (fun f => { f with tries := f.tries + 1 }) ∧ (e.link n).used = (s.dev.link n).used ∧
      (e.link n).st = .active ∧ (e.link n).cnt.replay = min ((s.dev.link n).cnt.replay + new.length) (2 ^ 32 - 1) ∧
      e.out = s.dev.out ++ new.map (fun f =>
        .frame n (frameBlocks f.pkt.vc f.seq (encodePkt f.pkt (s.dev.srcOf n) (s.dev.link n).pexts) (s.dev.link n).ctl)) ∧
      e = { s.dev with links := e.links, out := e.out }) ∧
    ((∃ f ∈ new, 8 ≤ f.tries) → DoesThen i s fun e => (e.link n).st = .down ∧ (e.link n).reason = 8) := by
  refine ⟨fun h => doesThen_run i s _ g _ hu he rfl ?_, fun h => doesThen_run i s _ g _ hu he rfl ?_⟩
  · rw [hg, resendFrom_sends h]
    have hl : (s.dev.updLink n fun l => l.resending s.dev.now old new).link n = (s.dev.link n).resending s.dev.now old new :=
      s.dev.updLink_self n _
    refine ⟨(congrArg Link.unacked hl :), (congrArg Link.used hl :), (congrArg Link.st hl :).trans ha,
      (congrArg (fun l : Link => l.cnt.replay) hl :), rfl, rfl⟩
  · rw [hg, resendFrom_down h]
    obtain ⟨hlink, _⟩ := linkDown_spec s.dev n 8 ha
    rw [hlink]
    exact ⟨rfl, rfl⟩

/-- Settles O35: a NAK and a replay time-out both resend the frames they name. -/
theorem replayOrDown : Obligations.ReplayOrDown := by
  unfold Obligations.ReplayOrDown
  intro s n seq hu
  dsimp only
  intro ha i hi hne hdue
  simp only [List.mem_cons, List.not_mem_nil, or_false] at hi
  obtain rfl | rfl := hi
  · exact doesThen_resend (g := fun d => d.nakIn n seq) hu ha rfl (nakIn_resends ha hne)
  · exact doesThen_resend (g := fun d => d.replayTimeout n) hu ha rfl (replayTimeout_resends ha hne (hdue rfl))

/-! ### Acknowledgement (R139, R141, R147, R229) -/

/-- A READ after sending is one from before, but for its timer and its link. -/
theorem Sends.read_of_mem {d e : Dev} (h : Sends d e) {r : OutRead} (hr : r ∈ e.reads) : ∃ r' ∈ d.reads, r'.core = r.core := by
  have hmem : r.core ∈ e.reads.map OutRead.core := List.mem_map_of_mem hr
  rw [h.reads] at hmem
  exact List.mem_map.1 hmem

/-- A link whose replay list is `left` after an ACK that took frames off it unless `none` went (R139, R141, R147). -/
def Link.ackedTo (l : Link) (now : Nat) (left : List TxFrame) (freed : Cred) (none : Bool) : Link :=
  { l with unacked := left, partnerFreed := freed, ackAt := if none then l.ackAt else now }

/-- Settles O36: an ACK takes its frames off, marks their READs, and lets the link send what waited. -/
theorem ackFrees : Obligations.AckFrees := by
  unfold Obligations.AckFrees
  intro s n seq freed hu ha
  dsimp only
  refine doesThen_run _ s (fun d => (d.ackIn n seq freed).letGo) (fun d => d.ackIn n seq freed) _ hu rfl rfl ?_
  obtain ⟨gone, tags, hgone, htags, heq⟩ := ackIn_eq s.dev n seq freed ha
  obtain ⟨d, hd⟩ : ∃ d : Dev, d = ({ s.dev.updLink n (fun l => l.ackedTo s.dev.now (if gone.isEmpty then (s.dev.link n).unacked
      else (splitSeq seq (s.dev.link n).unacked).2.drop 1) freed gone.isEmpty) with
    reads := s.dev.reads.map fun r => if tags.contains r.tag then { r with acked := true } else r } : Dev) := ⟨_, rfl⟩
  have hlink : d.link n = (s.dev.link n).ackedTo s.dev.now (if gone.isEmpty then (s.dev.link n).unacked
      else (splitSeq seq (s.dev.link n).unacked).2.drop 1) freed gone.isEmpty := by
    rw [hd]
    exact s.dev.updLink_self n fun l => l.ackedTo s.dev.now _ freed gone.isEmpty
  have hreads : d.reads = s.dev.reads.map fun r => if tags.contains r.tag then { r with acked := true } else r := by rw [hd]
  have hsends := pump_sends d n
  obtain ⟨more, hmore⟩ := pump_unacked d n
  have hcore := hsends.link n
  rw [show s.dev.ackIn n seq freed = d.pump n from heq.trans (by rw [hd]; rfl)]
  generalize d.pump n = e at hsends hmore hcore
  rw [hlink] at hmore hcore
  refine ⟨(congrArg Link.partnerFreed hcore :), (congrArg Link.st hcore :).trans ha, ⟨more, ?_⟩, fun hne f hf t ho r hr htag => ?_⟩
  · rw [hmore]
    refine congrArg (· ++ more) ?_
    change (if gone.isEmpty then _ else _) = _
    rw [hgone]
    dsimp only
    by_cases h : (splitSeq seq (s.dev.link n).unacked).2 = []
    · rw [if_pos h, if_pos h]
      rfl
    · rw [if_neg h, if_neg h, if_neg]
      simp [h]
  · obtain ⟨r', hr', hsame⟩ := hsends.read_of_mem hr
    have hin : t ∈ tags := htags f (by rw [hgone]; dsimp only; rw [if_neg hne]; exact hf) t ho
    rw [hreads] at hr'
    obtain ⟨r0, _, rfl⟩ := List.mem_map.1 hr'
    have htag' : r0.tag = t := by
      rw [← htag, show r.tag = _ from (congrArg OutRead.tag hsame.symm :)]
      split <;> rfl
    rw [if_pos (by simpa [htag'] using hin)] at hsame
    exact (congrArg OutRead.acked hsame.symm :)

end Sys2Proof.Machine
end

section
/-! The capability exchange, holds, and bundles (R106, R108, R152, R174–R177, R182, R191, R267, R637, R842). -/

namespace Sys2Proof.Machine

open Sys2Proof

/-! ### Capability exchange (R152, R174–R177, R182) -/

section

variable {d : Dev} {n : Nat} {block : List Byte}

/-- The device once a CAP block on link n has been read: its offer taken, and that one came noted. -/
def Dev.capRead (d : Dev) (n : Nat) (block : List Byte) : Dev :=
  (d.takeOffer n (parseCap block).offer).updLink n fun l => { l with capGot := true }

theorem capRead_spec (d : Dev) (n : Nat) (block : List Byte) : (d.capRead n block).link n = { d.link n with capGot := true } ∧
    (d.capRead n block).now = d.now ∧
    ((d.lnkc.valid = true ∨ (parseCap block).offer ≠ 0xFFFFFFFF) → (d.capRead n block).lnkc.valid = true) := by
  obtain ⟨hlinks, hnow, hvalid⟩ := takeOffer_link d n (parseCap block).offer
  unfold Dev.capRead
  rw [Dev.updLink_self]
  unfold Dev.link
  rw [hlinks]
  exact ⟨rfl, hnow, hvalid⟩

/-- What is wrong with a CAP block, as the reason of DOWN; 0 where it is acceptable (R177). -/
def CapBlock.bad (c : CapBlock) : Nat :=
  if c.major ≠ 1 then 4 else if c.role = false then 5 else if !capCreditsOk c.cred || c.maxLen != 8448 then 6 else 0

theorem capIn_eq (hst : (d.link n).st = .capx) (hcrc : (parseCap block).crcOk = true) :
    d.capIn n block = if (parseCap block).bad ≠ 0 then (d.capRead n block).linkDown n (parseCap block).bad
      else ((d.capRead n block).updLink n fun l => { l with capBlk := if (parseCap block).ack then block else l.capBlk }).capComplete n := by
  unfold Dev.capIn CapBlock.bad
  dsimp only
  rw [if_neg (by simp [hst, hcrc])]
  split
  · rfl
  · cases (parseCap block).role with
    | false => rfl
    | true =>
      simp only [Bool.not_true, Bool.false_eq_true, if_false, Bool.true_eq_false]
      split <;> rfl

/-- The exchange completes with the block kept once one with ACK = 1 was sent and the coordinate is valid (R174). -/
theorem capComplete_enters (hst : (d.link n).st = .capx) (hsent : (d.link n).capSentAck = true) (hblk : (d.link n).capBlk ≠ [])
    (hvalid : d.lnkc.valid = true) : d.capComplete n = d.enterActive n (parseCap (d.link n).capBlk) :=
  if_pos ⟨hst, hsent, hblk, hvalid⟩

/-- Whether or not the exchange completes, CAP_SEND's time stays, and what was sent stays sent. -/
theorem capComplete_keeps (d : Dev) (n : Nat) :
    ((d.capComplete n).link n).capAt = (d.link n).capAt ∧ ∃ more, (d.capComplete n).out = d.out ++ more := by
  unfold Dev.capComplete
  dsimp only
  split
  · obtain ⟨_, _, _, _, _, _, _, hcap, hout⟩ := enterActive_spec d n (parseCap (d.link n).capBlk)
    exact ⟨hcap, hout⟩
  · exact ⟨rfl, [], (List.append_nil _).symm⟩

theorem capSend_early (h : d.now < (d.link n).capAt) : d.capSend n = d := if_pos (.inr (.inl h))

theorem capSend_due (hst : (d.link n).st = .capx) (he : d.lnkc.epoch ≠ 0) (h : (d.link n).capAt ≤ d.now) :
    d.capSend n = ((d.emit (.control n (capBlock (ownCap (d.link n).capGot (d.capCoord n) d.lnkc.epoch)))).updLink n fun l =>
      { l with capAt := (d.emit (.control n (capBlock (ownCap (d.link n).capGot (d.capCoord n) d.lnkc.epoch)))).now + 1000,
               capSentAck := l.capSentAck || l.capGot }).capComplete n := by
  unfold Dev.capSend
  dsimp only
  rw [if_neg]
  rw [not_or, not_or]
  exact ⟨fun hne => hne hst, Nat.not_lt.mpr h, he⟩

end

/-- Settles O38: a block is judged as R177 says; the link goes DOWN with its fault or, the exchange complete, becomes ACTIVE. -/
theorem capabilityExchange : Obligations.CapabilityExchange := by
  unfold Obligations.CapabilityExchange
  refine ⟨fun s n block hu hst hcrc => ?_, fun s n hu hst hepoch => ⟨fun hearly => ?_, fun hdue => ?_⟩⟩
  · dsimp only
    rw [show (if (parseCap block).major ≠ 1 then 4 else if (parseCap block).role = false then 5
      else if (!capCreditsOk (parseCap block).cred || (parseCap block).maxLen != 8448) = true then 6 else 0) = (parseCap block).bad from rfl]
    obtain ⟨hlink, hnow, hvalid⟩ := capRead_spec s.dev n block
    have heq := capIn_eq hst hcrc
    refine ⟨fun hbad => doesThen_run _ s (fun d => (d.capIn n block).letGo) (fun d => d.capIn n block) _ hu rfl rfl ?_,
      fun hok hack hsent hcoord hne => doesThen_run _ s (fun d => (d.capIn n block).letGo) (fun d => d.capIn n block) _ hu rfl rfl ?_⟩
    · rw [heq, if_pos hbad]
      refine linkDown_off _ n _ ?_
      rw [hlink]
      exact fun h => LinkSt.noConfusion (hst.symm.trans h)
    · rw [heq, if_neg (not_not.2 hok), hack]
      simp only [if_true]
      obtain ⟨d, hd⟩ : ∃ d, d = (s.dev.capRead n block).updLink n fun l => { l with capBlk := block } := ⟨_, rfl⟩
      have hl : d.link n = { s.dev.link n with capGot := true, capBlk := block } := by
        rw [hd, Dev.updLink_self, hlink]
      have hnow' : d.now = s.dev.now := by
        rw [hd]
        exact hnow
      have hvalid' : d.lnkc.valid = true := by
        rw [hd]
        exact hvalid hcoord
      rw [← hd, capComplete_enters (by rw [hl]; exact hst) (by rw [hl]; exact hsent) (by rw [hl]; exact hne) hvalid', hl]
      obtain ⟨hact, hcoord, hep, hcred, hurg, hseq, hsince, _⟩ := enterActive_spec d n (parseCap block)
      exact ⟨hact, hcoord, hep, hcred, hurg, hseq, hsince.trans hnow'⟩
  · refine (s.run_up (fun d => (d.capSend n).letGo) hu).trans ?_
    rw [capSend_early hearly]
    rfl
  · refine doesThen_run _ s (fun d => (d.capSend n).letGo) (fun d => d.capSend n) _ hu rfl rfl ?_
    rw [capSend_due hst hepoch hdue]
    obtain ⟨hcap, more, hout⟩ := capComplete_keeps ((s.dev.emit (.control n (capBlock (ownCap (s.dev.link n).capGot (s.dev.capCoord n)
      s.dev.lnkc.epoch)))).updLink n fun l => { l with
        capAt := (s.dev.emit (.control n (capBlock (ownCap (s.dev.link n).capGot (s.dev.capCoord n) s.dev.lnkc.epoch)))).now + 1000,
        capSentAck := l.capSentAck || l.capGot }) n
    rw [Dev.updLink_self] at hcap
    refine ⟨hcap, more, hout.trans ?_⟩
    exact List.append_assoc _ [_] more

/-! ### Bundles (R106, R108, R842) -/

/-- What the bundles carry may have changed, and nothing else. -/
def BundlesOnly (d e : Dev) : Prop := e = { d with bundles := e.bundles }

theorem BundlesOnly.trans {a b c : Dev} (h1 : BundlesOnly a b) (h2 : BundlesOnly b c) : BundlesOnly a c := by
  unfold BundlesOnly at *
  rw [h2, h1]

theorem foldl_bundlesOnly {α : Type} (f : Dev → α → Dev) (hf : ∀ d x, BundlesOnly d (f d x)) (l : List α) (d : Dev) :
    BundlesOnly d (l.foldl f d) := by
  induction l generalizing d with
  | nil => exact rfl
  | cons x r ih => exact (hf d x).trans (ih _)

theorem sendFlit_bundlesOnly (d : Dev) (k ch tag typ : Nat) (b : List Byte) : BundlesOnly d (d.sendFlit k ch tag typ b) := rfl

/-- The flits that leave a bundle change what the bundles carry, and nothing else. -/
theorem moveFlits_bundlesOnly (d : Dev) (b : Nat) (t : Bool) : BundlesOnly d (d.moveFlits b t) := by
  unfold Dev.moveFlits
  dsimp only
  refine BundlesOnly.trans (b := { d with bundles := _ }) rfl (foldl_bundlesOnly _ (fun a f => ?_) _ _)
  split
  · exact sendFlit_bundlesOnly ..
  · rfl

/-- The device once bundle b has been taken out of service, its flits still to be moved. -/
def Dev.bundleOut (d : Dev) (b : Nat) : Dev :=
  { d with bru := { d.bru with bundles := d.bru.bundles.modify b fun x => (false, x.2) } }

theorem bundleOut_self {d : Dev} {b : Nat} (h : b < d.bru.bundles.length) : (d.bundleOut b).bundleIn b = false := by
  unfold Dev.bundleIn Dev.bundleOut
  dsimp only
  rw [List.getElem?_modify_eq, List.getElem?_eq_getElem h]
  rfl

theorem bundleOut_other {d : Dev} {b c : Nat} (h : c ≠ b) : (d.bundleOut b).bundleIn c = d.bundleIn c := by
  unfold Dev.bundleIn Dev.bundleOut
  dsimp only
  rw [List.getElem?_modify_ne _ _ (fun e => h e.symm)]

/-- A gatehouse that another bundle still reaches has a path once bundle b is out. -/
theorem bundleOut_path {d : Dev} {b : Nat} (hb : 64 ≤ b)
    (h : ((List.range 12).any fun i => 64 + (b - 64) / 12 * 12 + i != b && d.bundleIn (64 + (b - 64) / 12 * 12 + i)) = true)
    (hd : d.dieOk (bundleDie b) = true) : (d.bundleOut b).gatehousePath ((b - 64) / 12) = true := by
  obtain ⟨i, hi, hin⟩ := List.any_eq_true.1 h
  rw [Bool.and_eq_true, bne_iff_ne] at hin
  have hdie : bundleDie b = 4 + (b - 64) / 12 := if_neg (by omega)
  rw [hdie] at hd
  unfold Dev.gatehousePath
  rw [Bool.and_eq_true]
  refine ⟨hd, List.any_eq_true.2 ⟨i, hi, ?_⟩⟩
  rw [Nat.mul_comm 12, bundleOut_other hin.1]
  exact hin.2

section

variable {d : Dev} {b : Nat} {toDie : Bool} {seq : Nat} (hb : b < 88) (hin : d.bundleIn b = true)

/-- Failures in a row of the flit numbered `seq`, with the one reported now. -/
def BundleTx.failsOf (x : BundleTx) (seq : Nat) : Nat := if x.seq = seq then x.fails + 1 else 1

/-- The flits kept from number `seq` on. -/
def BundleTx.from (x : BundleTx) (seq : Nat) : List (Nat × Flit) :=
  x.kept.filter fun f => decide ((f.2.seq + 65536 - seq % 65536) % 65536 < 32768)

include hb hin

theorem flitNak_again (hf : (d.bundleTx (2 * b + b2n toDie)).failsOf seq < 8) :
    d.flitNak b toDie seq = { d with
      bundles := SMap.put d.bundles (2 * b + b2n toDie) { d.bundleTx (2 * b + b2n toDie) with
        fails := (d.bundleTx (2 * b + b2n toDie)).failsOf seq, seq := seq,
        kept := ((d.bundleTx (2 * b + b2n toDie)).from seq).map fun f => (d.now, f.2) },
      out := d.out ++ [.flitReplay b toDie seq (((d.bundleTx (2 * b + b2n toDie)).from seq).map fun f => f.2.bytes)] } := by
  unfold Dev.flitNak
  dsimp only
  rw [hin, if_neg (by simpa using hb)]
  exact if_pos hf

/-- The bundle is taken out of service, with its event; the gatehouse it served keeps a path. -/
theorem flitNak_out (hf : 8 ≤ (d.bundleTx (2 * b + b2n toDie)).failsOf seq)
    (hpath : b < 64 ∨ ((List.range 12).any fun i => 64 + (b - 64) / 12 * 12 + i != b && d.bundleIn (64 + (b - 64) / 12 * 12 + i)) = true)
    (hd : d.dieOk (bundleDie b) = true) : BundlesOnly ((d.bundleOut b).event Ev.bndOut.code (0x380 + b) seq (b2n toDie) 0) (d.flitNak b toDie seq) := by
  unfold Dev.flitNak
  dsimp only
  rw [hin, if_neg (by simpa using hb), show (if (SMap.get d.bundles (2 * b + b2n toDie) BundleTx.reset).seq = seq
    then (SMap.get d.bundles (2 * b + b2n toDie) BundleTx.reset).fails + 1 else 1) = (d.bundleTx (2 * b + b2n toDie)).failsOf seq from rfl,
    if_neg (Nat.not_lt.mpr hf)]
  generalize (SMap.put d.bundles _ _) = m
  have hmoved : BundlesOnly ((d.bundleOut b).event Ev.bndOut.code (0x380 + b) seq (b2n toDie) 0)
      (((({ d.bundleOut b with bundles := m } : Dev).event Ev.bndOut.code (0x380 + b) seq (b2n toDie) 0).moveFlits b toDie).moveFlits b !toDie) :=
    BundlesOnly.trans (b := ({ d.bundleOut b with bundles := m } : Dev).event Ev.bndOut.code (0x380 + b) seq (b2n toDie) 0) rfl
      ((moveFlits_bundlesOnly _ b toDie).trans (moveFlits_bundlesOnly _ b !toDie))
  unfold Dev.bundleOut at hmoved
  dsimp only at hmoved
  generalize Dev.moveFlits _ b (!toDie) = e at hmoved ⊢
  by_cases h64 : 64 ≤ b
  · have hpath' := bundleOut_path h64 (hpath.resolve_left (by omega)) hd
    rw [show gateOfBundle b = some ((b - 64) / 12) from if_pos ⟨h64, hb⟩]
    dsimp only
    rw [if_pos]
    · exact hmoved
    · rw [hmoved]
      exact hpath'
  · rw [show gateOfBundle b = none from if_neg (by omega)]
    exact hmoved

end

/-- Settles O40: the flits kept are sent again, or the eighth failure takes the bundle out. -/
theorem flitReplay : Obligations.FlitReplay := by
  unfold Obligations.FlitReplay
  intro s b toDie seq hu hb hin
  dsimp only
  refine ⟨fun hf => doesThen_run _ s (fun d => (d.flitNak b toDie seq).letGo) (fun d => d.flitNak b toDie seq) _ hu rfl rfl ?_,
    fun hf hpath hd => doesThen_run _ s (fun d => (d.flitNak b toDie seq).letGo) (fun d => d.flitNak b toDie seq) _ hu rfl rfl ?_⟩
  · exact flitNak_again hb hin hf
  · have hout := flitNak_out (toDie := toDie) (seq := seq) hb hin hf hpath hd
    generalize s.dev.flitNak b toDie seq = e at hout
    rw [hout]
    exact ⟨fun hlen => bundleOut_self hlen, _, List.mem_append_right _ List.mem_cons_self, rfl, rfl, rfl⟩

end Sys2Proof.Machine
end

section
/-! A hold at its deadline (R191, R235, R267): on a list of queue pairs that holds a number twice, the second record, STOPPING, takes the
queue pair out of the ERROR it was put in. -/

namespace Sys2Proof.Machine

open Sys2Proof

/-! ### What letting go leaves of a device without links -/

theorem drainLink_links (d : Dev) (n : Nat) : (d.drainLink n).links ≠ [] := by
  unfold Dev.drainLink
  generalize d.drainList n [] (d.link n).rxHold [] = x
  change SMap.put x.1.links n _ ≠ []
  cases x.1.links with
  | nil => exact List.cons_ne_nil _ _
  | cons p r =>
    unfold SMap.put
    split
    · exact List.cons_ne_nil _ _
    · split <;> exact List.cons_ne_nil _ _

theorem foldl_drainLink_links (l : List Nat) (d : Dev) (h : d.links ≠ []) : (l.foldl Dev.drainLink d).links ≠ [] := by
  induction l generalizing d with
  | nil => exact h
  | cons n r ih => exact ih _ (drainLink_links d n)

theorem drainLoop_links (k : Nat) (d : Dev) (h : d.links ≠ []) : (drainLoop k d).links ≠ [] := by
  induction k generalizing d with
  | zero => exact h
  | succ k ih =>
    have hd := foldl_drainLink_links ((d.links.filter fun l => !l.2.rxHold.isEmpty).map Prod.fst) d h
    unfold drainLoop
    dsimp only
    split
    · exact ih _ hd
    · exact hd

/-- A device that has no link after letting go had none before, and only fetching went on. -/
theorem letGo_of_noLinks {d : Dev} (h : d.letGo.links = []) : d.letGo = d.wakeHeld := by
  unfold Dev.letGo Dev.drainRx at *
  have hnone : d.wakeHeld.links = [] := by
    by_contra hne
    exact drainLoop_links _ _ hne h
  unfold Dev.rxWaiting
  rw [hnone]
  rfl

theorem doorbell_st (d : Dev) (q k : Nat) : ((d.doorbell q).qp k).st = (d.qp k).st := by
  obtain ⟨_, hother, hself, _⟩ := doorbell_fetches d q
  by_cases hk : k = q
  · rw [hk, hself]
  · rw [hother k hk]

theorem wakeFetch_st (d : Dev) (s k : Nat) : ((d.wakeFetch s).qp k).st = (d.qp k).st := by
  unfold Dev.wakeFetch
  generalize ((d.qps.filter fun q => q.1 / 64 == s && q.2.heldBack).map Prod.fst) = l
  induction l generalizing d with
  | nil => rfl
  | cons q r ih =>
    rw [List.foldl_cons, ih]
    split
    · rw [doorbell_st]
      by_cases hk : k = q
      · rw [hk, Dev.updQp_self]
      · rw [Dev.updQp_other _ _ _ _ hk]
    · rfl

/-- Held-back fetching that goes on leaves every queue pair in its state. -/
theorem wakeHeld_st (d : Dev) (k : Nat) : (d.wakeHeld.qp k).st = (d.qp k).st := by
  unfold Dev.wakeHeld
  generalize d.heldBackSes = l
  induction l generalizing d with
  | nil => rfl
  | cons s r ih => rw [List.foldl_cons, ih, wakeFetch_st]

/-! ### The device -/

/-- A session whose hold ends now, without links, and a list of queue pairs that holds number 0 twice. -/
def staleDev : Dev :=
  { State.reset.dev with
    glb := { State.reset.dev.glb with resetN := true },
    sessions := [(0, { Session.reset with st := .opened, hold := some { since := 0, deadline := 0, epoch := 0, link := 0, frames := [] } })],
    qps := [(0, Qp.reset), (0, { Qp.reset with st := .stopping })] }

def staleState : State := { State.reset with dev := staleDev }

theorem staleDev_idle : ((staleDev.holdDeadlineOp 0).qp 0).st = .idle := by decide

theorem staleDev_quiet : (staleDev.holdDeadlineOp 0).Quiet := by decide

theorem staleDev_links : (staleDev.holdDeadlineOp 0).links = [] := rfl

/-- Refutes O39: `staleDev` holds queue pair 0 twice, its second record STOPPING. At the deadline the first goes to ERROR; the session then
settles on the second, which has no command left, and takes queue pair 0 to IDLE. -/
theorem not_holdDeadline : ¬ Obligations.HoldDeadline := by
  unfold Obligations.HoldDeadline
  intro h
  obtain ⟨e, hrun, _, _, _, herror⟩ := (h staleState 0 _ rfl rfl).2 (Nat.le_refl 0) rfl
  have hstep : exec (.holdDeadline 0) staleState = .next (staleState.withDev (staleDev.holdDeadlineOp 0)) := by
    refine (staleState.run_up (fun d => (d.holdDeadlineOp 0).letGo) rfl).trans ?_
    exact congrArg (fun d => Host.Outcome.next (staleState.withDev d)) (quietLetsNothingGo _ staleDev_quiet)
  have hsame : e.letGo = staleDev.holdDeadlineOp 0 := congrArg State.dev (Host.Outcome.next.inj (hrun.symm.trans hstep))
  have hlinks : e.letGo.links = [] := by rw [hsame, staleDev_links]
  have hst : (e.qp 0).st = .idle := by
    rw [← wakeHeld_st, ← letGo_of_noLinks hlinks, hsame, staleDev_idle]
  rw [(herror 0 rfl).1] at hst
  cases hst

end Sys2Proof.Machine
end

section
/-! Queue pairs enabled, stopped and nudged by a register (R230, R231, R234–R236, R260), and LNK_CTRL (R180, R183, R205). -/

namespace Sys2Proof.Machine

open Sys2Proof

/-! ### Enabling a queue pair (R230, R231, R234) -/

/-- A command that writes QP_CTRL while the blocks are out of reset. -/
theorem doesThen_qpCtrl (i : Instr) (s : State) (p : Path) (q v : Nat) (P : Dev → Prop) (hu : s.Up) (hb : s.dev.glb.blocks = true)
    (hq : q < 32768) (he : exec i s = s.writeReg p (qpCtrlOff q) v)
    (h : P (s.dev.counted.qpCtrlWrite q (BitVec.ofNat 32 v).toNat)) : DoesThen i s P := by
  obtain ⟨ho, hset, hw⟩ := qpOff q hq
  refine writeReg_then i s p _ v P hu hb he ho ?_
  rw [hset, hw]
  exact h

/-- A READ that has just been sent is outstanding. -/
theorem sendRead_mem (d : Dev) (s q addr len : Nat) (hs : List ExtHdr) (w : ReadFor) :
    ∃ r ∈ (d.sendRead s q addr len hs w).reads, r.what = w ∧ r.ses = s ∧ r.addr = addr ∧ r.len = len := by
  have hmem : (d.newRead s q addr len w).core ∈ (d.sendRead s q addr len hs w).reads.map OutRead.core := by
    rw [(sendRead_traffic d s q addr len hs w).2]
    simp
  obtain ⟨r, hr, hcore⟩ := List.mem_map.1 hmem
  exact ⟨r, hr, (congrArg OutRead.what hcore :), (congrArg OutRead.ses hcore :), (congrArg OutRead.addr hcore :), (congrArg OutRead.len hcore :)⟩

/-- The device once queue pair q has been enabled and its session has chosen its current link. -/
def Dev.qpEnabled (d : Dev) (q : Nat) : Dev := (d.updQp q fun x => { x with enable := true, err := 0 }).refreshClink (q / 64)

theorem qpEnabled_spec (d : Dev) (q : Nat) : (d.qpEnabled q).qp q = { d.qp q with enable := true, err := 0 } ∧
    (d.qpEnabled q).reads = d.reads ∧ ((d.qpEnabled q).ses (q / 64)).st = (d.ses (q / 64)).st ∧
    ((d.qpEnabled q).ses (q / 64)).pcie = (d.ses (q / 64)).pcie ∧ ((d.qpEnabled q).ses (q / 64)).qpt = (d.ses (q / 64)).qpt ∧
    (((d.qpEnabled q).ses (q / 64)).clinkNone = true ↔ d.servingLinks (q / 64) = []) ∧ (d.qpEnabled q).held (q / 64) = d.held (q / 64) := by
  obtain ⟨hframe, _, hses⟩ := refreshClink_frame (d.updQp q fun x => { x with enable := true, err := 0 }) (q / 64)
  have hnone := refresh_none (d.updQp q fun x => { x with enable := true, err := 0 }) (q / 64)
  unfold Dev.qpEnabled
  generalize (d.updQp q fun x => { x with enable := true, err := 0 }).refreshClink (q / 64) = e at hframe hses hnone
  refine ⟨?_, by rw [hframe]; rfl, by rw [hses]; rfl, by rw [hses]; rfl, by rw [hses]; rfl, hnone, ?_⟩
  · have hqp : e.qp q = (d.updQp q fun x => { x with enable := true, err := 0 }).qp q := by
      rw [hframe]
      rfl
    rw [hqp, Dev.updQp_self]
  · unfold Dev.held
    rw [hses]
    rfl

theorem qp_idle_of_free {x : Qp} (h : x.inUse = false) : x.st = .idle := by
  unfold Qp.inUse at h
  simpa using (Bool.or_eq_false_iff.1 h).1

section

variable {d : Dev} {q : Nat} (hfree : (d.qp q).inUse = false)

include hfree

theorem qpEnableOp_full (h : ¬ (d.qps.filter fun x => x.2.inUse).length < 4096) :
    d.qpEnableOp q = { d with arb := { d.arb with qpRefused := true } } := by
  unfold Dev.qpEnableOp
  dsimp only
  rw [hfree, if_neg Bool.false_ne_true, if_pos (Nat.not_lt.mp h)]

/-- With room, a queue pair of an OPEN session with a path asks for its context block; another goes to ERROR with code 1. -/
theorem qpEnableOp_room (h : (d.qps.filter fun x => x.2.inUse).length < 4096) :
    ((d.ses (q / 64)).st = .opened ∧ ((d.ses (q / 64)).pcie = true ∨ d.servingLinks (q / 64) ≠ [] ∨ d.held (q / 64) = true) →
      d.qpEnableOp q = (d.qpEnabled q).sendRead (q / 64) (q % 64) ((d.ses (q / 64)).qpt / 4096 * 4096 + 64 * (q % 64)) 64 [] (.context q)) ∧
    (¬ ((d.ses (q / 64)).st = .opened ∧ ((d.ses (q / 64)).pcie = true ∨ d.servingLinks (q / 64) ≠ [] ∨ d.held (q / 64) = true)) →
      d.qpEnableOp q = (d.qpEnabled q).qpError q 1) := by
  obtain ⟨_, _, hst, hpcie, hqpt, hnone, hheld⟩ := qpEnabled_spec d q
  have heq : d.qpEnableOp q = if ((d.qpEnabled q).ses (q / 64)).st ≠ .opened ∨ (((d.qpEnabled q).ses (q / 64)).pcie = false ∧
      ((d.qpEnabled q).ses (q / 64)).clinkNone = true ∧ (d.qpEnabled q).held (q / 64) = false) then (d.qpEnabled q).qpError q 1
      else (d.qpEnabled q).sendRead (q / 64) (q % 64) (((d.qpEnabled q).ses (q / 64)).qpt / 4096 * 4096 + 64 * (q % 64)) 64 [] (.context q) := by
    unfold Dev.qpEnableOp
    dsimp only
    rw [hfree, if_neg Bool.false_ne_true, if_neg (Nat.not_le.mpr h)]
    rfl
  rw [heq, hst, hpcie, hqpt, hheld]
  simp only [hnone]
  refine ⟨fun hpath => if_neg ?_, fun hpath => if_pos ?_⟩
  · rintro (hclosed | ⟨hp, hs, hh⟩)
    · exact hclosed hpath.1
    · simp [hp, hs, hh] at hpath
  · by_cases ho : (d.ses (q / 64)).st = .opened
    · right
      simpa [ho] using hpath
    · exact .inl ho

end

/-! ### Stopping a queue pair (R235, R236) -/

section

variable {d : Dev} {q : Nat} (hst : (d.qp q).st = .stopping)

include hst

/-- A STOPPING queue pair with commands left stays so when its session settles, and the commands stay. -/
theorem settle_busy (h : d.qpCmds (q / 64) (q % 64) ≠ []) :
    (d.settleSession (q / 64)).qp q = d.qp q ∧ (d.settleSession (q / 64)).cmds = d.cmds := by
  obtain ⟨c, hc⟩ := List.exists_mem_of_ne_nil _ h
  obtain ⟨hmem, hof⟩ := List.mem_filter.1 hc
  simp only [Bool.and_eq_true, beq_iff_eq] at hof
  obtain ⟨hses, hqp⟩ := hof
  have hq : dqp c.ses c.qp = q := by unfold dqp; omega
  have hkeeps : d.keepsOpen (q / 64) c = true := by
    unfold Dev.keepsOpen
    rw [hq, hst, hses]
    simp
  refine ⟨?_, (settleSession_stays d (q / 64) ⟨c, hmem, hkeeps⟩).2⟩
  have hnot : q ∉ d.emptied (q / 64) := hq ▸ dqp_notMem_emptied d (q / 64) c hmem hses
  have hkept := keepsOpen_emptied d (q / 64) c hmem
  obtain ⟨hframe, _, hout, _⟩ := qpIdle_frame (d.emptied (q / 64)) d
  rw [settleSession_eq]
  dsimp only
  rw [if_neg, hout q hnot]
  rintro ⟨_, hno⟩
  rw [Bool.not_eq_true', List.any_eq_false] at hno
  exact hno c (by rw [hframe]; exact hmem) (hkept.trans hkeeps)

/-- A STOPPING queue pair without commands goes IDLE when its session settles. -/
theorem settle_empty (h : d.qpCmds (q / 64) (q % 64) = []) : (d.settleSession (q / 64)).qp q = (d.qp q).idle := by
  have hin : q ∈ d.emptied (q / 64) := by
    have hlisted : (q, d.qp q) ∈ d.qps := (SMap.get_mem d.qps q Qp.reset).resolve_left fun hr => by
      rw [show d.qp q = Qp.reset from hr] at hst
      cases hst
    exact List.mem_map.2 ⟨_, List.mem_filter.2 ⟨hlisted, by simp [hst, h]⟩, rfl⟩
  have hidle := (qpIdle_frame (d.emptied (q / 64)) d).2.1 q hin
  rw [settleSession_eq]
  dsimp only
  split
  · rw [(shut_spec _ (q / 64)).2.2.1 q rfl, hidle, Qp.idle_idle]
  · exact hidle

end

/-- The device once queue pair q has been told to stop. -/
def Dev.qpStopped (d : Dev) (q : Nat) : Dev :=
  d.updQp q fun x => { x with enable := false, st := .stopping, sqAsked := x.sqCi, dbAgain := false, dbUrg := false, heldBack := false,
                              early := [] }

theorem qpDisableOp_stops {d : Dev} {q : Nat} (hi : (d.qp q).st ≠ .idle) (hs : (d.qp q).st ≠ .stopping) :
    d.qpDisableOp q = (d.qpStopped q).settleSession (q / 64) := by
  unfold Dev.qpDisableOp
  dsimp only
  rw [if_neg hi, if_neg hs]
  rfl

theorem qpDisableOp_forgets {d : Dev} {q : Nat} (hi : (d.qp q).st = .idle) (he : (d.qp q).enable = true) : d.qpDisableOp q = d.qpIdle q := by
  unfold Dev.qpDisableOp
  dsimp only
  rw [if_pos hi, if_pos he]

/-! ### SES_NUDGE (R260) -/

theorem nudgeWord_bits {q : Nat} (hq : q < 32768) :
    bits (BitVec.ofNat 32 (q / 64 % 512 + 512 * (q % 64 % 64))).toNat 0 9 = q / 64 ∧
    bits (BitVec.ofNat 32 (q / 64 % 512 + 512 * (q % 64 % 64))).toNat 9 6 = q % 64 := by
  have hs : q / 64 % 512 = q / 64 := Nat.mod_eq_of_lt (by omega)
  have hr : q % 64 % 64 = q % 64 := Nat.mod_mod _ _
  have hw : (q / 64 + 512 * (q % 64)) % 2 ^ 32 = q / 64 + 512 * (q % 64) := Nat.mod_eq_of_lt (by omega)
  rw [hs, hr, BitVec.toNat_ofNat, hw]
  unfold bits
  rw [Nat.shiftRight_eq_div_pow, Nat.shiftRight_eq_div_pow]
  have hlow : (q / 64 + 512 * (q % 64)) / 2 ^ 9 = q % 64 := by
    rw [show (2 : Nat) ^ 9 = 512 from rfl, Nat.add_mul_div_left _ _ (by decide), Nat.div_eq_of_lt (by omega), Nat.zero_add]
  rw [hlow]
  exact ⟨by omega, hr⟩

theorem sesNudgeWrite_nudges {d : Dev} {v q : Nat} (hs : bits v 0 9 = q / 64) (hq : bits v 9 6 = q % 64) (hp : (d.ses (q / 64)).pcie = true)
    (ho : (d.ses (q / 64)).st = .opened) : d.sesNudgeWrite v = d.nudgeQp q false := by
  unfold Dev.sesNudgeWrite
  dsimp only
  rw [hs, hq, if_pos ⟨hp, ho⟩, show dqp (q / 64) (q % 64) = q from Nat.div_add_mod q 64]

/-- Settles O43: QP_CTRL enables or stops a queue pair as its state and its session's path say; SES_NUDGE is a doorbell READ. -/
theorem queuePairControl : Obligations.QueuePairControl := by
  unfold Obligations.QueuePairControl
  intro s p q hu hb hq
  dsimp only
  obtain ⟨hqpE, hreadsE, _⟩ := qpEnabled_spec s.dev.counted q
  refine ⟨fun hfree hroom ho hpath => ?_, fun hfree hroom hno => ?_, fun hfree hfull => ?_, fun hi hs => ?_, fun hi he => ?_,
    fun hpcie ho hact hring hidle => ?_⟩
  · refine doesThen_qpCtrl _ s p q _ _ hu hb hq rfl ?_
    rw [show s.dev.counted.qpCtrlWrite q (BitVec.ofNat 32 1).toNat = s.dev.counted.qpEnableOp q from rfl,
      (qpEnableOp_room (d := s.dev.counted) hfree hroom).1 ⟨ho, hpath⟩]
    have htraffic := (sendRead_traffic (s.dev.counted.qpEnabled q) (q / 64) (q % 64)
      ((s.dev.counted.ses (q / 64)).qpt / 4096 * 4096 + 64 * (q % 64)) 64 [] (.context q)).1
    refine ⟨?_, ?_, sendRead_mem ..⟩
    · rw [htraffic.qp, hqpE]
      exact qp_idle_of_free (x := s.dev.qp q) hfree
    · rw [htraffic.qp, hqpE]
  · refine doesThen_qpCtrl _ s p q _ _ hu hb hq rfl ?_
    rw [show s.dev.counted.qpCtrlWrite q (BitVec.ofNat 32 1).toNat = s.dev.counted.qpEnableOp q from rfl,
      (qpEnableOp_room (d := s.dev.counted) hfree hroom).2 hno]
    unfold Dev.qpError
    rw [Dev.updQp_self]
    exact ⟨rfl, rfl, hreadsE⟩
  · refine doesThen_qpCtrl _ s p q _ _ hu hb hq rfl ?_
    exact qpEnableOp_full (d := s.dev.counted) hfree hfull
  · refine doesThen_qpCtrl _ s p q _ _ hu hb hq rfl ?_
    rw [show s.dev.counted.qpCtrlWrite q (BitVec.ofNat 32 0).toNat = s.dev.counted.qpDisableOp q from rfl,
      qpDisableOp_stops (d := s.dev.counted) hi hs]
    have hself : (s.dev.counted.qpStopped q).qp q = _ := s.dev.counted.updQp_self q _
    have hstop : ((s.dev.counted.qpStopped q).qp q).st = .stopping := by rw [hself]
    refine ⟨fun hbusy => ?_, fun hempty => ⟨?_, fun hopen => ?_⟩⟩
    · obtain ⟨hqp, hcmds⟩ := settle_busy hstop hbusy
      rw [hqp, hself]
      exact ⟨rfl, rfl, hcmds⟩
    · rw [settle_empty hstop hempty, hself]
      rfl
    · exact ((settle_spec (s.dev.counted.qpStopped q) (q / 64)).2.1 hopen).2
  · refine doesThen_qpCtrl _ s p q _ _ hu hb hq rfl ?_
    rw [show s.dev.counted.qpCtrlWrite q (BitVec.ofNat 32 0).toNat = s.dev.counted.qpDisableOp q from rfl,
      qpDisableOp_forgets (d := s.dev.counted) hi he]
    refine ⟨?_, fun r hr => ?_, rfl⟩
    · rw [qpIdle_qp, if_pos rfl]
      rfl
    · obtain ⟨_, hr⟩ := List.mem_filter.1 hr
      simpa using hr
  · refine writeReg_then _ s p 0x40004 _ _ hu hb rfl (by decide) ?_
    rw [writeBlock_ses _ _ _ _ (by decide) (by decide)]
    obtain ⟨hses, hqp⟩ := nudgeWord_bits hq
    rw [show ∀ d v, Dev.writeSes d (0x40004 % 0x10000) v = d.sesNudgeWrite v from fun _ _ => rfl,
      sesNudgeWrite_nudges (d := if notSetUp 0x40004 then s.dev else s.dev.counted) hses hqp hpcie ho]
    obtain ⟨_, _, hbusy, _, hread⟩ := nudgeQp_nudged (d := if notSetUp 0x40004 then s.dev else s.dev.counted) (q := q) ⟨hact, hring⟩ false
    obtain ⟨r, hr, hw, haddr, _⟩ := hread hidle
    exact ⟨hbusy, r, hr, hw, haddr⟩

/-! ### LNK_CTRL (R180, R183, R205) -/

/-- LNK_CTRL as the commands write it. -/
theorem lnkWord_bits : ∀ (enable emode retrain : Bool) (k : Fin 8),
    let v := (BitVec.ofNat 32 (b2n enable + 2 * b2n emode + 4 * b2n retrain + 16 * k.val)).toNat
    bit v 0 = enable ∧ bit v 1 = emode ∧ bit v 2 = retrain ∧ bits v 4 3 = k.val := by decide

/-- A link with the fields of LNK_CTRL as written. -/
def Link.setCtrl (l : Link) (enable emode : Bool) (pattern : Nat) : Link := { l with enable := enable, emode := emode, pattern := pattern }

/-- What LNK_CTRL comes to once its fields are written: DISABLED, TRAIN, or the ACTIVE link retrained. -/
def Dev.linkSet (d : Dev) (n : Nat) (off retrain : Bool) : Dev :=
  if off then
    (if (d.link n).st = .active then d.leaveActive n false false .disabled
      else d.updLink n fun l => { l with st := .disabled, since := if l.st = .disabled then l.since else d.now })
  else if (d.link n).st = .disabled then
    (if !d.linksOn then d else if d.gatehousePath (n / 24) then d.toTrain n else d.linkDown n DownReason.noPath.code)
  else if retrain then d.dropActive n DownReason.retrain.code
  else d

/-- A command that writes LNK_CTRL of a present link with a path. -/
theorem doesThen_lnkCtrl {i : Instr} {s : State} {p : Path} {n pattern : Nat} {enable emode retrain : Bool} {P : Dev → Prop} (hu : s.Up)
    (hb : s.dev.glb.blocks = true) (hn : n < 48) (hp : linkPresent s.dev.variant n = true) (hg : s.dev.gatehousePath (n / 24) = true)
    (he : exec i s = s.writeReg p (lnkCtrlOff n) (lnkCtrlWord enable emode retrain pattern))
    (h : P ((s.dev.counted.updLink n fun l => l.setCtrl enable emode (pattern % 8)).linkSet n (!enable || pattern % 8 != 0) retrain)) :
    DoesThen i s P := by
  obtain ⟨ho, hset, hw⟩ := lnkOff n hn
  refine writeReg_then i s p _ _ P hu hb he ho ?_
  obtain ⟨h0, h1, h2, h4⟩ := lnkWord_bits enable emode retrain ⟨pattern % 8, Nat.mod_lt _ (by decide)⟩
  rw [hset, if_neg Bool.false_ne_true, hw s.dev.counted p _ hp hg]
  unfold lnkCtrlWord Dev.linkCtrl
  dsimp only at h0 h1 h2 h4 ⊢
  rw [h0, h1, h2, h4, if_neg (by rw [show linkPresent s.dev.counted.variant n = true from hp]; decide), Dev.updLink_self]
  have hoff : (enable = false ∨ pattern % 8 ≠ 0) ↔ (!enable || pattern % 8 != 0) = true := by simp
  simp only [Link.setCtrl, Dev.linkSet, Dev.updLink_self] at h
  simp only [hoff]
  exact h

/-- A link that is switched off is DISABLED, its fields as written. -/
theorem linkSet_off (d : Dev) (n : Nat) (retrain : Bool) : ((d.linkSet n true retrain).link n).st = .disabled ∧
    ((d.linkSet n true retrain).link n).enable = (d.link n).enable ∧ ((d.linkSet n true retrain).link n).emode = (d.link n).emode ∧
    ((d.linkSet n true retrain).link n).pattern = (d.link n).pattern := by
  unfold Dev.linkSet
  rw [if_pos rfl]
  split
  · rw [(leaveActive_spec d n false false .disabled nofun).1]
    exact ⟨rfl, rfl, rfl, rfl⟩
  · rw [Dev.updLink_self]
    exact ⟨rfl, rfl, rfl, rfl⟩

/-- A link that is switched on, with a path: a DISABLED one trains once links do. -/
theorem linkSet_on {d : Dev} {n : Nat} (hg : d.gatehousePath (n / 24) = true) :
    (d.linkSet n false false).link n = if (d.link n).st = .disabled ∧ d.linksOn = true then { d.link n with st := .train, since := d.now }
      else d.link n := by
  unfold Dev.linkSet
  rw [if_neg Bool.false_ne_true]
  by_cases hst : (d.link n).st = .disabled
  · rw [if_pos hst]
    cases hon : d.linksOn with
    | false =>
      rw [if_pos (by rfl), if_neg fun h => Bool.false_ne_true h.2]
    | true =>
      rw [if_neg (by decide), if_pos hg, if_pos ⟨hst, rfl⟩]
      exact d.updLink_self n _
  · rw [if_neg hst, if_neg Bool.false_ne_true, if_neg fun h => hst h.1]

theorem linkSet_retrain {d : Dev} {n : Nat} (ha : (d.link n).st = .active) :
    ((d.linkSet n false true).link n).st = .down ∧ ((d.linkSet n false true).link n).reason = 10 := by
  unfold Dev.linkSet Dev.dropActive
  rw [if_neg Bool.false_ne_true, if_neg (by rw [ha]; exact nofun), if_pos rfl, if_pos ha, (linkDown_spec d n _ ha).1]
  exact ⟨rfl, rfl⟩

/-- Settles O44: the fields are kept as written, and the link goes where ENABLE, TESTPAT and RETRAIN say. -/
theorem linkControlRegister : Obligations.LinkControlRegister := by
  unfold Obligations.LinkControlRegister
  intro s p n emode hu hb hn hp hg
  have hself : ∀ enable pattern, (s.dev.counted.updLink n fun l => l.setCtrl enable emode pattern).link n =
      (s.dev.link n).setCtrl enable emode pattern := fun _ _ => Dev.updLink_self ..
  have hoff := fun enable pattern retrain => linkSet_off (s.dev.counted.updLink n fun l => l.setCtrl enable emode pattern) n retrain
  have hon := fun enable pattern => linkSet_on (d := s.dev.counted.updLink n fun l => l.setCtrl enable emode pattern) (n := n) hg
  simp only [hself] at hoff hon
  refine ⟨fun enable pattern => doesThen_lnkCtrl hu hb hn hp hg rfl ?_, doesThen_lnkCtrl hu hb hn hp hg rfl ?_,
    doesThen_lnkCtrl hu hb hn hp hg rfl ?_, fun ha => doesThen_lnkCtrl hu hb hn hp hg rfl ?_⟩
  · by_cases hx : (!enable || pattern % 8 != 0) = true
    · rw [hx]
      obtain ⟨h1, h2, h3, h4⟩ := hoff enable (pattern % 8) false
      exact ⟨h2, h3, h4, fun _ => h1⟩
    · rw [Bool.not_eq_true] at hx
      rw [hx, hon]
      refine ⟨?_, ?_, ?_, fun h => ?_⟩
      · split <;> rfl
      · split <;> rfl
      · split <;> rfl
      · simp only [Bool.or_eq_false_iff, Bool.not_eq_false', bne_eq_false_iff_eq] at hx
        obtain h | h := h
        · exact absurd (hx.1.symm.trans h) (by decide)
        · exact absurd hx.2 h
  · have hlinks : (s.dev.counted.updLink n fun l => l.setCtrl true emode 0).linksOn = s.dev.linksOn := rfl
    rw [show (!true || 0 % 8 != 0) = false from rfl, show 0 % 8 = 0 from rfl, hon, hlinks]
    refine ⟨?_, ?_, ?_, fun hst htrain => ?_, fun hst => ?_⟩
    · split <;> rfl
    · split <;> rfl
    · split <;> rfl
    · rw [if_pos ⟨hst, htrain⟩]
      exact ⟨rfl, rfl⟩
    · rw [if_neg fun h => hst h.1]
      rfl
  · exact ⟨(hoff false 0 false).2.1, (hoff false 0 false).1⟩
  · exact linkSet_retrain (by rw [hself]; exact ha)

end Sys2Proof.Machine
end

section
/-! Registers whose write is the whole command (R151, R405, R407, R493, R623, R624, R630, R756, R835, R884), and register reads
(R700, R710, R861, R869, R870). -/

namespace Sys2Proof.Machine

open Sys2Proof

/-! ### Writes -/

theorem writeBlock_coord (d : Dev) (p : Path) (w : Word) : d.writeBlock p 0x130000 w = d.coordWrite w.toNat := rfl

theorem writeBlock_tether (d : Dev) (p : Path) (w : Word) :
    d.writeBlock p 0x60008 w = d.tetherSetTo (d.path p).tthSel (w ++ (d.path p).tthLo) := rfl

theorem writeBlock_bctrl (d : Dev) (p : Path) (w : Word) : d.writeBlock p 0x20018 w = d.bctrlWrite w.toNat := rfl

theorem writeBlock_chk (d : Dev) (p : Path) (w : Word) : d.writeBlock p 0x70000 w = d.writeChk 0 w := rfl

theorem writeBlock_scratch (d : Dev) (p : Path) (w : Word) : d.writeBlock p 0x20 w = { d with glb := { d.glb with scratch0 := w } } := rfl

/-- A command that writes SHP_CTL of descriptor k (R405, R407). -/
theorem doesThen_shpCtl {i : Instr} {s : State} {p : Path} {k v : Nat} (hu : s.Up) (hb : s.dev.glb.blocks = true) (hk : 1 ≤ k) (hk' : k < 1024)
    (he : exec i s = s.writeReg p (shpCtlOff k) v) :
    DoesThen i s fun e => e.shape k = (s.dev.shape k).ctl (BitVec.ofNat 32 v) ∧ ∀ j, j ≠ k → e.shape j = s.dev.shape j := by
  have hoff : shpCtlOff k = 0xC003C + k * 0x40 := by unfold shpCtlOff; rw [Nat.mod_eq_of_lt hk']
  have ho : offsetOk (0xC003C + k * 0x40) = true := by unfold offsetOk; simp; omega
  have hset : notSetUp (0xC003C + k * 0x40) = false := by unfold notSetUp; simp; omega
  rw [hoff] at he
  refine writeReg_then i s p _ v _ hu hb he ho ?_
  rw [hset, if_neg Bool.false_ne_true, writeBlock_shp _ _ _ _ (by omega) (by omega)]
  have hrow : s.dev.counted.writeShp ((0xC003C + k * 0x40) % 0x10000) (BitVec.ofNat 32 v) =
      s.dev.counted.updShape k fun e => e.ctl (BitVec.ofNat 32 v) := by
    have hk0 : (0xC003C + k * 0x40) % 0x10000 / 0x40 = k := by omega
    have hw : (0xC003C + k * 0x40) % 0x10000 % 0x40 / 4 = 15 := by omega
    unfold Dev.writeShp
    dsimp only
    rw [hk0, hw, if_neg (by omega)]
    simp only [if_true]
  rw [hrow]
  exact ⟨Dev.updShape_self .., fun j hj => Dev.updShape_other _ _ _ _ hj⟩

theorem ctl_validates (x : ShapeEnt) : x.ctl (BitVec.ofNat 32 (2 ^ 31)) =
    { x with valid := descErr (x.words.flatMap fun w => natLe 4 w.toNat) == 0, err := descErr (x.words.flatMap fun w => natLe 4 w.toNat) } :=
  if_pos (by decide)

theorem ctl_withdraws (x : ShapeEnt) : x.ctl (BitVec.ofNat 32 0) = { x with valid := false } := if_neg (by decide)

/-- Writes that waited for a root key go on in the data plane (R630). -/
theorem keyGoesOn_plane (l : List Nat) (d : Dev) : DataPlane d (l.foldl (fun d i => (d.makeTags i).commitWrite i) d) := by
  induction l generalizing d with
  | nil => exact DataPlane.refl d
  | cons c r ih =>
    exact (((makeTags_inputKept d c).plane.trans (commitWrite_inputKept _ c).plane)).trans (ih _)

theorem writeChk_ctrl (d : Dev) (w : Word) : d.writeChk 0 w =
    if d.chk.root.isNone && (d.chk.ctrl w.toNat).root.isSome then
      (d.cmds.map Cmd.id).foldl (fun d i => (d.makeTags i).commitWrite i) { d with chk := d.chk.ctrl w.toNat }
    else { d with chk := d.chk.ctrl w.toNat } := rfl

/-- CHK_CTRL without ZEROISE: the staged words become the root key (R623). -/
theorem writeChk_commit {d : Dev} (h : d.chk.root = none) : d.writeChk 0 (BitVec.ofNat 32 1) =
    (d.cmds.map Cmd.id).foldl (fun d i => (d.makeTags i).commitWrite i)
      { d with chk := { d.chk with root := some (d.chk.staged.flatMap fun w => natLe 4 w.toNat), staged := List.replicate 8 0 } } := by
  have hctl : d.chk.ctrl (BitVec.ofNat 32 1).toNat =
      { d.chk with root := some (d.chk.staged.flatMap fun w => natLe 4 w.toNat), staged := List.replicate 8 0 } :=
    (if_neg (by decide)).trans ((if_pos (by decide)).trans (if_neg (by rw [h]; exact Bool.false_ne_true)))
  rw [writeChk_ctrl, hctl, h]
  rfl

/-- A second root key is not taken (R623). -/
theorem writeChk_commitAgain {d : Dev} (h : d.chk.root ≠ none) :
    d.writeChk 0 (BitVec.ofNat 32 1) = { d with chk := { d.chk with crej := true } } := by
  have hsome : d.chk.root.isSome = true := Option.isSome_iff_ne_none.2 h
  have hctl : d.chk.ctrl (BitVec.ofNat 32 1).toNat = { d.chk with crej := true } :=
    (if_neg (by decide)).trans ((if_pos (by decide)).trans (if_pos hsome))
  rw [writeChk_ctrl, hctl, Option.isNone_eq_false_iff.2 hsome, Bool.false_and, if_neg Bool.false_ne_true]

/-- CHK_CTRL with ZEROISE clears the root key and the staged words (R624). -/
theorem writeChk_zeroise (d : Dev) (both : Bool) : d.writeChk 0 (BitVec.ofNat 32 (2 + b2n both)) =
    { d with chk := { d.chk with root := none, staged := List.replicate 8 0 } } := by
  have hctl : d.chk.ctrl (BitVec.ofNat 32 (2 + b2n both)).toNat = { d.chk with root := none, staged := List.replicate 8 0 } :=
    if_pos (by cases both <;> decide)
  rw [writeChk_ctrl, hctl, show (none : Option (List Byte)).isSome = false from rfl, Bool.and_false, if_neg Bool.false_ne_true]

/-- PWR_BCTRL sets CLEAR of the barns whose bits are 1 (R756). -/
theorem bctrlWrite_barn (d : Dev) (v b : Nat) (hb : b < 4) :
    (d.bctrlWrite v).barn b = if bit v b then { d.barn b with clearBit := true } else d.barn b := by
  have hfold : ∀ (l : List Nat) (d : Dev), l.Nodup →
      (l.foldl (fun d b => if bit v b then d.updBarn b fun x => { x with clearBit := true } else d) d).barn b =
        if b ∈ l ∧ bit v b = true then { d.barn b with clearBit := true } else d.barn b := by
    intro l
    induction l with
    | nil => exact fun d _ => rfl
    | cons a r ih =>
      intro d hnd
      obtain ⟨ha, hr⟩ := List.nodup_cons.1 hnd
      rw [List.foldl_cons, ih _ hr]
      by_cases hba : b = a
      · subst hba
        rw [if_neg fun h => ha h.1]
        cases hv : bit v b with
        | true => rw [if_pos rfl, Dev.updBarn_self, if_pos ⟨List.mem_cons_self, rfl⟩]
        | false => rw [if_neg Bool.false_ne_true, if_neg fun h => Bool.false_ne_true h.2]
      · have hd : (if bit v a = true then d.updBarn a fun x => { x with clearBit := true } else d).barn b = d.barn b := by
          split
          · rw [Dev.barn_updBarn, if_neg hba]
          · rfl
        rw [hd]
        simp only [List.mem_cons, or_iff_right hba]
  unfold Dev.bctrlWrite
  rw [hfold _ d (by decide)]
  simp [hb]

/-- Settles O45: each register's write, from the register's own rule. -/
theorem registerRows : Obligations.RegisterRows := by
  unfold Obligations.RegisterRows
  intro s p hu hb
  refine ⟨fun w => ?_, fun hi => ?_, fun k hk hk' => ⟨?_, ?_⟩, fun hnone => ?_, fun hsome => ?_, fun both => ?_, fun barns hbarns => ?_,
    fun w => ?_, fun off w hoff => ?_⟩
  · exact doesThen_row _ s p 0x130000 w _ hu hb rfl (by decide) (by rw [writeBlock_coord]; rfl)
  · refine doesThen_row _ s p 0x60008 hi _ hu hb rfl (by decide) ?_
    rw [writeBlock_tether]
    refine ⟨?_, fun t ht => ?_, rfl⟩
    · exact (tether_tetherSetTo s.dev _ _ _).trans (if_pos rfl)
    · exact (tether_tetherSetTo s.dev _ _ _).trans (if_neg ht)
  · simpa only [ctl_validates] using doesThen_shpCtl (i := .shapeValidate p k) hu hb hk hk' rfl
  · simpa only [ctl_withdraws] using doesThen_shpCtl (i := .shapeWithdraw p k) hu hb hk hk' rfl
  · refine writeReg_then _ s p 0x70000 1 _ hu hb rfl (by decide) ?_
    rw [writeBlock_chk, show notSetUp 0x70000 = false by decide, if_neg Bool.false_ne_true, writeChk_commit (d := s.dev.counted) hnone]
    refine ⟨keyGoesOn_plane _ _, fun hcmds => ?_⟩
    rw [show s.dev.counted.cmds.map Cmd.id = [] from congrArg (List.map Cmd.id) hcmds]
    rfl
  · refine writeReg_then _ s p 0x70000 1 _ hu hb rfl (by decide) ?_
    rw [writeBlock_chk, show notSetUp 0x70000 = false by decide, if_neg Bool.false_ne_true, writeChk_commitAgain (d := s.dev.counted) hsome]
    rfl
  · refine writeReg_then _ s p 0x70000 (2 + b2n both) _ hu hb rfl (by decide) ?_
    rw [writeBlock_chk, show notSetUp 0x70000 = false by decide, if_neg Bool.false_ne_true, writeChk_zeroise]
    rfl
  · refine writeReg_then _ s p 0x20018 (barns % 16) _ hu hb rfl (by decide) ?_
    intro b hb4
    have hv : (BitVec.ofNat 32 (barns % 16)).toNat = barns := by
      rw [BitVec.toNat_ofNat]
      omega
    rw [writeBlock_bctrl, hv, bctrlWrite_barn _ _ _ hb4]
    rfl
  · exact doesThen_row _ s p 0x20 w _ hu hb rfl (by decide) rfl
  · refine (s.run_up (fun d => d.writeRow p off w) hu).trans ?_
    unfold Dev.writeRow
    rw [hoff, if_neg Bool.false_ne_true]

/-! ### Reads -/

/-- A read row answers with the word read; at an offset that is not a register's it does nothing. -/
theorem run_readRow {i : Instr} {s : State} {p : Path} {off : Nat} (hu : s.Up) (he : exec i s = s.run fun d => d.readRow p off) :
    (offsetOk off = true → exec i s = .next (s.withDev ((s.dev.regRead p off).2.emit (.readValue p off (s.dev.regRead p off).1)))) ∧
    (offsetOk off = false → exec i s = .next s) := by
  rw [he, s.run_up (fun d => d.readRow p off) hu]
  refine ⟨fun ho => ?_, fun ho => ?_⟩
  · rw [readRow_eq s.dev p off _ _ ho rfl]
    rfl
  · unfold Dev.readRow
    rw [ho, if_neg Bool.false_ne_true]

/-- Settles O46: every read row answers with the word; a counter clears, a pair and a group latch. -/
theorem registerReads : Obligations.RegisterReads := by
  unfold Obligations.RegisterReads
  intro s p off hu
  refine ⟨fun i hi => ?_, fun hb => ⟨?_, ?_, ?_⟩⟩
  · simp only [List.mem_cons, List.not_mem_nil, or_false] at hi
    obtain rfl | rfl | rfl := hi
    · exact run_readRow hu rfl
    · exact run_readRow hu rfl
    · exact run_readRow hu rfl
  · rw [(run_readRow (i := .rcRead p 0x20044) (p := p) (off := 0x20044) hu rfl).1 (by decide), regRead_cntTrip s.dev p hb]
    rfl
  · refine ⟨_, (run_readRow (i := .loRead p 0x10008) (p := p) (off := 0x10008) hu rfl).1 (by decide), ?_⟩
    rw [regRead_now s.dev p hb]
    obtain ⟨hframe, hlatch⟩ := latch_spec s.dev p 0x1000C (s.dev.now % 2 ^ 64 / 2 ^ 32)
    have hlow : BitVec.ofNat 32 (s.dev.now % 2 ^ 64 % 2 ^ 32) = BitVec.ofNat 32 s.dev.now := by
      apply BitVec.eq_of_toNat_eq
      simp only [BitVec.toNat_ofNat]
      omega
    have hhigh : BitVec.ofNat 32 (s.dev.now % 2 ^ 64 / 2 ^ 32) = BitVec.ofNat 32 (s.dev.now / 2 ^ 32) := by
      apply BitVec.eq_of_toNat_eq
      simp only [BitVec.toNat_ofNat]
      omega
    refine ⟨?_, ?_, ?_⟩
    · rw [hframe, hlow]
      rfl
    · exact (hlatch 0x1000C).trans ((if_pos rfl).trans hhigh)
    · rw [hframe]
      rfl
  · refine ⟨_, (run_readRow (i := .latchGroupRead p 0xB0020) (p := p) (off := 0xB0020) hu rfl).1 (by decide), ?_⟩
    rw [regRead_evq s.dev p hb]
    obtain ⟨e, heq, hframe, hlatch⟩ := groupRead_spec s.dev p 0xB0020 s.dev.evq.front
    rw [heq]
    refine ⟨?_, hlatch, ?_⟩
    · rw [hframe]
      rfl
    · rw [hframe]
      rfl

end Sys2Proof.Machine
end

section
/-! Stored copies, the boot-flash mailbox, reset and bring-up (R729, R730, R732, R765–R780, R795, R796, R803–R806, R914). -/

namespace Sys2Proof.Machine

open Sys2Proof

/-! ### Stored copies (R795, R796, R803, R804) -/

theorem storeNow_copy (d : Dev) : ∃ y, d.storeNow.bru.xspi = d.bru.xspi ++ [.store y] ∧ y.clrRemap = d.bru.clrRemap ∧ y.uid = d.bru.uid ∧
    y.temps = d.bru.temps := ⟨d.resultsCopy, rfl, rfl, rfl, rfl⟩

/-- The device once BRU_CTRL has set or cleared CLR_REMAP. -/
def Dev.setClrRemap (d : Dev) (b : Bool) : Dev := { d with bru := { d.bru with clrRemap := b } }

theorem writeCtrl_stores {d : Dev} {v : Nat} (h : (bit v 0 || bit v 1) = true) : d.writeBruFw 4 v = (d.setClrRemap (bit v 0)).storeNow :=
  if_pos h

/-- Settles O47: BRU_ACCEPT, BRU_CTRL, a copy that is due, and one that has been written. -/
theorem storedCopies : Obligations.StoredCopies := by
  unfold Obligations.StoredCopies
  refine ⟨fun s p hu hb hst => ⟨fun items h10 hcount => ?_, fun items hno => ?_, ?_, fun both => ?_⟩,
    fun s hu => ⟨fun hnone => ?_, fun hsome => ?_⟩, fun s ok y rest hu hx => ?_⟩
  · refine doesThen_bruRow _ s p 8 _ _ hu hb hst rfl (by decide) (by decide) (by decide) (by decide) (by decide)
      (fun h => absurd h (by decide)) ?_
    rw [rowAccept_eq, if_pos ⟨h10, hcount⟩]
    exact enterReady_spec s.dev.counted
  · refine doesThen_bruRow _ s p 8 _ _ hu hb hst rfl (by decide) (by decide) (by decide) (by decide) (by decide)
      (fun h => absurd h (by decide)) ?_
    rw [rowAccept_eq]
    exact if_neg (not_and_or.2 hno)
  · refine doesThen_bruRow _ s p 4 _ _ hu hb hst rfl (by decide) (by decide) (by decide) (by decide) (by decide)
      (fun h => absurd h (by decide)) ?_
    rw [writeCtrl_stores (by decide)]
    exact ⟨rfl, storeNow_copy _⟩
  · refine doesThen_bruRow _ s p 4 _ _ hu hb hst rfl (by decide) (by decide) (by decide) (by decide) (by decide)
      (fun h => absurd h (by decide)) ?_
    have hbit : bit (BitVec.ofNat 32 (1 + 2 * b2n both)).toNat 0 = true := by cases both <;> decide
    rw [writeCtrl_stores (by rw [hbit]; rfl), hbit]
    obtain ⟨y, hy, hclr, _⟩ := storeNow_copy (s.dev.counted.setClrRemap true)
    exact ⟨rfl, rfl, y, hy, hclr⟩
  · refine (s.run_up (fun d => if d.bru.storeDue.isSome then ({ d with bru := { d.bru with storeDue := none } } : Dev).storeNow else d) hu).trans ?_
    rw [hnone]
    rfl
  · refine does_run _ s (fun d => if d.bru.storeDue.isSome then ({ d with bru := { d.bru with storeDue := none } } : Dev).storeNow else d) _
      hu rfl ?_
    rw [if_pos (Option.isSome_iff_ne_none.2 hsome)]
    obtain ⟨y, hy, _⟩ := storeNow_copy { s.dev with bru := { s.dev.bru with storeDue := none } }
    exact ⟨rfl, rfl, y, hy⟩
  · refine (s.runAll_up (fun s => s.copyWritten ok) hu).trans ?_
    unfold State.copyWritten State.popFlash
    rw [hx]
    rfl

/-! ### The mailbox (R777) -/

section

variable {d : Dev}

theorem mailboxOp_busy (h : d.bru.flBusy = true) (op : Nat) : d.mailboxOp op = d := by
  unfold Dev.mailboxOp
  rw [h]
  rfl

/-- A command that writes BRU_FL_CTRL: while BUSY nothing, else the operation is asked of the port. -/
theorem doesThen_mailbox {i : Instr} {s : State} {p : Path} {op : Nat} {x : FlashOp} (hu : s.Up) (hb : s.dev.glb.blocks = true)
    (hst : 3 < s.dev.bru.st) (hop : (BitVec.ofNat 32 op).toNat = op) (h4 : op % 4 = op) (h30 : bit op 30 = false)
    (he : exec i s = s.writeReg p 0xA0030 op)
    (hx : s.dev.bru.flBusy = false → s.dev.counted.mailboxOp op =
      { s.dev.counted with bru := { s.dev.bru with flBusy := true, xspi := s.dev.bru.xspi ++ [x] } }) :
    (s.dev.bru.flBusy = true → DoesThen i s fun e => e = s.dev.counted) ∧
    (s.dev.bru.flBusy = false → DoesThen i s fun e =>
      e = { s.dev.counted with bru := { s.dev.bru with flBusy := true, xspi := s.dev.bru.xspi ++ [x] } }) := by
  have hrow : s.dev.counted.writeBruFw 0x30 (BitVec.ofNat 32 op).toNat = s.dev.counted.mailboxOp op := by
    rw [hop]
    exact congrArg s.dev.counted.mailboxOp h4
  have hdo := fun P => doesThen_bruRow i s p 0x30 (BitVec.ofNat 32 op) P hu hb hst he (by decide) (by decide) (by decide) (by decide)
    (by decide) (fun _ => by rw [hop]; exact h30)
  rw [hrow] at hdo
  exact ⟨fun hbusy => hdo _ (mailboxOp_busy (d := s.dev.counted) hbusy op), fun hidle => hdo _ (hx hidle)⟩

theorem mailboxOp_read (h : d.bru.flBusy = false) :
    d.mailboxOp 1 = { d with bru := { d.bru with flBusy := true, xspi := d.bru.xspi ++ [.read (d.bru.flAddr / 256 * 256)] } } := by
  unfold Dev.mailboxOp
  rw [h]
  rfl

theorem mailboxOp_program (h : d.bru.flBusy = false) : d.mailboxOp 2 = { d with bru := { d.bru with
    flBusy := true, xspi := d.bru.xspi ++ [.program (d.bru.flAddr / 256 * 256) d.bru.flData] } } := by
  unfold Dev.mailboxOp
  rw [h]
  rfl

theorem mailboxOp_erase (h : d.bru.flBusy = false) : d.mailboxOp 3 = { d with bru := { d.bru with
    flBusy := true, xspi := d.bru.xspi ++ [.erase (d.bru.flAddr / 256 * 256 / 65536 * 65536)] } } := by
  unfold Dev.mailboxOp
  rw [h]
  rfl

end

/-! The end of an operation. -/

section

variable {s : State} {a : Nat} {bytes : List Byte} {rest : List FlashOp}

theorem mailboxEnd_read (h : s.dev.bru.xspi = .read a :: rest) (ok : Bool) : s.mailboxEnd ok =
    { s.mailboxOver ok 256 with dev := { (s.mailboxOver ok 256).dev with bru := { (s.mailboxOver ok 256).dev.bru with
        flData := if ok then s.flashBytes a 256 else freeBytes s.dev.free 256 } } } := by
  unfold State.mailboxEnd
  rw [h]

theorem mailboxEnd_program (h : s.dev.bru.xspi = .program a bytes :: rest) (ok : Bool) : s.mailboxEnd ok =
    (s.setFlash a (if ok then Memory.program s.flash a bytes else Memory.writeBytes s.flash a (freeBytes s.dev.free 256))).mailboxOver ok 256 := by
  unfold State.mailboxEnd
  rw [h]

theorem mailboxEnd_erase (h : s.dev.bru.xspi = .erase a :: rest) (ok : Bool) : s.mailboxEnd ok =
    (s.setFlash a (if ok then Memory.erase s.flash a (a + 65536) else Memory.writeBytes s.flash a (freeBytes s.dev.free 65536))).mailboxOver
      ok 65536 := by
  unfold State.mailboxEnd
  rw [h]

end

/-- Settles O48: the mailbox asks for one operation at a time; its end reads, programs or erases the flash. -/
theorem mailboxOperations : Obligations.MailboxOperations := by
  unfold Obligations.MailboxOperations
  refine ⟨fun s p hu hb hst i hi => ?_, fun s a bytes rest hu hw hcopy => ?_⟩
  · simp only [List.mem_cons, List.not_mem_nil, or_false] at hi
    obtain rfl | rfl | rfl := hi
    · exact doesThen_mailbox hu hb hst rfl rfl rfl rfl (mailboxOp_read (d := s.dev.counted))
    · exact doesThen_mailbox hu hb hst rfl rfl rfl rfl (mailboxOp_program (d := s.dev.counted))
    · exact doesThen_mailbox hu hb hst rfl rfl rfl rfl (mailboxOp_erase (d := s.dev.counted))
  · have hrun : exec (.mailboxDone true) s = .next (s.mailboxEnd true) := s.runAll_up (fun s => s.mailboxEnd true) hu
    have hset : ∀ m, s.setFlash a m = { s with flash := m } := fun m => if_neg (by rw [hcopy]; exact Bool.false_ne_true)
    have hbytes : s.flashBytes a 256 = Memory.readBytes s.flash a 256 := if_neg (by rw [hcopy]; exact Bool.false_ne_true)
    have hok : (s.dev.bru.flErr || !true) = s.dev.bru.flErr := Bool.or_false _
    refine ⟨fun hx => ⟨_, hrun, ?_⟩, fun hx => ⟨_, hrun, ?_, fun x => ?_⟩, fun hx => ⟨_, hrun, ?_, fun x => ?_⟩⟩
    · rw [mailboxEnd_read hx, if_pos rfl, hbytes]
      exact ⟨⟨rfl, hok, congrArg (List.drop 1) hx, rfl, rfl⟩, rfl, rfl⟩
    · rw [mailboxEnd_program hx, if_pos rfl, hset]
      exact ⟨rfl, hok, congrArg (List.drop 1) hx, rfl, rfl⟩
    · rw [mailboxEnd_program hx, if_pos rfl, hset]
      exact Memory.read_program bytes s.flash a x hw
    · rw [mailboxEnd_erase hx, if_pos rfl, hset]
      exact ⟨rfl, hok, congrArg (List.drop 1) hx, rfl, rfl⟩
    · rw [mailboxEnd_erase hx, if_pos rfl, hset]
      exact Memory.read_erase s.flash a (a + 65536) x

/-! ### Reset and loss of supply (R729, R730, R732, R766, R914) -/

/-- What a controlled stop leaves. -/
theorem stop_spec (s : State) : s.stop.dev = s.dev.intoReset s.dev.bru.straps false ∧ s.stop.pending = s.pending := by
  obtain ⟨hdev, hpending⟩ := tear_dev s
  unfold State.stop
  dsimp only
  rw [hdev]
  exact ⟨rfl, hpending⟩

/-! ### The steps of bring-up (R765, R769, R770, R776, R780, R804) -/

/-- A step's report takes effect while no barn is tripped. -/
theorem does_report {s : State} {r : StepReport} {P : Dev → Prop} (hu : s.Up) (hp : P (s.stepReport r)) : Does (.bringupStepDone r) s P :=
  ⟨s.stepReport r, s.runAll_up (fun s => { s with dev := s.stepReport r }) hu, hp⟩

section

variable {s : State} (ht : (s.dev.barns.any fun b => b.2.tripped) = false)

include ht

theorem stepReport_straps (h : s.dev.bru.st = 1) (ms : Nat) : s.stepReport (.straps ms) = s.dev.stepStraps ms := by
  unfold State.stepReport
  dsimp only
  rw [ht, if_neg Bool.false_ne_true, h]
  rfl

theorem stepReport_fuses (h : s.dev.bru.st = 2) (ms : Nat) (u : Bool) : s.stepReport (.fuses ms u) = s.dev.stepFuses ms u := by
  unfold State.stepReport
  dsimp only
  rw [ht, if_neg Bool.false_ne_true, h]
  rfl

theorem stepReport_boot (h : s.dev.bru.st = 3) (ms : Nat) (o a b : Bool) (x y : Byte) :
    s.stepReport (.boot ms o a b x y) = s.dev.stepBoot ms o a b x y (Memory.readBytes s.flash 0x3FF0000 128) := by
  unfold State.stepReport
  dsimp only
  rw [ht, if_neg Bool.false_ne_true, h]
  rfl

theorem stepReport_check (h : s.dev.bru.st = 9) (ms : Nat) : s.stepReport (.check ms) = s.dev.stepCheck ms := by
  unfold State.stepReport
  dsimp only
  rw [ht, if_neg Bool.false_ne_true, h]
  rfl

end

/-- No image is good: FAILED with code 2 (R776). -/
theorem stepBoot_none {d : Dev} (h : d.bru.straps.boot ≠ 1) (ms : Nat) (o : Bool) (x y : Byte) (rec : List Byte) :
    d.stepBoot ms o false false x y rec = ({ d with bru := { d.bru with xspiMode := sfdpMode o } } : Dev).failed 2 := by
  have hnone : bootImage d.bru.straps.boot false false = none := by
    unfold bootImage
    split <;> rfl
  unfold Dev.stepBoot
  dsimp only
  rw [if_neg h, hnone]

/-- Image A boots: the blocks leave reset, and step 4 begins (R774, R776). -/
theorem stepBoot_first {d : Dev} (h : d.bru.straps.boot ≠ 1) (hst : d.bru.st = 3) (ms : Nat) (o : Bool) (x y : Byte) (rec : List Byte) :
    let e := d.stepBoot ms o true false x y rec
    e.bru.st = 4 ∧ e.glb.blocks = true ∧ e.bru.image = false ∧ e.bru.xspiMode = sfdpMode o := by
  have hsome : bootImage d.bru.straps.boot true false = some false := by
    unfold bootImage
    split <;> rfl
  unfold Dev.stepBoot
  dsimp only
  rw [if_neg h, hsome]
  have hheld : ∀ e : Dev, e.bru.st = 4 → e.glb.blocks = true → e.bru.image = false → e.bru.xspiMode = sfdpMode o →
      e.applyHeld.bru.st = 4 ∧ e.applyHeld.glb.blocks = true ∧ e.applyHeld.bru.image = false ∧ e.applyHeld.bru.xspiMode = sfdpMode o := by
    intro e h4 hblocks himage hmode
    obtain ⟨hglb, hst', _, himage', hmode'⟩ := applyHeld_keep e (by rw [h4]; decide)
    exact ⟨hst'.trans h4, by rw [hglb, hblocks], himage'.trans himage, hmode'.trans hmode⟩
  have h4 : d.bru.st + 1 = 4 := by rw [hst]
  dsimp only
  generalize (if recordOk rec = true then some rec else none) = r
  split
  · exact hheld _ h4 rfl rfl rfl
  · exact hheld _ h4 rfl rfl rfl

/-- The device once the check has made its report (R800). -/
def Dev.checked (d : Dev) (ms : Nat) : Dev := ({ d with bru := { d.bru with items := d.topoItems } } : Dev).stepOver ms

theorem stepCheck_eq (d : Dev) (ms : Nat) : d.stepCheck ms = if d.topoItems.any (fun w => w.getLsbD 0) then
    ({ d.checked ms with glb := { (d.checked ms).glb with degraded := true } } : Dev).msix 2 else (d.checked ms).enterReady := rfl

theorem enterReady_items (d : Dev) : d.enterReady.bru.items = d.bru.items := by
  unfold Dev.enterReady Dev.storeSoon
  dsimp only
  rw [(msix_frame _ 2).1]
  rfl

/-- Settles O49: a stop and the rising edge of RESET_N, the loss of supply, and the steps 1, 2, 3 and 9. -/
theorem resetAndBringup : Obligations.ResetAndBringup := by
  unfold Obligations.ResetAndBringup
  refine ⟨fun s hu => ?_, fun s straps hr ho => ?_, fun s => ?_, fun s ho => ?_, fun s ms hu ht =>
    ⟨fun hst => ?_, fun hst => ?_, fun hst => ?_, fun o x y hst hboot => ⟨?_, ?_⟩, fun hst => ⟨fun hok => ?_, fun hdeg => ?_⟩⟩⟩
  · obtain ⟨hdev, hpending⟩ := stop_spec s
    have hrun : exec .resetAssert s = .next s.stop := congrArg Host.Outcome.next (if_pos (by rw [show s.dev.glb.resetN = true from hu]; rfl))
    refine ⟨_, hrun, ?_⟩
    rw [hdev]
    exact ⟨rfl, rfl, rfl, rfl, rfl, rfl, rfl, rfl, rfl, rfl, rfl, hpending⟩
  · refine ⟨s.dev.intoReset straps true, ?_, rfl, rfl, rfl, rfl, rfl⟩
    change (if s.dev.glb.resetN then _ else if s.dev.glb.railOut then _ else _) = _
    rw [hr, ho]
    rfl
  · obtain ⟨hdev, hpending⟩ := stop_spec s
    refine ⟨_, rfl, ?_⟩
    dsimp only
    rw [hdev]
    exact ⟨rfl, rfl, rfl, rfl, hpending, fun hu => by rw [show s.dev.glb.resetN = true from hu]; rfl⟩
  · obtain ⟨hdev, _⟩ := stop_spec s
    have hrun : exec .resetAssert s = .next s.stop := congrArg Host.Outcome.next (if_pos (by rw [ho, Bool.or_true]))
    refine ⟨_, hrun, ?_⟩
    rw [hdev]
    exact ⟨rfl, rfl⟩
  · refine does_report hu ?_
    rw [stepReport_straps ht hst]
    exact ⟨congrArg (· + 1) hst, rfl, rfl, rfl, rfl⟩
  · refine does_report hu ?_
    rw [stepReport_fuses ht hst]
    exact ⟨congrArg (· + 1) hst, rfl, rfl, rfl⟩
  · refine does_report hu ?_
    rw [stepReport_fuses ht hst]
    exact failed_spec s.dev 1
  · refine does_report hu ?_
    rw [stepReport_boot ht hst, stepBoot_none hboot]
    obtain ⟨h12, hcode, _⟩ := failed_spec ({ s.dev with bru := { s.dev.bru with xspiMode := sfdpMode o } } : Dev) 2
    exact ⟨h12, hcode⟩
  · refine does_report hu ?_
    rw [stepReport_boot ht hst]
    exact stepBoot_first hboot hst ..
  · refine does_report hu ?_
    rw [stepReport_check ht hst, stepCheck_eq, hok, if_neg Bool.false_ne_true]
    obtain ⟨h11, hready, _⟩ := enterReady_spec (s.dev.checked ms)
    exact ⟨h11, hready, enterReady_items _⟩
  · refine does_report hu ?_
    rw [stepReport_check ht hst, stepCheck_eq, hdeg, if_pos rfl]
    obtain ⟨hbru, hglb, _⟩ := msix_frame { s.dev.checked ms with glb := { (s.dev.checked ms).glb with degraded := true } } 2
    rw [hbru, hglb]
    exact ⟨congrArg (· + 1) hst, rfl, rfl, rfl⟩

end Sys2Proof.Machine
end

section
namespace Sys2Proof.Machine

open Sys2Proof

/-! O52: Pliop frames. A READ reads one register, which takes no yard time, and its answer then leaves; a WRITE is the register row itself. -/

/-- Both answers of a choice keep the time, so it does. -/
theorem ite_now {c : Prop} [Decidable c] {a b : RegOut} {t : Nat} (ha : a.2.now = t) (hb : b.2.now = t) : (if c then a else b).2.now = t := by
  split
  · exact ha
  · exact hb

theorem groupRead_now (d : Dev) (p : Path) (base : Nat) (b : List Byte) : (d.groupRead p base b).2.now = d.now := by
  obtain ⟨e, he, hframe, _⟩ := groupRead_spec d p base b
  rw [he, hframe]

theorem readGlb_now (d : Dev) (o : Nat) : (d.readGlb o).2.now = d.now := by
  unfold Dev.readGlb
  split <;> rfl

theorem readClk_now (d : Dev) (p : Path) (o : Nat) : (d.readClk p o).2.now = d.now := by
  unfold Dev.readClk
  split <;> rfl

theorem readPwr_now (d : Dev) (p : Path) (o : Nat) : (d.readPwr p o).2.now = d.now := by
  unfold Dev.readPwr
  repeat' split
  all_goals rfl

theorem readPlp_now (d : Dev) (o : Nat) : (d.readPlp o).2.now = d.now := by
  unfold Dev.readPlp
  split <;> rfl

theorem readSession_now (d : Dev) (p : Path) (s o : Nat) : (d.readSession p s o).2.now = d.now := by
  unfold Dev.readSession
  repeat' split
  all_goals rfl

theorem readSes_now (d : Dev) (p : Path) (o : Nat) : (d.readSes p o).2.now = d.now := by
  unfold Dev.readSes
  split
  case h_6 => exact ite_now (readSession_now ..) rfl
  all_goals rfl

theorem readArbSes_now (d : Dev) (p : Path) (s o : Nat) : (d.readArbSes p s o).2.now = d.now := by
  unfold Dev.readArbSes
  repeat' split
  all_goals rfl

theorem readArb_now (d : Dev) (p : Path) (o : Nat) : (d.readArb p o).2.now = d.now := by
  unfold Dev.readArb
  split
  case h_11 => exact ite_now (readArbSes_now ..) rfl
  all_goals rfl

theorem readTth_now (d : Dev) (p : Path) (o : Nat) : (d.readTth p o).2.now = d.now := by
  unfold Dev.readTth
  repeat' split
  all_goals rfl

theorem readChk_now (d : Dev) (o : Nat) : (d.readChk o).2.now = d.now := by
  unfold Dev.readChk
  repeat' split
  all_goals rfl

theorem readShd_now (d : Dev) (p : Path) (o : Nat) : (d.readShd p o).2.now = d.now := by
  unfold Dev.readShd
  repeat' split
  all_goals rfl

theorem readFab_now (d : Dev) (p : Path) (o : Nat) : (d.readFab p o).2.now = d.now := by
  unfold Dev.readFab
  repeat' split
  all_goals rfl

theorem readBru_now (d : Dev) (p : Path) (o : Nat) : (d.readBru p o).2.now = d.now := by
  unfold Dev.readBru
  dsimp only
  repeat' split
  all_goals rfl

theorem readWmk_now (d : Dev) (p : Path) (o : Nat) : (d.readWmk p o).2.now = d.now := by
  unfold Dev.readWmk
  split
  case h_4 => exact groupRead_now ..
  case h_5 => exact ite_now rfl (ite_now rfl rfl)
  all_goals rfl

theorem readLnk_now (d : Dev) (p : Path) (n o : Nat) : (d.readLnk p n o).2.now = d.now := by
  unfold Dev.readLnk
  repeat' split
  all_goals rfl

theorem readLnkc_now (d : Dev) (o : Nat) : (d.readLnkc o).2.now = d.now := by
  unfold Dev.readLnkc
  repeat' split
  all_goals rfl

theorem readBrn_now (d : Dev) (p : Path) (b o : Nat) : (d.readBrn p b o).2.now = d.now := by
  unfold Dev.readBrn
  repeat' split
  all_goals rfl

theorem readStl_now (d : Dev) (p : Path) (s o : Nat) : (d.readStl p s o).2.now = d.now := by
  unfold Dev.readStl
  dsimp only
  split
  · rfl
  split
  case h_13 => exact groupRead_now ..
  case h_20 => exact ite_now rfl (ite_now rfl rfl)
  all_goals rfl

theorem readSlm_now (d : Dev) (b u o : Nat) : (d.readSlm b u o).2.now = d.now := by
  unfold Dev.readSlm
  repeat' split
  all_goals rfl

theorem readPdk_now (d : Dev) (p : Path) (id o : Nat) : (d.readPdk p id o).2.now = d.now := by
  unfold Dev.readPdk
  dsimp only
  repeat' split
  all_goals rfl

theorem readBlock_now (d : Dev) (p : Path) (off : Nat) : (d.readBlock p off).2.now = d.now :=
  ite_now (readGlb_now ..) <| ite_now (readClk_now ..) <| ite_now (readPwr_now ..) <| ite_now (readPlp_now ..) <|
  ite_now (readSes_now ..) <| ite_now (readArb_now ..) <| ite_now (readTth_now ..) <| ite_now (readChk_now ..) <|
  ite_now (readShd_now ..) <| ite_now (readFab_now ..) <| ite_now (readBru_now ..) <| ite_now (readWmk_now ..) <|
  ite_now rfl <| ite_now rfl <| ite_now rfl <| ite_now (readLnk_now ..) <| ite_now (readLnkc_now ..) <| ite_now rfl <|
  ite_now (ite_now (readBrn_now ..) <| ite_now (readStl_now ..) <| ite_now (readSlm_now ..) rfl) <|
  ite_now rfl <| ite_now (readPdk_now ..) rfl

/-- Reading a register takes no yard time. -/
theorem regRead_sameNow (d : Dev) (p : Path) (off : Nat) : (d.regRead p off).2.now = d.now := by
  unfold Dev.regRead
  split
  · rfl
  · exact readBlock_now ..

/-- A frame that is sent on carries one more hop, and the output is busy for 8,160 ns. -/
theorem pliopSend_sent (d : Dev) (b : List Byte) :
    (d.pliopSend b).out = d.out ++ [.pliop (pliopSeal (hopUp b))] ∧ (d.pliopSend b).plp.lastOut = d.now + 8160 := ⟨rfl, rfl⟩

theorem pliopEnum_taken (d : Dev) (f : List Byte) (h1 : 1 ≤ fieldAt f 4 1) (h2 : fieldAt f 4 1 ≤ 254) : d.pliopEnum f =
    ({ d with plp := { d.plp with addr := fieldAt f 4 1 } } : Dev).pliopSend (splice f 4 [BitVec.ofNat 8 (fieldAt f 4 1 + 1)]) := by
  unfold Dev.pliopEnum
  exact if_pos ⟨h1, h2⟩

theorem pliopEnum_none (d : Dev) (f : List Byte) (h : fieldAt f 4 1 = 0 ∨ fieldAt f 4 1 = 255) : d.pliopEnum f =
    ({ d with plp := { d.plp with addr := 0 } } : Dev).pliopSend f := by
  unfold Dev.pliopEnum
  exact if_neg (by omega)

theorem pliopRead_ok (d : Dev) (f : List Byte) (h : offsetOk (fieldAt f 4 4) = true) : d.pliopRead f =
    (d.regRead .pliop (fieldAt f 4 4)).2.countAcc.pliopSend (pliopRsp f 4 d.plp.addr (d.regRead .pliop (fieldAt f 4 4)).1.toNat 0) := by
  unfold Dev.pliopRead
  exact if_pos h

theorem pliopRead_no (d : Dev) (f : List Byte) (h : offsetOk (fieldAt f 4 4) = false) : d.pliopRead f = d.pliopSend (pliopRsp f 4 d.plp.addr 0 1) := by
  unfold Dev.pliopRead
  exact if_neg (by rw [h]; decide)

/-- What a write of GLB_SCRATCH0 over the chain leaves in a device in which nothing waits. -/
theorem writeRow_scratch_glb (d : Dev) (f : List Byte) (k : PliopKind) (w : Word) (hb : d.glb.blocks = true) (hq : d.Quiet) :
    ((d.pliopCount f k).writeRow .pliop 0x20 w).glb = { d.counted.glb with scratch0 := w } := by
  have hrow : (d.pliopCount f k).writeRow .pliop 0x20 w = ((d.pliopCount f k).counted.writeBlock .pliop 0x20 w).letGo := by
    unfold Dev.writeRow
    rw [if_pos (by decide), regWrite_eq (d.pliopCount f k) .pliop 0x20 w hb]
    rfl
  rw [hrow, quietLetsNothingGo ((d.pliopCount f k).counted.writeBlock .pliop 0x20 w) hq]
  rfl

/-- Settles O52: one equation per frame type for what arrives, and one for what then leaves. -/
theorem pliopChain : Obligations.PliopChain := by
  unfold Obligations.PliopChain
  refine ⟨fun s f hu hrel => ?_, fun s n down hu hnext hrel haddr hidle => ?_, fun s hu => s.run_up (fun d => { d with plp := { d.plp with released := true } }) hu⟩
  · dsimp only
    refine ⟨fun hk => ?_, fun hk => ?_, fun hk => ?_, fun hk => ?_, fun hk => ?_, fun hk => ?_⟩
    · refine does_run _ s (fun d => d.pliopIn [.enum] f) _ hu rfl ?_
      rw [pliopIn_enum s.dev f hrel hk]
      refine ⟨fun h1 h2 => ?_, fun h => ?_⟩
      · rw [pliopEnum_taken _ f h1 h2]
        exact ⟨rfl, pliopSend_sent _ _⟩
      · rw [pliopEnum_none _ f h]
        exact ⟨rfl, pliopSend_sent _ _⟩
    · refine does_run _ s (fun d => d.pliopIn [.read] f) _ hu rfl ?_
      rw [pliopIn_read s.dev f hrel hk]
      refine ⟨fun hoff => ?_, fun hoff => ?_⟩
      · rw [pliopRead_ok _ f hoff]
        refine ⟨⟨rfl, ?_⟩, rfl⟩
        exact congrArg (· + 8160) (regRead_sameNow _ _ _)
      · rw [pliopRead_no _ f hoff]
        exact ⟨pliopSend_sent _ _, rfl⟩
    · refine does_run _ s (fun d => d.pliopIn [.write] f) _ hu rfl ?_
      rw [pliopIn_write s.dev f hrel hk]
      refine ⟨fun hoff => ?_, fun hoff hb hq => ?_, fun hoff => ?_⟩
      · rw [pliopWrite_ok _ f hoff]
        rfl
      · rw [pliopWrite_ok _ f (by rw [hoff]; decide), pliopSend_glb, hoff]
        exact writeRow_scratch_glb s.dev f _ _ hb hq
      · rw [pliopWrite_no _ f hoff]
        exact ⟨pliopSend_sent _ _, rfl⟩
    · refine does_run _ s (fun d => d.pliopIn [.broadcast] f) _ hu rfl ?_
      rw [pliopIn_broadcast s.dev f hrel hk]
      refine ⟨fun hoff => ?_, fun hoff hb hq => ?_, fun hoff => ?_⟩
      · rw [pliopBroadcast_ok _ f hoff]
        rfl
      · rw [pliopBroadcast_ok _ f (by rw [hoff]; decide), pliopSend_glb, hoff]
        exact writeRow_scratch_glb s.dev f _ _ hb hq
      · rw [pliopBroadcast_no _ f hoff]
        exact ⟨pliopSend_sent _ _, rfl⟩
    · refine does_run _ s (fun d => d.pliopIn [.pass, .bad] f) _ hu rfl ?_
      rw [pliopIn_pass s.dev f hrel hk]
      exact ⟨pliopSend_sent _ _, rfl⟩
    · refine does_run _ s (fun d => d.pliopIn [.pass, .bad] f) _ hu rfl ?_
      rw [pliopIn_bad s.dev f hrel hk, hk]
      exact ⟨rfl, rfl⟩
  · refine does_run _ s Dev.pliopNotice _ hu rfl ?_
    have hsent : (!s.dev.plp.released || s.dev.plp.addr == 0 || !s.dev.pliopIdle) = false := by simp [hrel, haddr, hidle]
    unfold Dev.pliopNotice
    dsimp only
    rw [hnext]
    dsimp only
    rw [hsent, if_neg Bool.false_ne_true]
    refine ⟨rfl, rfl, fun hdown => ?_, fun hup => ?_, rfl⟩
    · subst hdown
      exact ⟨fun hm => by simpa using (List.mem_filter.1 hm).2, rfl⟩
    · subst hup
      exact ⟨fun hm => by simpa using (List.mem_filter.1 hm).2, rfl⟩

end Sys2Proof.Machine
end

section
namespace Sys2Proof.Machine

open Sys2Proof

/-! O53: the PCIe endpoint. A loss of the link fails the reads of PCIe sessions one by one; `LosesReads` is what one failure leaves, and
what any number of them leaves. -/

/-- `e` is `d` after the loss of some reads: reads have only gone, and clocks, endpoint, links and stalls are as before. -/
structure LosesReads (d e : Dev) : Prop where
  clk : e.clk = d.clk
  pcie : e.pcie = d.pcie
  links : e.links = d.links
  stalls : e.stalls = d.stalls
  sesPcie : ∀ n, (e.ses n).pcie = (d.ses n).pcie
  reads : ∀ r ∈ e.reads, r ∈ d.reads

theorem LosesReads.refl (d : Dev) : LosesReads d d := ⟨rfl, rfl, rfl, rfl, fun _ => rfl, fun _ h => h⟩

theorem LosesReads.trans {a b c : Dev} (h : LosesReads a b) (k : LosesReads b c) : LosesReads a c :=
  ⟨k.clk.trans h.clk, k.pcie.trans h.pcie, k.links.trans h.links, k.stalls.trans h.stalls, fun n => (k.sesPcie n).trans (h.sesPcie n),
    fun r hr => h.reads r (k.reads r hr)⟩

theorem countLost_losesReads (d : Dev) (n : Nat) : LosesReads d (d.countLost n) := by
  refine ⟨rfl, rfl, rfl, rfl, fun m => ?_, fun _ h => h⟩
  unfold Dev.countLost
  rw [Dev.ses_updSes]
  split
  · rename_i h
    rw [h]
  · rfl

theorem qpError_losesReads (d : Dev) (q code : Nat) : LosesReads d (d.qpError q code) := ⟨rfl, rfl, rfl, rfl, fun _ => rfl, fun _ h => h⟩

theorem ringFailed_losesReads (d : Dev) (q : Nat) : LosesReads d (d.ringFailed q) := by
  unfold Dev.ringFailed
  split
  · exact qpError_losesReads d q 4
  · exact LosesReads.refl d

theorem abort_losesReads (d : Dev) (c st : Nat) : LosesReads d (d.abort c st) := by
  obtain ⟨_, _, hframe, _⟩ := d.abort_frame c st
  rw [hframe]
  exact ⟨rfl, rfl, rfl, rfl, fun _ => rfl, fun _ hr => (List.mem_filter.1 hr).1⟩

/-- A failed read is gone, and with it every read of its TAG. -/
theorem failRead_losesReads (d : Dev) (r : OutRead) : LosesReads (d.readGone r) (d.failRead r) := by
  unfold Dev.failRead
  dsimp only
  split
  · split
    · exact qpError_losesReads _ _ _
    · exact LosesReads.refl _
  · exact ringFailed_losesReads _ _
  · exact ringFailed_losesReads _ _
  · exact (ringFailed_losesReads _ _).trans (abort_losesReads _ _ _)
  · exact abort_losesReads _ _ _
  · exact abort_losesReads _ _ _

theorem readGone_losesReads (d : Dev) (r : OutRead) : LosesReads d (d.readGone r) :=
  ⟨rfl, rfl, rfl, rfl, fun _ => rfl, fun _ hr => (List.mem_filter.1 hr).1⟩

theorem failReads_losesReads (l : List OutRead) (d : Dev) :
    LosesReads d (l.foldl Dev.failRead d) ∧ ∀ x ∈ (l.foldl Dev.failRead d).reads, ∀ r ∈ l, x.tag ≠ r.tag := by
  induction l generalizing d with
  | nil => exact ⟨LosesReads.refl d, fun _ _ r hr => nomatch hr⟩
  | cons r l ih =>
    obtain ⟨hrest, hgone⟩ := ih (d.failRead r)
    have hone := failRead_losesReads d r
    refine ⟨((readGone_losesReads d r).trans hone).trans hrest, fun x hx y hy => ?_⟩
    rcases List.mem_cons.1 hy with rfl | hy
    · have hkept := (List.mem_filter.1 (hone.reads x (hrest.reads x hx))).2
      simpa using hkept
    · exact hgone x hx y hy

theorem countsLost_losesReads (l : List Nat) (d : Dev) : LosesReads d (l.foldl Dev.countLost d) := by
  induction l generalizing d with
  | nil => exact LosesReads.refl d
  | cons n l ih => exact (countLost_losesReads d n).trans (ih _)

/-- The endpoint once its link is down (R830, R831). -/
def Pcie.lost (x : Pcie) : Pcie := { x with up := false, busMaster := false, waiting := [], pendingVec := [] }

/-- The loss of the link: what waited is dropped, and no read of a PCIe session is left. -/
theorem pcieDown_spec {d : Dev} (hup : d.pcie.up = true) :
    LosesReads { d with pcie := d.pcie.lost } d.pcieDown ∧ ∀ r ∈ d.pcieDown.reads, (d.ses r.ses).pcie = false := by
  obtain ⟨m, hm, hdown⟩ : ∃ m : Dev, LosesReads { d with pcie := d.pcie.lost } m ∧
      d.pcieDown = (m.reads.filter fun r => (m.ses r.ses).pcie).foldl Dev.failRead m := by
    refine ⟨_, countsLost_losesReads (d.pcie.waiting.filterMap d.entrySes) _, ?_⟩
    unfold Dev.pcieDown
    rw [hup]
    rfl
  obtain ⟨hlost, hgone⟩ := failReads_losesReads (m.reads.filter fun r => (m.ses r.ses).pcie) m
  rw [hdown]
  refine ⟨hm.trans hlost, fun r hr => ?_⟩
  have hses : (m.ses r.ses).pcie = (d.ses r.ses).pcie := hm.sesPcie r.ses
  rw [← hses]
  cases hp : (m.ses r.ses).pcie with
  | false => rfl
  | true => exact absurd rfl (hgone r hr r (List.mem_filter.2 ⟨hlost.reads r hr, hp⟩))

/-- What the statement says of the loss of the link, where the device before it is `d` up to the endpoint and the clocks. -/
theorem pcieDown_lost {d : Dev} (hup : d.pcie.up = true) :
    d.pcieDown.clk = d.clk ∧ d.pcieDown.pcie.up = false ∧ d.pcieDown.pcie.busMaster = false ∧ d.pcieDown.pcie.waiting = [] ∧
    d.pcieDown.pcie.pendingVec = [] ∧ (∀ r ∈ d.pcieDown.reads, (d.ses r.ses).pcie = false) ∧ d.pcieDown.stalls = d.stalls ∧
    d.pcieDown.links = d.links := by
  obtain ⟨h, hreads⟩ := pcieDown_spec hup
  refine ⟨h.clk, ?_, ?_, ?_, ?_, hreads, h.stalls, h.links⟩
  all_goals rw [h.pcie]; rfl

/-- PECLK has lost lock (R721). -/
def Dev.peclkGone (d : Dev) : Dev := { d with clk := { d.clk with peclk := false, lossPe := true } }

theorem busOn_eq {d : Dev} (hup : d.pcie.up = true) (hbm : d.pcie.busMaster = false) : d.busOn =
    { d with pcie := { d.pcie with busMaster := true, waiting := [], pendingVec := [] },
             out := d.out ++ d.pcie.waiting.map .pcie ++ d.pcie.pendingVec.map fun v => .pcie (.msix v) } := by
  unfold Dev.busOn
  rw [hup, hbm]
  rw [if_neg (by decide)]
  dsimp only
  rw [foldl_emit (fun _ o => .pcie o) (fun _ _ _ => rfl), foldl_emit (fun _ v => .pcie (.msix v)) (fun _ _ _ => rfl)]
  rfl

theorem pcieUp_stays {d : Dev} (h : d.bru.straps.pexEn = false ∨ d.bru.st < 3 ∨ d.pcie.perst = true) : d.pcieUp = d := by
  unfold Dev.pcieUp
  refine if_pos ?_
  rcases h with h | h | h <;> simp [h]

theorem pcieUp_comes {d : Dev} (hup : d.pcie.up = false) (hpex : d.bru.straps.pexEn = true) (hst : 3 ≤ d.bru.st) (hperst : d.pcie.perst = false) :
    d.pcieUp = { d with pcie := { d.pcie with up := true, busMaster := false }, clk := { d.clk with peclk := true } } := by
  unfold Dev.pcieUp
  exact if_neg (by simp [hup, hpex, hperst, Nat.not_lt.2 hst])

theorem failRead_context {d : Dev} {r : OutRead} {q : Nat} (hw : r.what = .context q) (hst : (d.qp q).st = .idle) (hen : (d.qp q).enable = true) :
    d.failRead r = (d.readGone r).qpError q 1 := by
  unfold Dev.failRead
  dsimp only
  rw [hw]
  exact if_pos ⟨hst, hen⟩

/-- Settles O53: link up and bus mastering are one update each; every loss of the link is `pcieDown`; a completion answers its READ. -/
theorem pcieEndpoint : Obligations.PcieEndpoint := by
  unfold Obligations.PcieEndpoint
  refine ⟨fun s hu hdown => ⟨fun hpex hst hperst => ?_, fun h => ?_⟩, fun s hu hup => ⟨fun hbm => ?_, ?_, fun i hi => ?_, fun hpe => ?_⟩,
    fun s hu => s.run_up (fun d => { d with pcie := { d.pcie with perst := false } }) hu, fun s tag q b r hu hr hw hst hen => ⟨fun hlen hok => ?_, ?_⟩⟩
  · refine (s.run_up Dev.pcieUp hu).trans ?_
    rw [pcieUp_comes hdown hpex hst hperst]
    rfl
  · refine (s.run_up Dev.pcieUp hu).trans ?_
    rw [pcieUp_stays h]
  · refine (s.run_up Dev.busOn hu).trans ?_
    rw [busOn_eq hup hbm]
    rfl
  · exact s.run_up (fun d => { d with pcie := { d.pcie with busMaster := false } }) hu
  · rcases List.mem_pair.1 hi with rfl | rfl
    · refine doesThen_run _ s (fun d => d.pcieDown.letGo) (fun d => d.pcieDown) _ hu rfl rfl ?_
      exact (pcieDown_lost hup).2
    · refine doesThen_run _ s (fun d => ({ d with pcie := { d.pcie with perst := true } } : Dev).pcieDown.letGo)
        (fun d => ({ d with pcie := { d.pcie with perst := true } } : Dev).pcieDown) _ hu rfl rfl ?_
      exact (pcieDown_lost (d := { s.dev with pcie := { s.dev.pcie with perst := true } }) hup).2
  · refine doesThen_run _ s (fun d => if !d.clk.peclk then d else d.peclkGone.pcieDown.letGo) (fun d => d.peclkGone.pcieDown) _ hu rfl
      (if_neg (by rw [hpe]; decide)) ?_
    obtain ⟨hclk, hup', _, _, _, hreads, _⟩ := pcieDown_lost (d := s.dev.peclkGone) hup
    exact ⟨hclk, hup', hreads⟩
  · refine does_run _ s (fun d => d.pcieReadIn tag true b) _ hu rfl ?_
    have hin : s.dev.pcieReadIn tag true b = (s.dev.readGone r).contextIn q b := by
      unfold Dev.pcieReadIn
      rw [hr]
      exact (if_pos hlen).trans (answerRead_context hw b)
    obtain ⟨hframe, _, hactive, _⟩ := contextIn_spec (s.dev.readGone r) q b hst hen
    rw [hin]
    refine ⟨(hactive hok).1, ?_⟩
    rw [hframe]
    rfl
  · refine does_run _ s (fun d => d.pcieReadIn tag false b) _ hu rfl ?_
    have hin : s.dev.pcieReadIn tag false b = (s.dev.readGone r).qpError q 1 := by
      unfold Dev.pcieReadIn
      rw [hr]
      exact failRead_context hw hst hen
    rw [hin]
    unfold Dev.qpError
    rw [Dev.updQp_self]
    exact ⟨rfl, rfl⟩

end Sys2Proof.Machine
end

section
namespace Sys2Proof.Machine

open Sys2Proof

/-! O55: the estimator and the governor are one update each; a floor PLL that loses lock is recorded before the barn's commands end, and
their end touches neither the clocks nor the event queue. -/

/-- `e` is `d` with commands of a barn ended: what the clock monitor keeps is as before. -/
structure MonitorKept (d e : Dev) : Prop where
  clk : e.clk = d.clk
  evq : e.evq = d.evq
  sclk : ∀ b, (e.barn b).sclkLost = (d.barn b).sclkLost
  dclk : ∀ b, (e.barn b).dclkLost = (d.barn b).dclkLost

theorem MonitorKept.refl (d : Dev) : MonitorKept d d := ⟨rfl, rfl, fun _ => rfl, fun _ => rfl⟩

theorem MonitorKept.trans {a b c : Dev} (h : MonitorKept a b) (k : MonitorKept b c) : MonitorKept a c :=
  ⟨k.clk.trans h.clk, k.evq.trans h.evq, fun n => (k.sclk n).trans (h.sclk n), fun n => (k.dclk n).trans (h.dclk n)⟩

theorem abort_monitorKept (d : Dev) (c st : Nat) : MonitorKept d (d.abort c st) := by
  obtain ⟨_, _, hframe, hbarn, _⟩ := d.abort_frame c st
  refine ⟨?_, ?_, fun b => ?_, fun b => ?_⟩
  · rw [hframe]
  · rw [hframe]
  · rw [hbarn]
  · rw [hbarn]

theorem tripCmd_monitorKept (d : Dev) (b : Nat) (c : Cmd) : MonitorKept d (d.tripCmd b c) := by
  unfold Dev.tripCmd
  split
  · exact MonitorKept.refl d
  · split
    · exact abort_monitorKept d c.id _
    · exact MonitorKept.refl d

theorem stopCommands_monitorKept (d : Dev) (b : Nat) : MonitorKept d (d.stopCommands b) := by
  unfold Dev.stopCommands
  generalize d.cmds = l
  induction l generalizing d with
  | nil => exact MonitorKept.refl d
  | cons c l ih => exact (tripCmd_monitorKept d b c).trans (ih _)

/-- The clock monitor once a floor PLL of barn b has lost lock (CLK_LOSS). -/
def Clk.floorLost (x : Clk) (b : Nat) (dclk : Bool) : Clk :=
  if dclk then { x with lossD := x.lossD.set b true, dclk := x.dclk.set b false }
  else { x with lossS := x.lossS.set b true, sclk := x.sclk.set b false }

/-- The loss is recorded: monitor, event and barn. -/
def Dev.floorLost (d : Dev) (b : Nat) (dclk : Bool) : Dev :=
  (({ d with clk := d.clk.floorLost b dclk } : Dev).event Ev.clkUnlock.code 0x0004 (d.clk.floorLost b dclk).loss 0 0).updBarn b fun x =>
    if dclk then { x with dclkLost := true } else { x with sclkLost := true }

theorem floorUnlock_monitorKept {d : Dev} {b : Nat} {dclk : Bool} (hb : b < 4)
    (h : (if dclk then (d.barn b).dclkLost else (d.barn b).sclkLost) = false) : MonitorKept (d.floorLost b dclk) (d.floorUnlock b dclk) := by
  have hgo : ¬ (4 ≤ b ∨ (if dclk then (d.barn b).dclkLost else (d.barn b).sclkLost) = true) := by simp [h, Nat.not_le.2 hb]
  obtain ⟨was, hop⟩ : ∃ was : Bool, d.floorUnlock b dclk = if was then d.floorLost b dclk else (d.floorLost b dclk).stopCommands b :=
    ⟨_, if_neg hgo⟩
  rw [hop]
  cases was with
  | true => exact MonitorKept.refl _
  | false => exact stopCommands_monitorKept _ b

/-- The barn of a lost floor PLL. -/
theorem floorLost_barn (d : Dev) (b : Nat) (dclk : Bool) : (d.floorLost b dclk).barn b =
    if dclk then { d.barn b with dclkLost := true } else { d.barn b with sclkLost := true } := by
  unfold Dev.floorLost
  rw [Dev.updBarn_self]
  rfl

/-- A PLL's loss of lock stages EV_CLK_UNLOCK, with CLK_LOSS in its first word. -/
theorem event_clkUnlock (d : Dev) (w : Nat) : ∃ v ∈ (d.event Ev.clkUnlock.code 0x0004 w 0 0).evq.staged, v.code = 0x0011 ∧ v.d0 = w :=
  ⟨_, List.mem_append_right _ (List.mem_singleton_self _), rfl, rfl⟩

theorem nclkUnlock_eq {d : Dev} (h : d.shd.nclkLost = false) : d.nclkUnlock =
    ({ d with clk := { d.clk with lossN := true, nclk := false }, shd := { d.shd with nclkLost := true } } : Dev).event
      Ev.clkUnlock.code 0x0004 ({ d.clk with lossN := true, nclk := false } : Clk).loss 0 0 := by
  unfold Dev.nclkUnlock
  exact if_neg (by rw [h]; decide)

theorem estimateOp_stays {d : Dev} (h : d.ytRun = false ∨ d.now < d.pwr.estAt + 10000) : d.estimateOp = d := by
  unfold Dev.estimateOp
  refine if_pos ?_
  rcases h with h | h <;> simp [h]

theorem writeBlock_measSel (d : Dev) (p : Path) (w : Word) : d.writeBlock p 0x10010 w = d.measSel w.toNat := rfl

theorem measDone_stays {d : Dev} (h : d.clk.measuring = false ∨ d.now < d.clk.measAt + 1000000) (seen : Nat) : d.measDone seen = d := by
  unfold Dev.measDone
  refine if_neg ?_
  rcases h with h | h
  · simp [h]
  · simp [Nat.not_le.2 h]

theorem measDone_done {d : Dev} (hm : d.clk.measuring = true) (h : d.clk.measAt + 1000000 ≤ d.now) (seen : Nat) :
    d.measDone seen = { d with clk := { d.clk with measuring := false, done := true, khz := d.domainKhz d.clk.sel seen } } := by
  unfold Dev.measDone
  exact if_pos (by simp [hm, h])

/-- Settles O55: the estimator, the governor, the PLLs and the clock measurement, an equation each. -/
theorem powerAndClocks : Obligations.PowerAndClocks := by
  unfold Obligations.PowerAndClocks
  intro s hu
  refine ⟨fun hrun hat => ?_, fun h => ?_, ?_, fun b dclk hb hlocked => ?_, fun hlocked => ?_, fun p sel hblocks => ?_, fun seen => ⟨fun hm hat => ?_, fun h => ?_⟩⟩
  · refine does_run _ s Dev.estimateOp _ hu rfl ?_
    unfold Dev.estimateOp
    dsimp only
    rw [if_neg (by simp [hrun, Nat.not_lt.2 hat])]
    exact ⟨rfl, rfl⟩
  · refine (s.run_up Dev.estimateOp hu).trans ?_
    rw [estimateOp_stays h]
  · refine (s.run_up Dev.governorLowerOp hu).trans ?_
    unfold Dev.governorLowerOp
    split <;> rfl
  · refine does_run _ s (fun d => d.floorUnlock b dclk) _ hu rfl ?_
    have hkept := floorUnlock_monitorKept hb hlocked
    generalize s.dev.floorUnlock b dclk = e at hkept
    refine ⟨fun hd => ?_, fun hs => ?_, ?_⟩
    · subst hd
      rw [hkept.dclk, hkept.clk, floorLost_barn]
      exact ⟨rfl, rfl⟩
    · subst hs
      rw [hkept.sclk, hkept.clk, floorLost_barn]
      exact ⟨rfl, rfl⟩
    · rw [hkept.clk, hkept.evq]
      exact event_clkUnlock _ _
  · refine does_run _ s Dev.nclkUnlock _ hu rfl ?_
    rw [nclkUnlock_eq hlocked]
    exact ⟨rfl, rfl, event_clkUnlock _ _, rfl⟩
  · refine writeReg_then _ s p 0x10010 (sel % 64) _ hu hblocks rfl (by decide) ?_
    have hsel : bits (BitVec.ofNat 32 (sel % 64)).toNat 0 6 = sel % 64 := by
      rw [BitVec.toNat_ofNat]
      unfold bits
      omega
    rw [writeBlock_measSel]
    unfold Dev.measSel
    rw [hsel]
    rfl
  · refine does_run _ s (fun d => d.measDone seen) _ hu rfl ?_
    rw [measDone_done hm hat]
    refine ⟨rfl, fun h => ?_, fun h => ?_⟩
    · change s.dev.domainKhz s.dev.clk.sel seen = 100000
      rw [h]
      rfl
    · change s.dev.domainKhz s.dev.clk.sel seen = 25000
      rw [h]
      rfl
  · refine (s.run_up (fun d => d.measDone seen) hu).trans ?_
    rw [measDone_stays h]

end Sys2Proof.Machine
end

section
namespace Sys2Proof.Machine

open Sys2Proof

/-! O56: a groomer run that finds no error counts as done, and what then begins or ends is the catch-up of that stall alone. -/

/-- The start or end of a catch-up changes a flag of its own stall. -/
theorem catchupStall_spec (d : Dev) (s : Nat) :
    d.catchupStall s = { d with stalls := (d.catchupStall s).stalls } ∧ (∀ m, m ≠ s → (d.catchupStall s).stall m = d.stall m) ∧
    ((d.catchupStall s).stall s).grmDone = (d.stall s).grmDone := by
  unfold Dev.catchupStall
  dsimp only
  split
  · exact ⟨rfl, fun m hm => d.updStall_other s _ m hm, by rw [Dev.updStall_self]⟩
  · split
    · exact ⟨rfl, fun m hm => d.updStall_other s _ m hm, by rw [Dev.updStall_self]⟩
    · exact ⟨rfl, fun _ _ => rfl, rfl⟩

/-- A due run in which nothing is found is counted (R672, R675). -/
theorem groomerRunOp_clean {d : Dev} {n k : Nat} {fs : List Finding} (ha : d.stallAvail n = true) (hs : d.barnStopped (n / 64) = false)
    (hk : k < 16) (hdue : ((d.groomTick (n / 64)).stall n).grmDone.getD k 0 < ((d.groomTick (n / 64)).barn (n / 64)).grmDue.getD k 0)
    (hclean : faultsIn fs n (runGranule (((d.groomTick (n / 64)).stall n).grmDone.getD k 0 % 16384) k) 64 = []) :
    d.groomerRunOp n k fs =
      ((d.groomTick (n / 64)).updStall n fun x => { x with grmDone := listUpd x.grmDone k (· + 1) }).catchupStall n := by
  unfold Dev.groomerRunOp
  dsimp only
  rw [if_neg (by simp [ha, hs, hk]), if_neg (Nat.not_le.2 hdue), hclean]
  rfl

theorem pendingOp_stopped {d : Dev} {n : Nat} (fs : List Finding) (h : d.barnStopped (n / 64) = true) : d.pendingOp n fs = d := by
  unfold Dev.pendingOp
  split
  · rfl
  · exact if_pos h

/-- The oldest entry of a pending list goes when its granule reads clean (R657). -/
theorem pendingOp_clean {d : Dev} {n g t : Nat} {rest : List (Nat × Nat)} {fs : List Finding} (hl : (d.stall n).pendList = (g, t) :: rest)
    (hs : d.barnStopped (n / 64) = false) (hclean : faultsIn fs n g 1 = []) :
    d.pendingOp n fs = d.updStall n fun x => { x with pendList := x.pendList.filter fun p => p.1 != g } := by
  unfold Dev.pendingOp
  rw [hl]
  dsimp only
  rw [if_neg (by rw [hs]; decide), hclean]
  rfl

/-- Settles O56: a clean run, a clean pending entry, and the leak, an equation each. -/
theorem groomerRows : Obligations.GroomerRows := by
  unfold Obligations.GroomerRows
  refine ⟨fun s n k fs hu ha hs hk => ?_, fun s n g t rest fs hu hl => ⟨fun hstopped => ?_, fun hs hclean => ?_⟩, fun s b hu => ?_⟩
  · dsimp only
    intro hdue hclean
    refine does_run _ s (fun d => d.groomerRunOp n k fs) _ hu rfl ?_
    rw [groomerRunOp_clean ha hs hk hdue hclean]
    obtain ⟨hframe, hothers, hdone⟩ := catchupStall_spec
      ((s.dev.groomTick (n / 64)).updStall n fun x => { x with grmDone := listUpd x.grmDone k (· + 1) }) n
    refine ⟨?_, fun m hm => ?_, ?_⟩
    · rw [hdone, Dev.updStall_self]
    · rw [hothers m hm, Dev.updStall_other _ _ _ _ hm]
    · rw [hframe]
      rfl
  · refine (s.run_up (fun d => d.pendingOp n fs) hu).trans ?_
    rw [pendingOp_stopped fs hstopped]
  · refine (s.run_up (fun d => d.pendingOp n fs) hu).trans ?_
    rw [pendingOp_clean hl hs hclean, ← hl]
    rfl
  · refine (s.run_up (fun d => d.bucketLeakOp b) hu).trans ?_
    unfold Dev.bucketLeakOp
    dsimp only
    simp only [Bool.and_eq_true, decide_eq_true_eq, and_assoc]
    split <;> rfl

end Sys2Proof.Machine
end

section
namespace Sys2Proof.Machine

open Sys2Proof

/-! O57: the entropy source, the words of a congestion map, and the test port. A map has 260 words because every port's has eight. -/

theorem startupPass_stays {d : Dev} (h : d.chk.estate = 1) : d.startupPass = d := if_pos h

/-- A passed start-up test: output is available again, and a waiting request for LNKC_EPOCH is met with a non-zero value. -/
theorem startupPass_spec {d : Dev} (h : d.chk.estate ≠ 1) : d.startupPass.chk.estate = 1 ∧ d.startupPass.chk.wantEpoch = false ∧
    (d.chk.wantEpoch = true → d.startupPass.lnkc.epoch ≠ 0) ∧ (d.chk.wantEpoch = false → d.startupPass.lnkc = d.lnkc) := by
  unfold Dev.startupPass
  rw [if_neg h]
  dsimp only
  cases hw : d.chk.wantEpoch with
  | true => exact ⟨rfl, rfl, fun _ => Nat.succ_ne_zero _, nofun⟩
  | false => exact ⟨rfl, rfl, nofun, fun _ => rfl⟩

/-- The bins of a port hold all its samples. -/
theorem cmapBins_spec (i left k : Nat) : (cmapBins i left k).sum = left ∧ (cmapBins i left k).length = k + 1 := by
  induction k generalizing i left with
  | zero => exact ⟨by simp [cmapBins], rfl⟩
  | succ k ih =>
    unfold cmapBins
    dsimp only
    obtain ⟨hsum, hlen⟩ := ih (i + 1) (left - Config.cmapSample i % (left + 1))
    have hshare : Config.cmapSample i % (left + 1) ≤ left := Nat.lt_succ_iff.1 (Nat.mod_lt _ (Nat.succ_pos left))
    rw [List.sum_cons, List.length_cons, hsum, hlen]
    exact ⟨by omega, rfl⟩

theorem pairWords_length (l : List Nat) : (pairWords l).length = (l.length + 1) / 2 := by
  induction l using pairWords.induct with
  | case1 a b r ih => simp only [pairWords, List.length_cons, ih]; omega
  | case2 a => simp [pairWords]
  | case3 => simp [pairWords]

theorem cmapPort_length (i : Nat) : (cmapPort i).length = 8 := by
  unfold cmapPort
  rw [List.length_append, pairWords_length, (cmapBins_spec i 2048 7).2]
  rfl

/-- Words of 32 ports, eight each. -/
theorem cmapWords_length (f : Nat → List Word) (hf : ∀ p, (f p).length = 8) : ((List.range 32).flatMap f).length = 256 := by
  rw [List.length_flatMap, List.map_congr_left fun p _ => hf p]
  decide

theorem cmapPeriod_stays {d : Dev} (h : ¬ (d.ytRun = true ∧ d.fab.enable = true ∧ d.fab.startAt + d.fab.periodUs * 1000 ≤ d.now)) :
    d.cmapPeriod = d := by
  unfold Dev.cmapPeriod
  refine if_pos ?_
  by_cases hr : d.ytRun = true
  · by_cases he : d.fab.enable = true
    · have hnow : ¬ d.fab.startAt + d.fab.periodUs * 1000 ≤ d.now := fun hle => h ⟨hr, he, hle⟩
      simp [Nat.not_le.1 hnow]
    · simp [he]
  · simp [hr]

/-- A period that is over: its map has four words of its own and eight of each port. -/
theorem cmapPeriod_spec {d : Dev} (hr : d.ytRun = true) (he : d.fab.enable = true) (hnow : d.fab.startAt + d.fab.periodUs * 1000 ≤ d.now) :
    ∃ map : List Word, map.length = 260 ∧ d.cmapPeriod = { d with free := d.free + 320, fab := { d.fab with
      seq := (d.fab.seq + 1) % 2 ^ 32, map := map, startAt := d.fab.startAt + d.fab.periodUs * 1000, periodUs := d.fab.nextPeriodUs } } := by
  have hgo : ¬ (!d.ytRun || !d.fab.enable || decide (d.now < d.fab.startAt + d.fab.periodUs * 1000)) = true := by
    simp [hr, he, Nat.not_lt.2 hnow]
  refine ⟨_, ?_, if_neg hgo⟩
  rw [List.length_append, cmapWords_length _ fun p => ?_]
  · rfl
  · split
    · exact cmapPort_length _
    · rfl

/-- BYPASS and IDCODE leave the pins to the device. -/
theorem scanDrives_selects {op : ScanOp} (h : op = .bypass ∨ op = .idcode) : scanDrives op = false := by
  rcases h with rfl | rfl <;> rfl

/-- An instruction that does not drive the pins is loaded. -/
theorem tapInstruction_loads {s : State} {ir : Byte} {sc : ScanLoad} (hrail : s.dev.glb.railOut = false) (h : scanDrives (scanOf ir sc.op) = false) :
    exec (.tapInstruction ir sc) s = .next (s.withDev (s.dev.tapLoad ir sc)) := by
  refine (if_neg (by rw [hrail]; decide)).trans (if_neg ?_)
  rw [h, Bool.and_false]
  decide

/-- Settles O57: each event of the entropy source is one update; the map is counted word by word; the test port loads unless it would drive. -/
theorem entropyMapsTap : Obligations.EntropyMapsTap := by
  unfold Obligations.EntropyMapsTap
  intro s hu
  refine ⟨fun prop => ?_, fun hout => ?_, fun hout => ?_, fun hout => ?_, fun hout => ?_, ⟨fun h => ?_, fun ⟨hr, he, hnow⟩ => ?_⟩, cmapBins_spec,
    fun ir sc hrail => ⟨fun h => ?_, fun h hb hi => ?_, fun h => ?_⟩⟩
  · refine does_run _ s (fun d => d.healthFail prop) _ hu rfl ?_
    exact ⟨rfl, rfl, _, List.mem_append_right _ (List.mem_singleton_self _), rfl, rfl⟩
  · exact does_run _ s Dev.startupPass _ hu rfl (startupPass_spec hout)
  · refine (s.run_up Dev.startupPass hu).trans ?_
    rw [startupPass_stays hout]
  · refine does_run _ s Dev.maskReseed _ hu rfl ?_
    exact if_pos hout
  · refine (s.run_up Dev.maskReseed hu).trans ?_
    unfold Dev.maskReseed
    rw [if_neg hout]
  · refine (s.run_up Dev.cmapPeriod hu).trans ?_
    rw [cmapPeriod_stays h]
  · refine does_run _ s Dev.cmapPeriod _ hu rfl ?_
    obtain ⟨map, hlen, heq⟩ := cmapPeriod_spec hr he hnow
    rw [heq]
    exact ⟨rfl, hlen, rfl, rfl, rfl⟩
  · refine (if_neg (by rw [hrail]; decide)).trans (if_pos ?_)
    rw [show s.dev.glb.resetN = true from hu, h]
    rfl
  · rw [tapInstruction_loads hrail h]
    unfold Dev.tapLoad
    dsimp only
    rw [if_neg (not_or.2 ⟨hb, hi⟩)]
  · rw [tapInstruction_loads hrail (scanDrives_selects h)]
    unfold Dev.tapLoad
    dsimp only
    rw [if_pos h]

end Sys2Proof.Machine
end

section
namespace Sys2Proof.Machine

open Sys2Proof

/-! O58: formats, checkpoints and the write-buffer size. A checkpoint that is started joins the programs, and the erasure that may go
with it takes none away. -/

theorem writeBlock_shdFormat (d : Dev) (p : Path) (w : Word) : d.writeBlock p 0x8005C w = d.formatWrite w.toNat := rfl

theorem writeBlock_ckptNow (d : Dev) (p : Path) (w : Word) : d.writeBlock p 0x80000 w =
    if bit w.toNat 0 then ({ d with shd := { d.shd with wlEn := bit w.toNat 1 } } : Dev).startCheckpoint
    else { d with shd := { d.shd with wlEn := bit w.toNat 1 } } := rfl

theorem writeBlock_arbWbuf (d : Dev) (p : Path) (w : Word) : d.writeBlock p 0x50018 w = d.wbufNext (bits w.toNat 8 6) := rfl

theorem formatWrite_otherKey (d : Dev) {key : Nat} (h : key ≠ 0x53484544) : d.formatWrite key = d := if_pos (Or.inl h)

/-- A format with its key (R602). -/
theorem formatWrite_key {d : Dev} (h : d.shd.st = shdBlank ∨ d.shd.st = shdForeign ∨ ((d.shd.st = shdReady ∨ d.shd.st = shdReadOnly) ∧ d.shedPaddocks = false)) :
    let e := d.formatWrite 0x53484544
    e.shd.st = shdFormatting ∧ e.shd.ident = none ∧ e.shd.journal = [] ∧ e.shd.readOnly = false ∧ e.chk.wantFormat = true ∧
      e = { d with shd := e.shd, chk := e.chk } := by
  have hkey : ¬ ((0x53484544 : Nat) ≠ 0x53484544 ∨ d.shd.st = shdAbsent ∨ d.shd.st = shdRecovering ∨ d.shd.st = shdFormatting) := by
    rcases h with h | h | ⟨h | h, _⟩ <;> rw [h] <;> decide
  have hmay : d.shd.st = shdBlank ∨ d.shd.st = shdForeign ∨ d.shedPaddocks = false := h.imp_right (Or.imp_right And.right)
  unfold Dev.formatWrite
  dsimp only
  rw [if_neg hkey, if_pos hmay]
  exact ⟨rfl, rfl, rfl, rfl, rfl, rfl⟩

/-- The erasure of the next checkpoint slot leaves programs, checkpoint number and settings alone. -/
theorem cleanSlot_keeps (d : Dev) : d.cleanSlot.shd.progs = d.shd.progs ∧ d.cleanSlot.shd.ckptNum = d.shd.ckptNum ∧
    d.cleanSlot.shd.ckptAt = d.shd.ckptAt ∧ d.cleanSlot.shd.wlEn = d.shd.wlEn := by
  unfold Dev.cleanSlot Dev.queueErase
  split
  · split <;> exact ⟨rfl, rfl, rfl, rfl⟩
  · exact ⟨rfl, rfl, rfl, rfl⟩

/-- A checkpoint that is started: its number, its moment and its program. -/
def Dev.ckptStarted (d : Dev) : Dev :=
  ({ d with shd := { d.shd with ckptNum := d.shd.ckptNum + 1, ckptAt := d.now, jsince := 0 } } : Dev).addProg
    (.checkpoint (d.ckptOf (d.shd.ckptNum + 1) d.durablePrefix))

theorem ckptStarted_progs (d : Dev) : ∃ x ∈ d.ckptStarted.shd.progs, ∃ c : Ckpt, x.what = .checkpoint c ∧ c.seq = d.shd.ckptNum + 1 :=
  ⟨_, List.mem_append_right _ (List.mem_singleton_self _), _, rfl, rfl⟩

/-- A checkpoint that is started has the next number and is among the programs (R580). -/
theorem startCheckpoint_spec {d : Dev} (h : d.shd.st = shdReady) :
    d.startCheckpoint.shd.wlEn = d.shd.wlEn ∧ d.startCheckpoint.shd.ckptNum = d.shd.ckptNum + 1 ∧ d.startCheckpoint.shd.ckptAt = d.now ∧
    ∃ x ∈ d.startCheckpoint.shd.progs, ∃ c : Ckpt, x.what = .checkpoint c ∧ c.seq = d.shd.ckptNum + 1 := by
  obtain ⟨first, hstart⟩ : ∃ first : Bool, d.startCheckpoint = if first then d.ckptStarted.cleanSlot else d.ckptStarted :=
    ⟨_, if_neg (not_not.2 h)⟩
  rw [hstart]
  cases first with
  | false => exact ⟨rfl, rfl, rfl, ckptStarted_progs d⟩
  | true =>
    obtain ⟨hprogs, hnum, hat, hwl⟩ := cleanSlot_keeps d.ckptStarted
    rw [if_pos rfl, hprogs, hnum, hat, hwl]
    exact ⟨rfl, rfl, rfl, ckptStarted_progs d⟩

/-- The word of CKPT_NOW. -/
theorem ckptNowWord_bits : ∀ wl : Bool, let v := (BitVec.ofNat 32 (1 + 2 * b2n wl)).toNat
    bit v 0 = true ∧ bit v 1 = wl := by decide

/-- NEXT_GIB takes the nearer limit; identity pages and stored copies that carry it touch neither the arbiter nor GLB (R360). -/
theorem wbufNext_spec (d : Dev) (v : Nat) :
    (d.wbufNext v).arb = { d.arb with wbufNext := max 2 (min 32 v) } ∧ (d.wbufNext v).glb = d.glb := by
  unfold Dev.wbufNext
  dsimp only
  split
  · exact ⟨rfl, rfl⟩
  · unfold Dev.writeIdentity
    split
    · split <;> exact ⟨rfl, rfl⟩
    · exact ⟨rfl, rfl⟩

/-- FORMAT_COMPLETE waits for the entropy source. -/
theorem formatDone_waits {d : Dev} (h : d.chk.estate ≠ 1) (formed spares : List Nat) : d.formatDone formed spares = d := by
  unfold Dev.formatDone
  split
  · rfl
  · exact if_pos (Or.inr h)

/-- A completed format has a new identity (R603). -/
theorem formatDone_spec {d : Dev} {p : Population} (hp : d.shd.pop = some p) (hst : d.shd.st = shdFormatting) (he : d.chk.estate = 1)
    (formed spares : List Nat) :
    (d.formatDone formed spares).shd.st = shdReady ∧ (d.formatDone formed spares).chk.wantFormat = false ∧
    ∃ i, (d.formatDone formed spares).shd.ident = some i ∧ i.formatId = Config.entropy d.free ∧ i.variant = d.fuses.variantWord ∧ i.pop = p ∧
      i.nextGib = d.arb.wbufNext := by
  unfold Dev.formatDone
  rw [hp]
  dsimp only
  rw [if_neg (not_or.2 ⟨not_not.2 hst, not_not.2 he⟩)]
  exact ⟨rfl, rfl, _, rfl, rfl, rfl, rfl, rfl⟩

/-- Settles O58: SHED_FORMAT and CKPT_NOW are register rows over `formatWrite` and `startCheckpoint`; the others an equation each. -/
theorem shedControl : Obligations.ShedControl := by
  unfold Obligations.ShedControl
  refine ⟨fun s p hu hb => ⟨fun hst => ?_, fun key hkey => ?_, fun wl hst => ?_, fun gib => ?_⟩,
    fun s formed spares p hu hpop hst => ⟨fun he => ?_, fun he => ?_⟩, fun s hu => ⟨fun hnot => ?_, fun hdue hst => ?_⟩⟩
  · refine doesThen_row _ s p 0x8005C 0x53484544 _ hu hb rfl (by decide) ?_
    exact formatWrite_key (d := s.dev.counted) hst
  · refine doesThen_row _ s p 0x8005C key _ hu hb rfl (by decide) ?_
    have hnat : key.toNat ≠ 0x53484544 := fun h => hkey (BitVec.eq_of_toNat_eq h)
    exact formatWrite_otherKey _ hnat
  · refine writeReg_then _ s p 0x80000 (1 + 2 * b2n wl) _ hu hb rfl (by decide) ?_
    obtain ⟨hgo, hwl⟩ := ckptNowWord_bits wl
    rw [writeBlock_ckptNow, if_pos hgo, hwl]
    obtain ⟨h1, h2, _, h4⟩ := startCheckpoint_spec (d := { s.dev.counted with shd := { s.dev.shd with wlEn := wl } }) hst
    exact ⟨h1, h2, h4⟩
  · refine writeReg_then _ s p 0x50018 (gib % 64 * 256) _ hu hb rfl (by decide) ?_
    have hgib : bits (BitVec.ofNat 32 (gib % 64 * 256)).toNat 8 6 = gib % 64 := by
      rw [BitVec.toNat_ofNat]
      unfold bits
      omega
    rw [writeBlock_arbWbuf, hgib]
    exact wbufNext_spec s.dev.counted (gib % 64)
  · refine (s.run_up (fun d => d.formatDone formed spares) hu).trans ?_
    rw [formatDone_waits he]
  · exact does_run _ s (fun d => d.formatDone formed spares) _ hu rfl (formatDone_spec hpop hst he formed spares)
  · refine (s.run_up Dev.checkpointOp hu).trans ?_
    unfold Dev.checkpointOp
    rw [if_neg hnot]
  · refine does_run _ s Dev.checkpointOp _ hu rfl ?_
    have hop : s.dev.checkpointOp = s.dev.startCheckpoint := if_pos hdue
    rw [hop]
    exact (startCheckpoint_spec hst).2

end Sys2Proof.Machine
end

section
namespace Sys2Proof.Machine

open Sys2Proof

/-! The journal: what taking a superblock, moving the head, programming a unit and appending a record leave of the shed controller. -/

theorem sblk_updSblk_self (d : Dev) (i : Nat) (f : Sblk → Sblk) : (d.updSblk i f).sblk i = f (d.sblk i) := SMap.get_put_self _ _ _ _

theorem sblk_updSblk_other (d : Dev) (i j : Nat) (f : Sblk → Sblk) (h : j ≠ i) : (d.updSblk i f).sblk j = d.sblk j :=
  SMap.get_put_of_ne _ _ _ _ _ h

/-- Another superblock may have been taken and queued for its erase, and the journal head moved; nothing else of `d` differs. -/
def HeadMoved (d e : Dev) : Prop :=
  e = { d with shd := { d.shd with sblks := e.shd.sblks, erasing := e.shd.erasing, jhead := e.shd.jhead, jpages := e.shd.jpages } }

theorem queueErase_headMoved (d : Dev) (i : Nat) : HeadMoved d (d.queueErase i) := by
  unfold Dev.queueErase
  split <;> rfl

theorem allocSblk_headMoved {d e : Dev} {g i : Nat} {most : Bool} {use : SblkUse} (h : d.allocSblk g most use = some (i, e)) : HeadMoved d e := by
  unfold Dev.allocSblk at h
  split at h
  · cases h
  · cases h
    exact queueErase_headMoved _ _

theorem journalHead_headMoved {d e : Dev} {n : Nat} (h : d.journalHead n = some e) : HeadMoved d e := by
  unfold Dev.journalHead at h
  dsimp only at h
  split at h
  · cases h
    rfl
  · split at h
    · cases h
    · rename_i i m hm
      cases h
      obtain ⟨g, _, hg⟩ := List.exists_of_findSome?_eq_some hm
      have hmoved := allocSblk_headMoved hg
      unfold HeadMoved at hmoved ⊢
      rw [hmoved]

/-- A journal unit of what is gathered, programmed on the device `d1` whose head has room for it (R569). -/
def Dev.unitIssued (d d1 : Dev) : Dev :=
  let u := d.progUnit
  let x := fillUnit u (0, 0) d.shd.gather
  let n := ceilDiv (pagesTo x.2.1) u * u
  ({ d1 with
    nextId := d1.nextId + 1
    shd := { d1.shd with
      units := d1.shd.units ++ [{ id := d1.nextId, recs := x.1.map fun r => { r with sblk := d1.shd.jhead, page := d1.shd.jpages + r.page }, complete := false }],
      gather := x.2.2, gatherAt := d1.now, jpages := d1.shd.jpages + n, jsince := d1.shd.jsince + n } } : Dev).addProg (.unit d1.nextId)

theorem issueUnit_issues {d d1 : Dev} (hg : d.shd.gather ≠ []) (hu : (d.shd.units.filter fun u => !u.complete).length < 4) (hst : d.shd.st = shdReady)
    (hhead : d.journalHead (ceilDiv (pagesTo (fillUnit d.progUnit (0, 0) d.shd.gather).2.1) d.progUnit * d.progUnit) = some d1) :
    d.issueUnit = d.unitIssued d1 := by
  have hgo : ¬ (d.shd.gather.isEmpty ∨ (d.shd.units.filter fun u => !u.complete).length ≥ 4 ∨ d.shd.st ≠ shdReady) := by
    simp only [List.isEmpty_iff, not_or, not_not]
    exact ⟨hg, Nat.not_le.2 hu, hst⟩
  unfold Dev.issueUnit
  rw [if_neg hgo]
  dsimp only
  rw [hhead]
  rfl

/-- What the journal does not change of the controller: record numbers, merges, jobs, queued deletes, reads and state. -/
structure JournalOnly (d e : Dev) : Prop where
  jseq : e.shd.jseq = d.shd.jseq
  merging : e.shd.merging = d.shd.merging
  jobs : e.shd.jobs = d.shd.jobs
  delq : e.shd.delq = d.shd.delq
  st : e.shd.st = d.shd.st

theorem issueUnit_journalOnly (d : Dev) : JournalOnly d d.issueUnit := by
  unfold Dev.issueUnit
  split
  · exact ⟨rfl, rfl, rfl, rfl, rfl⟩
  · dsimp only
    split
    · exact ⟨rfl, rfl, rfl, rfl, rfl⟩
    · rename_i e he
      have hmoved := journalHead_headMoved he
      unfold HeadMoved at hmoved
      rw [hmoved]
      exact ⟨rfl, rfl, rfl, rfl, rfl⟩

/-- The device once a record has joined the unit being gathered. -/
def Dev.gathered (d : Dev) (b : JBody) : Dev :=
  { d with shd := { d.shd with
    gather := d.shd.gather ++ [{ seq := d.shd.jseq, sblk := 0, page := 0, off := 0, body := b }],
    gatherAt := if d.shd.gather.isEmpty then d.now else d.shd.gatherAt, jseq := d.shd.jseq + 1 } }

/-- A record that is appended has the next number. -/
theorem appendRec_spec (d : Dev) (b : JBody) : ShedOnly d (d.appendRec b).2 ∧ (d.appendRec b).1 = d.shd.jseq ∧
    (d.appendRec b).2.shd.jseq = d.shd.jseq + 1 ∧ (d.appendRec b).2.shd.merging = d.shd.merging ∧ (d.appendRec b).2.shd.jobs = d.shd.jobs := by
  refine ⟨appendRec_shedOnly d b, rfl, ?_⟩
  obtain ⟨room, hroom⟩ : ∃ room : Bool, (d.appendRec b).2 = if room then d.gathered b else (d.gathered b).issueUnit := ⟨_, rfl⟩
  rw [hroom]
  cases room with
  | true => exact ⟨rfl, rfl, rfl⟩
  | false =>
    obtain ⟨hjseq, hmerging, hjobs, _, _⟩ := issueUnit_journalOnly (d.gathered b)
    exact ⟨hjseq, hmerging, hjobs⟩

end Sys2Proof.Machine
end

section
namespace Sys2Proof.Machine

open Sys2Proof

/-! O59: reports of programs, erases and reads, and the start of a merge. -/

/-- A completed identity page is used; the first one in the other superblock makes that the active one (R578). -/
theorem identUsed_true (d : Dev) : ∃ erasing, d.identUsed true = { d with shd := { d.shd with
    erasing := erasing, idAct := (if d.shd.idOther.isSome then 1 - d.shd.idAct else d.shd.idAct), idOther := none,
    idUsed := d.shd.idOther.getD d.shd.idUsed + d.progUnit } } := by
  have hturn : ∀ e : Dev, ∃ erasing, e.turnIdentity = { e with shd := { e.shd with erasing := erasing } } := by
    intro e
    unfold Dev.turnIdentity Dev.queueErase
    split
    · exact ⟨_, rfl⟩
    · split <;> exact ⟨_, rfl⟩
  unfold Dev.identUsed
  dsimp only
  cases hother : d.shd.idOther with
  | some n =>
    obtain ⟨erasing, he⟩ := hturn { d with shd := { d.shd with idAct := 1 - d.shd.idAct, idUsed := n + d.progUnit, idOther := none } }
    exact ⟨erasing, he⟩
  | none =>
    obtain ⟨erasing, he⟩ := hturn { d with shd := { d.shd with idUsed := d.shd.idUsed + d.progUnit, idOther := none } }
    exact ⟨erasing, he⟩

theorem programDone_unknown {d : Dev} {id : Nat} (h : d.shd.progs.find? (fun p => p.id == id) = none) (pos : Option Nat) :
    d.programDone id pos = d := by
  unfold Dev.programDone
  rw [h]

theorem programDone_identity {d : Dev} {id : Nat} {p : Prog} {i : Identity} (h : d.shd.progs.find? (fun p => p.id == id) = some p)
    (hw : p.what = .identity i) (hn : d.shd.nclkLost = false) (hi : d.progIssued p = true) : d.programDone id none =
      ({ d with shd := { d.shd with progs := d.shd.progs.filter fun x => x.id != id, ident := some i } } : Dev).identUsed true := by
  unfold Dev.programDone
  rw [h]
  dsimp only
  rw [hn, hi, hw]
  rfl

theorem eraseDone_stays {d : Dev} {i : Nat}
    (h : ¬ (d.shd.erasing.contains i = true ∧ d.shd.nclkLost = false ∧ (d.shd.reads.any fun r => r.sblk == i) = false)) (pos : Option Nat) :
    d.eraseDone i pos = d := by
  unfold Dev.eraseDone
  refine if_pos ?_
  cases hc : d.shd.erasing.contains i with
  | false => rfl
  | true =>
    cases hn : d.shd.nclkLost with
    | true => rfl
    | false =>
      cases hr : d.shd.reads.any fun r => r.sblk == i with
      | true => rfl
      | false => exact absurd ⟨hc, hn, hr⟩ h

/-- A successful erase: one of the checkpoint region, or one more of its superblock (R572). -/
theorem eraseDone_done {d : Dev} {i : Nat} (hc : d.shd.erasing.contains i = true) (hn : d.shd.nclkLost = false)
    (hr : (d.shd.reads.any fun r => r.sblk == i) = false) :
    (i < 8 → d.eraseDone i none = { d with shd := { d.shd with
      ckErases := listUpd d.shd.ckErases i (· + 1), idOther := (if i < 2 then some 0 else d.shd.idOther),
      ckptClean := d.shd.ckptClean || decide (2 ≤ i), erasing := d.shd.erasing.filter fun x => x != i } }) ∧
    (8 ≤ i → d.eraseDone i none =
      ({ d with shd := { d.shd with erasing := d.shd.erasing.filter fun x => x != i } } : Dev).updSblk i fun b =>
        { b with erased := true, erases := b.erases + 1 }) := by
  have hgo : ¬ (!d.shd.erasing.contains i || d.shd.nclkLost || d.shd.reads.any (fun r => r.sblk == i)) = true := by
    rw [hc, hn, hr]
    decide
  unfold Dev.eraseDone
  rw [if_neg hgo]
  dsimp only
  refine ⟨fun h => ?_, fun h => ?_⟩
  · rw [if_pos h]
  · rw [if_neg (Nat.not_lt.2 h)]
    rfl

/-- The device once a shed read has been taken off the list. -/
def Dev.shedReadGone (d : Dev) (id : Nat) : Dev := { d with shd := { d.shd with reads := d.shd.reads.filter fun x => x.id != id } }

theorem shedSegment_untagged {r : Rec} (h : r.tagged = false) (d : Dev) (i : Nat) (b : List Byte) : d.shedSegment r i true b = (0, d) := by
  unfold Dev.shedSegment
  rw [h]
  rfl

/-- A segment read for a command reaches it; it goes back to a loft only where the paddock is CACHED (R559, R614). -/
theorem nandReadDone_cmd {d : Dev} {id c pad seg : Nat} {key : List Byte} {r : NRead} {g : Fetch} {y : Rec} {loc : Nat × Stripe}
    (hr : d.shd.reads.find? (fun r => r.id == id) = some r) (hw : r.what = .cmd c pad key seg) (hn : d.shd.nclkLost = false)
    (hloc : d.locateLsn r.lsn = some loc) (hg : d.fetchOf c key seg = some g)
    (hy : (d.recOf pad key g.wseq).or (d.capturedRec c key g.wseq) = some y) (htag : y.tagged = false) (hres : (d.pad pad).residency ≠ 1) :
    d.nandReadDone id true = ((d.shedReadGone id).deliverFetch c key seg 0 loc.2.bytes).releaseLsn r.lsn := by
  obtain ⟨m, hm⟩ : ∃ m, m = d.shedReadGone id := ⟨_, rfl⟩
  have hdone : d.nandReadDone id true = (m.readArrived r true loc.2.bytes).releaseLsn r.lsn := by
    unfold Dev.nandReadDone
    rw [hr, hm]
    have hl : (d.shedReadGone id).locateLsn r.lsn = some loc := hloc
    change (Dev.readArrived (d.shedReadGone id) r (true && !d.shd.nclkLost && ((d.shedReadGone id).locateLsn r.lsn).isSome)
      ((((d.shedReadGone id).locateLsn r.lsn).map fun x => x.2.bytes).getD [])).releaseLsn r.lsn = _
    rw [hl, hn]
    rfl
  have hseq : m.fetchWseq c key seg = some g.wseq := by
    rw [hm]
    exact congrArg (Option.map Fetch.wseq) hg
  have hrec : (m.recOf pad key g.wseq).or (m.capturedRec c key g.wseq) = some y := by
    rw [hm]
    exact hy
  have hpad : ∀ n b, ((m.deliverFetch c key seg n b).pad pad).residency ≠ 1 := by
    intro n b
    rw [hm]
    exact hres
  have harrived : m.readArrived r true loc.2.bytes = m.deliverFetch c key seg 0 loc.2.bytes := by
    unfold Dev.readArrived
    rw [hw]
    dsimp only
    rw [hseq]
    dsimp only
    rw [hrec]
    dsimp only
    simp only [shedSegment_untagged htag]
    exact if_neg fun h => hpad _ _ h.2
  rw [hdone, harrived, hm]

/-- The device while the log block of `lblk` is being merged. -/
def Dev.merges (d : Dev) (lblk : Nat) : Dev := { d with shd := { d.shd with merging := d.shd.merging ++ [lblk] } }

/-- A full log block in page order needs only its MERGE record (R582). -/
theorem mergeLog_switch {d : Dev} {lblk i : Nat} (hi : SMap.find d.shd.logs lblk = some i) (hlen : (d.sblk i).stripes.length = d.stripesPerSblk)
    (hpos : 0 < d.stripesPerSblk) (horder : inPageOrder 0 (d.sblk i).stripes = true) (hgood : (d.sblk i).stripes.all Stripe.good = true)
    (hm : d.shd.merging.contains lblk = false) :
    d.mergeLog lblk = (d.merges lblk).mergeRecord lblk 1 i := by
  unfold Dev.mergeLog
  rw [hi]
  dsimp only
  rw [hm, hlen, hgood, horder, if_neg, if_pos]
  · rfl
  · simp
  · simp [Nat.ne_of_gt hpos]

theorem mergeStartOp_logFull {d : Dev} {lblk i : Nat} (hst : d.shd.st = shdReady) (hn : d.shd.nclkLost = false)
    (hi : SMap.find d.shd.logs lblk = some i) :
    d.mergeStartOp (.logFull lblk) = if d.stripesPerSblk ≤ (d.sblk i).stripes.length then d.mergeLog lblk else d := by
  have hgo : ¬ (d.shd.st ≠ shdReady ∨ d.shd.nclkLost = true) := by
    rw [hst, hn]
    decide
  unfold Dev.mergeStartOp
  rw [if_neg hgo]
  dsimp only
  rw [hi]

theorem mergeRecord_ready {d : Dev} (hst : d.shd.st = shdReady) (lblk typ new : Nat) :
    d.mergeRecord lblk typ new = (d.appendRec (.merge lblk typ new (d.mergeReleases lblk typ))).2 := by
  have hcan : d.canJournal = true := by
    unfold Dev.canJournal
    rw [hst]
    decide
  unfold Dev.mergeRecord
  exact if_pos hcan

/-- Settles O59: reports of programs, erases and reads by their cases, and a switch merge through its journal record. -/
theorem nandReports : Obligations.NandReports := by
  unfold Obligations.NandReports
  refine ⟨fun s id hu => ⟨fun hnone pos => ?_, fun p i hp hw hn hi => ?_⟩, fun s i hu => ⟨fun hnot pos => ?_, fun ⟨hc, hn, hr⟩ h8 => ?_, fun ⟨hc, hn, hr⟩ h8 => ?_⟩,
    fun s id c pad seg lsn sb len key x y g loc hu hr hn hloc hx hg hy htag hres => ?_,
    fun s lblk hu hst hn => ⟨fun i hi hlen => ?_, fun i hi hlen hpos horder hgood hm => ?_⟩⟩
  · refine (s.run_up (fun d => d.programDone id pos) hu).trans ?_
    rw [programDone_unknown hnone]
  · refine does_run _ s (fun d => d.programDone id none) _ hu rfl ?_
    rw [programDone_identity hp hw hn hi]
    obtain ⟨erasing, he⟩ := identUsed_true
      { s.dev with shd := { s.dev.shd with progs := s.dev.shd.progs.filter fun x => x.id != id, ident := some i } }
    rw [he]
    rfl
  · refine (s.run_up (fun d => d.eraseDone i pos) hu).trans ?_
    rw [eraseDone_stays hnot]
  · exact does_run _ s (fun d => d.eraseDone i none) _ hu rfl ((eraseDone_done hc hn hr).1 h8)
  · refine does_run _ s (fun d => d.eraseDone i none) _ hu rfl ?_
    rw [(eraseDone_done hc hn hr).2 h8]
    exact ⟨sblk_updSblk_self _ _ _, fun j hj => sblk_updSblk_other _ _ _ _ hj, rfl⟩
  · refine does_run _ s (fun d => d.nandReadDone id true) _ hu rfl ?_
    rw [nandReadDone_cmd hr rfl hn hloc hg hy htag hres]
    obtain ⟨hcmds, _⟩ := (releaseLsn_shedOnly ((s.dev.shedReadGone id).deliverFetch c key seg 0 loc.2.bytes) lsn).gets
    have hgot : (s.dev.shedReadGone id).fetchOf c key seg = some g := hg
    refine ⟨{ x with fetches := x.fetches.map fun f =>
      if g.pos = f.pos ∧ f.key = key ∧ f.seg = seg ∧ f.arrived = false then { f with arrived := true, status := 0, bytes := loc.2.bytes } else f },
      ?_, rfl⟩
    unfold Dev.findCmd
    rw [hcmds]
    unfold Dev.deliverFetch
    dsimp only
    rw [hgot]
    simp only [Option.map_some, Option.some.injEq]
    exact findCmd_updCmd_some (d := s.dev.shedReadGone id) _ hx fun _ => rfl
  · refine (s.run_up (fun d => d.mergeStartOp (.logFull lblk)) hu).trans ?_
    rw [mergeStartOp_logFull hst hn hi, if_neg (Nat.not_le.2 hlen)]
  · refine does_run _ s (fun d => d.mergeStartOp (.logFull lblk)) _ hu rfl ?_
    rw [mergeStartOp_logFull hst hn hi, if_pos (Nat.le_of_eq hlen.symm), mergeLog_switch hi hlen hpos horder hgood hm,
      mergeRecord_ready (d := s.dev.merges lblk) hst]
    obtain ⟨_, _, hjseq, hmerging, _⟩ := appendRec_spec (s.dev.merges lblk) (.merge lblk 1 i ((s.dev.merges lblk).mergeReleases lblk 1))
    exact ⟨hmerging, hjseq⟩

end Sys2Proof.Machine
end

section
namespace Sys2Proof.Machine

open Sys2Proof

/-! O60: small steps of the shed. -/

/-! ### Program units, pointers and padding -/

theorem progUnit_pos (d : Dev) : 0 < d.progUnit := by
  unfold Dev.progUnit
  split
  · exact Nat.lt_of_lt_of_le Nat.one_pos (Nat.le_max_left _ _)
  · exact Nat.one_pos

/-- What completes a unit of u after n makes the whole a multiple of u. -/
theorem completed_mod (n u : Nat) (hu : 0 < u) : (n + (u - n % u)) % u = 0 := by
  have hdiv := Nat.div_add_mod n u
  have hlt := Nat.mod_lt n hu
  have hwhole : n + (u - n % u) = u * (n / u + 1) := by
    rw [Nat.mul_succ]
    omega
  rw [hwhole]
  exact Nat.mul_mod_right u _

/-- A FILL stripe written now. -/
def Dev.fillNow (d : Dev) : Stripe := { kind := kindFill, off := 0, bytes := [], good := true, since := d.now, pseq := d.shd.pseq }

/-- The stripes of superblock `i` with FILL up to a multiple of the program unit. -/
def Dev.fullStripes (d : Dev) (i : Nat) : List Stripe :=
  (d.sblk i).stripes ++ List.replicate (d.progUnit - (d.sblk i).stripes.length % d.progUnit) d.fillNow

/-- The device once superblock `i` has been filled up to a multiple of the program unit. -/
def Dev.filledUp (d : Dev) (i : Nat) : Dev :=
  ({ d with shd := { d.shd with pseq := d.shd.pseq + 1 } } : Dev).updSblk i fun b =>
    { b with stripes := b.stripes ++ List.replicate (d.progUnit - (d.sblk i).stripes.length % d.progUnit) d.fillNow }

section Fill
variable {d : Dev} {lblk i : Nat} {x : Stripe} {rest : List Stripe}

theorem unitFillOp_eq (hi : SMap.find d.shd.logs lblk = some i)
    (hx : (d.sblk i).stripes.drop ((d.sblk i).stripes.length - (d.sblk i).stripes.length % d.progUnit) = x :: rest) :
    d.unitFillOp lblk = if x.since + 10000 ≤ d.now then d.filledUp i else d := by
  unfold Dev.unitFillOp
  rw [hi]
  dsimp only
  rw [hx]
  rfl

/-- The unit is completed with FILL stripes (R558). -/
theorem unitFillOp_fills (hi : SMap.find d.shd.logs lblk = some i)
    (hx : (d.sblk i).stripes.drop ((d.sblk i).stripes.length - (d.sblk i).stripes.length % d.progUnit) = x :: rest)
    (hdue : x.since + 10000 ≤ d.now) :
    (∃ fill, ((d.unitFillOp lblk).sblk i).stripes = (d.sblk i).stripes ++ fill ∧ ∀ y ∈ fill, y.kind = kindFill) ∧
    ((d.unitFillOp lblk).sblk i).stripes.length % d.progUnit = 0 := by
  have hfilled : ((d.filledUp i).sblk i).stripes = d.fullStripes i := congrArg Sblk.stripes (sblk_updSblk_self _ _ _)
  rw [unitFillOp_eq hi hx, if_pos hdue, hfilled]
  refine ⟨⟨_, rfl, fun y hy => ?_⟩, ?_⟩
  · rw [List.eq_of_mem_replicate hy]
    rfl
  · unfold Dev.fullStripes
    rw [List.length_append, List.length_replicate]
    exact completed_mod _ _ (progUnit_pos d)

end Fill

theorem ptrRecordOp_eq {d : Dev} {lblk i : Nat} (hi : SMap.find d.shd.logs lblk = some i) :
    d.ptrRecordOp lblk =
      if d.canJournal && decide ((d.sblk i).ptr + 32 ≤ ((d.sblk i).stripes.filter Stripe.good).length) then
        ((d.updSblk i fun b => { b with ptr := b.ptr + 32 }).appendRec (.ptr lblk ((d.sblk i).ptr + 32))).2
      else d := by
  unfold Dev.ptrRecordOp
  rw [hi]

/-! ### Staged work of a key -/

/-- The job of a DELETE that has begun. -/
def delJob (d : Dev) (x : StagedDel) : Job :=
  { id := d.nextId, pad := x.pad, epoch := x.epoch, key := x.key, wseq := x.wseq, spill := false, staged := true, lsns := [], len := 0,
    tags := [], left := 0, recSeq := none, failed := false, isDelete := true,
    by_ := ((d.shd.delq.find? fun y => y.pad == x.pad && y.key == x.key).map fun y => y.staging.by_).getD [] }

/-- The device with that job listed. -/
def Dev.delListed (d : Dev) (x : StagedDel) : Dev :=
  { d with nextId := d.nextId + 1, shd := { d.shd with jobs := d.shd.jobs ++ [delJob d x] } }

/-- A staged DELETE starts where no job of the key is in progress (R54, R567). -/
theorem stageDel_starts {d : Dev} {x : StagedDel} (hb : d.keyBusy x.pad x.key = false) (hfree : d.findJob d.nextId = none) :
    d.stageDel x = (d.delListed x).jobDelete (delJob d x) := by
  have hfind : (d.delListed x).findJob d.nextId = some (delJob d x) := by
    unfold Dev.findJob at hfree ⊢
    change (d.shd.jobs ++ [delJob d x]).find? (fun j => j.id == d.nextId) = _
    rw [List.find?_append, hfree]
    simp [delJob]
  have hstart : d.stageDel x = (d.delListed x).advanceJob d.nextId := if_neg (by rw [hb]; decide)
  rw [hstart]
  unfold Dev.advanceJob
  rw [hfind]
  rfl

/-- A change of one job that leaves its key leaves every key as busy as before. -/
theorem keyBusy_updJob (d : Dev) (i : Nat) (f : Job → Job) (hf : ∀ j, (f j).pad = j.pad ∧ (f j).key = j.key) (pad : Nat) (key : List Byte) :
    (d.updJob i f).keyBusy pad key = d.keyBusy pad key := by
  unfold Dev.keyBusy Dev.updJob
  rw [List.any_map]
  congr 1
  funext j
  dsimp only [Function.comp]
  split
  · rw [(hf j).1, (hf j).2]
  · rfl

/-- The job of a staged DELETE appends its record at once: it has nothing to program (R570). -/
theorem jobDelete_spec {d : Dev} (hcan : d.canJournal = true) (j : Job) :
    (d.jobDelete j).shd.jseq = d.shd.jseq + 1 ∧ ∀ pad key, (d.jobDelete j).keyBusy pad key = d.keyBusy pad key := by
  obtain ⟨_, _, hjseq, _, hjobs⟩ := appendRec_spec d (.delete j.pad j.epoch j.wseq j.key)
  have hdel : d.jobDelete j = (d.appendRec (.delete j.pad j.epoch j.wseq j.key)).2.updJob j.id fun x =>
      { x with isDelete := true, left := 0, lsns := [], recSeq := some (d.appendRec (.delete j.pad j.epoch j.wseq j.key)).1 } :=
    if_neg (by rw [hcan]; decide)
  rw [hdel]
  refine ⟨hjseq, fun pad key => ?_⟩
  rw [keyBusy_updJob _ _ _ (by intro j; exact ⟨rfl, rfl⟩)]
  unfold Dev.keyBusy
  rw [hjobs]

theorem stageWriteOp_del {d : Dev} {pad : Nat} {key : List Byte} {x : StagedDel}
    (hx : d.shd.delq.find? (fun x => x.pad == pad && x.key == key) = some x) : d.stageWriteOp pad key = d.stageDel x := by
  unfold Dev.stageWriteOp
  rw [hx]

/-! ### A segment that only the shed holds -/

section Reload
variable {d : Dev} {pad n lsn : Nat} {key : List Byte} {r : Rec}

/-- Its read joins those in flight (R559). -/
theorem askReload_reads (hl : r.lsns.getD n none = some lsn) (hn : d.shd.nclkLost = false) (hfree : d.reloading r.pad r.key n = false) :
    ∃ v, (d.askReload r n).shd.reads = d.shd.reads ++ [v] ∧ v.lsn = lsn ∧ v.what = .reload r.pad r.key n ∧ v.len = segLen r.len n := by
  have hask : d.askReload r n = (d.holdLsn lsn).issueRead lsn (segLen r.len n) (.reload r.pad r.key n) := by
    unfold Dev.askReload
    rw [hl]
    exact if_neg (by rw [hn, hfree]; decide)
  rw [hask]
  exact ⟨_, rfl, rfl, rfl, rfl⟩

theorem reloadOp_asks (hr : d.peek pad key = some r) (hres : (d.pad pad).residency = 0) (hseg : (r.segs[n]?).any (fun v => v.st == 1) = true) :
    d.reloadOp pad key n = d.askReload r n := by
  unfold Dev.reloadOp
  rw [hr]
  exact if_pos ⟨hres, hseg⟩

theorem moveOp_asks (hr : d.peek pad key = some r) (hres : (d.pad pad).residency = 0) (hseg : (r.segs[n]?).any (fun v => v.st == 1) = true) :
    d.moveOp pad key n = d.askReload r n := by
  unfold Dev.moveOp
  rw [hr]
  cases hv : r.segs[n]? with
  | none => simp [hv] at hseg
  | some v =>
    have hst : v.st = 1 := by simpa [hv] using hseg
    dsimp only
    rw [hv]
    exact (if_pos hst).trans (if_pos hres)

end Reload

/-- Settles O60: each small step by its time or cause. -/
theorem shedSmallSteps : Obligations.ShedSmallSteps := by
  unfold Obligations.ShedSmallSteps
  intro s hu
  refine ⟨fun lblk i hi => ⟨fun x rest hx => ⟨fun hearly => ?_, fun hdue => ?_⟩, fun hcan hmany => ?_, fun hfew => ?_⟩, fun hearly => ?_,
    fun d1 hdue hg hunits hst hhead => ?_, ?_, fun pad key x hx => ⟨fun hbusy => ?_, fun hfree hnone hcan => ?_⟩,
    fun pad key n r lsn hr hres hseg hl hn hnot i hi => ?_⟩
  · refine (s.run_up (fun d => d.unitFillOp lblk) hu).trans ?_
    rw [unitFillOp_eq hi hx, if_neg (Nat.not_le.2 hearly)]
  · refine does_run _ s (fun d => d.unitFillOp lblk) _ hu rfl ?_
    exact unitFillOp_fills hi hx hdue
  · refine does_run _ s (fun d => d.ptrRecordOp lblk) _ hu rfl ?_
    rw [ptrRecordOp_eq hi, if_pos (by rw [hcan, decide_eq_true hmany]; rfl)]
    obtain ⟨honly, _, hjseq, _⟩ := appendRec_spec (s.dev.updSblk i fun b => { b with ptr := b.ptr + 32 }) (.ptr lblk ((s.dev.sblk i).ptr + 32))
    obtain ⟨hcmds, hstalls, _⟩ := honly.gets
    exact ⟨hjseq, hstalls, hcmds⟩
  · refine (s.run_up (fun d => d.ptrRecordOp lblk) hu).trans ?_
    rw [ptrRecordOp_eq hi, if_neg (by rw [decide_eq_false (Nat.not_le.2 hfew), Bool.and_false]; decide)]
  · refine (s.run_up Dev.unitPadOp hu).trans ?_
    unfold Dev.unitPadOp
    rw [if_neg (Nat.not_le.2 hearly)]
  · refine does_run _ s Dev.unitPadOp _ hu rfl ?_
    have hop : s.dev.unitPadOp = s.dev.unitIssued d1 := (if_pos hdue).trans (issueUnit_issues hg hunits hst hhead)
    rw [hop]
    exact ⟨by rw [← List.length_singleton, ← List.length_append]; rfl, rfl, _, List.mem_append_right _ (List.mem_singleton_self _), _, rfl⟩
  · refine (s.run_up Dev.prateOp hu).trans ?_
    unfold Dev.prateOp
    split <;> rfl
  · refine (s.run_up (fun d => d.stageWriteOp pad key) hu).trans ?_
    obtain ⟨hp, hk⟩ : x.pad = pad ∧ x.key = key := by simpa using List.find?_some hx
    have hstays : s.dev.stageDel x = s.dev := if_pos (by rw [hp, hk, hbusy])
    rw [stageWriteOp_del hx, hstays]
  · refine does_run _ s (fun d => d.stageWriteOp pad key) _ hu rfl ?_
    obtain ⟨rfl, rfl⟩ : x.pad = pad ∧ x.key = key := by simpa using List.find?_some hx
    rw [stageWriteOp_del hx, stageDel_starts hfree hnone]
    obtain ⟨hjseq, hbusy⟩ := jobDelete_spec (d := s.dev.delListed x) hcan (delJob s.dev x)
    refine ⟨(hbusy _ _).trans ?_, hjseq⟩
    unfold Dev.keyBusy
    change (s.dev.shd.jobs ++ [delJob s.dev x]).any _ = true
    simp [delJob]
  · rcases List.mem_pair.1 hi with rfl | rfl
    · refine does_run _ s (fun d => d.reloadOp pad key n) _ hu rfl ?_
      rw [reloadOp_asks hr hres hseg]
      exact askReload_reads hl hn hnot
    · refine does_run _ s (fun d => d.moveOp pad key n) _ hu rfl ?_
      rw [moveOp_asks hr hres hseg]
      exact askReload_reads hl hn hnot

end Sys2Proof.Machine
end
